-- ==== Sys2Proof/Word.lean ====
section
/-! DEFINITION. The word types of the XAP6 (00_scope.md R7, R14): bytes, half-words, words. -/

namespace Sys2Proof

/-- An 8-bit quantity (R14). -/
abbrev Byte := BitVec 8

/-- A 2-byte quantity (R14): the unit of instruction fetch (R74, R100). -/
abbrev Half := BitVec 16

/-- A 4-byte quantity (R14): registers and addresses (R7). -/
abbrev Word := BitVec 32

end Sys2Proof
end

