-- ==== Sys2Proof/Config.lean ====
section
/-! DEFINITION. What an implementation fixes and what the spec leaves open (00_scope.md R8,
93_implementation_defined.md): opaque constants for values and functions nobody states, and the record
of the parameters that are data. -/

namespace Sys2Proof.Config

/-- A free 32-bit value: `freeWord n` is the n-th draw and nothing is known of it. DESIGN CHOICE
(the form of U1, U18): safe. Notes 8, 9, 13. -/
opaque freeWord : Nat → Word

/-- A free byte: `freeByte n` is the n-th draw and nothing is known of it. DESIGN CHOICE (the form
of U17): safe. Notes 9, 12. -/
opaque freeByte : Nat → Byte

/-- A free natural number, the state a device is left in by accesses whose number and width the
manual does not fix: `freeNat n` is the n-th draw. DESIGN CHOICE (the form of U17): safe. Notes 9,
33. -/
opaque freeNat : Nat → Nat

/-- What a device answers to an access (`MEMORY_MAP`, R78): by its state, whether the access is a
write, the number of bytes, the address and the value written. Nothing is known of it. DESIGN CHOICE
(U4): safe. Note 33. -/
opaque deviceValue : Nat → Bool → Nat → Word → Word → Word

/-- The state an access leaves a device in, by the same arguments. DESIGN CHOICE (U4): safe.
Note 33. -/
opaque deviceNext : Nat → Bool → Nat → Word → Word → Nat

/-- The function `CLU` of R380, with the state of a stateful CLU first: type, immediate, Rs, Rt to no
result (`unknown`), to `some none` (`error`), or to a result. Nothing is known of it. DESIGN CHOICE
(U4): safe. Note 6. -/
opaque cluAnswer : Nat → BitVec 4 → BitVec 16 → Option Word → Option Word → Option (Option Word)

/-- The state a request leaves a stateful CLU in. DESIGN CHOICE (U4): safe. Note 6. -/
opaque cluNext : Nat → BitVec 4 → BitVec 16 → Option Word → Option Word → Nat

/-- The hardware edition in bits 7:0 of `VER_VALUE` (R404, U20): not given. DESIGN CHOICE: safe.
Note 10. -/
opaque edition : Byte

/-- `LIC_VALUE` (R402, U20): each delivery has its own number. DESIGN CHOICE: safe. Note 10. -/
opaque licValue : Word

/-- What every aligned word of memory reads as where nothing is listed (`MEMORY_MAP`, U9).
DESIGN CHOICE: unsafe. A multiple of 256 that is even and non-zero, so that it serves as the VP
word and as every vector that R522 asks the system to provide. Note 1. -/
def unlistedWord : Word := 0x00001000#32

end Sys2Proof.Config

namespace Sys2Proof

/-- The parameters of 93_implementation_defined.md section 2 that change a meaning or supply a damaged
or lost pattern. They are data of the machine, so a statement can hold for every value of them. Note 7. -/
structure Params where
  /-- `MOV8I_PRIVILEGED` (R419, U2). -/
  mov8iPrivileged : Bool
  /-- `CMPC_Z_BY_RESULT` (R311, U15). -/
  cmpcZByResult : Bool
  /-- `PUSHI16_SIGNED` (R224, U3). -/
  pushi16Signed : Bool
  /-- `ADDI16_SWAP` (R265, U13): exchanges the two damaged 16-bit rows of `add.i`. -/
  addi16Swap : Bool
  /-- `BLK_END_STATE` (R364, U18): `true` is `any`, `false` is `pseudocode`. -/
  blkEndAny : Bool
  /-- `PREFETCH_BYTES` (R96, U5): the depth of the prefetch buffer; 0 is a core without one. -/
  prefetchBytes : Nat
  /-- `BNZ32_PATTERN` (R180, U10): bits 15:13 and 9:0 of the 32-bit `bnz.r`, Rs between them. -/
  bnz32 : BitVec 13
  /-- `BNZ16_PATTERN` (R180, U10): bits 15:13 and 3:0 of the 16-bit `bnz.r`, Rs and the offset
  between them. -/
  bnz16 : BitVec 7
  /-- `ADDNI_OP5` (R267, U14): op5 of `add.n.i`. -/
  addNIOp5 : BitVec 5
  /-- `SHIFTLC16_LOW7` (R346, U16): bits 6:0 of the 16-bit `shiftl.c.i`. -/
  shiftlc16Low7 : BitVec 7
  /-- `MOV1R16_RD_I` (R413 form 2, U21): bits 9:7 of `mov.1.r Rd, %flags[i]`. -/
  mov1rRdI : BitVec 3
  /-- `MOV1R16_I_RS` (R413 form 4, U21): bits 9:7 of `mov.1.r %flags[i], Rs`. -/
  mov1rIRs : BitVec 3
  /-- `PUSH32_PATTERN` (R228, U12): bits 17:0 of the 32-bit `push`; the row is lost. -/
  push32 : Option (BitVec 18)
  /-- `POP32_PATTERN` (R228, U12). -/
  pop32 : Option (BitVec 18)
  /-- `POPRET32_PATTERN` (R228, U12). -/
  popRet32 : Option (BitVec 18)
  deriving DecidableEq, Repr

/-- The defaults of 93 for every parameter; `BLK_END_STATE` is `any`, the setting under which the
registers the manual calls undefined are free, and `PREFETCH_BYTES` is 0. Notes 7, 13, 14, 19, 20. -/
def Params.default : Params where
  mov8iPrivileged := false
  cmpcZByResult := false
  pushi16Signed := false
  addi16Swap := false
  blkEndAny := true
  prefetchBytes := 0
  bnz32 := 0b0011010100111#13
  bnz16 := 0b0111100#7
  addNIOp5 := 0b11111#5
  shiftlc16Low7 := 0b1011101#7
  mov1rRdI := 0b000#3
  mov1rIRs := 0b001#3
  push32 := none
  pop32 := none
  popRet32 := none

end Sys2Proof
end

