-- ==== Sys2Proof/Syntax.lean ====
section
/-! DEFINITION. The instructions of the XAP6: one constructor of `Instr` per mnemonic of
spec/opcode_table.json. Where the table gives a mnemonic several encodings, its form type has one
constructor per shape of row, so that an instruction keeps its size (2, 4 or 6 bytes: R100) and its
encoded immediate as encoded; an immediate is extended when the instruction runs (R135). Note 3. -/

namespace Sys2Proof

/-- The normal registers (R21, R22). -/
inductive Reg where
  | r0 | r1 | r2 | r3 | r4 | r5 | r6 | r7
  deriving DecidableEq, Repr

/-- The immediate or offset of a Format A instruction (R110): `wide` in the 48-bit form, `half` in
the 32-bit form. -/
inductive Imm where
  | wide (v : BitVec 32)
  | half (v : BitVec 16)
  deriving DecidableEq, Repr

/-- The named bases of displacement addressing (R113): the field `bb`. -/
inductive Base where
  | zero | sp | pc | gp
  deriving DecidableEq, Repr

/-- The operand `@(offset, base)` of the displacement loads and stores (R195, R196). The short
offsets are the six encoded bits in their natural order: offset[5:0], offset[6:1] or offset[7:2]
by the access size. -/
inductive Disp where
  | reg (ra : Reg) (off : Imm)
  | named (b : Base) (off : Imm)
  | shortReg (ra : Reg) (off : BitVec 6)
  | shortSp (off : BitVec 6)
  deriving DecidableEq, Repr

/-- The base of indexed addressing (R192). -/
inductive IndexBase where
  | reg (ra : Reg)
  | sp
  deriving DecidableEq, Repr

/-- The source of a store (R194): a register or one of the immediates 0, 1 and all ones. -/
inductive StoreSrc where
  | reg (rm : Reg)
  | zero
  | one
  | ones
  deriving DecidableEq, Repr

/-- The source of a block store (R367, R368): a register, `#0` or `#0xFF`. -/
inductive BlkSrc where
  | reg (rs : Reg)
  | zero
  | ones
  deriving DecidableEq, Repr

/-- The forms of `bra.i` and `bsr.i` (R156, R157). Offsets hold the bits above bit 0. -/
inductive JumpForm where
  | zero48 (off : BitVec 31)
  | pc48 (off : BitVec 31)
  | zero32 (off : BitVec 16)
  | far32 (off : BitVec 24)
  | pc32 (off : BitVec 16)
  | pc16 (off : BitVec 9)
  | reg (ra : Reg)
  deriving DecidableEq, Repr

/-- The forms of `bra.m` and `bsr.m` (R158, R159). Zero-relative offsets hold the bits above bit 1,
PC-relative offsets the bits above bit 0. -/
inductive TableForm where
  | zero48 (off : BitVec 30)
  | pc48 (off : BitVec 31)
  | zero32 (off : BitVec 16)
  | pc32 (off : BitVec 16)
  | reg (ra : Reg)
  deriving DecidableEq, Repr

/-- The forms of the ten conditional branches that have two sizes (R161). -/
inductive CondForm where
  | far (off : BitVec 16)
  | near (off : BitVec 8)
  deriving DecidableEq, Repr

/-- The forms of `bez.r` and `bnz.r` (R179, R180). -/
inductive TestForm where
  | far (off : BitVec 16)
  | near (off : BitVec 6)
  deriving DecidableEq, Repr

/-- The forms of `push` (R223). `range nn` is R4 .. R(4+nn) with offset[6:2]; `full` is the 32-bit
form, whose low 18 bits are a parameter (R228). -/
inductive PushForm where
  | mask (regs : BitVec 8)
  | range (nn : BitVec 2) (off : BitVec 5)
  | full (regs : BitVec 8) (off : BitVec 6)
  deriving DecidableEq, Repr

/-- The forms of `pop` (R225). -/
inductive PopForm where
  | mask (regs : BitVec 8)
  | full (regs : BitVec 8) (off : BitVec 6)
  deriving DecidableEq, Repr

/-- The forms of `pop.ret` (R226). -/
inductive PopRetForm where
  | range (nn : BitVec 2) (off : BitVec 5)
  | empty (off : BitVec 5)
  | full (regs : BitVec 8) (off : BitVec 6)
  deriving DecidableEq, Repr

/-- The forms of `push.i` (R224): sizes 48, 32, 16 bits, one to four immediates, `i0` first. -/
inductive PushIForm where
  | wide1 (i0 : BitVec 32)
  | wide2 (i0 i1 : BitVec 16)
  | wide3 (i0 i1 i2 : BitVec 8)
  | wide4 (i0 i1 i2 i3 : BitVec 8)
  | half1 (i0 : BitVec 16)
  | half2 (i0 i1 : BitVec 8)
  | half3 (i0 i1 i2 : BitVec 4)
  | half4 (i0 i1 i2 i3 : BitVec 4)
  | bits1 (i0 : BitVec 1)
  | bits2 (i0 i1 : BitVec 1)
  | bits3 (i0 i1 i2 : BitVec 1)
  | bits4 (i0 i1 i2 i3 : BitVec 1)
  deriving DecidableEq, Repr

/-- The forms of `mov.i` (R241, R242). `pow2` and `pow2m1` are the constant tables of R242 at
value `{k, b}`. -/
inductive MovIForm where
  | imm (rd : Reg) (v : Imm)
  | pcRel (rd : Reg) (off : Imm)
  | gpRel (rd : Reg) (off : Imm)
  | short (rd : Reg) (v : BitVec 8)
  | pow2 (rd : Reg) (k : BitVec 3) (b : BitVec 2)
  | pow2m1 (rd : Reg) (k : BitVec 3) (b : BitVec 2)
  deriving DecidableEq, Repr

/-- The forms of `mov.r` (R243). -/
inductive MovRForm where
  | reg (rd rs : Reg)
  | fromSp (rd : Reg)
  | toSp (rs : Reg)
  deriving DecidableEq, Repr

/-- The forms of `mov.f.r` (R244, R245). -/
inductive MovFForm where
  | extract (rd rs : Reg) (size lsb : BitVec 5)
  | insert (rd rs : Reg) (size lsb : BitVec 5)
  | short (rd : Reg) (field : BitVec 4)
  deriving DecidableEq, Repr

/-- The forms of `add.i` (R265). `rowA` and `rowB` are the 16-bit rows with sub-opcodes 0001 and
0101, one of which is `#1` and the other `#0xFFFFFFFF` (`ADDI16_SWAP`). The `%sp, %sp` forms hold
the immediate's bits above bit 1. -/
inductive AddIForm where
  | imm (rd rs : Reg) (v : Imm)
  | sp (rd : Reg) (v : Imm)
  | spsp48 (v : BitVec 30)
  | spsp32 (v : BitVec 14)
  | short (rd : Reg) (v : BitVec 7)
  | spShort (rd : Reg) (v : BitVec 7)
  | spspShort (v : BitVec 8)
  | rowA (rd rs : Reg)
  | rowB (rd rs : Reg)
  deriving DecidableEq, Repr

/-- The forms of `add.c.i` (R266). -/
inductive AddCIForm where
  | imm (rd rs : Reg) (v : Imm)
  | short (rd : Reg) (v : BitVec 4)
  | zero (rd rs : Reg)
  | one (rd rs : Reg)
  | minusOne (rd rs : Reg)
  deriving DecidableEq, Repr

/-- The forms of `sub.x.i` and `sub.xc.i` (R273, R274). -/
inductive SubXForm where
  | imm (rd rs : Reg) (v : Imm)
  | zero (rd rs : Reg)
  deriving DecidableEq, Repr

/-- The forms of `and.i` (R275). -/
inductive AndIForm where
  | imm (rd rs : Reg) (v : Imm)
  | setBits (rd rs : Reg) (size lsb : BitVec 5)
  | clearBits (rd rs : Reg) (size lsb : BitVec 5)
  | short (rd : Reg) (v : BitVec 7)
  | one (rd rs : Reg)
  | ff (rd rs : Reg)
  | ffff (rd rs : Reg)
  deriving DecidableEq, Repr

/-- The forms of `or.i` (R277). -/
inductive OrIForm where
  | imm (rd rs : Reg) (v : Imm)
  | short (rd : Reg) (v : BitVec 4)
  | one (rd rs : Reg)
  deriving DecidableEq, Repr

/-- The forms of `xor.i` (R279). -/
inductive XorIForm where
  | imm (rd rs : Reg) (v : Imm)
  | short (rd : Reg) (v : BitVec 4)
  | one (rd rs : Reg)
  | minusOne (rd rs : Reg)
  deriving DecidableEq, Repr

/-- The forms of `cmp.i` (R312). -/
inductive CmpIForm where
  | imm (rs : Reg) (v : Imm)
  | short (rs : Reg) (v : BitVec 7)
  deriving DecidableEq, Repr

/-- The forms of `cmp.16.i` (R318). -/
inductive Cmp16IForm where
  | imm (rs : Reg) (v : BitVec 16)
  | short (rs : Reg) (v : BitVec 7)
  deriving DecidableEq, Repr

/-- The forms of `cmp.8.i` (R324). -/
inductive Cmp8IForm where
  | imm (rs : Reg) (v : BitVec 8)
  | short (rs : Reg) (v : BitVec 7)
  deriving DecidableEq, Repr

/-- The forms of the immediate shifts and of `rotatel.i` (R343). -/
inductive ShiftForm where
  | full (rd rs : Reg) (n : BitVec 5)
  | short (rd : Reg) (n : BitVec 5)
  deriving DecidableEq, Repr

/-- The six forms of `mov.1.r` (R413). `bit`: 0 Z, 1 N, 2 C, 3 V. -/
inductive Mov1Form where
  | getBit (rd : Reg) (bit : BitVec 2)
  | getI (rd : Reg)
  | setBit (bit : BitVec 2) (rs : Reg)
  | setI (rs : Reg)
  | iFromC
  | cFromI
  deriving DecidableEq, Repr

/-- The read and write forms of `mov.2.r`, `mov.4.r` and `mov.8.r` (R415, R417, R420). -/
inductive FieldForm where
  | get (rd : Reg)
  | set (rs : Reg)
  deriving DecidableEq, Repr

/-- The instructions. Operand order is the order of the table's syntax column. -/
inductive Instr where
  -- 40_branches.md
  | braI (f : JumpForm)
  | bsrI (f : JumpForm)
  | braM (f : TableForm)
  | bsrM (f : TableForm)
  | beq (f : CondForm)
  | bne (f : CondForm)
  | bleS (f : CondForm)
  | bgtS (f : CondForm)
  | bltS (f : CondForm)
  | bgeS (f : CondForm)
  | bleU (f : CondForm)
  | bgtU (f : CondForm)
  | bcs (f : CondForm)
  | bcc (f : CondForm)
  | bmi (off : BitVec 16)
  | bpl (off : BitVec 16)
  | bvs (off : BitVec 16)
  | bvc (off : BitVec 16)
  | bezR (rs : Reg) (f : TestForm)
  | bnzR (rs : Reg) (f : TestForm)
  -- 41_load_store.md
  | ld8zI (rd : Reg) (a : Disp)
  | ld16zI (rd : Reg) (a : Disp)
  | ldI (rd : Reg) (a : Disp)
  | st8I (src : StoreSrc) (a : Disp)
  | st16I (src : StoreSrc) (a : Disp)
  | stI (src : StoreSrc) (a : Disp)
  | ld8zR (rd rx : Reg) (b : IndexBase)
  | ld16zR (rd rx : Reg) (b : IndexBase)
  | ldR (rd rx : Reg) (b : IndexBase)
  | st8R (src : StoreSrc) (rx : Reg) (b : IndexBase)
  | st16R (src : StoreSrc) (rx : Reg) (b : IndexBase)
  | stR (src : StoreSrc) (rx : Reg) (b : IndexBase)
  | swapI (rd ra : Reg)
  -- 42_push_pop.md
  | push (f : PushForm)
  | pop (f : PopForm)
  | popRet (f : PopRetForm)
  | pushI (f : PushIForm)
  -- 43_move.md
  | movI (f : MovIForm)
  | movR (f : MovRForm)
  | movFR (f : MovFForm)
  -- 44_alu.md
  | addI (f : AddIForm)
  | addCI (f : AddCIForm)
  | addNI (rd rs : Reg) (v : Imm)
  | addR (rd rs rt : Reg)
  | addCR (rd rs rt : Reg)
  | addNR (rd rs rt : Reg)
  | subR (rd rs rt : Reg)
  | subCR (rd rs rt : Reg)
  | subXI (f : SubXForm)
  | subXcI (f : SubXForm)
  | andI (f : AndIForm)
  | andR (rd rs rt : Reg)
  | orI (f : OrIForm)
  | orR (rd rs rt : Reg)
  | xorI (f : XorIForm)
  | xorR (rd rs rt : Reg)
  | multI (rd rs : Reg) (v : Imm)
  | multR (rd rs rt : Reg)
  | mult16sI (rd rs : Reg) (v : BitVec 16)
  | mult16sR (rd rs rt : Reg)
  | mult16uI (rd rs : Reg) (v : BitVec 16)
  | mult16uR (rd rs rt : Reg)
  | divSR (rd rs rt : Reg)
  | divUR (rd rs rt : Reg)
  | remSR (rd rs rt : Reg)
  | remUR (rd rs rt : Reg)
  | divremSR (rdr rdq rt : Reg)
  | divremUR (rdr rdq rt : Reg)
  -- 45_compare.md
  | cmpI (f : CmpIForm)
  | cmpXI (rs : Reg) (v : Imm)
  | cmpCI (rs : Reg) (v : Imm)
  | cmpXcI (rs : Reg) (v : Imm)
  | cmpR (rs rt : Reg)
  | cmpCR (rs rt : Reg)
  | cmp16I (f : Cmp16IForm)
  | cmp16xI (rs : Reg) (v : BitVec 16)
  | cmp16cI (rs : Reg) (v : BitVec 16)
  | cmp16xcI (rs : Reg) (v : BitVec 16)
  | cmp16R (rs rt : Reg)
  | cmp16cR (rs rt : Reg)
  | cmp8I (f : Cmp8IForm)
  | cmp8xI (rs : Reg) (v : BitVec 8)
  | cmp8cI (rs : Reg) (v : BitVec 8)
  | cmp8xcI (rs : Reg) (v : BitVec 8)
  | cmp8R (rs rt : Reg)
  | cmp8cR (rs rt : Reg)
  -- 46_shift_rotate.md
  | shiftrSI (f : ShiftForm)
  | shiftrUI (f : ShiftForm)
  | shiftlI (f : ShiftForm)
  | rotatelI (f : ShiftForm)
  | shiftlR (rd rs rt : Reg)
  | shiftrSR (rd rs rt : Reg)
  | shiftrUR (rd rs rt : Reg)
  | shiftlCI (rd rs : Reg)
  | shiftrCI (rd rs : Reg)
  | rotatelR (rd rs rt : Reg)
  | b2swapR (rd rs : Reg)
  -- 47_block.md
  | blkcpI (rad ras : Reg) (num : BitVec 8)
  | blkcpR (rad ras rn : Reg)
  | blkst8I (src : BlkSrc) (ra : Reg) (num : BitVec 8)
  | blkst8R (src : BlkSrc) (ra rn : Reg)
  -- 48_dsp_clu.md
  | absR (rd rs : Reg)
  | msbitR (rd rs : Reg)
  | flip8R (rd rs : Reg)
  | flip16R (rd rs : Reg)
  | flipR (rd rs : Reg)
  | clu (v : BitVec 16)
  | cluD (v : BitVec 16) (rd : Reg)
  | cluDs (v : BitVec 16) (rd rs : Reg)
  | cluDst (v : BitVec 16) (rd rs rt : Reg)
  | cluS (v : BitVec 16) (rs : Reg)
  | cluSt (v : BitVec 16) (rs rt : Reg)
  -- 49_system.md
  | sext8R (rd rs : Reg)
  | sext16R (rd rs : Reg)
  | rtie
  | brk
  | halt
  | softreset
  | sleepnop
  | sleepsif
  | nop
  | sif
  | mov1I (v : BitVec 1)
  | mov1R (f : Mov1Form)
  | mov2I (v : BitVec 2)
  | flush
  | fill
  | mov2R (f : FieldForm)
  | fimode (rd : Reg)
  | syscallI (num : BitVec 2) (v : Imm)
  | syscallR (num : BitVec 2) (rs : Reg)
  | movs2r (rd : Reg) (ss : BitVec 3)
  | movb2r (rd : Reg) (bs : BitVec 3)
  | mova2r (rd : Reg) (as : BitVec 3)
  | movr2a (ad : BitVec 3) (rs : Reg)
  | movr2s (sd : BitVec 3) (rs : Reg)
  | movr2b (bd : BitVec 3) (rs : Reg)
  | ver (rd : Reg)
  | lic (rd : Reg)
  | mov4R (f : FieldForm)
  | mov8R (f : FieldForm)
  | printR (f1 f2 : Reg)
  | mov4I (v : BitVec 4)
  | mov8I (v : BitVec 8)
  deriving DecidableEq, Repr

end Sys2Proof
end

