-- ==== Sys2Proof/WellFormed.lean ====
section
/-! DEFINITION. Which terms of `Instr` are instructions the encoding tables have. Everything else
about an instruction's fields is in their types; what remains are three checks. -/

namespace Sys2Proof

/-- The 16-bit displacement rows store a register or `#0`; `#1` and all ones have 32-bit and 48-bit
rows only (R196, R203-R205). -/
def storeFormOk (src : StoreSrc) (a : Disp) : Bool :=
  match src, a with
  | .one, .shortReg _ _ => false
  | .one, .shortSp _ => false
  | .ones, .shortReg _ _ => false
  | .ones, .shortSp _ => false
  | _, _ => true

/-- The constant rows of `mov.i` have b = 1, 2 or 3; b = 0 belongs to other instructions (R242). -/
def movConstOk (f : MovIForm) : Bool :=
  match f with
  | .pow2 _ _ b => b != 0
  | .pow2m1 _ _ b => b != 0
  | _ => true

/-- A value for one of the three lost patterns is a 32-bit opcode: bits 2:0 = 111 and bits 4:0 not
11111 (R228). Without a value the form has no encoding. -/
def lostPatternOk (pat : Option (BitVec 18)) : Bool :=
  match pat with
  | none => false
  | some v => v.extractLsb' 0 3 == 0b111#3 && v.extractLsb' 0 5 != 0b11111#5

/-- A pattern whose low bits are those of a 16-bit instruction (R101). -/
def patternIs16 {w : Nat} (v : BitVec w) : Bool := v.extractLsb' 0 3 != 0b111#3

/-- A pattern whose low bits are those of a 32-bit instruction (R101). -/
def patternIs32 {w : Nat} (v : BitVec w) : Bool :=
  v.extractLsb' 0 3 == 0b111#3 && v.extractLsb' 0 5 != 0b11111#5

/-- The forms whose rows are damaged or lost exist where the parameter that stands for the row is a
pattern of the row's size (R180, R228, R346). -/
def damagedFormOk (p : Params) (i : Instr) : Bool :=
  match i with
  | .bnzR _ (.far _) => patternIs32 p.bnz32
  | .bnzR _ (.near _) => patternIs16 p.bnz16
  | .shiftlCI _ _ => patternIs16 p.shiftlc16Low7
  | .push (.full _ _) => lostPatternOk p.push32
  | .pop (.full _ _) => lostPatternOk p.pop32
  | .popRet (.full _ _) => lostPatternOk p.popRet32
  | _ => true

/-- The instruction has an encoding under the parameters. -/
def Instr.wf (p : Params) (i : Instr) : Bool :=
  (match i with
    | .st8I src a => storeFormOk src a
    | .st16I src a => storeFormOk src a
    | .stI src a => storeFormOk src a
    | .movI f => movConstOk f
    | _ => true) && damagedFormOk p i

end Sys2Proof
end

