-- ==== Sys2Proof/Decode.lean ====
section
/-! DEFINITION. The decoder and, after it, the encoder. The decoder follows the opcode maps of
30_encoding.md: the length rule R101, Format A (R110-R113), Format B (R115-R117), the two odd 32-bit
encodings (R118), Format C (R120) and the 16-bit space (R125-R127). It is total: a word that matches
no row is unknown (R130), under the name of its size. -/

namespace Sys2Proof

/-- Bits `lo + len - 1 .. lo` of `x` (R10). -/
abbrev fld {w : Nat} (x : BitVec w) (lo len : Nat) : BitVec len := x.extractLsb' lo len

/-- The number of a normal register (R22, R138). -/
def Reg.toBits (r : Reg) : BitVec 3 :=
  match r with
  | .r0 => 0b000#3
  | .r1 => 0b001#3
  | .r2 => 0b010#3
  | .r3 => 0b011#3
  | .r4 => 0b100#3
  | .r5 => 0b101#3
  | .r6 => 0b110#3
  | .r7 => 0b111#3

/-- The normal register of a 3-bit field (R22, R138). -/
def Reg.ofBits (b : BitVec 3) : Reg :=
  match b with
  | 0b000#3 => .r0
  | 0b001#3 => .r1
  | 0b010#3 => .r2
  | 0b011#3 => .r3
  | 0b100#3 => .r4
  | 0b101#3 => .r5
  | 0b110#3 => .r6
  | _ => .r7

/-- The base field `bb` (R113). -/
def Base.toBits (b : Base) : BitVec 2 :=
  match b with
  | .zero => 0b00#2
  | .sp => 0b01#2
  | .pc => 0b10#2
  | .gp => 0b11#2

/-- The base of a field `bb` (R113). -/
def Base.ofBits (b : BitVec 2) : Base :=
  match b with
  | 0b00#2 => .zero
  | 0b01#2 => .sp
  | 0b10#2 => .pc
  | _ => .gp

/-- Why a word is no instruction: no row of its size matches it (R130). -/
inductive Unknown where
  | free16
  | free32
  | free48
  deriving DecidableEq, Repr

/-- The size of an instruction in bytes by its first half-word (R101). -/
inductive Size where
  | two
  | four
  | six
  deriving DecidableEq, Repr

/-- The length rule (R101). -/
def sizeOf (h0 : Half) : Size :=
  if fld h0 0 3 = 0b111#3 then
    if fld h0 0 5 = 0b11111#5 then .six else .four
  else .two

/-! ### 16-bit instructions -/

/-- R125, bits 2:0 = 011. -/
def decode16Sp (h : Half) : Instr :=
  let r := Reg.ofBits (fld h 10 3)
  match fld h 13 3 with
  | 0b000#3 =>
    if fld h 9 1 = 0#1 then .ld8zI r (.shortSp (fld h 3 6))
    else .st8I (.reg r) (.shortSp (fld h 3 6))
  | 0b001#3 =>
    if fld h 3 1 = 0#1 then .ld16zI r (.shortSp (fld h 4 6))
    else .st16I (.reg r) (.shortSp (fld h 4 6))
  | 0b010#3 =>
    if fld h 3 1 = 0#1 then .ldI r (.shortSp (fld h 4 1 ++ fld h 5 5))
    else .stI (.reg r) (.shortSp (fld h 4 1 ++ fld h 5 5))
  | 0b011#3 => .addI (.spShort r (fld h 3 7))
  | 0b100#3 => .addI (.short r (fld h 3 7))
  | 0b101#3 => .andI (.short r (fld h 3 7))
  | _ => .movI (.short r (fld h 13 1 ++ fld h 3 7))

/-- R126, the group `110 f1 f2 oooo 100` with oooo = 0010 (R403, R415); the two rows of `mov.1.r` in
it are damaged and stand in `decode16Damaged`. -/
def decode16Flag (h : Half) : Option Instr :=
  let r := Reg.ofBits (fld h 10 3)
  let sub := fld h 7 3
  if sub = 0b010#3 then some (.mov2R (.get r))
  else if sub = 0b011#3 then some (.mov2R (.set r))
  else if sub = 0b100#3 then some (.fimode r)
  else none

/-- R126, the register jumps `110 Ra jjj 1101 100`. -/
def decode16Jump (h : Half) : Option Instr :=
  let ra := Reg.ofBits (fld h 10 3)
  match fld h 7 3 with
  | 0b100#3 => some (.braI (.reg ra))
  | 0b101#3 => some (.bsrI (.reg ra))
  | 0b110#3 => some (.braM (.reg ra))
  | 0b111#3 => some (.bsrM (.reg ra))
  | _ => none

/-- R126, the group `110 f1 f2 oooo 100`. -/
def decode16Two (h : Half) : Option Instr :=
  let f1 := Reg.ofBits (fld h 10 3)
  let f2 := Reg.ofBits (fld h 7 3)
  match fld h 3 4 with
  | 0b0000#4 => some (.cmp8R f1 f2)
  | 0b0001#4 => some (.cmpR f1 f2)
  | 0b0010#4 => decode16Flag h
  | 0b0011#4 => some (.b2swapR f2 f1)
  | 0b0100#4 => some (.cmp8cR f1 f2)
  | 0b0101#4 => some (.cmpCR f1 f2)
  | 0b1000#4 => some (.cmp16R f1 f2)
  | 0b1001#4 => none
  | 0b1100#4 => some (.cmp16cR f1 f2)
  | 0b1101#4 => decode16Jump h
  | 0b0110#4 => some (.movI (.pow2 f1 (fld h 7 3) 0b01#2))
  | 0b0111#4 => some (.movI (.pow2m1 f1 (fld h 7 3) 0b01#2))
  | 0b1010#4 => some (.movI (.pow2 f1 (fld h 7 3) 0b10#2))
  | 0b1011#4 => some (.movI (.pow2m1 f1 (fld h 7 3) 0b10#2))
  | 0b1110#4 => some (.movI (.pow2 f1 (fld h 7 3) 0b11#2))
  | _ => some (.movI (.pow2m1 f1 (fld h 7 3) 0b11#2))

/-- R126, the group `111 Rs Rd oooo 100`. -/
def decode16Unary (h : Half) : Instr :=
  let rs := Reg.ofBits (fld h 10 3)
  let rd := Reg.ofBits (fld h 7 3)
  match fld h 3 4 with
  | 0b0000#4 => .movR (.reg rd rs)
  | 0b0001#4 => .addI (.rowA rd rs)
  | 0b0010#4 => .sext8R rd rs
  | 0b0011#4 => .andI (.one rd rs)
  | 0b0100#4 => .addCI (.zero rd rs)
  | 0b0101#4 => .addI (.rowB rd rs)
  | 0b0110#4 => .sext16R rd rs
  | 0b0111#4 => .andI (.ff rd rs)
  | 0b1000#4 => .addCI (.one rd rs)
  | 0b1001#4 => .subXI (.zero rd rs)
  | 0b1010#4 => .xorI (.one rd rs)
  | 0b1011#4 => .andI (.ffff rd rs)
  | 0b1100#4 => .addCI (.minusOne rd rs)
  | 0b1101#4 => .subXcI (.zero rd rs)
  | 0b1110#4 => .xorI (.minusOne rd rs)
  | _ => .orI (.one rd rs)

/-- R126: bits 2:0 = 100. -/
def decode16Hundred (h : Half) : Option Instr :=
  let r := Reg.ofBits (fld h 10 3)
  match fld h 13 3 with
  | 0b000#3 => some (.cmp8I (.short r (fld h 3 7)))
  | 0b001#3 => some (.cmp16I (.short r (fld h 3 7)))
  | 0b010#3 => some (.cmpI (.short r (fld h 3 7)))
  | 0b011#3 =>
    if fld h 3 1 = 0#1 then some (.bezR r (.near (fld h 4 6))) else none
  | 0b100#3 =>
    if fld h 9 1 = 1#1 then some (.st8I .zero (.shortReg r (fld h 3 6)))
    else match fld h 7 2 with
      | 0b00#2 => some (.addCI (.short r (fld h 3 4)))
      | 0b01#2 => some (.orI (.short r (fld h 3 4)))
      | 0b10#2 => some (.xorI (.short r (fld h 3 4)))
      | _ => some (.movFR (.short r (fld h 3 4)))
  | 0b101#3 =>
    if fld h 3 1 = 0#1 then some (.st16I .zero (.shortReg r (fld h 4 6)))
    else some (.stI .zero (.shortReg r (fld h 4 1 ++ fld h 5 5)))
  | 0b110#3 => decode16Two h
  | _ => some (decode16Unary h)

/-- R127, `100` with bits 2:0 = 101: the stack group. -/
def decode16Stack (h : Half) : Option Instr :=
  match fld h 3 2 with
  | 0b00#2 => some (.addI (.spspShort (fld h 5 8)))
  | 0b01#2 =>
    if fld h 12 1 = 0#1 then some (.push (.range (fld h 10 2) (fld h 5 5)))
    else some (.popRet (.range (fld h 10 2) (fld h 5 5)))
  | 0b10#2 =>
    if fld h 10 3 = 0b000#3 then some (.popRet (.empty (fld h 5 5))) else none
  | _ =>
    if fld h 5 2 = 0b00#2 then
      some (.shiftrCI (Reg.ofBits (fld h 7 3)) (Reg.ofBits (fld h 10 3)))
    else none

/-- R127, `1010 0000` with bits 2:0 = 101: `flush`, `fill` and the short `push.i`. -/
def decode16PushI (h : Half) : Instr :=
  if fld h 7 1 = 1#1 then .pushI (.bits4 (fld h 3 1) (fld h 4 1) (fld h 5 1) (fld h 6 1))
  else if fld h 6 1 = 1#1 then .pushI (.bits3 (fld h 3 1) (fld h 4 1) (fld h 5 1))
  else if fld h 5 1 = 1#1 then .pushI (.bits2 (fld h 3 1) (fld h 4 1))
  else if fld h 4 1 = 1#1 then .pushI (.bits1 (fld h 3 1))
  else if fld h 3 1 = 0#1 then .flush
  else .fill

/-- R127, `1010 0001 0` with bits 2:0 = 101: the system group. -/
def decode16System (h : Half) : Instr :=
  match fld h 3 4 with
  | 0b0000#4 => .rtie
  | 0b0001#4 => .brk
  | 0b0010#4 => .halt
  | 0b0011#4 => .softreset
  | 0b0100#4 => .sleepnop
  | 0b0101#4 => .sleepsif
  | 0b0110#4 => .nop
  | 0b0111#4 => .sif
  | 0b1000#4 => .mov1I 0#1
  | 0b1001#4 => .mov1I 1#1
  | 0b1010#4 => .mov1R .cFromI
  | 0b1011#4 => .mov1R .iFromC
  | 0b1100#4 => .mov2I 0b00#2
  | 0b1101#4 => .mov2I 0b01#2
  | 0b1110#4 => .mov2I 0b10#2
  | _ => .mov2I 0b11#2

/-- R127, `101` with bits 2:0 = 101. -/
def decode16Misc (h : Half) : Option Instr :=
  match fld h 10 3 with
  | 0b000#3 =>
    match fld h 8 2 with
    | 0b00#2 => some (decode16PushI h)
    | 0b01#2 => if fld h 7 1 = 0#1 then some (decode16System h) else none
    | _ => some (.st8I .zero (.shortSp (fld h 3 6)))
  | 0b001#3 =>
    if fld h 3 1 = 0#1 then some (.st16I .zero (.shortSp (fld h 4 6)))
    else some (.stI .zero (.shortSp (fld h 4 1 ++ fld h 5 5)))
  | _ => none

/-- R127: bits 2:0 = 101. -/
def decode16HundredOne (h : Half) : Option Instr :=
  match fld h 12 4 with
  | 0b0000#4 | 0b0001#4 =>
    if fld h 3 1 = 0#1 then some (.braI (.pc16 (fld h 4 9)))
    else some (.bsrI (.pc16 (fld h 4 9)))
  | 0b0010#4 =>
    if fld h 3 1 = 0#1 then some (.beq (.near (fld h 4 8))) else some (.bne (.near (fld h 4 8)))
  | 0b0011#4 =>
    if fld h 3 1 = 0#1 then some (.bleS (.near (fld h 4 8))) else some (.bgtS (.near (fld h 4 8)))
  | 0b0100#4 =>
    if fld h 3 1 = 0#1 then some (.bltS (.near (fld h 4 8))) else some (.bgeS (.near (fld h 4 8)))
  | 0b0101#4 =>
    if fld h 3 1 = 0#1 then some (.bleU (.near (fld h 4 8))) else some (.bgtU (.near (fld h 4 8)))
  | 0b0110#4 =>
    if fld h 3 1 = 0#1 then some (.bcs (.near (fld h 4 8))) else some (.bcc (.near (fld h 4 8)))
  | 0b0111#4 =>
    if fld h 11 1 = 0#1 then some (.push (.mask (fld h 3 8))) else some (.pop (.mask (fld h 3 8)))
  | 0b1000#4 | 0b1001#4 => decode16Stack h
  | 0b1010#4 | 0b1011#4 => decode16Misc h
  | 0b1100#4 | 0b1101#4 => none
  | _ =>
    let r := Reg.ofBits (fld h 10 3)
    match fld h 8 2 with
    | 0b00#2 => some (.shiftrSI (.short r (fld h 3 5)))
    | 0b01#2 => some (.shiftrUI (.short r (fld h 3 5)))
    | 0b10#2 => some (.shiftlI (.short r (fld h 3 5)))
    | _ => some (.rotatelI (.short r (fld h 3 5)))

/-- R125: `Rd Rs Rt oooo 110`. -/
def decode16Three (h : Half) : Instr :=
  let a := Reg.ofBits (fld h 13 3)
  let b := Reg.ofBits (fld h 10 3)
  let c := Reg.ofBits (fld h 7 3)
  match fld h 3 4 with
  | 0b0000#4 => .ld8zR a c (.reg b)
  | 0b0001#4 => .st8R (.reg a) c (.reg b)
  | 0b0010#4 => .ld16zR a c (.reg b)
  | 0b0011#4 => .st16R (.reg a) c (.reg b)
  | 0b0100#4 => .ldR a c (.reg b)
  | 0b0101#4 => .stR (.reg a) c (.reg b)
  | 0b0110#4 => .andR a b c
  | 0b0111#4 => .orR a b c
  | 0b1000#4 => .xorR a b c
  | 0b1001#4 => .shiftlR a b c
  | 0b1010#4 => .shiftrSR a b c
  | 0b1011#4 => .shiftrUR a b c
  | 0b1100#4 => .addR a b c
  | 0b1101#4 => .addCR a b c
  | 0b1110#4 => .subR a b c
  | _ => .subCR a b c

/-- The rows of the table that are 16 bits long and whole (R125). -/
def decode16Table (h : Half) : Option Instr :=
  let a := Reg.ofBits (fld h 13 3)
  let b := Reg.ofBits (fld h 10 3)
  match fld h 0 3 with
  | 0b000#3 =>
    if fld h 9 1 = 0#1 then some (.ld8zI a (.shortReg b (fld h 3 6)))
    else some (.st8I (.reg a) (.shortReg b (fld h 3 6)))
  | 0b001#3 =>
    if fld h 3 1 = 0#1 then some (.ld16zI a (.shortReg b (fld h 4 6)))
    else some (.st16I (.reg a) (.shortReg b (fld h 4 6)))
  | 0b010#3 =>
    if fld h 3 1 = 0#1 then some (.ldI a (.shortReg b (fld h 4 1 ++ fld h 5 5)))
    else some (.stI (.reg a) (.shortReg b (fld h 4 1 ++ fld h 5 5)))
  | 0b011#3 => some (decode16Sp h)
  | 0b100#3 => decode16Hundred h
  | 0b101#3 => decode16HundredOne h
  | 0b110#3 => some (decode16Three h)
  | _ => none

/-- The 16-bit `bnz.r` (R180): `BNZ16_PATTERN` in bits 15:13 and 3:0. -/
def bnz16At (p : Params) (h : Half) : Bool := fld h 13 3 ++ fld h 0 4 == p.bnz16

/-- `shiftl.c.i` (R346): `100 Rs Rd` and `SHIFTLC16_LOW7`. -/
def shiftlcAt (p : Params) (h : Half) : Bool :=
  fld h 13 3 == 0b100#3 && fld h 0 7 == p.shiftlc16Low7

/-- Form 2 of `mov.1.r` (R413): `110 Rd`, `MOV1R16_RD_I`, `0010100`. -/
def mov1rRdIAt (p : Params) (h : Half) : Bool :=
  fld h 13 3 == 0b110#3 && fld h 0 7 == 0b0010100#7 && fld h 7 3 == p.mov1rRdI

/-- Form 4 of `mov.1.r` (R413): `110 Rs`, `MOV1R16_I_RS`, `0010100`. -/
def mov1rIRsAt (p : Params) (h : Half) : Bool :=
  fld h 13 3 == 0b110#3 && fld h 0 7 == 0b0010100#7 && fld h 7 3 == p.mov1rIRs

/-- The 16-bit rows that are damaged, at the patterns of the parameters (U10, U16, U21). -/
def decode16Damaged (p : Params) (h : Half) : Option Instr :=
  if bnz16At p h then some (.bnzR (Reg.ofBits (fld h 10 3)) (.near (fld h 4 6)))
  else if shiftlcAt p h then
    some (.shiftlCI (Reg.ofBits (fld h 7 3)) (Reg.ofBits (fld h 10 3)))
  else if mov1rRdIAt p h then some (.mov1R (.getI (Reg.ofBits (fld h 10 3))))
  else if mov1rIRsAt p h then some (.mov1R (.setI (Reg.ofBits (fld h 10 3))))
  else none

/-- A 16-bit instruction: a whole row of the table, else a damaged one. -/
def decode16 (p : Params) (h : Half) : Option Instr :=
  match decode16Table h with
  | some i => some i
  | none => decode16Damaged p h

/-! ### Format A (R110): the 32-bit and 48-bit forms share bits 15:5 -/

/-- The load of an access-size field `zz` (R111, R113). -/
def loadOf (zz : BitVec 2) (rd : Reg) (a : Disp) : Option Instr :=
  match zz with
  | 0b00#2 => some (.ld8zI rd a)
  | 0b01#2 => some (.ld16zI rd a)
  | 0b10#2 => some (.ldI rd a)
  | _ => none

/-- The store of an access-size field `zz` (R111, R113). -/
def storeOf (zz : BitVec 2) (src : StoreSrc) (a : Disp) : Option Instr :=
  match zz with
  | 0b00#2 => some (.st8I src a)
  | 0b01#2 => some (.st16I src a)
  | 0b10#2 => some (.stI src a)
  | _ => none

/-- The store immediate of the selector (A, B) (R113, R194); (1, 1) is no instruction (D10). -/
def immOf (a b : BitVec 1) : Option StoreSrc :=
  match a, b with
  | 0#1, 0#1 => some .zero
  | 0#1, 1#1 => some .one
  | 1#1, 0#1 => some .ones
  | _, _ => none

/-- Load or store with a named base (R113): op5 = `0 bb 01`, Rs-field = `zz t`. -/
def decodeANamed (l : Half) (v : Imm) : Option Instr :=
  let r := Reg.ofBits (fld l 13 3)
  let a := Disp.named (Base.ofBits (fld l 7 2)) v
  if fld l 10 1 = 0#1 then loadOf (fld l 11 2) r a else storeOf (fld l 11 2) (.reg r) a

/-- Store immediate to a register base (R113): op5 = `1 0 A 0 1`, Rd-field = `B zz`. -/
def decodeAImmReg (l : Half) (v : Imm) : Option Instr :=
  match immOf (fld l 7 1) (fld l 15 1) with
  | some src => storeOf (fld l 13 2) src (.reg (Reg.ofBits (fld l 10 3)) v)
  | none => none

/-- Store immediate to a named base (R113): op5 = 11001, Rd-field = `B zz`, Rs-field = `bb A`. -/
def decodeAImmNamed (l : Half) (v : Imm) : Option Instr :=
  match immOf (fld l 10 1) (fld l 15 1) with
  | some src => storeOf (fld l 13 2) src (.named (Base.ofBits (fld l 11 2)) v)
  | none => none

/-- `add.i %sp, %sp, #imm` in Format A: bits 17:16 of the instruction are 00 (R112(a)). -/
def decodeASpSp (v : Imm) : Option Instr :=
  match v with
  | .wide w => if fld w 0 2 = 0b00#2 then some (.addI (.spsp48 (fld w 2 30))) else none
  | .half u => if fld u 0 2 = 0b00#2 then some (.addI (.spsp32 (fld u 2 14))) else none

/-- op5 = 10011, selected by the Rs-field (R112(a)). DESIGN CHOICE (Note 34): for `add.i %sp, %sp,
#imm` R265 prints the fields 100 100 10011 and beside them L = 0x913F and 0x9137, which are other
words; the fields are taken (L = 0x927F, 0x9277), and 0x913F and 0x9137 are `ld.i %r4, @(off, %pc)`
by R113. -/
def decodeAMov (l : Half) (v : Imm) : Option Instr :=
  let rd := Reg.ofBits (fld l 13 3)
  match fld l 10 3 with
  | 0b000#3 => some (.movI (.imm rd v))
  | 0b001#3 => some (.movI (.pcRel rd v))
  | 0b010#3 => some (.movI (.gpRel rd v))
  | 0b011#3 => some (.addI (.sp rd v))
  | 0b100#3 =>
    if fld l 15 1 = 0#1 then some (.syscallI (fld l 13 2) v)
    else if fld l 13 2 = 0b00#2 then decodeASpSp v
    else none
  | _ => none

/-- op5 = 10111, selected by the Rd-field (R112(b)). -/
def decodeACmp (l : Half) (v : Imm) : Option Instr :=
  let rs := Reg.ofBits (fld l 10 3)
  match fld l 13 3 with
  | 0b000#3 => some (.cmpI (.imm rs v))
  | 0b001#3 => some (.cmpXI rs v)
  | 0b010#3 => some (.cmpCI rs v)
  | 0b011#3 => some (.cmpXcI rs v)
  | _ => none

/-- op5 = 11011 with Rs-field 000 in the 48-bit size (R112(c)); bit 0 of `w` is the link bit. -/
def decodeAJump48 (l : Half) (w : Word) : Option Instr :=
  match fld l 13 3 with
  | 0b000#3 =>
    if fld w 0 1 = 0#1 then some (.braI (.zero48 (fld w 1 31)))
    else some (.bsrI (.zero48 (fld w 1 31)))
  | 0b001#3 =>
    if fld w 0 1 = 0#1 then some (.braI (.pc48 (fld w 1 31)))
    else some (.bsrI (.pc48 (fld w 1 31)))
  | 0b010#3 =>
    if fld w 1 1 = 0#1 then
      if fld w 0 1 = 0#1 then some (.braM (.zero48 (fld w 2 30)))
      else some (.bsrM (.zero48 (fld w 2 30)))
    else none
  | 0b011#3 =>
    if fld w 0 1 = 0#1 then some (.braM (.pc48 (fld w 1 31)))
    else some (.bsrM (.pc48 (fld w 1 31)))
  | _ => none

/-- The 16 bits above bit 0 of a 17-bit offset: `U` is offset[15:1] then offset[16] (R156, R161). -/
def off17 (u : Half) : BitVec 16 := fld u 0 1 ++ fld u 1 15

/-- The 16 bits above bit 1 of an 18-bit offset: `U` is offset[15:2], offset[17], offset[16]
(R158). -/
def off18 (u : Half) : BitVec 16 := fld u 1 1 ++ fld u 0 1 ++ fld u 2 14

/-- op5 = 11011 with Rs-field 000 in the 32-bit size (R112(c)). -/
def decodeAJump32 (l u : Half) : Instr :=
  match fld l 13 3 with
  | 0b000#3 => .braI (.zero32 (off17 u))
  | 0b001#3 => .bsrI (.zero32 (off17 u))
  | 0b010#3 => .braI (.pc32 (off17 u))
  | 0b011#3 => .bsrI (.pc32 (off17 u))
  | 0b100#3 => .braM (.zero32 (off18 u))
  | 0b101#3 => .bsrM (.zero32 (off18 u))
  | 0b110#3 => .braM (.pc32 (off17 u))
  | _ => .bsrM (.pc32 (off17 u))

/-- op5 = 11011 with Rs-field 001: `push.i` (R112(c), R224). -/
def decodeAPushI (l : Half) (v : Imm) : Option Instr :=
  match fld l 13 3, v with
  | 0b000#3, .wide w => some (.pushI (.wide1 w))
  | 0b001#3, .wide w => some (.pushI (.wide2 (fld w 0 16) (fld w 16 16)))
  | 0b010#3, .wide w =>
    if fld w 24 8 = 0#8 then some (.pushI (.wide3 (fld w 0 8) (fld w 8 8) (fld w 16 8))) else none
  | 0b011#3, .wide w => some (.pushI (.wide4 (fld w 0 8) (fld w 8 8) (fld w 16 8) (fld w 24 8)))
  | 0b000#3, .half u => some (.pushI (.half1 u))
  | 0b001#3, .half u => some (.pushI (.half2 (fld u 0 8) (fld u 8 8)))
  | 0b010#3, .half u =>
    if fld u 12 4 = 0#4 then some (.pushI (.half3 (fld u 0 4) (fld u 4 4) (fld u 8 4))) else none
  | 0b011#3, .half u => some (.pushI (.half4 (fld u 0 4) (fld u 4 4) (fld u 8 4) (fld u 12 4)))
  | _, _ => none

/-- op5 = 11011 (R112(c)). -/
def decodeABranch (l : Half) (v : Imm) : Option Instr :=
  match fld l 10 3 with
  | 0b000#3 =>
    match v with
    | .wide w => decodeAJump48 l w
    | .half u => some (decodeAJump32 l u)
  | 0b001#3 => decodeAPushI l v
  | _ => none

/-- The op5 table of Format A (R111), but for `add.n.i`, whose row is damaged. -/
def decodeATable (l : Half) (v : Imm) : Option Instr :=
  let rd := Reg.ofBits (fld l 13 3)
  let rs := Reg.ofBits (fld l 10 3)
  match fld l 5 5 with
  | 0b00000#5 => some (.ld8zI rd (.reg rs v))
  | 0b00001#5 => decodeANamed l v
  | 0b00010#5 => some (.andI (.imm rd rs v))
  | 0b00100#5 => some (.st8I (.reg rd) (.reg rs v))
  | 0b00101#5 => decodeANamed l v
  | 0b00110#5 => some (.orI (.imm rd rs v))
  | 0b01000#5 => some (.ld16zI rd (.reg rs v))
  | 0b01001#5 => decodeANamed l v
  | 0b01010#5 => some (.xorI (.imm rd rs v))
  | 0b01100#5 => some (.st16I (.reg rd) (.reg rs v))
  | 0b01101#5 => decodeANamed l v
  | 0b01110#5 => some (.multI rd rs v)
  | 0b10000#5 => some (.ldI rd (.reg rs v))
  | 0b10001#5 => decodeAImmReg l v
  | 0b10010#5 => some (.addI (.imm rd rs v))
  | 0b10011#5 => decodeAMov l v
  | 0b10100#5 => some (.stI (.reg rd) (.reg rs v))
  | 0b10101#5 => decodeAImmReg l v
  | 0b10110#5 => some (.addCI (.imm rd rs v))
  | 0b10111#5 => decodeACmp l v
  | 0b11001#5 => decodeAImmNamed l v
  | 0b11010#5 => some (.subXI (.imm rd rs v))
  | 0b11011#5 => decodeABranch l v
  | 0b11110#5 => some (.subXcI (.imm rd rs v))
  | _ => none

/-- `add.n.i` (R267): `ADDNI_OP5` in the place of op5. -/
def addNIAt (p : Params) (l : Half) : Bool := fld l 5 5 == p.addNIOp5

/-- `add.n.i` of a Format A opcode. -/
def addNIOf (l : Half) (v : Imm) : Instr :=
  .addNI (Reg.ofBits (fld l 13 3)) (Reg.ofBits (fld l 10 3)) v

/-- A 48-bit instruction: the op5 table, else `add.n.i` (U14). -/
def decode48 (p : Params) (l : Half) (w : Word) : Option Instr :=
  match decodeATable l (.wide w) with
  | some i => some i
  | none => if addNIAt p l then some (addNIOf l (.wide w)) else none

/-! ### Format B (R115): low7 = 0100111 -/

/-- Group 010: the far conditional branches and `clu`, by bits 12:7 (R116). -/
def decodeBCond (l u : Half) : Option Instr :=
  match fld l 7 6 with
  | 0b000000#6 => some (.beq (.far (off17 u)))
  | 0b000001#6 => some (.bcs (.far (off17 u)))
  | 0b001000#6 => some (.bne (.far (off17 u)))
  | 0b001001#6 => some (.bcc (.far (off17 u)))
  | 0b010000#6 => some (.bleS (.far (off17 u)))
  | 0b010001#6 => some (.bvs (off17 u))
  | 0b011000#6 => some (.bgtS (.far (off17 u)))
  | 0b011001#6 => some (.bvc (off17 u))
  | 0b011010#6 => some (.clu u)
  | 0b100000#6 => some (.bltS (.far (off17 u)))
  | 0b100001#6 => some (.bmi (off17 u))
  | 0b101000#6 => some (.bgeS (.far (off17 u)))
  | 0b101001#6 => some (.bpl (off17 u))
  | 0b110000#6 => some (.bleU (.far (off17 u)))
  | 0b111000#6 => some (.bgtU (.far (off17 u)))
  | _ => none

/-- Group 001, by sub3 (R115), but for `bnz.r`, whose row is damaged. -/
def decodeBSub (l u : Half) : Option Instr :=
  let r := Reg.ofBits (fld l 10 3)
  match fld l 7 3 with
  | 0b000#3 => some (.cmp16I (.imm r u))
  | 0b001#3 => some (.cmp16xI r u)
  | 0b010#3 => some (.cmp16cI r u)
  | 0b011#3 => some (.cmp16xcI r u)
  | 0b100#3 => some (.bezR r (.far (off17 u)))
  | 0b110#3 => some (.cluS u r)
  | 0b111#3 => some (.cluD u r)
  | _ => none

/-- Group 011: the bit sequences, by bits 7:5 of `U` (R117). -/
def decodeBField (l u : Half) : Option Instr :=
  let rs := Reg.ofBits (fld l 10 3)
  let rd := Reg.ofBits (fld l 7 3)
  if fld u 13 3 = 0b000#3 then
    match fld u 5 3 with
    | 0b000#3 => some (.movFR (.extract rd rs (fld u 8 5) (fld u 0 5)))
    | 0b001#3 => some (.movFR (.insert rd rs (fld u 8 5) (fld u 0 5)))
    | 0b010#3 => some (.andI (.setBits rd rs (fld u 8 5) (fld u 0 5)))
    | 0b011#3 => some (.andI (.clearBits rd rs (fld u 8 5) (fld u 0 5)))
    | _ => none
  else none

/-- The groups of Format B (R115). -/
def decodeB (l u : Half) : Option Instr :=
  let f1 := Reg.ofBits (fld l 10 3)
  let f2 := Reg.ofBits (fld l 7 3)
  match fld l 13 3 with
  | 0b000#3 =>
    if u = 0x0000#16 then some (.movr2s (fld l 7 3) f1)
    else if u = 0x0001#16 then some (.movr2b (fld l 7 3) f1)
    else none
  | 0b001#3 => decodeBSub l u
  | 0b010#3 => decodeBCond l u
  | 0b011#3 => decodeBField l u
  | 0b100#3 => some (.cluSt u f1 f2)
  | 0b101#3 => some (.mult16sI f2 f1 u)
  | 0b110#3 => some (.mult16uI f2 f1 u)
  | _ => some (.cluDs u f2 f1)

/-! ### Format C (R120): low7 = 0000111, the upper half-word is the opcode -/

/-- U = 0x00xx: three registers. -/
def decodeCThree (l u : Half) : Option Instr :=
  let a := Reg.ofBits (fld l 13 3)
  let b := Reg.ofBits (fld l 10 3)
  let c := Reg.ofBits (fld l 7 3)
  match fld u 0 8 with
  | 0x00#8 => some (.mult16sR a b c)
  | 0x01#8 => some (.mult16uR a b c)
  | 0x02#8 => some (.multR a b c)
  | 0x03#8 => some (.rotatelR a b c)
  | 0x04#8 => some (.divSR a b c)
  | 0x05#8 => some (.divUR a b c)
  | 0x06#8 => some (.remSR a b c)
  | 0x07#8 => some (.remUR a b c)
  | 0x08#8 => some (.divremSR a b c)
  | 0x09#8 => some (.divremUR a b c)
  | 0x0A#8 => some (.blkcpR a b c)
  | 0x0B#8 => some (.blkst8R (.reg a) b c)
  | 0x0C#8 => some (.addNR a b c)
  | _ => none

/-- U = 0x01xx: two registers, f0 = 000. -/
def decodeCTwo (l u : Half) : Option Instr :=
  let b := Reg.ofBits (fld l 10 3)
  let c := Reg.ofBits (fld l 7 3)
  match fld u 0 8 with
  | 0x00#8 => some (.ld8zR b c .sp)
  | 0x01#8 => some (.ld16zR b c .sp)
  | 0x02#8 => some (.ldR b c .sp)
  | 0x04#8 => some (.st8R (.reg b) c .sp)
  | 0x05#8 => some (.st16R (.reg b) c .sp)
  | 0x06#8 => some (.stR (.reg b) c .sp)
  | 0x08#8 => some (.st8R .zero c (.reg b))
  | 0x09#8 => some (.st16R .zero c (.reg b))
  | 0x0A#8 => some (.stR .zero c (.reg b))
  | 0x0C#8 => some (.st8R .one c (.reg b))
  | 0x0D#8 => some (.st16R .one c (.reg b))
  | 0x0E#8 => some (.stR .one c (.reg b))
  | 0x10#8 => some (.st8R .ones c (.reg b))
  | 0x11#8 => some (.st16R .ones c (.reg b))
  | 0x12#8 => some (.stR .ones c (.reg b))
  | 0x14#8 => some (.blkst8R .zero b c)
  | 0x15#8 => some (.blkst8R .ones b c)
  | 0x16#8 => some (.absR c b)
  | 0x17#8 => some (.msbitR c b)
  | 0x18#8 => some (.flip8R c b)
  | 0x19#8 => some (.flip16R c b)
  | 0x1A#8 => some (.flipR c b)
  | 0x1B#8 => some (.swapI c b)
  | 0x1C#8 => some (.movs2r c (fld l 10 3))
  | 0x1D#8 => some (.movb2r c (fld l 10 3))
  | 0x1E#8 => some (.mova2r c (fld l 10 3))
  | 0x1F#8 => some (.movr2a (fld l 7 3) b)
  | 0x20#8 => if fld l 12 1 = 0#1 then some (.mov1R (.getBit c (fld l 10 2))) else none
  | 0x21#8 => if fld l 9 1 = 0#1 then some (.mov1R (.setBit (fld l 7 2) b)) else none
  | 0x22#8 => if fld l 9 1 = 0#1 then some (.syscallR (fld l 7 2) b) else none
  | _ => none

/-- U = 0x02xx: one register, f0 = f1 = 000. -/
def decodeCOne (l u : Half) : Option Instr :=
  let c := Reg.ofBits (fld l 7 3)
  match fld u 0 8 with
  | 0x00#8 => some (.st8R .zero c .sp)
  | 0x01#8 => some (.st16R .zero c .sp)
  | 0x02#8 => some (.stR .zero c .sp)
  | 0x04#8 => some (.st8R .one c .sp)
  | 0x05#8 => some (.st16R .one c .sp)
  | 0x06#8 => some (.stR .one c .sp)
  | 0x08#8 => some (.st8R .ones c .sp)
  | 0x09#8 => some (.st16R .ones c .sp)
  | 0x0A#8 => some (.stR .ones c .sp)
  | 0x0C#8 => some (.movR (.fromSp c))
  | 0x0D#8 => some (.ver c)
  | 0x0E#8 => some (.lic c)
  | 0x0F#8 => some (.mov4R (.get c))
  | 0x10#8 => some (.mov8R (.get c))
  | _ => none

/-- U = 0x0300, 0x0302, 0x0303: `mov.r %sp, Rs`, `print.r` (f0 = 100), `mov.4.r`, `mov.8.r`. -/
def decodeCSet (l u : Half) : Option Instr :=
  let c := Reg.ofBits (fld l 7 3)
  match fld u 0 8 with
  | 0x00#8 =>
    if fld l 10 6 = 0b000000#6 then some (.movR (.toSp c))
    else if fld l 13 3 = 0b100#3 then some (.printR (Reg.ofBits (fld l 10 3)) c)
    else none
  | 0x02#8 => if fld l 10 6 = 0b000000#6 then some (.mov4R (.set c)) else none
  | 0x03#8 => if fld l 10 6 = 0b000000#6 then some (.mov8R (.set c)) else none
  | _ => none

/-- U = 0x04xx: `ttt imm[4:0]`, the shifts (R343). -/
def decodeCShift (l u : Half) : Option Instr :=
  let rs := Reg.ofBits (fld l 10 3)
  let rd := Reg.ofBits (fld l 7 3)
  match fld u 5 3 with
  | 0b000#3 => some (.shiftrSI (.full rd rs (fld u 0 5)))
  | 0b001#3 => some (.shiftrUI (.full rd rs (fld u 0 5)))
  | 0b010#3 => some (.shiftlI (.full rd rs (fld u 0 5)))
  | 0b011#3 => some (.rotatelI (.full rd rs (fld u 0 5)))
  | _ => none

/-- U = 0x07xx: by f2 (R120). -/
def decodeCImm8 (l u : Half) : Option Instr :=
  let ra := Reg.ofBits (fld l 10 3)
  match fld l 7 3 with
  | 0b000#3 => some (.blkst8I .zero ra (fld u 0 8))
  | 0b001#3 => some (.blkst8I .ones ra (fld u 0 8))
  | 0b010#3 =>
    if fld l 10 3 = 0b000#3 then
      if fld u 4 4 = 0b0000#4 then some (.mov4I (fld u 0 4)) else none
    else none
  | 0b011#3 => if fld l 10 3 = 0b000#3 then some (.mov8I (fld u 0 8)) else none
  | _ => none

/-- The map of Format C by bits 15:8 of `U` (R120). -/
def decodeC (l u : Half) : Option Instr :=
  let b := Reg.ofBits (fld l 10 3)
  let c := Reg.ofBits (fld l 7 3)
  match fld u 8 8 with
  | 0x00#8 => decodeCThree l u
  | 0x01#8 => if fld l 13 3 = 0b000#3 then decodeCTwo l u else none
  | 0x02#8 => if fld l 10 6 = 0b000000#6 then decodeCOne l u else none
  | 0x03#8 => decodeCSet l u
  | 0x04#8 => if fld l 13 3 = 0b000#3 then decodeCShift l u else none
  | 0x05#8 => if fld l 13 3 = 0b000#3 then some (.blkcpI c b (fld u 0 8)) else none
  | 0x06#8 => if fld l 13 3 = 0b000#3 then some (.blkst8I (.reg c) b (fld u 0 8)) else none
  | 0x07#8 => if fld l 13 3 = 0b000#3 then decodeCImm8 l u else none
  | 0x08#8 =>
    if fld l 13 3 = 0b000#3 then
      if fld l 7 3 = 0b000#3 then some (.cmp8I (.imm b (fld u 0 8))) else none
    else none
  | 0x09#8 =>
    if fld l 13 3 = 0b000#3 then
      if fld l 7 3 = 0b000#3 then some (.cmp8xI b (fld u 0 8)) else none
    else none
  | 0x0A#8 =>
    if fld l 13 3 = 0b000#3 then
      if fld l 7 3 = 0b000#3 then some (.cmp8cI b (fld u 0 8)) else none
    else none
  | 0x0B#8 =>
    if fld l 13 3 = 0b000#3 then
      if fld l 7 3 = 0b000#3 then some (.cmp8xcI b (fld u 0 8)) else none
    else none
  | _ => none

/-! ### The three sizes together -/

/-- The 25-bit forms of `bra.i` and `bsr.i` (R118): `offset[15:1] K | offset[24:16] 1101111`. -/
def decodeFar (l u : Half) : Instr :=
  if fld u 0 1 = 0#1 then .braI (.far32 (fld l 7 9 ++ fld u 1 15))
  else .bsrI (.far32 (fld l 7 9 ++ fld u 1 15))

/-- The rows of the table that are 32 bits long and whole: Format A where low5 = 10111, else by low7. -/
def decode32Table (l u : Half) : Option Instr :=
  if fld l 0 5 = 0b10111#5 then decodeATable l (.half u)
  else match fld l 0 7 with
    | 0b0100111#7 => decodeB l u
    | 0b0000111#7 => decodeC l u
    | 0b1100111#7 =>
      some (.cluDst u (Reg.ofBits (fld l 13 3)) (Reg.ofBits (fld l 10 3)) (Reg.ofBits (fld l 7 3)))
    | 0b1101111#7 => some (decodeFar l u)
    | _ => none

/-- The 32-bit `add.n.i` (R267). -/
def addNI32At (p : Params) (l : Half) : Bool := fld l 0 5 == 0b10111#5 && addNIAt p l

/-- The 32-bit `bnz.r` (R180): `BNZ32_PATTERN` in bits 15:13 and 9:0. -/
def bnz32At (p : Params) (l : Half) : Bool := fld l 13 3 ++ fld l 0 10 == p.bnz32

/-- The low 18 bits are this pattern (R228). -/
def lostAt (pat : Option (BitVec 18)) (l u : Half) : Bool := pat == some (fld u 0 2 ++ l)

/-- The 32-bit rows that are damaged or lost, at the patterns of the parameters (U10, U12, U14): the
lost ones have regmask[7:0] in bits 31:24, offset[7:2] in bits 23:18 (R228). -/
def decode32Damaged (p : Params) (l u : Half) : Option Instr :=
  if addNI32At p l then some (addNIOf l (.half u))
  else if bnz32At p l then some (.bnzR (Reg.ofBits (fld l 10 3)) (.far (off17 u)))
  else if lostAt p.push32 l u then some (.push (.full (fld u 8 8) (fld u 2 6)))
  else if lostAt p.pop32 l u then some (.pop (.full (fld u 8 8) (fld u 2 6)))
  else if lostAt p.popRet32 l u then some (.popRet (.full (fld u 8 8) (fld u 2 6)))
  else none

/-- A 32-bit instruction: `l` is bits 15:0, `u` bits 31:16 (R102). -/
def decode32 (p : Params) (l u : Half) : Option Instr :=
  match decode32Table l u with
  | some i => some i
  | none => decode32Damaged p l u

/-- The decode function (R130) over the half-words at the instruction's address, two above it and
four above it; only as many are looked at as the length rule R101 says. -/
def decode (p : Params) (h0 h1 h2 : Half) : Except Unknown Instr :=
  match sizeOf h0 with
  | .two => match decode16 p h0 with
    | some i => .ok i
    | none => .error .free16
  | .four => match decode32 p h0 h1 with
    | some i => .ok i
    | none => .error .free32
  | .six => match decode48 p h0 (h2 ++ h1) with
    | some i => .ok i
    | none => .error .free48

/-- The half-word of two bytes, the lower address first (R70, R74). -/
def halfOfBytes (b0 b1 : Byte) : Half := b1 ++ b0

/-- The decoder on the bytes at an address (R102). -/
def decodeBytes (p : Params) (b0 b1 b2 b3 b4 b5 : Byte) : Except Unknown Instr :=
  decode p (halfOfBytes b0 b1) (halfOfBytes b2 b3) (halfOfBytes b4 b5)

/-- Byte `k` of a word whose bit 0 is the least significant bit of the first half-word. -/
def tableByte (nbits w k : Nat) : Byte := BitVec.ofNat 8 ((w % 2 ^ nbits) >>> (8 * k))

/-- The instruction the decoder reads from a word numbered as spec/opcode_table.json numbers it; the
bits above `nbits` are zero. -/
def decodeTableWord (nbits w : Nat) : Option Instr :=
  match decodeBytes Params.default (tableByte nbits w 0) (tableByte nbits w 1)
    (tableByte nbits w 2) (tableByte nbits w 3) (tableByte nbits w 4) (tableByte nbits w 5) with
  | .ok i => some i
  | .error _ => none

/-! ### The encoder: the half-words of an instruction, first the one at the lowest address -/

/-- One 16-bit instruction. -/
def enc16 (h : Half) : List Half := [h]

/-- A Format A instruction (R110). -/
def encA (rdf rsf : BitVec 3) (op5 : BitVec 5) (v : Imm) : List Half :=
  match v with
  | .half u => [rdf ++ rsf ++ op5 ++ 0b10111#5, u]
  | .wide w => [rdf ++ rsf ++ op5 ++ 0b11111#5, fld w 0 16, fld w 16 16]

/-- A Format B instruction (R115). -/
def encB (g f1 f2 : BitVec 3) (u : Half) : List Half := [g ++ f1 ++ f2 ++ 0b0100111#7, u]

/-- A Format C instruction (R120). -/
def encC (f0 f1 f2 : BitVec 3) (u : Half) : List Half := [f0 ++ f1 ++ f2 ++ 0b0000111#7, u]

/-- `U` of a 17-bit offset: the inverse of `off17`. -/
def encOff17 (off : BitVec 16) : Half := fld off 0 15 ++ fld off 15 1

/-- `U` of an 18-bit offset: the inverse of `off18`. -/
def encOff18 (off : BitVec 16) : Half := fld off 0 14 ++ fld off 15 1 ++ fld off 14 1

/-- The field `offset[6:2,7]` of a word offset (R196). -/
def encShort32 (off : BitVec 6) : BitVec 6 := fld off 0 5 ++ fld off 5 1

/-- A displacement load (`t` = 0) or register store (`t` = 1) in Format A (R195). -/
def encDispA (zz : BitVec 2) (t : BitVec 1) (r : Reg) (a : Disp) : List Half :=
  match a with
  | .reg ra v => encA r.toBits ra.toBits (zz ++ t ++ 0b00#2) v
  | .named b v => encA r.toBits (zz ++ t) (0b0#1 ++ b.toBits ++ 0b01#2) v
  | _ => []

/-- A displacement store of an immediate in Format A (R195). -/
def encImmA (zz : BitVec 2) (a b : BitVec 1) (d : Disp) : List Half :=
  match d with
  | .reg ra v => encA (b ++ zz) ra.toBits (0b10#2 ++ a ++ 0b01#2) v
  | .named base v => encA (b ++ zz) (base.toBits ++ a) 0b11001#5 v
  | _ => []

/-- The short rows of the 8-bit load (`t` = 0) and register store (`t` = 1) (R196). -/
def encDisp8 (t : BitVec 1) (r : Reg) (d : Disp) : List Half :=
  match d with
  | .shortReg ra o => enc16 (r.toBits ++ ra.toBits ++ t ++ o ++ 0b000#3)
  | .shortSp o => enc16 (0b000#3 ++ r.toBits ++ t ++ o ++ 0b011#3)
  | _ => encDispA 0b00#2 t r d

/-- The short rows of the 16-bit load and register store (R196). -/
def encDisp16 (t : BitVec 1) (r : Reg) (d : Disp) : List Half :=
  match d with
  | .shortReg ra o => enc16 (r.toBits ++ ra.toBits ++ o ++ t ++ 0b001#3)
  | .shortSp o => enc16 (0b001#3 ++ r.toBits ++ o ++ t ++ 0b011#3)
  | _ => encDispA 0b01#2 t r d

/-- The short rows of the 32-bit load and register store (R196). -/
def encDisp32 (t : BitVec 1) (r : Reg) (d : Disp) : List Half :=
  match d with
  | .shortReg ra o => enc16 (r.toBits ++ ra.toBits ++ encShort32 o ++ t ++ 0b010#3)
  | .shortSp o => enc16 (0b010#3 ++ r.toBits ++ encShort32 o ++ t ++ 0b011#3)
  | _ => encDispA 0b10#2 t r d

/-- The displacement store of the constant 0 (R196): the short row `short` where there is one. -/
def encZero (zz : BitVec 2) (shortReg : Reg → BitVec 6 → Half) (shortSp : BitVec 6 → Half)
    (d : Disp) : List Half :=
  match d with
  | .shortReg ra o => enc16 (shortReg ra o)
  | .shortSp o => enc16 (shortSp o)
  | _ => encImmA zz 0#1 0#1 d

/-- `st.8.i` (R203). -/
def encSt8I (src : StoreSrc) (d : Disp) : List Half :=
  match src with
  | .reg r => encDisp8 1#1 r d
  | .zero => encZero 0b00#2 (fun ra o => 0b100#3 ++ ra.toBits ++ 1#1 ++ o ++ 0b100#3)
      (fun o => 0b1010001#7 ++ o ++ 0b101#3) d
  | .one => encImmA 0b00#2 0#1 1#1 d
  | .ones => encImmA 0b00#2 1#1 0#1 d

/-- `st.16.i` (R204). -/
def encSt16I (src : StoreSrc) (d : Disp) : List Half :=
  match src with
  | .reg r => encDisp16 1#1 r d
  | .zero => encZero 0b01#2 (fun ra o => 0b101#3 ++ ra.toBits ++ o ++ 0b0100#4)
      (fun o => 0b101001#6 ++ o ++ 0b0101#4) d
  | .one => encImmA 0b01#2 0#1 1#1 d
  | .ones => encImmA 0b01#2 1#1 0#1 d

/-- `st.i` (R205). -/
def encStI (src : StoreSrc) (d : Disp) : List Half :=
  match src with
  | .reg r => encDisp32 1#1 r d
  | .zero => encZero 0b10#2 (fun ra o => 0b101#3 ++ ra.toBits ++ encShort32 o ++ 0b1100#4)
      (fun o => 0b101001#6 ++ encShort32 o ++ 0b1101#4) d
  | .one => encImmA 0b10#2 0#1 1#1 d
  | .ones => encImmA 0b10#2 1#1 0#1 d

/-- `bra.i` (`k` = 0) and `bsr.i` (`k` = 1) (R156, R157). -/
def encJump (k : BitVec 1) (f : JumpForm) : List Half :=
  match f with
  | .zero48 o => encA 0b000#3 0b000#3 0b11011#5 (.wide (o ++ k))
  | .pc48 o => encA 0b001#3 0b000#3 0b11011#5 (.wide (o ++ k))
  | .zero32 o => encA (0b00#2 ++ k) 0b000#3 0b11011#5 (.half (encOff17 o))
  | .far32 o => [fld o 15 9 ++ 0b1101111#7, fld o 0 15 ++ k]
  | .pc32 o => encA (0b01#2 ++ k) 0b000#3 0b11011#5 (.half (encOff17 o))
  | .pc16 o => enc16 (0b000#3 ++ o ++ k ++ 0b101#3)
  | .reg ra => enc16 (0b110#3 ++ ra.toBits ++ 0b10#2 ++ k ++ 0b1101100#7)

/-- `bra.m` and `bsr.m` (R158, R159). -/
def encTable (k : BitVec 1) (f : TableForm) : List Half :=
  match f with
  | .zero48 o => encA 0b010#3 0b000#3 0b11011#5 (.wide (o ++ 0#1 ++ k))
  | .pc48 o => encA 0b011#3 0b000#3 0b11011#5 (.wide (o ++ k))
  | .zero32 o => encA (0b10#2 ++ k) 0b000#3 0b11011#5 (.half (encOff18 o))
  | .pc32 o => encA (0b11#2 ++ k) 0b000#3 0b11011#5 (.half (encOff17 o))
  | .reg ra => enc16 (0b110#3 ++ ra.toBits ++ 0b11#2 ++ k ++ 0b1101100#7)

/-- A two-size conditional branch (R161): bits 12:7 of the far form, `ttt` and `n` of the near. -/
def encCond (c : BitVec 6) (ttt : BitVec 3) (n : BitVec 1) (f : CondForm) : List Half :=
  match f with
  | .far o => [0b010#3 ++ c ++ 0b0100111#7, encOff17 o]
  | .near o => enc16 (0b0#1 ++ ttt ++ o ++ n ++ 0b101#3)

/-- A conditional branch that has the far form only (R161). -/
def encCondFar (c : BitVec 6) (o : BitVec 16) : List Half :=
  [0b010#3 ++ c ++ 0b0100111#7, encOff17 o]

/-- `bez.r` and `bnz.r` (R179, R180). -/
def encTest (sub : BitVec 3) (n : BitVec 1) (rs : Reg) (f : TestForm) : List Half :=
  match f with
  | .far o => encB 0b001#3 rs.toBits sub (encOff17 o)
  | .near o => enc16 (0b011#3 ++ rs.toBits ++ o ++ n ++ 0b100#3)

/-- An indexed load (R200-R202): `t` is the opcode of the 16-bit row, `u` of the `%sp` row. -/
def encLdR (oooo : BitVec 4) (u : Half) (rd rx : Reg) (b : IndexBase) : List Half :=
  match b with
  | .reg ra => enc16 (rd.toBits ++ ra.toBits ++ rx.toBits ++ oooo ++ 0b110#3)
  | .sp => encC 0b000#3 rd.toBits rx.toBits u

/-- An indexed store (R206-R208) of size `zz`. -/
def encStR (oooo : BitVec 4) (zz : BitVec 2) (src : StoreSrc) (rx : Reg) (b : IndexBase) :
    List Half :=
  match src, b with
  | .reg rm, .reg ra => enc16 (rm.toBits ++ ra.toBits ++ rx.toBits ++ oooo ++ 0b110#3)
  | .reg rm, .sp => encC 0b000#3 rm.toBits rx.toBits (0b00000001000001#14 ++ zz)
  | .zero, .reg ra => encC 0b000#3 ra.toBits rx.toBits (0b00000001000010#14 ++ zz)
  | .one, .reg ra => encC 0b000#3 ra.toBits rx.toBits (0b00000001000011#14 ++ zz)
  | .ones, .reg ra => encC 0b000#3 ra.toBits rx.toBits (0b00000001000100#14 ++ zz)
  | .zero, .sp => encC 0b000#3 0b000#3 rx.toBits (0b00000010000000#14 ++ zz)
  | .one, .sp => encC 0b000#3 0b000#3 rx.toBits (0b00000010000001#14 ++ zz)
  | .ones, .sp => encC 0b000#3 0b000#3 rx.toBits (0b00000010000010#14 ++ zz)

/-- The 32-bit form of `push`, `pop` or `pop.ret` (R228); none without the pattern. -/
def encLost (pat : Option (BitVec 18)) (regs : BitVec 8) (off : BitVec 6) : List Half :=
  match pat with
  | some v => [fld v 0 16, regs ++ off ++ fld v 16 2]
  | none => []

/-- `push.i` (R224). -/
def encPushI (f : PushIForm) : List Half :=
  match f with
  | .wide1 a => encA 0b000#3 0b001#3 0b11011#5 (.wide a)
  | .wide2 a b => encA 0b001#3 0b001#3 0b11011#5 (.wide (b ++ a))
  | .wide3 a b c => encA 0b010#3 0b001#3 0b11011#5 (.wide (0#8 ++ c ++ b ++ a))
  | .wide4 a b c d => encA 0b011#3 0b001#3 0b11011#5 (.wide (d ++ c ++ b ++ a))
  | .half1 a => encA 0b000#3 0b001#3 0b11011#5 (.half a)
  | .half2 a b => encA 0b001#3 0b001#3 0b11011#5 (.half (b ++ a))
  | .half3 a b c => encA 0b010#3 0b001#3 0b11011#5 (.half (0#4 ++ c ++ b ++ a))
  | .half4 a b c d => encA 0b011#3 0b001#3 0b11011#5 (.half (d ++ c ++ b ++ a))
  | .bits1 a => enc16 (0b101000000001#12 ++ a ++ 0b101#3)
  | .bits2 a b => enc16 (0b10100000001#11 ++ b ++ a ++ 0b101#3)
  | .bits3 a b c => enc16 (0b1010000001#10 ++ c ++ b ++ a ++ 0b101#3)
  | .bits4 a b c d => enc16 (0b101000001#9 ++ d ++ c ++ b ++ a ++ 0b101#3)

/-- `110 f1 f2 oooo 100` (R126). -/
def enc110 (f1 f2 : BitVec 3) (oooo : BitVec 4) : List Half :=
  enc16 (0b110#3 ++ f1 ++ f2 ++ oooo ++ 0b100#3)

/-- `111 Rs Rd oooo 100` (R126). -/
def enc111 (rs rd : Reg) (oooo : BitVec 4) : List Half :=
  enc16 (0b111#3 ++ rs.toBits ++ rd.toBits ++ oooo ++ 0b100#3)

/-- `Rd Rs Rt oooo 110` (R125). -/
def encThree (rd rs rt : Reg) (oooo : BitVec 4) : List Half :=
  enc16 (rd.toBits ++ rs.toBits ++ rt.toBits ++ oooo ++ 0b110#3)

/-- `1010 0001 0 bbbb 101` (R127). -/
def encSys (b : BitVec 4) : List Half := enc16 (0b101000010#9 ++ b ++ 0b101#3)

/-- A three-register Format C instruction. -/
def encC3 (a b c : Reg) (u : Half) : List Half := encC a.toBits b.toBits c.toBits u

/-- A bit-sequence instruction of Format B group 011 (R117). -/
def encSeq (rd rs : Reg) (size : BitVec 5) (kkk : BitVec 3) (lsb : BitVec 5) : List Half :=
  encB 0b011#3 rs.toBits rd.toBits (0b000#3 ++ size ++ kkk ++ lsb)

/-- An immediate shift or rotate (R343). -/
def encShift (ttt : BitVec 3) (tt : BitVec 2) (f : ShiftForm) : List Half :=
  match f with
  | .full rd rs n => encC 0b000#3 rs.toBits rd.toBits (0b00000100#8 ++ ttt ++ n)
  | .short rd n => enc16 (0b111#3 ++ rd.toBits ++ tt ++ n ++ 0b101#3)

/-- `mov.i` (R241, R242). -/
def encMovI (f : MovIForm) : List Half :=
  match f with
  | .imm rd v => encA rd.toBits 0b000#3 0b10011#5 v
  | .pcRel rd v => encA rd.toBits 0b001#3 0b10011#5 v
  | .gpRel rd v => encA rd.toBits 0b010#3 0b10011#5 v
  | .short rd v => enc16 (0b11#2 ++ fld v 7 1 ++ rd.toBits ++ fld v 0 7 ++ 0b011#3)
  | .pow2 rd k b => enc16 (0b110#3 ++ rd.toBits ++ k ++ b ++ 0b10100#5)
  | .pow2m1 rd k b => enc16 (0b110#3 ++ rd.toBits ++ k ++ b ++ 0b11100#5)

/-- `add.i` (R265). -/
def encAddI (f : AddIForm) : List Half :=
  match f with
  | .imm rd rs v => encA rd.toBits rs.toBits 0b10010#5 v
  | .sp rd v => encA rd.toBits 0b011#3 0b10011#5 v
  | .spsp48 v => encA 0b100#3 0b100#3 0b10011#5 (.wide (v ++ 0b00#2))
  | .spsp32 v => encA 0b100#3 0b100#3 0b10011#5 (.half (v ++ 0b00#2))
  | .short rd v => enc16 (0b100#3 ++ rd.toBits ++ v ++ 0b011#3)
  | .spShort rd v => enc16 (0b011#3 ++ rd.toBits ++ v ++ 0b011#3)
  | .spspShort v => enc16 (0b100#3 ++ v ++ 0b00101#5)
  | .rowA rd rs => enc111 rs rd 0b0001#4
  | .rowB rd rs => enc111 rs rd 0b0101#4

/-- `mov.1.r` (R413). -/
def encMov1R (p : Params) (f : Mov1Form) : List Half :=
  match f with
  | .getBit rd bit => encC 0b000#3 (0#1 ++ bit) rd.toBits 0x0120#16
  | .getI rd => enc110 rd.toBits p.mov1rRdI 0b0010#4
  | .setBit bit rs => encC 0b000#3 rs.toBits (0#1 ++ bit) 0x0121#16
  | .setI rs => enc110 rs.toBits p.mov1rIRs 0b0010#4
  | .iFromC => encSys 0b1011#4
  | .cFromI => encSys 0b1010#4

/-- The half-words of an instruction; the empty list for a term the tables have no row for. -/
def encode (p : Params) (i : Instr) : List Half :=
  match i with
  | .braI f => encJump 0#1 f
  | .bsrI f => encJump 1#1 f
  | .braM f => encTable 0#1 f
  | .bsrM f => encTable 1#1 f
  | .beq f => encCond 0b000000#6 0b010#3 0#1 f
  | .bne f => encCond 0b001000#6 0b010#3 1#1 f
  | .bleS f => encCond 0b010000#6 0b011#3 0#1 f
  | .bgtS f => encCond 0b011000#6 0b011#3 1#1 f
  | .bltS f => encCond 0b100000#6 0b100#3 0#1 f
  | .bgeS f => encCond 0b101000#6 0b100#3 1#1 f
  | .bleU f => encCond 0b110000#6 0b101#3 0#1 f
  | .bgtU f => encCond 0b111000#6 0b101#3 1#1 f
  | .bcs f => encCond 0b000001#6 0b110#3 0#1 f
  | .bcc f => encCond 0b001001#6 0b110#3 1#1 f
  | .bmi o => encCondFar 0b100001#6 o
  | .bpl o => encCondFar 0b101001#6 o
  | .bvs o => encCondFar 0b010001#6 o
  | .bvc o => encCondFar 0b011001#6 o
  | .bezR rs f => encTest 0b100#3 0#1 rs f
  | .bnzR rs (.far off) =>
    [fld p.bnz32 10 3 ++ rs.toBits ++ fld p.bnz32 0 10, encOff17 off]
  | .bnzR rs (.near off) => enc16 (fld p.bnz16 4 3 ++ rs.toBits ++ off ++ fld p.bnz16 0 4)
  | .ld8zI rd a => encDisp8 0#1 rd a
  | .ld16zI rd a => encDisp16 0#1 rd a
  | .ldI rd a => encDisp32 0#1 rd a
  | .st8I src a => encSt8I src a
  | .st16I src a => encSt16I src a
  | .stI src a => encStI src a
  | .ld8zR rd rx b => encLdR 0b0000#4 0x0100#16 rd rx b
  | .ld16zR rd rx b => encLdR 0b0010#4 0x0101#16 rd rx b
  | .ldR rd rx b => encLdR 0b0100#4 0x0102#16 rd rx b
  | .st8R src rx b => encStR 0b0001#4 0b00#2 src rx b
  | .st16R src rx b => encStR 0b0011#4 0b01#2 src rx b
  | .stR src rx b => encStR 0b0101#4 0b10#2 src rx b
  | .swapI rd ra => encC 0b000#3 ra.toBits rd.toBits 0x011B#16
  | .push (.mask m) => enc16 (0b01110#5 ++ m ++ 0b101#3)
  | .push (.range nn o) => enc16 (0b1000#4 ++ nn ++ o ++ 0b01101#5)
  | .push (.full m o) => encLost p.push32 m o
  | .pop (.mask m) => enc16 (0b01111#5 ++ m ++ 0b101#3)
  | .pop (.full m o) => encLost p.pop32 m o
  | .popRet (.range nn o) => enc16 (0b1001#4 ++ nn ++ o ++ 0b01101#5)
  | .popRet (.empty o) => enc16 (0b100000#6 ++ o ++ 0b10101#5)
  | .popRet (.full m o) => encLost p.popRet32 m o
  | .pushI f => encPushI f
  | .movI f => encMovI f
  | .movR (.reg rd rs) => enc111 rs rd 0b0000#4
  | .movR (.fromSp rd) => encC 0b000#3 0b000#3 rd.toBits 0x020C#16
  | .movR (.toSp rs) => encC 0b000#3 0b000#3 rs.toBits 0x0300#16
  | .movFR (.extract rd rs n l) => encSeq rd rs n 0b000#3 l
  | .movFR (.insert rd rs n l) => encSeq rd rs n 0b001#3 l
  | .movFR (.short rd f) => enc16 (0b100#3 ++ rd.toBits ++ 0b011#3 ++ f ++ 0b100#3)
  | .addI f => encAddI f
  | .addCI (.imm rd rs v) => encA rd.toBits rs.toBits 0b10110#5 v
  | .addCI (.short rd v) => enc16 (0b100#3 ++ rd.toBits ++ 0b000#3 ++ v ++ 0b100#3)
  | .addCI (.zero rd rs) => enc111 rs rd 0b0100#4
  | .addCI (.one rd rs) => enc111 rs rd 0b1000#4
  | .addCI (.minusOne rd rs) => enc111 rs rd 0b1100#4
  | .addNI rd rs v => encA rd.toBits rs.toBits p.addNIOp5 v
  | .addR rd rs rt => encThree rd rs rt 0b1100#4
  | .addCR rd rs rt => encThree rd rs rt 0b1101#4
  | .addNR rd rs rt => encC3 rd rs rt 0x000C#16
  | .subR rd rs rt => encThree rd rs rt 0b1110#4
  | .subCR rd rs rt => encThree rd rs rt 0b1111#4
  | .subXI (.imm rd rs v) => encA rd.toBits rs.toBits 0b11010#5 v
  | .subXI (.zero rd rs) => enc111 rs rd 0b1001#4
  | .subXcI (.imm rd rs v) => encA rd.toBits rs.toBits 0b11110#5 v
  | .subXcI (.zero rd rs) => enc111 rs rd 0b1101#4
  | .andI (.imm rd rs v) => encA rd.toBits rs.toBits 0b00010#5 v
  | .andI (.setBits rd rs n l) => encSeq rd rs n 0b010#3 l
  | .andI (.clearBits rd rs n l) => encSeq rd rs n 0b011#3 l
  | .andI (.short rd v) => enc16 (0b101#3 ++ rd.toBits ++ v ++ 0b011#3)
  | .andI (.one rd rs) => enc111 rs rd 0b0011#4
  | .andI (.ff rd rs) => enc111 rs rd 0b0111#4
  | .andI (.ffff rd rs) => enc111 rs rd 0b1011#4
  | .andR rd rs rt => encThree rd rs rt 0b0110#4
  | .orI (.imm rd rs v) => encA rd.toBits rs.toBits 0b00110#5 v
  | .orI (.short rd v) => enc16 (0b100#3 ++ rd.toBits ++ 0b001#3 ++ v ++ 0b100#3)
  | .orI (.one rd rs) => enc111 rs rd 0b1111#4
  | .orR rd rs rt => encThree rd rs rt 0b0111#4
  | .xorI (.imm rd rs v) => encA rd.toBits rs.toBits 0b01010#5 v
  | .xorI (.short rd v) => enc16 (0b100#3 ++ rd.toBits ++ 0b010#3 ++ v ++ 0b100#3)
  | .xorI (.one rd rs) => enc111 rs rd 0b1010#4
  | .xorI (.minusOne rd rs) => enc111 rs rd 0b1110#4
  | .xorR rd rs rt => encThree rd rs rt 0b1000#4
  | .multI rd rs v => encA rd.toBits rs.toBits 0b01110#5 v
  | .multR rd rs rt => encC3 rd rs rt 0x0002#16
  | .mult16sI rd rs v => encB 0b101#3 rs.toBits rd.toBits v
  | .mult16sR rd rs rt => encC3 rd rs rt 0x0000#16
  | .mult16uI rd rs v => encB 0b110#3 rs.toBits rd.toBits v
  | .mult16uR rd rs rt => encC3 rd rs rt 0x0001#16
  | .divSR rd rs rt => encC3 rd rs rt 0x0004#16
  | .divUR rd rs rt => encC3 rd rs rt 0x0005#16
  | .remSR rd rs rt => encC3 rd rs rt 0x0006#16
  | .remUR rd rs rt => encC3 rd rs rt 0x0007#16
  | .divremSR rdr rdq rt => encC3 rdr rdq rt 0x0008#16
  | .divremUR rdr rdq rt => encC3 rdr rdq rt 0x0009#16
  | .cmpI (.imm rs v) => encA 0b000#3 rs.toBits 0b10111#5 v
  | .cmpI (.short rs v) => enc16 (0b010#3 ++ rs.toBits ++ v ++ 0b100#3)
  | .cmpXI rs v => encA 0b001#3 rs.toBits 0b10111#5 v
  | .cmpCI rs v => encA 0b010#3 rs.toBits 0b10111#5 v
  | .cmpXcI rs v => encA 0b011#3 rs.toBits 0b10111#5 v
  | .cmpR rs rt => enc110 rs.toBits rt.toBits 0b0001#4
  | .cmpCR rs rt => enc110 rs.toBits rt.toBits 0b0101#4
  | .cmp16I (.imm rs v) => encB 0b001#3 rs.toBits 0b000#3 v
  | .cmp16I (.short rs v) => enc16 (0b001#3 ++ rs.toBits ++ v ++ 0b100#3)
  | .cmp16xI rs v => encB 0b001#3 rs.toBits 0b001#3 v
  | .cmp16cI rs v => encB 0b001#3 rs.toBits 0b010#3 v
  | .cmp16xcI rs v => encB 0b001#3 rs.toBits 0b011#3 v
  | .cmp16R rs rt => enc110 rs.toBits rt.toBits 0b1000#4
  | .cmp16cR rs rt => enc110 rs.toBits rt.toBits 0b1100#4
  | .cmp8I (.imm rs v) => encC 0b000#3 rs.toBits 0b000#3 (0x08#8 ++ v)
  | .cmp8I (.short rs v) => enc16 (0b000#3 ++ rs.toBits ++ v ++ 0b100#3)
  | .cmp8xI rs v => encC 0b000#3 rs.toBits 0b000#3 (0x09#8 ++ v)
  | .cmp8cI rs v => encC 0b000#3 rs.toBits 0b000#3 (0x0A#8 ++ v)
  | .cmp8xcI rs v => encC 0b000#3 rs.toBits 0b000#3 (0x0B#8 ++ v)
  | .cmp8R rs rt => enc110 rs.toBits rt.toBits 0b0000#4
  | .cmp8cR rs rt => enc110 rs.toBits rt.toBits 0b0100#4
  | .shiftrSI f => encShift 0b000#3 0b00#2 f
  | .shiftrUI f => encShift 0b001#3 0b01#2 f
  | .shiftlI f => encShift 0b010#3 0b10#2 f
  | .rotatelI f => encShift 0b011#3 0b11#2 f
  | .shiftlR rd rs rt => encThree rd rs rt 0b1001#4
  | .shiftrSR rd rs rt => encThree rd rs rt 0b1010#4
  | .shiftrUR rd rs rt => encThree rd rs rt 0b1011#4
  | .shiftlCI rd rs => enc16 (0b100#3 ++ rs.toBits ++ rd.toBits ++ p.shiftlc16Low7)
  | .shiftrCI rd rs => enc16 (0b100#3 ++ rs.toBits ++ rd.toBits ++ 0b0011101#7)
  | .rotatelR rd rs rt => encC3 rd rs rt 0x0003#16
  | .b2swapR rd rs => enc110 rs.toBits rd.toBits 0b0011#4
  | .blkcpI rad ras n => encC 0b000#3 ras.toBits rad.toBits (0x05#8 ++ n)
  | .blkcpR rad ras rn => encC3 rad ras rn 0x000A#16
  | .blkst8I (.reg rs) ra n => encC 0b000#3 ra.toBits rs.toBits (0x06#8 ++ n)
  | .blkst8I .zero ra n => encC 0b000#3 ra.toBits 0b000#3 (0x07#8 ++ n)
  | .blkst8I .ones ra n => encC 0b000#3 ra.toBits 0b001#3 (0x07#8 ++ n)
  | .blkst8R (.reg rs) ra rn => encC3 rs ra rn 0x000B#16
  | .blkst8R .zero ra rn => encC 0b000#3 ra.toBits rn.toBits 0x0114#16
  | .blkst8R .ones ra rn => encC 0b000#3 ra.toBits rn.toBits 0x0115#16
  | .absR rd rs => encC 0b000#3 rs.toBits rd.toBits 0x0116#16
  | .msbitR rd rs => encC 0b000#3 rs.toBits rd.toBits 0x0117#16
  | .flip8R rd rs => encC 0b000#3 rs.toBits rd.toBits 0x0118#16
  | .flip16R rd rs => encC 0b000#3 rs.toBits rd.toBits 0x0119#16
  | .flipR rd rs => encC 0b000#3 rs.toBits rd.toBits 0x011A#16
  | .clu v => [0x4D27#16, v]
  | .cluD v rd => encB 0b001#3 rd.toBits 0b111#3 v
  | .cluDs v rd rs => encB 0b111#3 rs.toBits rd.toBits v
  | .cluDst v rd rs rt => [rd.toBits ++ rs.toBits ++ rt.toBits ++ 0b1100111#7, v]
  | .cluS v rs => encB 0b001#3 rs.toBits 0b110#3 v
  | .cluSt v rs rt => encB 0b100#3 rs.toBits rt.toBits v
  | .sext8R rd rs => enc111 rs rd 0b0010#4
  | .sext16R rd rs => enc111 rs rd 0b0110#4
  | .rtie => encSys 0b0000#4
  | .brk => encSys 0b0001#4
  | .halt => encSys 0b0010#4
  | .softreset => encSys 0b0011#4
  | .sleepnop => encSys 0b0100#4
  | .sleepsif => encSys 0b0101#4
  | .nop => encSys 0b0110#4
  | .sif => encSys 0b0111#4
  | .mov1I v => encSys (0b100#3 ++ v)
  | .mov1R f => encMov1R p f
  | .mov2I v => encSys (0b11#2 ++ v)
  | .flush => enc16 0xA005#16
  | .fill => enc16 0xA00D#16
  | .mov2R (.get rd) => enc110 rd.toBits 0b010#3 0b0010#4
  | .mov2R (.set rs) => enc110 rs.toBits 0b011#3 0b0010#4
  | .fimode rd => enc110 rd.toBits 0b100#3 0b0010#4
  | .syscallI num v => encA (0#1 ++ num) 0b100#3 0b10011#5 v
  | .syscallR num rs => encC 0b000#3 rs.toBits (0#1 ++ num) 0x0122#16
  | .movs2r rd ss => encC 0b000#3 ss rd.toBits 0x011C#16
  | .movb2r rd bs => encC 0b000#3 bs rd.toBits 0x011D#16
  | .mova2r rd as => encC 0b000#3 as rd.toBits 0x011E#16
  | .movr2a ad rs => encC 0b000#3 rs.toBits ad 0x011F#16
  | .movr2s sd rs => encB 0b000#3 rs.toBits sd 0x0000#16
  | .movr2b bd rs => encB 0b000#3 rs.toBits bd 0x0001#16
  | .ver rd => encC 0b000#3 0b000#3 rd.toBits 0x020D#16
  | .lic rd => encC 0b000#3 0b000#3 rd.toBits 0x020E#16
  | .mov4R (.get rd) => encC 0b000#3 0b000#3 rd.toBits 0x020F#16
  | .mov4R (.set rs) => encC 0b000#3 0b000#3 rs.toBits 0x0302#16
  | .mov8R (.get rd) => encC 0b000#3 0b000#3 rd.toBits 0x0210#16
  | .mov8R (.set rs) => encC 0b000#3 0b000#3 rs.toBits 0x0303#16
  | .printR f1 f2 => encC 0b100#3 f1.toBits f2.toBits 0x0300#16
  | .mov4I v => encC 0b000#3 0b000#3 0b010#3 (0x070#12 ++ v)
  | .mov8I v => encC 0b000#3 0b000#3 0b011#3 (0x07#8 ++ v)

/-- The decoder on a list of half-words, the one at the instruction's address first. -/
def decodeHalves (p : Params) (hs : List Half) : Except Unknown Instr :=
  decode p (hs.getD 0 0#16) (hs.getD 1 0#16) (hs.getD 2 0#16)

/-- The length of an instruction in bytes (R100, R101), read off its encoding; a form whose pattern
is lost is a 32-bit one (R228). -/
def Instr.length (i : Instr) : Word :=
  match encode Params.default i with
  | [_] => 2#32
  | [_, _] => 4#32
  | [_, _, _] => 6#32
  | _ => 4#32

end Sys2Proof
end

