-- ==== Sys2Proof/Machine/State.lean ====
section
/-! DEFINITION. The state of the machine as plain data: every piece of architectural state of
10_state.md, the parameters of 00_scope.md R8 that stand outside the core, and the model's own
bookkeeping; the faults and refusals; and the state after reset (R520). -/

namespace Sys2Proof.Machine

/-- The normal registers R0 .. R7 (R21). -/
structure Regs where
  r0 : Word
  r1 : Word
  r2 : Word
  r3 : Word
  r4 : Word
  r5 : Word
  r6 : Word
  r7 : Word
  deriving DecidableEq, Repr

/-- The processor execution states (R57, R510). -/
inductive ExecState where
  | awake
  | sifSleep
  | nopSleep
  | halted
  deriving DecidableEq, Repr

/-- The processor mode or state (R52). -/
inductive Mode where
  | supervisor
  | interrupt
  | trusted
  | user
  | recovery
  | nmi
  deriving DecidableEq, Repr

/-- What the core asks memory for (R84): an instruction fetch, a data read, a data write. -/
inductive AccessKind where
  | fetch
  | read
  | write
  deriving DecidableEq, Repr

/-- The answers of the MMU (R85, R86). -/
inductive MmuAnswer where
  | ok
  | dataError
  | progError
  | userDataError
  | userProgError
  deriving DecidableEq, Repr

/-- One rule of the parameter `MMU`: for addresses `lo` to `hi`, for one width, kind and mode or for
every one (`none`), the answer. DESIGN CHOICE: the first rule that fits decides and no rule is `ok`,
so that a finite list states any function of R85. Note 5. -/
structure MmuRule where
  lo : Word
  hi : Word
  width : Option Nat
  kind : Option AccessKind
  mode : Option Mode
  answer : MmuAnswer
  deriving DecidableEq, Repr

/-- What stands at an address (`MEMORY_MAP`, R8): RAM, ROM, or a device's register (R78). -/
inductive RegionKind where
  | ram
  | rom
  | io
  deriving DecidableEq, Repr

/-- One region of the parameter `MEMORY_MAP`: addresses `lo` to `hi`. DESIGN CHOICE: the first region
that holds an address decides; an address in none is not populated (U23). Note 31. -/
structure Region where
  lo : Word
  hi : Word
  kind : RegionKind
  deriving DecidableEq, Repr

/-- One rule of what the devices of `MEMORY_MAP` do (R78, R97): an access of `width` bytes to `lo` to
`hi`, a write or a read, in the device state `state`, with `wrote` as the value of a write (`none`
stands for every one) answers `answer` and leaves the state `next`. DESIGN CHOICE: the first rule that
fits decides, and an access that none fits has the answer of `Config.deviceValue`. Note 33. -/
structure DeviceRule where
  lo : Word
  hi : Word
  width : Option Nat
  write : Option Bool
  wrote : Option Word
  state : Option Nat
  answer : Word
  next : Nat
  deriving DecidableEq, Repr

/-- A half-word that was overwritten within the `PREFETCH_BYTES` after the instruction that did so, with
no `flush` since: a fetch may still find the old one (R96, U5). -/
structure StaleHalf where
  addr : Word
  old : Half
  deriving DecidableEq, Repr

/-- A reply of the parameter `CLU` to one `clu` instruction (R380). Note 6. -/
inductive CluReply where
  | ok (r : Word)
  | unknown
  | error
  deriving DecidableEq, Repr

/-- What a `clu` instruction passes to the CLU (R380): the type, the immediate, and the register
values where the type passes them. -/
structure CluRequest where
  type : BitVec 4
  imm : BitVec 16
  rs : Option Word
  rt : Option Word
  deriving DecidableEq, Repr

/-- One rule of the function `CLU` (R380): a request of this type, immediate, Rs and Rt, in the CLU
state `state` (`none` stands for every one) is answered with `reply` and leaves the state `next`.
DESIGN CHOICE: the first rule that fits decides, and a request that none fits has the answer of
`Config.cluAnswer`. Note 6. -/
structure CluRule where
  type : Option (BitVec 4)
  imm : Option (BitVec 16)
  rs : Option Word
  rt : Option Word
  state : Option Nat
  reply : CluReply
  next : Nat
  deriving DecidableEq, Repr

/-- What the outside presents to the core at one step: the reset input (R520), `WAKE_UP` (R512) and
the interrupt request `irq_num`, `priority` (R470), and the state the devices have come to by
themselves, where it has changed (R90). DESIGN CHOICE: one sample per step. Note 4. -/
structure EnvSample where
  hardReset : Bool
  wakeUp : Bool
  irq : Option (BitVec 5 × BitVec 4)
  devices : Option Nat
  deriving DecidableEq, Repr

/-- Nothing is presented. -/
def EnvSample.quiet : EnvSample where
  hardReset := false
  wakeUp := false
  irq := none
  devices := none

/-- The state of the machine. -/
structure State where
  /-- R0 .. R7 (R21). -/
  regs : Regs
  /-- The program counter (R24): the address of the instruction being executed. -/
  pc : Word
  /-- SP0, SP1 (R28). -/
  sp0 : Word
  sp1 : Word
  /-- GP (R32). -/
  gp : Word
  /-- VP (R33). -/
  vp : Word
  /-- FLAGS (R36), the bits as last written; a FREE bit holds what was written (Note 8). -/
  flags : Word
  /-- INFO (R46). -/
  info : Word
  /-- BRKE (R53), the bits as last written (Note 8). -/
  brke : Word
  /-- BRK0 .. BRK3 (R54). -/
  brk0 : Word
  brk1 : Word
  brk2 : Word
  brk3 : Word
  /-- The execution state (R57). -/
  exe : ExecState
  /-- `RUN_STATE` (R58): RunToBreak is enabled. -/
  runToBreak : Bool
  /-- Memory (R71): the bytes that differ from what an unlisted address reads as. -/
  mem : List Host.Cell
  /-- The model's: the parameters of 93 that change a meaning (Note 7). -/
  params : Params
  /-- The model's: the parameters `IVC` and `WAKE_UP` and the reset input, one sample per step. -/
  env : List EnvSample
  /-- The model's: the parameter `MMU`. -/
  mmu : List MmuRule
  /-- The model's: the parameter `MEMORY_MAP`, the regions that hold something (Note 31). -/
  map : List Region
  /-- The model's: the parameter `MEMORY_MAP`, what its devices do (Note 33). -/
  devices : List DeviceRule
  /-- The model's: the state of the devices (R90, Note 33). -/
  devState : Nat
  /-- The model's: half-words that the prefetch buffer may still hold as they were (U5, Note 14). -/
  stale : List StaleHalf
  /-- The model's: the parameter `CLU`, whether one is fitted (R9, D21). -/
  cluFitted : Bool
  /-- The model's: the parameter `CLU`, its function as rules (Note 6). -/
  clu : List CluRule
  /-- The model's: the state of a stateful CLU (R380, Note 6). -/
  cluState : Nat
  /-- The model's: what the last `clu` instruction passed to the CLU (R380). -/
  cluSent : Option CluRequest
  /-- The model's: the number of the next free value (Note 9). -/
  freeNext : Nat
  /-- The model's: bytes the running `blkcp` copied since it was last fetched (U17, Note 12). -/
  blkRun : Nat
  /-- The model's: where the instruction stream goes on after the instruction of this step (R96, Note
  14); 0 between steps. -/
  ahead : Word
  /-- The model's: a data breakpoint matched an access of this step (R55); false between steps. -/
  breakHit : Bool
  /-- The model's: an exception was entered in this step (R471); false between steps. -/
  event : Bool
  deriving DecidableEq, Repr

/-- Where the model stops for want of a machine state. -/
inductive Fault where
  /-- The program counter is odd. Raised by the fetch. R26 keeps PC[0] at 0 and no step from a state
  with an even PC leaves it odd, so a run never meets it. Safe. Note 18. -/
  | oddPc
  deriving DecidableEq, Repr

/-- Where the model has no meaning to give. -/
inductive Refusal where
  /-- An instruction whose meaning is not written. Raised by `exec`. Safe. -/
  | notModelled (mnemonic : String)
  /-- A vector word read at an event or a reset is odd or zero (U7, treatment `refuse`). Raised by
  event entry and reset. Safe. Note 15. -/
  | badVector
  /-- The word at 0xFFFFFFFC read at a reset is no multiple of 256 (U8, treatment `refuse`). Raised
  by hard and soft reset. Safe. Note 16. -/
  | badVectorBase
  /-- The MMU signals an error on a vector read or a reset read (U22, treatment `refuse`). Raised by
  event entry and reset. Safe. Note 17. -/
  | mmuOnHardwareRead
  /-- The MMU answers ok for an address that `MEMORY_MAP` does not populate (U23, treatment `refuse`).
  Raised by every access to memory: fetch, data access, context push, vector read. Safe. Note 31. -/
  | unpopulated
  /-- A `pop.ret` starts with FLAGS.S past its last atom, which only software that alters a frame
  can bring about (U11, treatment `refuse`). Raised by `pop.ret`. Safe. Note 11. -/
  | resumedPastEnd
  deriving DecidableEq, Repr

/-- The state right after a hard reset (R520) over a memory in which nothing is listed: VP is the
word at 0xFFFFFFFC and PC the word at VP + 4, both `Config.unlistedWord` (Note 1); every register
0, Supervisor mode, Awake. The environment is quiet, the MMU answers ok (D40), every address is RAM
(Note 31), no CLU is fitted (D21), RunToBreak is off (D45). Note 2. -/
def State.reset : State where
  regs := ⟨0#32, 0#32, 0#32, 0#32, 0#32, 0#32, 0#32, 0#32⟩
  pc := Config.unlistedWord
  sp0 := 0#32
  sp1 := 0#32
  gp := 0#32
  vp := Config.unlistedWord
  flags := 0#32
  info := 0#32
  brke := 0#32
  brk0 := 0#32
  brk1 := 0#32
  brk2 := 0#32
  brk3 := 0#32
  exe := .awake
  runToBreak := false
  mem := []
  params := Params.default
  env := []
  mmu := []
  map := [⟨0x00000000#32, 0xFFFFFFFF#32, .ram⟩]
  devices := []
  devState := 0
  stale := []
  cluFitted := false
  clu := []
  cluState := 0
  cluSent := none
  freeNext := 0
  blkRun := 0
  ahead := 0#32
  breakHit := false
  event := false

end Sys2Proof.Machine
end

