-- ==== Sys2Proof/Machine/Flags.lean ====
section
/-! DEFINITION. The fields of FLAGS, INFO and BRKE (R36, R46, R53), the mode (R52), and every flag
computation of the instruction rules: addition R261, subtraction R262, the sticky Z R263, logic
R264, compares R311, shifts R341-R353, division R287. -/

namespace Sys2Proof.Machine

/-! ### Bit fields of a register -/

/-- The ones of a field of `len` bits at `lo`. -/
def fieldMask (lo len : Nat) : Word := (BitVec.allOnes len).setWidth 32 <<< lo

/-- The register with the field of `len` bits at `lo` replaced. -/
def putField (x : Word) (lo len : Nat) (v : BitVec len) : Word :=
  (x &&& ~~~(fieldMask lo len)) ||| ((v.setWidth 32) <<< lo)

/-- Z, N, C, V of a FLAGS word (R36, R37). -/
def flagZ (f : Word) : Bool := f.getLsbD 0
def flagN (f : Word) : Bool := f.getLsbD 1
def flagC (f : Word) : Bool := f.getLsbD 2
def flagV (f : Word) : Bool := f.getLsbD 3

/-- M[1:0] (R38). -/
def flagM (f : Word) : BitVec 2 := fld f 4 2

/-- I, interrupt enable (R39). -/
def flagI (f : Word) : Bool := f.getLsbD 6

/-- P[3:0] (R41). -/
def flagP (f : Word) : BitVec 4 := fld f 12 4

/-- A[7:0] (R42). -/
def flagA (f : Word) : BitVec 8 := fld f 16 8

/-- S[7:0] (R43). -/
def flagS (f : Word) : BitVec 8 := fld f 24 8

/-- K0, K1, NL, R, SR of an INFO word (R46-R51). -/
def infoK0 (x : Word) : Bool := x.getLsbD 0
def infoK1 (x : Word) : Bool := x.getLsbD 1
def infoNL (x : Word) : Bool := x.getLsbD 4
def infoR (x : Word) : Bool := x.getLsbD 5
def infoSR (x : Word) : Bool := x.getLsbD 8

/-- One bit of a register replaced. -/
def putBit (x : Word) (i : Nat) (b : Bool) : Word := putField x i 1 (BitVec.ofBool b)

/-- The FREE bits of FLAGS, bits 11:7 (R40). -/
def flagsFree : Word := 0x00000F80#32

/-- The FREE bits of BRKE, bits 3, 11, 19, 27 (R53). -/
def brkeFree : Word := 0x08080808#32

/-- Z and N written (`SetZN`, R11). -/
def putZN (f : Word) (z n : Bool) : Word := putField f 0 2 (BitVec.ofBool n ++ BitVec.ofBool z)

/-- Z, N, C, V written. -/
def putZNCV (f : Word) (z n c v : Bool) : Word :=
  putField f 0 4 (BitVec.ofBool v ++ BitVec.ofBool c ++ BitVec.ofBool n ++ BitVec.ofBool z)

/-- `SetZN(v)` (R11). -/
def setZN (f v : Word) : Word := putZN f (v == 0#32) (v.getLsbD 31)

/-! ### The mode -/

/-- The mode or state (R52). -/
def State.mode (s : State) : Mode :=
  if infoNL s.info then .nmi
  else if infoR s.info then .recovery
  else match flagM s.flags with
    | 0b00#2 => .supervisor
    | 0b01#2 => .interrupt
    | 0b10#2 => .trusted
    | _ => .user

/-- User mode, in which the privileged instructions are not permitted (R391, R452). -/
def State.isUser (s : State) : Bool := s.mode == .user

/-- `%sp` is SP0 (R30): NMI and Recovery state, Supervisor and Interrupt mode. -/
def State.spIsSp0 (s : State) : Bool :=
  match s.mode with
  | .trusted => false
  | .user => false
  | _ => true

/-! ### Arithmetic with its flags -/

/-- The result of an addition or subtraction of `w` bits, with C and V. -/
structure Arith (w : Nat) where
  r : BitVec w
  c : Bool
  v : Bool
  deriving DecidableEq, Repr

/-- Outside the signed range of `w` bits. -/
def outsideSigned (w : Nat) (x : Int) : Bool :=
  decide (x < -(2 ^ (w - 1) : Int)) || decide ((2 ^ (w - 1) : Int) ≤ x)

/-- `r = a + b + cin` with C and V (R261). -/
def addC {w : Nat} (a b : BitVec w) (cin : Bool) : Arith w where
  r := BitVec.ofNat w (a.toNat + b.toNat + cin.toNat)
  c := decide (2 ^ w ≤ a.toNat + b.toNat + cin.toNat)
  v := outsideSigned w (a.toInt + b.toInt + (cin.toNat : Int))

/-- `r = a - b - cin` with the borrow C and with V (R262). -/
def subC {w : Nat} (a b : BitVec w) (cin : Bool) : Arith w where
  r := BitVec.ofInt w ((a.toNat : Int) - (b.toNat : Int) - (cin.toNat : Int))
  c := decide ((a.toNat : Int) - (b.toNat : Int) - (cin.toNat : Int) < 0)
  v := outsideSigned w (a.toInt - b.toInt - (cin.toNat : Int))

/-- FLAGS after arithmetic without carry in: Z, N from the result (R261, R262). -/
def arithFlags (f : Word) (x : Arith 32) : Word :=
  putZNCV f (x.r == 0#32) (x.r.getLsbD 31) x.c x.v

/-- FLAGS after arithmetic with carry in: Z only where it was set (R263). -/
def arithFlagsSticky (f : Word) (x : Arith 32) : Word :=
  putZNCV f (x.r == 0#32 && flagZ f) (x.r.getLsbD 31) x.c x.v

/-- FLAGS after `Cmp(w, a, b, 0, false)` (R311). -/
def cmpFlags {w : Nat} (f : Word) (a b : BitVec w) : Word :=
  let x := subC a b false
  putZNCV f (a == b) (x.r.getLsbD (w - 1)) x.c x.v

/-- FLAGS after `Cmp(w, a, b, FLAGS.C, true)` (R311): Z by equality of the operands, or by a zero
result where `CMPC_Z_BY_RESULT` says so (U15). -/
def cmpFlagsSticky {w : Nat} (zByResult : Bool) (f : Word) (a b : BitVec w) : Word :=
  let x := subC a b (flagC f)
  let zero := if zByResult then x.r == 0#w else a == b
  putZNCV f (zero && flagZ f) (x.r.getLsbD (w - 1)) x.c x.v

/-! ### Shifts and rotates: the result, and C where the count is not zero -/

/-- FLAGS after a shift or rotate (R341): Z, N from the result, C where there is one. -/
def shiftFlags (f r : Word) (c : Option Bool) : Word :=
  match c with
  | some b => putBit (setZN f r) 2 b
  | none => setZN f r

/-- A shift's last bit out: none for the count 0 (R340). -/
def lastOut (n : BitVec 5) (b : Bool) : Option Bool := if n = 0#5 then none else some b

/-- Shift left (R344). -/
def shiftL (v : Word) (n : BitVec 5) : Word := v <<< n.toNat
def shiftLOut (v : Word) (n : BitVec 5) : Option Bool := lastOut n (v.getLsbD (32 - n.toNat))

/-- Signed shift right (R347). -/
def shiftRS (v : Word) (n : BitVec 5) : Word := v.sshiftRight n.toNat

/-- Unsigned shift right (R349). -/
def shiftRU (v : Word) (n : BitVec 5) : Word := v >>> n.toNat

/-- The bit a right shift moves out (R347, R349). -/
def shiftROut (v : Word) (n : BitVec 5) : Option Bool := lastOut n (v.getLsbD (n.toNat - 1))

/-- Rotate left (R352); C is bit 0 of the result. -/
def rotL (v : Word) (n : BitVec 5) : Word := v.rotateLeft n.toNat
def rotLOut (v : Word) (n : BitVec 5) : Option Bool := lastOut n ((rotL v n).getLsbD 0)

/-! ### Division (R287): truncated toward zero, computed on integers -/

/-- What a division gives: quotient, remainder, the overflow or zero-divisor flag. -/
structure Division where
  q : Word
  m : Word
  bad : Bool
  byZero : Bool
  deriving DecidableEq, Repr

/-- Signed division (R288, R290, R292): both results are 0 and V is set for a zero divisor and for
the one quotient that does not fit. -/
def divS (a b : Word) : Division :=
  if b = 0#32 then ⟨0#32, 0#32, true, true⟩
  else if a = 0x80000000#32 ∧ b = 0xFFFFFFFF#32 then ⟨0#32, 0#32, true, false⟩
  else ⟨BitVec.ofInt 32 (a.toInt.tdiv b.toInt), BitVec.ofInt 32 (a.toInt.tmod b.toInt), false, false⟩

/-- Unsigned division (R289, R291, R293). -/
def divU (a b : Word) : Division :=
  if b = 0#32 then ⟨0#32, 0#32, true, true⟩
  else ⟨BitVec.ofNat 32 (a.toNat / b.toNat), BitVec.ofNat 32 (a.toNat % b.toNat), false, false⟩

end Sys2Proof.Machine
end

