-- ==== Sys2Proof/Machine/Operands.lean ====
section
/-! DEFINITION. Operand forms: registers (R21, R30), immediates (R135-R137), address formation
(R151, R191, R192, R196), store sources (R194), register lists (R222), bit sequences (R244, R245,
R275) and the constants of `mov.i` (R242). -/

namespace Sys2Proof.Machine

/-! ### Registers -/

/-- Read a normal register. -/
def Regs.get (g : Regs) (r : Reg) : Word :=
  match r with
  | .r0 => g.r0
  | .r1 => g.r1
  | .r2 => g.r2
  | .r3 => g.r3
  | .r4 => g.r4
  | .r5 => g.r5
  | .r6 => g.r6
  | .r7 => g.r7

/-- Write a normal register. -/
def Regs.set (g : Regs) (r : Reg) (v : Word) : Regs :=
  match r with
  | .r0 => { g with r0 := v }
  | .r1 => { g with r1 := v }
  | .r2 => { g with r2 := v }
  | .r3 => { g with r3 := v }
  | .r4 => { g with r4 := v }
  | .r5 => { g with r5 := v }
  | .r6 => { g with r6 := v }
  | .r7 => { g with r7 := v }

/-- `R[r]` (R11). -/
def State.reg (s : State) (r : Reg) : Word := s.regs.get r

/-- `R[r] <- v` (R11). -/
def State.setReg (s : State) (r : Reg) (v : Word) : State := { s with regs := s.regs.set r v }

/-- `SP`, the stack pointer of the current mode (R30). -/
def State.sp (s : State) : Word := if s.spIsSp0 then s.sp0 else s.sp1

/-- Write the stack pointer of the current mode (R30). -/
def State.setSp (s : State) (v : Word) : State :=
  if s.spIsSp0 then { s with sp0 := v } else { s with sp1 := v }

/-- Write FLAGS. -/
def State.setFlags (s : State) (f : Word) : State := { s with flags := f }

/-- `pc <- nextpc` after an instruction of `len` bytes (R25). -/
def State.advance (s : State) (len : Word) : State := { s with pc := s.pc + len }

/-- A register result: Rd and FLAGS written. -/
def State.result (s : State) (rd : Reg) (v f : Word) : State := (s.setReg rd v).setFlags f

/-! ### Immediates -/

/-- A Format A immediate, sign-extended (`s`, R135). -/
def Imm.sext (v : Imm) : Word :=
  match v with
  | .wide w => w
  | .half h => h.signExtend 32

/-- A Format A immediate, zero-extended (`u`, R135). -/
def Imm.zext (v : Imm) : Word :=
  match v with
  | .wide w => w
  | .half h => h.setWidth 32

/-- The byte-swap of `b2swap.r` (R354). -/
def byteSwap2 (v : Word) : Word := fld v 16 8 ++ fld v 24 8 ++ fld v 0 8 ++ fld v 8 8

/-! ### Displacement and indexed addresses -/

/-- The widths of a data access (R72). -/
inductive Width where
  | byte
  | half
  | word
  deriving DecidableEq, Repr

/-- The number of bytes. -/
def bytesOf (w : Width) : Nat :=
  match w with
  | .byte => 1
  | .half => 2
  | .word => 4

/-- A short offset scaled by the access size (R196). -/
def shortOffset (w : Width) (off : BitVec 6) : Word :=
  match w with
  | .byte => off.setWidth 32
  | .half => (off ++ 0#1).setWidth 32
  | .word => (off ++ 0#2).setWidth 32

/-- The value of a named base (R191). -/
def State.baseValue (s : State) (b : Base) : Word :=
  match b with
  | .zero => 0#32
  | .sp => s.sp
  | .pc => s.pc
  | .gp => s.gp

/-- The extension of an offset from a named base: signed from `%pc`, else unsigned (R113, R191). -/
def baseOffset (b : Base) (v : Imm) : Word :=
  match b with
  | .pc => Imm.sext v
  | _ => Imm.zext v

/-- `addr` of a displacement operand (R191, R196). -/
def State.dispAddr (s : State) (w : Width) (a : Disp) : Word :=
  match a with
  | .reg ra v => Imm.sext v + s.reg ra
  | .named b v => baseOffset b v + s.baseValue b
  | .shortReg ra o => shortOffset w o + s.reg ra
  | .shortSp o => shortOffset w o + s.sp

/-- The operand uses `%sp`, so the K guard applies (R31). -/
def dispUsesSp (a : Disp) : Bool :=
  match a with
  | .named .sp _ => true
  | .shortSp _ => true
  | _ => false

/-- `addr` of an indexed operand (R192). -/
def State.indexAddr (s : State) (rx : Reg) (b : IndexBase) : Word :=
  match b with
  | .reg ra => s.reg rx + s.reg ra
  | .sp => s.reg rx + s.sp

/-- The operand uses `%sp` (R31). -/
def indexUsesSp (b : IndexBase) : Bool :=
  match b with
  | .reg _ => false
  | .sp => true

/-- The value of a store source (R194); the access writes its low bytes. -/
def State.storeValue (s : State) (src : StoreSrc) : Word :=
  match src with
  | .reg rm => s.reg rm
  | .zero => 0#32
  | .one => 1#32
  | .ones => 0xFFFFFFFF#32

/-! ### Branch targets -/

/-- The target of `bra.i` and `bsr.i` (R156). -/
def State.jumpTarget (s : State) (f : JumpForm) : Word :=
  match f with
  | .zero48 o => o ++ 0#1
  | .pc48 o => s.pc + (o ++ 0#1)
  | .zero32 o => (o ++ 0#1).setWidth 32
  | .far32 o => s.pc + (o ++ 0#1).signExtend 32
  | .pc32 o => s.pc + (o ++ 0#1).signExtend 32
  | .pc16 o => s.pc + (o ++ 0#1).signExtend 32
  | .reg ra => s.reg ra

/-- The table address of `bra.m` and `bsr.m` (R158). -/
def State.tableAddr (s : State) (f : TableForm) : Word :=
  match f with
  | .zero48 o => o ++ 0#2
  | .pc48 o => s.pc + (o ++ 0#1)
  | .zero32 o => (o ++ 0#2).setWidth 32
  | .pc32 o => s.pc + (o ++ 0#1).signExtend 32
  | .reg ra => s.reg ra

/-- The target of a far conditional branch (R161). -/
def State.farTarget (s : State) (o : BitVec 16) : Word := s.pc + (o ++ 0#1).signExtend 32

/-- The target of a conditional branch (R161). -/
def State.condTarget (s : State) (f : CondForm) : Word :=
  match f with
  | .far o => s.farTarget o
  | .near o => s.pc + (o ++ 0#1).signExtend 32

/-- The target of a register-test branch (R179). -/
def State.testTarget (s : State) (f : TestForm) : Word :=
  match f with
  | .far o => s.farTarget o
  | .near o => s.pc + (o ++ 0#1).signExtend 32

/-! ### Register lists (R222): `regmask[i]` is Ri -/

/-- The registers in ascending order. -/
def allRegs : List Reg := [.r0, .r1, .r2, .r3, .r4, .r5, .r6, .r7]

/-- The registers of a mask, lowest first. -/
def maskRegs (m : BitVec 8) : List Reg :=
  allRegs.filter fun r => m.getLsbD r.toBits.toNat

/-- The mask of R4 .. R(4+nn). -/
def rangeMask (nn : BitVec 2) : BitVec 8 :=
  match nn with
  | 0b00#2 => 0x10#8
  | 0b01#2 => 0x30#8
  | 0b10#2 => 0x70#8
  | _ => 0xF0#8

/-- The mask of a `push` (R223). -/
def pushMask (f : PushForm) : BitVec 8 :=
  match f with
  | .mask m => m
  | .range nn _ => rangeMask nn
  | .full m _ => m

/-- The frame offset of a `push` (R223). -/
def pushOffset (f : PushForm) : Word :=
  match f with
  | .mask _ => 0#32
  | .range _ o => (o ++ 0#2).setWidth 32
  | .full _ o => (o ++ 0#2).setWidth 32

/-- The mask of a `pop` (R225). -/
def popMask (f : PopForm) : BitVec 8 :=
  match f with
  | .mask m => m
  | .full m _ => m

/-- The frame offset of a `pop` (R225). -/
def popOffset (f : PopForm) : Word :=
  match f with
  | .mask _ => 0#32
  | .full _ o => (o ++ 0#2).setWidth 32

/-- The mask of a `pop.ret` (R226). -/
def popRetMask (f : PopRetForm) : BitVec 8 :=
  match f with
  | .range nn _ => rangeMask nn
  | .empty _ => 0#8
  | .full m _ => m

/-- The frame offset of a `pop.ret` (R226). -/
def popRetOffset (f : PopRetForm) : Word :=
  match f with
  | .range _ o => (o ++ 0#2).setWidth 32
  | .empty o => (o ++ 0#2).setWidth 32
  | .full _ o => (o ++ 0#2).setWidth 32

/-- A one-bit immediate of `push.i`: 0 and 1, or 0 and -1 where `PUSHI16_SIGNED` says so (U3). -/
def bitImm (signed : Bool) (b : BitVec 1) : Word :=
  if signed then b.signExtend 32 else b.setWidth 32

/-- The immediates of `push.i`, `i0` first (R224). -/
def pushImms (signed : Bool) (f : PushIForm) : List Word :=
  match f with
  | .wide1 a => [a]
  | .wide2 a b => [a.signExtend 32, b.signExtend 32]
  | .wide3 a b c => [a.signExtend 32, b.signExtend 32, c.signExtend 32]
  | .wide4 a b c d => [a.signExtend 32, b.signExtend 32, c.signExtend 32, d.signExtend 32]
  | .half1 a => [a.signExtend 32]
  | .half2 a b => [a.signExtend 32, b.signExtend 32]
  | .half3 a b c => [a.signExtend 32, b.signExtend 32, c.signExtend 32]
  | .half4 a b c d => [a.signExtend 32, b.signExtend 32, c.signExtend 32, d.signExtend 32]
  | .bits1 a => [bitImm signed a]
  | .bits2 a b => [bitImm signed a, bitImm signed b]
  | .bits3 a b c => [bitImm signed a, bitImm signed b, bitImm signed c]
  | .bits4 a b c d => [bitImm signed a, bitImm signed b, bitImm signed c, bitImm signed d]

/-! ### Constants and bit sequences -/

/-- The exponent 8b + k of the constant forms of `mov.i` (R242). -/
def constExp (k : BitVec 3) (b : BitVec 2) : Nat := 8 * b.toNat + k.toNat

/-- `mov.i Rd, #2^(8b+k)` (R242). -/
def constPow2 (k : BitVec 3) (b : BitVec 2) : Word := 1#32 <<< constExp k b

/-- `mov.i Rd, #2^(8b+k)-1`, but 0xFFFFFFFF for value 1 (R242). -/
def constPow2m1 (k : BitVec 3) (b : BitVec 2) : Word :=
  if k = 0#3 ∧ b = 1#2 then 0xFFFFFFFF#32 else constPow2 k b - 1#32

/-- A size field: 0 means 32 (R117, D17). -/
def seqSize (size : BitVec 5) : Nat := if size = 0#5 then 32 else size.toNat

/-- The sequence fits the word: lsb + size ≤ 32 (R244, R275). -/
def seqOk (size lsb : BitVec 5) : Bool := decide (lsb.toNat + seqSize size ≤ 32)

/-- `sz` ones at the bottom of a word. -/
def lowOnes (sz : Nat) : Word := (BitVec.allOnes sz).setWidth 32

/-- Ones in [lsb+size-1 : lsb] (R275). -/
def seqMask (size lsb : BitVec 5) : Word := lowOnes (seqSize size) <<< lsb.toNat

/-- The extracted field of `mov.f.r` (R244). -/
def seqExtract (v : Word) (size lsb : BitVec 5) : Word := (v >>> lsb.toNat) &&& lowOnes (seqSize size)

/-- The inserted field of `mov.f.r` (R244). -/
def seqInsert (d v : Word) (size lsb : BitVec 5) : Word :=
  (d &&& ~~~(seqMask size lsb)) ||| ((v &&& lowOnes (seqSize size)) <<< lsb.toNat)

/-- Size and lsb of the 16-bit `mov.f.r` (R245). -/
def shortField (f : BitVec 4) : BitVec 5 × BitVec 5 :=
  match f with
  | 0#4 => (2#5, 4#5)
  | 1#4 => (1#5, 1#5)
  | 2#4 => (1#5, 2#5)
  | 3#4 => (1#5, 3#5)
  | 4#4 => (1#5, 4#5)
  | 5#4 => (1#5, 8#5)
  | 6#4 => (1#5, 16#5)
  | 7#4 => (1#5, 24#5)
  | 8#4 => (4#5, 4#5)
  | 9#4 => (4#5, 8#5)
  | 10#4 => (4#5, 12#5)
  | 11#4 => (4#5, 16#5)
  | 12#4 => (4#5, 20#5)
  | 13#4 => (4#5, 24#5)
  | 14#4 => (8#5, 8#5)
  | _ => (8#5, 16#5)

/-- The count of an immediate-count block instruction: field 0 means 256 (R365, R367). -/
def blkCount (num : BitVec 8) : Nat := if num = 0#8 then 256 else num.toNat

/-- Reverse the bits of a vector. -/
def flipBits {w : Nat} (v : BitVec w) : BitVec w := v.reverse

end Sys2Proof.Machine
end

