-- ==== Sys2Proof/Machine/Ops.lean ====
section
/-! DEFINITION. The named operations the meanings share: memory (R70, R71), the memory map with its
devices (R8, R78, R97), the prefetch buffer (R96), the MMU (R84-R86), the CLU (R380), data accesses with their checks (R88), data breakpoints (R55), branches (R152), the K guard (R526),
context push (R484), soft reset (R524), hard reset (R520), taking an error or a service (R480),
taking an interrupt (R474), and the return from an event (R411). -/

namespace Sys2Proof.Machine

/-! ### Memory -/

/-- What an unlisted address reads as: its byte of `Config.unlistedWord`, little-endian (Note 1). -/
def unlistedByte (a : Nat) : Byte := fld Config.unlistedWord (8 * (a % 4)) 8

/-- One byte of memory. -/
def readCell (m : List Host.Cell) (a : Nat) : Byte :=
  match m with
  | [] => unlistedByte a
  | (k, v) :: t => if k = a then v else readCell t a

/-- One byte written; the canonical form is kept. -/
def writeCell (m : List Host.Cell) (a : Nat) (v : Byte) : List Host.Cell :=
  match m with
  | [] => if v = unlistedByte a then [] else [(a, v)]
  | (k, w) :: t =>
    if a < k then
      if v = unlistedByte a then (k, w) :: t else (a, v) :: (k, w) :: t
    else if a = k then
      if v = unlistedByte a then t else (a, v) :: t
    else (k, w) :: writeCell t a v

/-- Every address of the list is at least `lo`, they rise strictly, they are addresses (R71), and no
entry equals what the unlisted address reads as. -/
def memWfFrom (lo : Nat) (m : List Host.Cell) : Bool :=
  match m with
  | [] => true
  | (k, v) :: t => decide (lo ≤ k) && decide (k < 2 ^ 32) && decide (v ≠ unlistedByte k)
      && memWfFrom (k + 1) t

/-- The canonical form of memory. -/
def Memory.wf (m : List Host.Cell) : Bool := memWfFrom 0 m

/-- `mem[a]` (R71). -/
def read8 (m : List Host.Cell) (a : Word) : Byte := readCell m a.toNat

/-- `MemRead(a, 2)`: little-endian, addresses modulo 2^32 (R71). -/
def read16 (m : List Host.Cell) (a : Word) : Half := read8 m (a + 1#32) ++ read8 m a

/-- `MemRead(a, 4)` (R71). -/
def read32 (m : List Host.Cell) (a : Word) : Word :=
  read8 m (a + 3#32) ++ read8 m (a + 2#32) ++ read8 m (a + 1#32) ++ read8 m a

/-- `mem[a] <- v` (R71). -/
def write8 (m : List Host.Cell) (a : Word) (v : Byte) : List Host.Cell := writeCell m a.toNat v

/-- `MemWrite(a, 2, v)` (R71). -/
def write16 (m : List Host.Cell) (a : Word) (v : Half) : List Host.Cell :=
  write8 (write8 m a (fld v 0 8)) (a + 1#32) (fld v 8 8)

/-- `MemWrite(a, 4, v)` (R71). -/
def write32 (m : List Host.Cell) (a : Word) (v : Word) : List Host.Cell :=
  write8 (write8 (write8 (write8 m a (fld v 0 8)) (a + 1#32) (fld v 8 8)) (a + 2#32) (fld v 16 8))
    (a + 3#32) (fld v 24 8)

/-- `MemRead(a, n)` zero-extended (R72). -/
def loadMem (m : List Host.Cell) (w : Width) (a : Word) : Word :=
  match w with
  | .byte => (read8 m a).setWidth 32
  | .half => (read16 m a).setWidth 32
  | .word => read32 m a

/-- `MemWrite(a, n, v)`: the low bytes of `v` (R72). -/
def storeMem (m : List Host.Cell) (w : Width) (a v : Word) : List Host.Cell :=
  match w with
  | .byte => write8 m a (fld v 0 8)
  | .half => write16 m a (fld v 0 16)
  | .word => write32 m a v

/-! ### The memory map and the devices -/

/-- What stands at an address: the first region that holds it (`MEMORY_MAP`, R8). -/
def regionOf (map : List Region) (a : Word) : Option RegionKind :=
  match map with
  | [] => none
  | r :: t => if r.lo ≤ a ∧ a ≤ r.hi then some r.kind else regionOf t a

/-- Where an access goes: to memory, to a device, or to an address that is not populated. -/
inductive Place where
  | memory
  | device
  | nowhere
  deriving DecidableEq, Repr

/-- Where an access of `n` bytes at `a` goes (R78, R85): nowhere if it has a byte that is not populated
(DESIGN CHOICE, Note 31), else to a device if it has a byte in a device's region. -/
def State.place (s : State) (n : Nat) (a : Word) : Place :=
  let kinds := (List.range n).map fun k => regionOf s.map (a + BitVec.ofNat 32 k)
  if kinds.contains none then .nowhere
  else if kinds.contains (some .io) then .device
  else .memory

/-- Every byte of an access is RAM. -/
def State.allRam (s : State) (n : Nat) (a : Word) : Bool :=
  (List.range n).all fun k => regionOf s.map (a + BitVec.ofNat 32 k) == some .ram

/-- The rule covers the device access. -/
def deviceRuleFits (r : DeviceRule) (st : Nat) (write : Bool) (n : Nat) (a v : Word) : Bool :=
  decide (r.lo ≤ a) && decide (a ≤ r.hi)
    && (match r.width with
      | none => true
      | some x => x == n)
    && (match r.write with
      | none => true
      | some x => x == write)
    && (match r.wrote with
      | none => true
      | some x => x == v)
    && (match r.state with
      | none => true
      | some x => x == st)

/-- What the devices do with one access of the bus (R78, R97): the value a read answers and the state
they are left in. Note 33. -/
def deviceAccess (rules : List DeviceRule) (st : Nat) (write : Bool) (n : Nat) (a v : Word) :
    Word × Nat :=
  match rules with
  | [] => (Config.deviceValue st write n a v, Config.deviceNext st write n a v)
  | r :: t =>
    if deviceRuleFits r st write n a v then (r.answer, r.next)
    else deviceAccess t st write n a v

/-- One access of the bus, of those that make up an access of an instruction: the offset of its first
byte in that access, and the number of its bytes. -/
structure BusPart where
  off : Nat
  bytes : Nat
  deriving DecidableEq, Repr

/-- The bus accesses of an access of `n` bytes at `a` (R73, R97): one, or two where it is unaligned.
DESIGN CHOICE: the two meet at the multiple of `n`, and the lower one is first. Note 33. -/
def busParts (n : Nat) (a : Word) : List BusPart :=
  let k := n - a.toNat % n
  if a.toNat % n = 0 then [⟨0, n⟩] else [⟨0, k⟩, ⟨k, n - k⟩]

/-- A byte of this kind stands at the offset `k` of an access at `a`. -/
def State.kindIs (s : State) (a : Word) (k : Nat) (kind : RegionKind) : Bool :=
  regionOf s.map (a + BitVec.ofNat 32 k) == some kind

/-- The devices' side of one bus access of an access at `a` that writes `v` or reads: where a byte of
it is a device's, the devices see it, and its bytes that are theirs take the answer. `acc` is the
value and the device state so far. -/
def State.busAccess (s : State) (write : Bool) (a v : Word) (acc : Word × Nat) (p : BusPart) :
    Word × Nat :=
  if (List.range p.bytes).any fun j => s.kindIs a (p.off + j) .io then
    let r := deviceAccess s.devices acc.2 write p.bytes (a + BitVec.ofNat 32 p.off)
      ((fld v (8 * p.off) (8 * p.bytes)).setWidth 32)
    ((List.range p.bytes).foldl
      (fun x j =>
        if s.kindIs a (p.off + j) .io then putField x (8 * (p.off + j)) 8 (fld r.1 (8 * j) 8) else x)
      acc.1, r.2)
  else acc

/-- A read with a byte of a device (R97): the bytes of the device from its answers, the others from
memory; and the state the devices are left in. -/
def State.deviceLoad (s : State) (w : Width) (a : Word) : Word × Nat :=
  (busParts (bytesOf w) a).foldl (s.busAccess false a 0#32) (loadMem s.mem w a, s.devState)

/-- The state a write with a byte of a device leaves the devices in (R97). -/
def State.deviceStore (s : State) (w : Width) (a v : Word) : Nat :=
  ((busParts (bytesOf w) a).foldl (s.busAccess true a v) (0#32, s.devState)).2

/-- Memory after a write of the low `n` bytes of `v` at `a` (R71): those that stand in RAM are stored. A
store into ROM does not change it (DESIGN CHOICE, Note 31). -/
def State.storeRam (s : State) (n : Nat) (a v : Word) : List Host.Cell :=
  (List.range n).foldl
    (fun m k =>
      if s.kindIs a k .ram then write8 m (a + BitVec.ofNat 32 k) (fld v (8 * k) 8) else m) s.mem

/-! ### The prefetch buffer -/

/-- In the `k`-th half-word after the instruction a byte of the next `PREFETCH_BYTES` differs between
memory and `m`. -/
def State.overwrites (s : State) (m : List Host.Cell) (k : Nat) : Bool :=
  (List.range 2).any fun j =>
    let a := s.ahead + BitVec.ofNat 32 (2 * k + j)
    decide (2 * k + j < s.params.prefetchBytes) && read8 m a != read8 s.mem a

/-- The half-words a fetch may still find as they were, once the instruction has left the memory `m`:
those it changed within the next `PREFETCH_BYTES` bytes of the instruction stream (R96, U5). The
bytes are counted from the end of the instruction (Note 14). -/
def State.staleAfter (s : State) (m : List Host.Cell) : List StaleHalf :=
  s.stale ++ (List.range ((s.params.prefetchBytes + 1) / 2)).filterMap fun k =>
    let a := s.ahead + BitVec.ofNat 32 (2 * k)
    if s.overwrites m k then some ⟨a, read16 s.mem a⟩ else none

/-- Memory is now `m`. -/
def State.putMem (s : State) (m : List Host.Cell) : State :=
  { s with mem := m, stale := s.staleAfter m }

/-- The half-word a fetch finds at `a`, where memory holds `new`: that, or by a free bit one that
stood there before (U5). `n` is the number of the next draw. -/
def staleHalf (l : List StaleHalf) (a : Word) (n : Nat) (new : Half) : Half :=
  match l with
  | [] => new
  | e :: t =>
    if e.addr = a ∧ (Config.freeWord n).getLsbD 0 = true then e.old else staleHalf t a (n + 1) new

/-! ### Reads and writes of the memory system -/

/-- A read that the MMU has allowed: of memory (R71), or with bytes of a device, which may change it
(R78, R97). Refused where nothing stands (U23). -/
def State.load (s : State) (w : Width) (a : Word) : Except Refusal (Word × State) :=
  match s.place (bytesOf w) a with
  | .memory => .ok (loadMem s.mem w a, s)
  | .device => .ok ((s.deviceLoad w a).1, { s with devState := (s.deviceLoad w a).2 })
  | .nowhere => .error .unpopulated

/-- A write that the MMU has allowed: to RAM (R71), or with bytes of a device (R78, R97). Refused where
nothing stands (U23). -/
def State.store (s : State) (w : Width) (a v : Word) : Except Refusal State :=
  match s.place (bytesOf w) a with
  | .memory => .ok (s.putMem (s.storeRam (bytesOf w) a v))
  | .device =>
    .ok { s.putMem (s.storeRam (bytesOf w) a v) with devState := s.deviceStore w a v }
  | .nowhere => .error .unpopulated

/-! ### Free values -/

/-- The value read from a register some of whose FREE bits (`mask`) were last written 1: each of
those reads as an arbitrary bit, drawn afresh (U1). -/
def freeRead (mask x : Word) (s : State) : Word :=
  if x &&& mask = 0#32 then x
  else (x &&& ~~~mask) ||| (x &&& mask &&& Config.freeWord s.freeNext)

/-- The state after that read: a draw is used up where there was one. -/
def freeUsed (mask x : Word) (s : State) : State :=
  if x &&& mask = 0#32 then s else { s with freeNext := s.freeNext + 1 }

/-- FLAGS as read (R40, U1). -/
def State.flagsRead (s : State) : Word := freeRead flagsFree s.flags s
def State.flagsUsed (s : State) : State := freeUsed flagsFree s.flags s

/-- BRKE as read (R53, U1). -/
def State.brkeRead (s : State) : Word := freeRead brkeFree s.brke s
def State.brkeUsed (s : State) : State := freeUsed brkeFree s.brke s

/-! ### The MMU -/

/-- The rule covers the access. -/
def ruleFits (r : MmuRule) (m : Mode) (width : Nat) (kind : AccessKind) (a : Word) : Bool :=
  decide (r.lo ≤ a) && decide (a ≤ r.hi)
    && (match r.width with
      | none => true
      | some n => n == width)
    && (match r.kind with
      | none => true
      | some k => k == kind)
    && (match r.mode with
      | none => true
      | some x => x == m)

/-- The MMU's answer to an access (R85): the first rule that covers it, else ok. DESIGN CHOICE: R86
gives each signal one kind of access and no effect on the other kind, so `prog_error` and
`user_prog_error` to a data access or a hardware read, and `data_error` and `user_data_error` to a
fetch, count as ok where the answer is used. Note 5. -/
def mmuAnswer (rules : List MmuRule) (m : Mode) (width : Nat) (kind : AccessKind) (a : Word) :
    MmuAnswer :=
  match rules with
  | [] => .ok
  | r :: t => if ruleFits r m width kind a then r.answer else mmuAnswer t m width kind a

/-! ### Errors and traps -/

/-- The ten error kinds (R461). -/
inductive ErrorKind where
  | instructionError
  | nullPointer
  | divideByZero
  | unknownInstruction
  | alignError
  | mmuDataError
  | mmuProgError
  | mmuUserDataError
  | mmuUserProgError
  | privInstruction
  deriving DecidableEq, Repr

/-- The `_S` exception number (R461). -/
def numS (k : ErrorKind) : BitVec 5 :=
  match k with
  | .instructionError => 3#5
  | .nullPointer => 4#5
  | .divideByZero => 5#5
  | .unknownInstruction => 6#5
  | .alignError => 7#5
  | .mmuDataError => 8#5
  | .mmuProgError => 9#5
  | .mmuUserDataError => 10#5
  | .mmuUserProgError => 11#5
  | .privInstruction => 18#5

/-- The `_R` exception number (R461). The last three kinds arise in User mode only (R460) and have
none; their `_S` number stands in a place no step reaches. -/
def numR (k : ErrorKind) : BitVec 5 :=
  match k with
  | .instructionError => 19#5
  | .nullPointer => 20#5
  | .divideByZero => 21#5
  | .unknownInstruction => 22#5
  | .alignError => 23#5
  | .mmuDataError => 24#5
  | .mmuProgError => 25#5
  | .mmuUserDataError => 10#5
  | .mmuUserProgError => 11#5
  | .privInstruction => 18#5

/-- What ends an instruction's own work: an error with its ErrorPval (R462) and return address
(R482), the K guard (R526), or an access that the model refuses (U23). -/
inductive Trap where
  | error (k : ErrorKind) (pval : BitVec 4) (ret : Word)
  | stackGuard
  | refuse (r : Refusal)
  deriving DecidableEq, Repr

/-- A part of an instruction's work: done with a result, or a trap; the state holds what has been
done so far. -/
inductive Attempt (α : Type) where
  | done (a : α) (s : State)
  | trap (t : Trap) (s : State)

/-- One part of the work after another. -/
def andThen {α β : Type} (r : Attempt α) (k : α → State → Attempt β) : Attempt β :=
  match r with
  | .done a s => k a s
  | .trap t s => .trap t s

/-- `pc <- nextpc`: the end of an instruction that does not branch (R25). -/
def finish (i : Instr) (s : State) : Host.Outcome State Fault Refusal := .next (s.advance i.length)

/-- The end of an instruction that writes Rd and FLAGS. -/
def giveResult (i : Instr) (rd : Reg) (v f : Word) (s : State) :
    Host.Outcome State Fault Refusal :=
  finish i (s.result rd v f)

/-! ### Data accesses -/

/-- The checks of a data access by mode `m` (R88): NullPointer, then the MMU's answer; the user
signal counts in User mode only (R502). An answer that belongs to fetches counts as ok (DESIGN CHOICE,
Note 5). -/
def dataCheck (s : State) (m : Mode) (w : Width) (kind : AccessKind) (a : Word) :
    Option ErrorKind :=
  if a = 0#32 then some .nullPointer
  else match mmuAnswer s.mmu m (bytesOf w) kind a with
    | .dataError => some .mmuDataError
    | .userDataError => if m = .user then some .mmuUserDataError else none
    | _ => none

/-- Breakpoint `k` matches a data access of `n` bytes at `a` (R55): its read or write enable, a byte
in its word, and that byte's select bit. -/
def dataBreakAt (brke brk : Word) (k : Nat) (kind : AccessKind) (n : Nat) (a : Word) : Bool :=
  (match kind with
    | .write => brke.getLsbD (8 * k)
    | .read => brke.getLsbD (8 * k + 1)
    | .fetch => false)
  && (List.range n).any fun i =>
    let b := a + BitVec.ofNat 32 i
    fld b 2 30 == fld brk 2 30 && brke.getLsbD (8 * k + 4 + (fld b 0 2).toNat)

/-- Some data breakpoint matches the access (R55). -/
def State.dataBreak (s : State) (kind : AccessKind) (w : Width) (a : Word) : Bool :=
  dataBreakAt s.brke s.brk0 0 kind (bytesOf w) a || dataBreakAt s.brke s.brk1 1 kind (bytesOf w) a
    || dataBreakAt s.brke s.brk2 2 kind (bytesOf w) a
    || dataBreakAt s.brke s.brk3 3 kind (bytesOf w) a

/-- The access has been made: its breakpoints are looked at (R88 step 4). -/
def State.accessed (s : State) (kind : AccessKind) (w : Width) (a : Word) : State :=
  { s with breakHit := s.breakHit || s.dataBreak kind w a }

/-- `MemRead` by an instruction, its errors with ErrorPval `pval` and return address thispc (R482). -/
def readDataP (pval : BitVec 4) (w : Width) (a : Word) (s : State) : Attempt Word :=
  match dataCheck s s.mode w .read a with
  | some k => .trap (.error k pval s.pc) s
  | none =>
    match s.load w a with
    | .error r => .trap (.refuse r) s
    | .ok (v, s1) => .done v (s1.accessed .read w a)

/-- `MemRead` by an instruction (R88). -/
def readData (w : Width) (a : Word) (s : State) : Attempt Word := readDataP 0#4 w a s

/-- `MemWrite` by an instruction (R88). -/
def writeData (w : Width) (a v : Word) (s : State) : Attempt Unit :=
  match dataCheck s s.mode w .write a with
  | some k => .trap (.error k 0#4 s.pc) s
  | none =>
    match s.store w a v with
    | .error r => .trap (.refuse r) s
    | .ok s1 => .done () (s1.accessed .write w a)

/-- The stack of the current mode is enabled (R31, R526). -/
def State.spEnabled (s : State) : Bool := if s.spIsSp0 then infoK0 s.info else infoK1 s.info

/-- The K guard of an instruction that uses `%sp` (R526). -/
def spGuard (uses : Bool) (s : State) : Attempt Unit :=
  if uses && !s.spEnabled then .trap .stackGuard s else .done () s

/-- Push a word on the stack of the current mode (R154): a faulting write leaves SP. -/
def pushWord (v : Word) (s : State) : Attempt Unit :=
  andThen (writeData .word (s.sp - 4#32) v s) fun _ s1 => .done () (s1.setSp (s.sp - 4#32))

/-- Pop a word from the stack of the current mode. -/
def popWord (s : State) : Attempt Word :=
  andThen (readData .word s.sp s) fun v s1 => .done v (s1.setSp (s.sp + 4#32))

/-- `BranchTo(t)` (R152): AlignError with the even target as return address (R153), NullPointer at
thispc, else the jump. -/
def branchTo (pval : BitVec 4) (t : Word) (s : State) : Attempt Unit :=
  if t.getLsbD 0 then .trap (.error .alignError pval (t &&& 0xFFFFFFFE#32)) s
  else if t = 0#32 then .trap (.error .nullPointer pval s.pc) s
  else .done () { s with pc := t }

/-! ### Resets -/

/-- A read the hardware makes by itself (R463, R520): no NullPointer check and no breakpoint; an MMU
data error on it is refused (U22). Every other answer counts as ok: the user signals cannot be
asserted for a privileged read, and those of fetches do not belong to it (DESIGN CHOICE, Note 5). -/
def hardwareRead (s : State) (m : Mode) (a : Word) : Except Refusal (Word × State) :=
  match mmuAnswer s.mmu m 4 .read a with
  | .dataError => .error .mmuOnHardwareRead
  | _ => s.load .word a

/-- A handler's address from the vector table (R463); refused where it is odd or zero (U7). -/
def vectorAt (s : State) (m : Mode) (a : Word) : Except Refusal (Word × State) :=
  match hardwareRead s m a with
  | .error r => .error r
  | .ok (v, s1) => if v.getLsbD 0 || v == 0#32 then .error .badVector else .ok (v, s1)

/-- The VP word of a reset (R34); refused where it is no multiple of 256 (U8). -/
def resetVp (s : State) : Except Refusal (Word × State) :=
  match hardwareRead s .supervisor 0xFFFFFFFC#32 with
  | .error r => .error r
  | .ok (v, s1) => if fld v 0 8 = 0#8 then .ok (v, s1) else .error .badVectorBase

/-- VP and PC of a reset with the vector at `VP + off`. -/
def resetInto (s : State) (off : Word) : Host.Outcome State Fault Refusal :=
  match resetVp s with
  | .error r => .refused r
  | .ok (vp, s1) =>
    match vectorAt s1 .supervisor (vp + off) with
    | .error r => .refused r
    | .ok (t, s2) => .next { s2 with vp := vp, pc := t }

/-- The registers a hard reset leaves before VP and PC are loaded (R520). The prefetch buffer is empty
(D8); memory and what stands outside the core are not touched (D12 says so of the IVC and `RUN_STATE`;
of the state of a CLU and of the devices the manual says nothing: DESIGN CHOICE, Notes 6, 33). -/
def State.hardCleared (s : State) : State :=
  { s with
    regs := ⟨0#32, 0#32, 0#32, 0#32, 0#32, 0#32, 0#32, 0#32⟩
    pc := 0#32, sp0 := 0#32, sp1 := 0#32, gp := 0#32, vp := 0#32
    flags := 0#32, info := 0#32, brke := 0#32
    brk0 := 0#32, brk1 := 0#32, brk2 := 0#32, brk3 := 0#32
    exe := .awake, blkRun := 0, stale := [] }

/-- HardReset (R520): vector 1. -/
def hardReset (s : State) : Host.Outcome State Fault Refusal := resetInto s.hardCleared 4#32

/-- The error code of a soft reset (R525). -/
def softCode (type : BitVec 3) (num : BitVec 5) (info : Word) : Word :=
  (BitVec.ofBool (infoR info) ++ BitVec.ofBool (infoNL info) ++ BitVec.ofBool (infoK1 info)
    ++ BitVec.ofBool (infoK0 info) ++ BitVec.ofBool (infoSR info) ++ type ++ 0#3 ++ num).setWidth 32

/-- The registers a soft reset leaves before VP and PC are loaded (R524); `errpc` is the old PC of
R527. The prefetch buffer is empty (D8); the state of a CLU and of the devices is not touched (DESIGN
CHOICE, Notes 6, 33). -/
def State.softCleared (s : State) (type : BitVec 3) (num : BitVec 5) (errpc : Word) : State :=
  let s1 := s.flagsUsed
  { s1.brkeUsed with
    regs := { s.regs with r0 := s.flagsRead, r1 := softCode type num s.info, r2 := s1.brkeRead }
    brk0 := errpc, brk1 := s.vp, brk2 := s.gp
    flags := 0#32, brke := 0#32, gp := 0#32, info := 0x00000100#32
    exe := .awake, blkRun := 0, event := true, stale := [] }

/-- SoftReset(type, number) (R524): vector 2. -/
def softReset (type : BitVec 3) (num : BitVec 5) (errpc : Word) (s : State) :
    Host.Outcome State Fault Refusal :=
  resetInto (s.softCleared type num errpc) 8#32

/-! ### Taking an exception -/

/-- A context push: done, failed with the error of the write that failed, or refused (U23). -/
inductive Pushed where
  | ok (s : State)
  | failed (k : ErrorKind) (s : State)
  | refused (r : Refusal)

/-- One write of a context push: a privileged write in the destination mode (R484, D30). -/
def pushFrameWord (m : Mode) (a v : Word) (p : Pushed) : Pushed :=
  match p with
  | .failed k s => .failed k s
  | .refused r => .refused r
  | .ok s =>
    match dataCheck s m .word .write a with
    | some k => .failed k s
    | none =>
      match s.store .word a v with
      | .error r => .refused r
      | .ok s1 => .ok s1

/-- ContextPush (R484) on Stack0 or Stack1 for a handler in mode `m`; the stack pointer is written
last. -/
def contextPush (onStack0 : Bool) (m : Mode) (ret r1 r0 f : Word) (s : State) : Pushed :=
  let b := (if onStack0 then s.sp0 else s.sp1) - 16#32
  match pushFrameWord m b f (pushFrameWord m (b + 4#32) r0
      (pushFrameWord m (b + 8#32) r1 (pushFrameWord m (b + 12#32) ret (.ok s)))) with
  | .failed k s' => .failed k s'
  | .refused r => .refused r
  | .ok s' => .ok (if onStack0 then { s' with sp0 := b } else { s' with sp1 := b })

/-- FLAGS on every entry: C takes the old I, I and S are cleared (R451). -/
def entryFlags (f : Word) : Word := putField (putBit (putBit f 2 (flagI f)) 6 false) 24 8 0#8

/-- PC from vector number `num` (R463); the entry is made. -/
def enterVector (m : Mode) (a : Word) (s : State) : Host.Outcome State Fault Refusal :=
  match vectorAt s m a with
  | .error r => .refused r
  | .ok (t, s1) => .next { s1 with pc := t, blkRun := 0, event := true }

/-- The address of exception vector `num` (R463). -/
def exceptionVector (s : State) (num : BitVec 5) : Word := s.vp + (num ++ 0#2).setWidth 32

/-- User or Trusted mode, from which events use the `_S` and `_T` vectors (R460). -/
def isLow (m : Mode) : Bool :=
  match m with
  | .user => true
  | .trusted => true
  | _ => false

/-- Recovery or NMI state, in which an exception is a soft reset (R460). -/
def isLocked (m : Mode) : Bool :=
  match m with
  | .recovery => true
  | .nmi => true
  | _ => false

/-- The state an error handler starts in, but for PC (R480): R0, R1, FLAGS and Recovery. -/
def State.errorEntered (s : State) (low : Bool) (pval : BitVec 4) (thispc : Word) : State :=
  let f := putField (entryFlags s.flags) 12 4 pval
  { s with
    regs := { s.regs with r0 := thispc, r1 := 0#32 }
    flags := if low then putField f 4 2 0b00#2 else f
    info := if low then s.info else putBit s.info 5 true }

/-- Taking an error (R480, R483, R484). `ret` is the return address (R482), `thispc` goes to R0,
`errpc` is what a soft reset in its place reports (R527). -/
def raiseError (k : ErrorKind) (pval : BitVec 4) (ret thispc errpc : Word) (s : State) :
    Host.Outcome State Fault Refusal :=
  if isLocked s.mode then softReset 0#3 (numR k) errpc s
  else if !infoK0 s.info then softReset 2#3 1#5 errpc s
  else
    let low := isLow s.mode
    let dest : Mode := if low then .supervisor else .recovery
    match contextPush true dest ret s.regs.r1 s.regs.r0 s.flagsRead s.flagsUsed with
    | .failed _ s' => softReset 2#3 0#5 errpc s'
    | .refused r => .refused r
    | .ok s' =>
      enterVector dest (exceptionVector s' (if low then numS k else numR k))
        (s'.errorEntered low pval thispc)

/-- The state a service handler starts in, but for PC (R480): R0, R1, FLAGS; P is unchanged. -/
def State.serviceEntered (s : State) (arg : Word) : State :=
  let f := entryFlags s.flags
  { s with
    regs := { s.regs with r0 := arg, r1 := 0#32 }
    flags := if s.mode = .user then putField f 4 2 0b10#2 else f }

/-- Taking a service (R480, R481, R484): `numT` from User and Trusted mode on Stack1, `numSI` from
Supervisor and Interrupt mode on Stack0. An error of a push to Stack1 is taken in its place with
ErrorPval 1 and return address `errRet` (R482). -/
def raiseService (numT numSI : BitVec 5) (arg ret errRet thispc errpc : Word) (s : State) :
    Host.Outcome State Fault Refusal :=
  if isLocked s.mode then softReset 0#3 numSI errpc s
  else if isLow s.mode then
    if !infoK0 s.info || !infoK1 s.info then softReset 3#3 1#5 errpc s
    else match contextPush false .trusted ret s.regs.r1 s.regs.r0 s.flagsRead s.flagsUsed with
      | .failed k s' => raiseError k 1#4 errRet thispc errpc s'
      | .refused r => .refused r
      | .ok s' => enterVector .trusted (exceptionVector s' numT) (s'.serviceEntered arg)
  else if !infoK0 s.info then softReset 2#3 1#5 errpc s
  else match contextPush true s.mode ret s.regs.r1 s.regs.r0 s.flagsRead s.flagsUsed with
    | .failed _ s' => softReset 2#3 0#5 errpc s'
    | .refused r => .refused r
    | .ok s' => enterVector s.mode (exceptionVector s' numSI) (s'.serviceEntered arg)

/-- A trap of the instruction at `s.pc`. -/
def takeTrap (t : Trap) (s : State) : Host.Outcome State Fault Refusal :=
  match t with
  | .error k pval ret => raiseError k pval ret s.pc s.pc s
  | .stackGuard => softReset (if s.spIsSp0 then 2#3 else 3#3) 2#5 s.pc s
  | .refuse r => .refused r

/-- The end of an instruction whose work stands in the state. -/
def settle (r : Attempt Unit) : Host.Outcome State Fault Refusal :=
  match r with
  | .done _ s => .next s
  | .trap t s => takeTrap t s

/-- An error of the instruction at `s.pc` that returns to it (R482). -/
def errorHere (k : ErrorKind) (pval : BitVec 4) (s : State) : Host.Outcome State Fault Refusal :=
  takeTrap (.error k pval s.pc) s

/-- A privileged instruction (R453): PrivInstruction in User mode, before its other checks (D23), with
the ErrorPval `pval` (R462). -/
def privilegedP (pval : BitVec 4) (s : State) (body : Host.Outcome State Fault Refusal) :
    Host.Outcome State Fault Refusal :=
  if s.isUser then errorHere .privInstruction pval s else body

/-- A privileged instruction other than `rtie`. -/
def privileged (s : State) (body : Host.Outcome State Fault Refusal) :
    Host.Outcome State Fault Refusal :=
  privilegedP 0#4 s body

/-! ### Interrupts -/

/-- Acceptance of the request presented (R473): in NMI state and with K0 clear nothing; numbers 0 to
3 otherwise; the others with I set outside Recovery, in Interrupt mode only a more important one. -/
def acceptIrq (s : State) (num : BitVec 5) (prio : BitVec 4) : Bool :=
  if infoNL s.info || !infoK0 s.info then false
  else if num ≤ 3#5 then true
  else flagI s.flags && !infoR s.info
    && (flagM s.flags != 0b01#2 || decide (prio < flagP s.flags))

/-- The state an interrupt handler starts in, but for PC (R474): R0 and R1 are not changed. -/
def State.interruptEntered (s : State) (nmi : Bool) (prio : BitVec 4) : State :=
  let f := putField (entryFlags s.flags) 12 4 (if nmi then 0#4 else prio)
  { s with
    flags := if nmi then f else putField f 4 2 0b01#2
    info := if nmi then putBit s.info 4 true else s.info }

/-- Interrupt entry (R474): the frame on Stack0 with PC as return address, vector at
VP + 0x80 + 4 * number. -/
def interruptEntry (num : BitVec 5) (prio : BitVec 4) (s : State) :
    Host.Outcome State Fault Refusal :=
  let nmi := decide (num ≤ 3#5)
  let dest : Mode := if nmi then .nmi else .interrupt
  match contextPush true dest s.pc s.regs.r1 s.regs.r0 s.flagsRead s.flagsUsed with
  | .failed _ s' => softReset 2#3 0#5 s.pc s'
  | .refused r => .refused r
  | .ok s' =>
    enterVector dest (s'.vp + 0x80#32 + (num ++ 0#2).setWidth 32) (s'.interruptEntered nmi prio)

/-! ### Break events and single step -/

/-- The Break_T service (R492): B is set in User mode. -/
def breakServed (s : State) : Bool := s.isUser && (flagP s.flags).getLsbD 0

/-- Taking Break_T (R492): R0 is the address of the instruction that caused it. -/
def takeBreak (ret errRet thispc errpc : Word) (s : State) : Host.Outcome State Fault Refusal :=
  raiseService 17#5 17#5 thispc ret errRet thispc errpc s

/-- Taking SingleStep (R491) after the instruction at `thispc`. -/
def takeSingleStep (thispc : Word) (s : State) : Host.Outcome State Fault Refusal :=
  raiseService 16#5 16#5 thispc s.pc s.pc thispc s.pc s

/-- An execute breakpoint matches the instruction at PC (R55, D14). -/
def State.execBreak (s : State) : Bool :=
  let hit (k : Nat) (brk : Word) : Bool :=
    s.brke.getLsbD (8 * k + 2) && (s.pc == brk &&& 0xFFFFFFFE#32)
  hit 0 s.brk0 || hit 1 s.brk1 || hit 2 s.brk2 || hit 3 s.brk3

/-! ### The return from an event -/

/-- What `rtie` commits (R411): NL or R cleared by the state it runs in, the stack pointer it used,
FLAGS, R0, R1. -/
def State.returned (s : State) (f r0 r1 : Word) : State :=
  let s1 := s.setSp (s.sp + 16#32)
  { s1 with
    info := if infoNL s.info then putBit s.info 4 false
      else if infoR s.info then putBit s.info 5 false else s.info
    flags := f
    regs := { s.regs with r0 := r0, r1 := r1 } }

/-- The return from an event (R411, R505): four reads of the frame, then the commit, then the branch
in the restored mode; every error carries ErrorPval 2 (R462). -/
def returnFromEvent (s : State) : Attempt Unit :=
  match readDataP 2#4 .word s.sp s with
  | .trap t s' => .trap t s'
  | .done f s1 =>
    match readDataP 2#4 .word (s.sp + 4#32) s1 with
    | .trap t s' => .trap t s'
    | .done r0 s2 =>
      match readDataP 2#4 .word (s.sp + 8#32) s2 with
      | .trap t s' => .trap t s'
      | .done r1 s3 =>
        match readDataP 2#4 .word (s.sp + 12#32) s3 with
        | .trap t s' => .trap t s'
        | .done target s4 => branchTo 2#4 target (s4.returned f r0 r1)

/-! ### Fetch -/

/-- The MMU's answer to the fetch of one half-word (R86). An answer that belongs to data accesses
counts as ok (DESIGN CHOICE, Note 5). -/
def fetchCheck (s : State) (a : Word) : Option ErrorKind :=
  match mmuAnswer s.mmu s.mode 2 .fetch a with
  | .progError => some .mmuProgError
  | .userProgError => if s.mode = .user then some .mmuUserProgError else none
  | _ => none

/-- What the fetch of a half-word comes to. -/
inductive FetchedHalf where
  | half (h : Half) (s : State)
  | failed (k : ErrorKind) (s : State)
  | refused (r : Refusal)

/-- The fetch of one half-word (R74): the MMU's check, then the half-word in memory, or one the
prefetch buffer may still hold (R96), each with its own draws. -/
def fetchHalf (s : State) (a : Word) : FetchedHalf :=
  match fetchCheck s a with
  | some k => .failed k s
  | none =>
    match s.load .half a with
    | .error r => .refused r
    | .ok (v, s1) =>
      .half (staleHalf s.stale a s.freeNext (fld v 0 16))
        { s1 with freeNext := s.freeNext + s.stale.length }

/-- What the fetch of an instruction comes to; the state is that after the fetch. -/
inductive Fetched where
  | instr (i : Instr) (s : State)
  | unknown (s : State)
  | failed (k : ErrorKind) (s : State)
  | refused (r : Refusal)

/-- The fetch goes on with the half-word, or ends. -/
def withHalf (r : FetchedHalf) (k : Half → State → Fetched) : Fetched :=
  match r with
  | .half h s => k h s
  | .failed e s => .failed e s
  | .refused x => .refused x

/-- The instruction is known, and with its length where the stream goes on after it. -/
def State.fetched (s : State) (i : Instr) : State := { s with ahead := s.pc + i.length }

/-- The half-words are there: what they decode to. -/
def fetchDecode (h0 h1 h2 : Half) (s : State) : Fetched :=
  match decode s.params h0 h1 h2 with
  | .ok i => .instr i (s.fetched i)
  | .error _ => .unknown s

/-- The fetch of the instruction at PC (R74, R131): its half-words in ascending order, as many as the
length rule says; the first that cannot be fetched ends it. -/
def fetch (s : State) : Fetched :=
  withHalf (fetchHalf s s.pc) fun h0 s0 =>
    match sizeOf h0 with
    | .two => fetchDecode h0 0#16 0#16 s0
    | .four => withHalf (fetchHalf s0 (s.pc + 2#32)) fun h1 s1 => fetchDecode h0 h1 0#16 s1
    | .six =>
      withHalf (fetchHalf s0 (s.pc + 2#32)) fun h1 s1 =>
        withHalf (fetchHalf s1 (s.pc + 4#32)) fun h2 s2 => fetchDecode h0 h1 h2 s2

/-- The six bytes of a word stored at the fetch address, the first at PC. -/
def storeFetch (m : List Host.Cell) (pc : Word) (nbits w : Nat) : List Host.Cell :=
  write8 (write8 (write8 (write8 (write8 (write8 m pc (tableByte nbits w 0))
    (pc + 1#32) (tableByte nbits w 1)) (pc + 2#32) (tableByte nbits w 2))
    (pc + 3#32) (tableByte nbits w 3)) (pc + 4#32) (tableByte nbits w 4))
    (pc + 5#32) (tableByte nbits w 5)

end Sys2Proof.Machine
end

