-- ==== Sys2Proof/Machine/Alu.lean ====
section
/-! DEFINITION. The ALU instructions (44_alu.md). Sources are read before Rd is written (R260). -/

namespace Sys2Proof.Machine

/-! ### Shared by the family -/

/-- Rd and Z, N, C, V from an addition or subtraction (R261, R262). -/
def arithTo (i : Instr) (rd : Reg) (x : Arith 32) (s : State) : Host.Outcome State Fault Refusal :=
  giveResult i rd x.r (arithFlags s.flags x) s

/-- The same with carry in: Z is sticky (R263). -/
def arithStickyTo (i : Instr) (rd : Reg) (x : Arith 32) (s : State) :
    Host.Outcome State Fault Refusal :=
  giveResult i rd x.r (arithFlagsSticky s.flags x) s

/-- Rd, Z and N from a logical operation or a multiplication (R264). -/
def logicTo (i : Instr) (rd : Reg) (v : Word) (s : State) : Host.Outcome State Fault Refusal :=
  giveResult i rd v (setZN s.flags v) s

/-- `add.i Rd, %sp, #imm` (R265). -/
def addFromSp (i : Instr) (rd : Reg) (imm : Word) (s : State) : Host.Outcome State Fault Refusal :=
  settle (andThen (spGuard true s) fun _ s1 =>
    .done () ((s1.result rd (addC s.sp imm false).r
      (arithFlags s1.flags (addC s.sp imm false))).advance i.length))

/-- `add.i %sp, %sp, #imm` (R265): no flags. -/
def addToSp (i : Instr) (imm : Word) (s : State) : Host.Outcome State Fault Refusal :=
  settle (andThen (spGuard true s) fun _ s1 =>
    .done () ((s1.setSp (s.sp + imm)).advance i.length))

/-- A bit sequence that does not fit the word is an InstructionError (R275). -/
def andSeq (i : Instr) (rd rs : Reg) (size lsb : BitVec 5) (mask : Word) (s : State) :
    Host.Outcome State Fault Refusal :=
  if seqOk size lsb then logicTo i rd (s.reg rs &&& mask) s
  else errorHere .instructionError 0#4 s

/-- The end of a division whose results stand in `s`: DivideByZero returns past the instruction
(R287, D19, R482). -/
def divideEnd (i : Instr) (byZero : Bool) (s : State) : Host.Outcome State Fault Refusal :=
  if byZero then takeTrap (.error .divideByZero 0#4 (s.pc + i.length)) s else finish i s

/-- FLAGS after a signed division: Z, N from the result, V (R288, R290). -/
def divSFlags (f r : Word) (v : Bool) : Word := putBit (setZN f r) 3 v

/-- FLAGS after an unsigned division: Z, N from the result, C (R289, R291). -/
def divUFlags (f r : Word) (c : Bool) : Word := putBit (setZN f r) 2 c

/-- The low 16 bits of a register. -/
def State.half (s : State) (r : Reg) : Half := fld (s.reg r) 0 16

/-- The signed product of two half-words (R283, R284). -/
def mul16S (a b : Half) : Word := BitVec.ofInt 32 (a.toInt * b.toInt)

/-- The unsigned product of two half-words (R285, R286). -/
def mul16U (a b : Half) : Word := BitVec.ofNat 32 (a.toNat * b.toNat)

/-- The immediate of a 16-bit `add.i` row (R265): 1 for sub-opcode 0001 and all ones for 0101, the
other way round where `ADDI16_SWAP` says so (U13). -/
def rowImm (s : State) (rowB : Bool) : Word :=
  if s.params.addi16Swap == rowB then 1#32 else 0xFFFFFFFF#32

/-! ### Add -/

/-- `add.i` (R265). -/
def execAddI (f : AddIForm) (s : State) : Host.Outcome State Fault Refusal :=
  match f with
  | .imm rd rs v => arithTo (.addI f) rd (addC (s.reg rs) (Imm.sext v) false) s
  | .sp rd v => addFromSp (.addI f) rd (Imm.sext v) s
  | .spsp48 v => addToSp (.addI f) (v ++ 0#2) s
  | .spsp32 v => addToSp (.addI f) ((v ++ 0#2).signExtend 32) s
  | .short rd v => arithTo (.addI f) rd (addC (s.reg rd) (v.signExtend 32) false) s
  | .spShort rd v => addFromSp (.addI f) rd (v.setWidth 32) s
  | .spspShort v => addToSp (.addI f) ((v ++ 0#2).signExtend 32) s
  | .rowA rd rs => arithTo (.addI f) rd (addC (s.reg rs) (rowImm s false) false) s
  | .rowB rd rs => arithTo (.addI f) rd (addC (s.reg rs) (rowImm s true) false) s

/-- `add.c.i` (R266). -/
def execAddCI (f : AddCIForm) (s : State) : Host.Outcome State Fault Refusal :=
  match f with
  | .imm rd rs v =>
    arithStickyTo (.addCI f) rd (addC (s.reg rs) (Imm.sext v) (flagC s.flags)) s
  | .short rd v =>
    arithStickyTo (.addCI f) rd (addC (s.reg rd) (v.signExtend 32) (flagC s.flags)) s
  | .zero rd rs => arithStickyTo (.addCI f) rd (addC (s.reg rs) 0#32 (flagC s.flags)) s
  | .one rd rs => arithStickyTo (.addCI f) rd (addC (s.reg rs) 1#32 (flagC s.flags)) s
  | .minusOne rd rs =>
    arithStickyTo (.addCI f) rd (addC (s.reg rs) 0xFFFFFFFF#32 (flagC s.flags)) s

/-- `add.n.i` (R267). -/
def execAddNI (rd rs : Reg) (v : Imm) (s : State) : Host.Outcome State Fault Refusal :=
  logicTo (.addNI rd rs v) rd (addC (s.reg rs) (Imm.sext v) false).r s

/-- `add.r` (R268). -/
def execAddR (rd rs rt : Reg) (s : State) : Host.Outcome State Fault Refusal :=
  arithTo (.addR rd rs rt) rd (addC (s.reg rs) (s.reg rt) false) s

/-- `add.c.r` (R269). -/
def execAddCR (rd rs rt : Reg) (s : State) : Host.Outcome State Fault Refusal :=
  arithStickyTo (.addCR rd rs rt) rd (addC (s.reg rs) (s.reg rt) (flagC s.flags)) s

/-- `add.n.r` (R270). -/
def execAddNR (rd rs rt : Reg) (s : State) : Host.Outcome State Fault Refusal :=
  logicTo (.addNR rd rs rt) rd (addC (s.reg rs) (s.reg rt) false).r s

/-! ### Subtract -/

/-- `sub.r` (R271). -/
def execSubR (rd rs rt : Reg) (s : State) : Host.Outcome State Fault Refusal :=
  arithTo (.subR rd rs rt) rd (subC (s.reg rs) (s.reg rt) false) s

/-- `sub.c.r` (R272). -/
def execSubCR (rd rs rt : Reg) (s : State) : Host.Outcome State Fault Refusal :=
  arithStickyTo (.subCR rd rs rt) rd (subC (s.reg rs) (s.reg rt) (flagC s.flags)) s

/-- `sub.x.i` (R273): the immediate is the minuend. -/
def execSubXI (f : SubXForm) (s : State) : Host.Outcome State Fault Refusal :=
  match f with
  | .imm rd rs v => arithTo (.subXI f) rd (subC (Imm.sext v) (s.reg rs) false) s
  | .zero rd rs => arithTo (.subXI f) rd (subC 0#32 (s.reg rs) false) s

/-- `sub.xc.i` (R274). -/
def execSubXcI (f : SubXForm) (s : State) : Host.Outcome State Fault Refusal :=
  match f with
  | .imm rd rs v =>
    arithStickyTo (.subXcI f) rd (subC (Imm.sext v) (s.reg rs) (flagC s.flags)) s
  | .zero rd rs => arithStickyTo (.subXcI f) rd (subC 0#32 (s.reg rs) (flagC s.flags)) s

/-! ### Logical -/

/-- `and.i` (R275). -/
def execAndI (f : AndIForm) (s : State) : Host.Outcome State Fault Refusal :=
  match f with
  | .imm rd rs v => logicTo (.andI f) rd (s.reg rs &&& Imm.zext v) s
  | .setBits rd rs size lsb => andSeq (.andI f) rd rs size lsb (seqMask size lsb) s
  | .clearBits rd rs size lsb => andSeq (.andI f) rd rs size lsb (~~~(seqMask size lsb)) s
  | .short rd v => logicTo (.andI f) rd (s.reg rd &&& v.signExtend 32) s
  | .one rd rs => logicTo (.andI f) rd (s.reg rs &&& 1#32) s
  | .ff rd rs => logicTo (.andI f) rd (s.reg rs &&& 0xFF#32) s
  | .ffff rd rs => logicTo (.andI f) rd (s.reg rs &&& 0xFFFF#32) s

/-- `and.r` (R276). -/
def execAndR (rd rs rt : Reg) (s : State) : Host.Outcome State Fault Refusal :=
  logicTo (.andR rd rs rt) rd (s.reg rs &&& s.reg rt) s

/-- `or.i` (R277). -/
def execOrI (f : OrIForm) (s : State) : Host.Outcome State Fault Refusal :=
  match f with
  | .imm rd rs v => logicTo (.orI f) rd (s.reg rs ||| Imm.zext v) s
  | .short rd v => logicTo (.orI f) rd (s.reg rd ||| v.signExtend 32) s
  | .one rd rs => logicTo (.orI f) rd (s.reg rs ||| 1#32) s

/-- `or.r` (R278). -/
def execOrR (rd rs rt : Reg) (s : State) : Host.Outcome State Fault Refusal :=
  logicTo (.orR rd rs rt) rd (s.reg rs ||| s.reg rt) s

/-- `xor.i` (R279). -/
def execXorI (f : XorIForm) (s : State) : Host.Outcome State Fault Refusal :=
  match f with
  | .imm rd rs v => logicTo (.xorI f) rd (s.reg rs ^^^ Imm.zext v) s
  | .short rd v => logicTo (.xorI f) rd (s.reg rd ^^^ v.signExtend 32) s
  | .one rd rs => logicTo (.xorI f) rd (s.reg rs ^^^ 1#32) s
  | .minusOne rd rs => logicTo (.xorI f) rd (s.reg rs ^^^ 0xFFFFFFFF#32) s

/-- `xor.r` (R280). -/
def execXorR (rd rs rt : Reg) (s : State) : Host.Outcome State Fault Refusal :=
  logicTo (.xorR rd rs rt) rd (s.reg rs ^^^ s.reg rt) s

/-! ### Multiply -/

/-- `mult.i` (R281). -/
def execMultI (rd rs : Reg) (v : Imm) (s : State) : Host.Outcome State Fault Refusal :=
  logicTo (.multI rd rs v) rd (s.reg rs * Imm.sext v) s

/-- `mult.r` (R282). -/
def execMultR (rd rs rt : Reg) (s : State) : Host.Outcome State Fault Refusal :=
  logicTo (.multR rd rs rt) rd (s.reg rs * s.reg rt) s

/-- `mult.16s.i` (R283). -/
def execMult16sI (rd rs : Reg) (v : BitVec 16) (s : State) : Host.Outcome State Fault Refusal :=
  logicTo (.mult16sI rd rs v) rd (mul16S (s.half rs) v) s

/-- `mult.16s.r` (R284). -/
def execMult16sR (rd rs rt : Reg) (s : State) : Host.Outcome State Fault Refusal :=
  logicTo (.mult16sR rd rs rt) rd (mul16S (s.half rs) (s.half rt)) s

/-- `mult.16u.i` (R285). -/
def execMult16uI (rd rs : Reg) (v : BitVec 16) (s : State) : Host.Outcome State Fault Refusal :=
  logicTo (.mult16uI rd rs v) rd (mul16U (s.half rs) v) s

/-- `mult.16u.r` (R286). -/
def execMult16uR (rd rs rt : Reg) (s : State) : Host.Outcome State Fault Refusal :=
  logicTo (.mult16uR rd rs rt) rd (mul16U (s.half rs) (s.half rt)) s

/-! ### Divide -/

/-- `div.s.r` (R288). -/
def execDivSR (rd rs rt : Reg) (s : State) : Host.Outcome State Fault Refusal :=
  let d := divS (s.reg rs) (s.reg rt)
  divideEnd (.divSR rd rs rt) d.byZero (s.result rd d.q (divSFlags s.flags d.q d.bad))

/-- `div.u.r` (R289). -/
def execDivUR (rd rs rt : Reg) (s : State) : Host.Outcome State Fault Refusal :=
  let d := divU (s.reg rs) (s.reg rt)
  divideEnd (.divUR rd rs rt) d.byZero (s.result rd d.q (divUFlags s.flags d.q d.bad))

/-- `rem.s.r` (R290). -/
def execRemSR (rd rs rt : Reg) (s : State) : Host.Outcome State Fault Refusal :=
  let d := divS (s.reg rs) (s.reg rt)
  divideEnd (.remSR rd rs rt) d.byZero (s.result rd d.m (divSFlags s.flags d.m d.bad))

/-- `rem.u.r` (R291). -/
def execRemUR (rd rs rt : Reg) (s : State) : Host.Outcome State Fault Refusal :=
  let d := divU (s.reg rs) (s.reg rt)
  divideEnd (.remUR rd rs rt) d.byZero (s.result rd d.m (divUFlags s.flags d.m d.bad))

/-- `divrem.s.r` (R292): Rdr and Rdq equal is an InstructionError; only V is written. -/
def execDivremSR (rdr rdq rt : Reg) (s : State) : Host.Outcome State Fault Refusal :=
  if rdr = rdq then errorHere .instructionError 0#4 s
  else
    let d := divS (s.reg rdq) (s.reg rt)
    divideEnd (.divremSR rdr rdq rt) d.byZero
      (((s.setReg rdq d.q).setReg rdr d.m).setFlags (putBit s.flags 3 d.bad))

/-- `divrem.u.r` (R293): only C is written. -/
def execDivremUR (rdr rdq rt : Reg) (s : State) : Host.Outcome State Fault Refusal :=
  if rdr = rdq then errorHere .instructionError 0#4 s
  else
    let d := divU (s.reg rdq) (s.reg rt)
    divideEnd (.divremUR rdr rdq rt) d.byZero
      (((s.setReg rdq d.q).setReg rdr d.m).setFlags (putBit s.flags 2 d.bad))

end Sys2Proof.Machine
end

