-- ==== Sys2Proof/Machine/Block.lean ====
section
/-! DEFINITION. Block copy and block store (47_block.md): one byte is one atom and one step (R361,
D13). The immediate-count forms keep the bytes done in FLAGS.S, the register-count forms count Rn
down. Notes 11, 12, 13. -/

namespace Sys2Proof.Machine

/-! ### Shared by the family -/

/-- An arbitrary value goes to a register (R364). -/
def State.drawReg (s : State) (r : Reg) : State :=
  { s.setReg r (Config.freeWord s.freeNext) with freeNext := s.freeNext + 1 }

/-- What completion leaves in the address and count registers (R364): arbitrary values, or what the
loop left where `BLK_END_STATE` is `pseudocode` (U18). -/
def State.blkRegsEnd (s : State) (ends : List Reg) : State :=
  if s.params.blkEndAny then ends.foldl State.drawReg s else s

/-- FLAGS.S set to `n` (R43). -/
def State.setDone (s : State) (n : Nat) : State :=
  s.setFlags (putField s.flags 24 8 (BitVec.ofNat 8 n))

/-- Completion: S is 0, the registers are as R364 says, `pc <- nextpc` (R361). -/
def blkEnd (i : Instr) (ends : List Reg) (s : State) : State :=
  ({ (s.setDone 0).blkRegsEnd ends with blkRun := 0 }).advance i.length

/-- One more byte is done and the instruction goes on. -/
def State.blkMore (s : State) : State := { s with blkRun := s.blkRun + 1 }

/-- One atom of an immediate-count instruction (R361). -/
def blkImmStep (i : Instr) (num : BitVec 8) (ends : List Reg) (atom : State → Attempt Unit)
    (s : State) : Attempt Unit :=
  let done := (flagS s.flags).toNat
  if done < blkCount num then
    andThen (atom s) fun _ s1 =>
      if done + 1 < blkCount num then .done () (s1.setDone (done + 1)).blkMore
      else .done () (blkEnd i ends s1)
  else .done () (blkEnd i ends s)

/-- One atom of a register-count instruction (R361). -/
def blkRegStep (i : Instr) (rn : Reg) (ends : List Reg) (atom : State → Attempt Unit) (s : State) :
    Attempt Unit :=
  let left := s.reg rn
  if left = 0#32 then .done () (blkEnd i ends s)
  else
    andThen (atom s) fun _ s1 =>
      if left = 1#32 then .done () (blkEnd i ends (s1.setReg rn 0#32))
      else .done () (s1.setReg rn (left - 1#32)).blkMore

/-- The byte just read was written by this same run 1 to 3 bytes below, so that a wider access would
have read it before (R362, U17). -/
def State.overlaps (s : State) (rad ras : Reg) : Bool :=
  let d := s.reg rad - s.reg ras
  (d == 1#32 || d == 2#32 || d == 3#32) && decide (d.toNat ≤ s.blkRun)

/-- The byte a copy stores: the byte read, or any byte in the overlap of U17. -/
def State.copied (s : State) (rad ras : Reg) (b : Word) : Word :=
  if s.overlaps rad ras then (Config.freeByte s.freeNext).setWidth 32 else b

/-- The state after that choice. -/
def State.copyDrawn (s : State) (drawn : Bool) : State :=
  if drawn then { s with freeNext := s.freeNext + 1 } else s

/-- A device has been accessed by a block instruction: the number and width of the accesses is not
fixed, so its state is an arbitrary one (U17). -/
def State.scrambled (s : State) : State :=
  { s with devState := Config.freeNat s.freeNext, freeNext := s.freeNext + 1 }

/-- The byte read by a block instruction: one from a device is an arbitrary byte (U17). -/
def blkRead (a : Word) (s : State) : Attempt Word :=
  andThen (readData .byte a s) fun b s1 =>
    if s.place 1 a = .device then .done ((Config.freeByte s1.freeNext).setWidth 32) s1.scrambled
    else .done b s1

/-- A byte written by a block instruction. -/
def blkWrite (a v : Word) (s : State) : Attempt Unit :=
  andThen (writeData .byte a v s) fun _ s1 =>
    .done () (if s.place 1 a = .device then s1.scrambled else s1)

/-- The atom of a copy (R361). -/
def copyAtom (rad ras : Reg) (s : State) : Attempt Unit :=
  andThen (blkRead (s.reg ras) s) fun b s1 =>
    andThen (blkWrite (s.reg rad) (s1.copied rad ras b) (s1.copyDrawn (s1.overlaps rad ras)))
      fun _ s2 =>
        .done () ((s2.setReg ras (s.reg ras + 1#32)).setReg rad (s.reg rad + 1#32))

/-- The atom of a block store (R361). -/
def storeAtom (ra : Reg) (v : Word) (s : State) : Attempt Unit :=
  andThen (blkWrite (s.reg ra) v s) fun _ s1 => .done () (s1.setReg ra (s.reg ra + 1#32))

/-- The low byte of a word in all four bytes (R366). -/
def replicate (v : Word) : Word := fld v 0 8 ++ fld v 0 8 ++ fld v 0 8 ++ fld v 0 8

/-- A register source is replicated before the first atom, also for the count 0 (R366). -/
def State.sourced (s : State) (src : BlkSrc) : State :=
  match src with
  | .reg rs => s.setReg rs (replicate (s.reg rs))
  | .zero => s
  | .ones => s

/-- The byte a block store writes (R367). -/
def State.blkByte (s : State) (src : BlkSrc) : Word :=
  match src with
  | .reg rs => s.reg rs
  | .zero => 0#32
  | .ones => 0xFF#32

/-- The source is this register. -/
def srcIs (src : BlkSrc) (r : Reg) : Bool :=
  match src with
  | .reg rs => rs == r
  | .zero => false
  | .ones => false

/-- A register named twice is an InstructionError (R363). -/
def checkRegs (clash : Bool) (s : State) (r : Attempt Unit) : Host.Outcome State Fault Refusal :=
  if clash then errorHere .instructionError 0#4 s else settle r

/-! ### The instructions -/

/-- `blkcp.i` (R365). -/
def execBlkcpI (rad ras : Reg) (num : BitVec 8) (s : State) : Host.Outcome State Fault Refusal :=
  checkRegs (rad == ras) s
    (blkImmStep (.blkcpI rad ras num) num [rad, ras] (copyAtom rad ras) s)

/-- `blkcp.r` (R366). -/
def execBlkcpR (rad ras rn : Reg) (s : State) : Host.Outcome State Fault Refusal :=
  checkRegs (rad == ras || rad == rn || ras == rn) s
    (blkRegStep (.blkcpR rad ras rn) rn [rad, ras, rn] (copyAtom rad ras) s)

/-- `blkst.8.i` (R367). -/
def execBlkst8I (src : BlkSrc) (ra : Reg) (num : BitVec 8) (s : State) :
    Host.Outcome State Fault Refusal :=
  checkRegs (srcIs src ra) s
    (blkImmStep (.blkst8I src ra num) num [ra] (storeAtom ra (s.blkByte src)) (s.sourced src))

/-- `blkst.8.r` (R368). -/
def execBlkst8R (src : BlkSrc) (ra rn : Reg) (s : State) : Host.Outcome State Fault Refusal :=
  checkRegs (srcIs src ra || srcIs src rn || ra == rn) s
    (blkRegStep (.blkst8R src ra rn) rn [ra, rn] (storeAtom ra (s.blkByte src)) (s.sourced src))

end Sys2Proof.Machine
end

