-- ==== Sys2Proof/Machine/Branch.lean ====
section
/-! DEFINITION. The branch instructions (40_branches.md). -/

namespace Sys2Proof.Machine

/-! ### Shared by the family -/

/-- The jump to the word `v` read at the table address `addr` (R158): AlignError with the even
target as return address where the address is no multiple of 4 or the word is odd (R153). -/
def tableJump (addr v : Word) (s : State) : Attempt Unit :=
  if fld addr 0 2 != 0#2 || v.getLsbD 0 then
    .trap (.error .alignError 0#4 (v &&& 0xFFFFFFFE#32)) s
  else branchTo 0#4 v s

/-- A conditional branch (R161): the target where the condition holds, else the next instruction. -/
def branchIf (c : Bool) (t : Word) (i : Instr) (s : State) : Host.Outcome State Fault Refusal :=
  if c then settle (branchTo 0#4 t s) else finish i s

/-- FLAGS after `bez.r` and `bnz.r` (R179, R180). -/
def testFlags (f v : Word) : Word := putZNCV f (v == 0#32) (v.getLsbD 31) false false

/-! ### Unconditional branches and calls -/

/-- `bra.i` (R156). -/
def execBraI (f : JumpForm) (s : State) : Host.Outcome State Fault Refusal :=
  settle (branchTo 0#4 (s.jumpTarget f) s)

/-- `bsr.i` (R157): the return address is pushed (R154), then the branch. -/
def execBsrI (f : JumpForm) (s : State) : Host.Outcome State Fault Refusal :=
  settle (andThen (spGuard true s) fun _ s1 =>
    andThen (pushWord (s.pc + (Instr.bsrI f).length) s1) fun _ s2 =>
      branchTo 0#4 (s.jumpTarget f) s2)

/-- `bra.m` (R158). -/
def execBraM (f : TableForm) (s : State) : Host.Outcome State Fault Refusal :=
  settle (andThen (readData .word (s.tableAddr f) s) fun v s1 => tableJump (s.tableAddr f) v s1)

/-- `bsr.m` (R159): push, table read, branch. A fault of the table read leaves SP as before the
instruction and the pushed word in memory (D6). -/
def execBsrM (f : TableForm) (s : State) : Host.Outcome State Fault Refusal :=
  settle (andThen (spGuard true s) fun _ s1 =>
    andThen (pushWord (s.pc + (Instr.bsrM f).length) s1) fun _ s2 =>
      match readData .word (s.tableAddr f) s2 with
      | .trap t s3 => .trap t (s3.setSp s.sp)
      | .done v s3 => tableJump (s.tableAddr f) v s3)

/-! ### Flag-conditional branches -/

/-- `beq` (R164). -/
def execBeq (f : CondForm) (s : State) : Host.Outcome State Fault Refusal :=
  branchIf (flagZ s.flags) (s.condTarget f) (.beq f) s

/-- `bne` (R165). -/
def execBne (f : CondForm) (s : State) : Host.Outcome State Fault Refusal :=
  branchIf (!flagZ s.flags) (s.condTarget f) (.bne f) s

/-- `ble.s` (R166). -/
def execBleS (f : CondForm) (s : State) : Host.Outcome State Fault Refusal :=
  branchIf (flagN s.flags != flagV s.flags || flagZ s.flags) (s.condTarget f) (.bleS f) s

/-- `bgt.s` (R167). -/
def execBgtS (f : CondForm) (s : State) : Host.Outcome State Fault Refusal :=
  branchIf (flagN s.flags == flagV s.flags && !flagZ s.flags) (s.condTarget f) (.bgtS f) s

/-- `blt.s` (R168). -/
def execBltS (f : CondForm) (s : State) : Host.Outcome State Fault Refusal :=
  branchIf (flagN s.flags != flagV s.flags) (s.condTarget f) (.bltS f) s

/-- `bge.s` (R169). -/
def execBgeS (f : CondForm) (s : State) : Host.Outcome State Fault Refusal :=
  branchIf (flagN s.flags == flagV s.flags) (s.condTarget f) (.bgeS f) s

/-- `ble.u` (R170). -/
def execBleU (f : CondForm) (s : State) : Host.Outcome State Fault Refusal :=
  branchIf (flagC s.flags || flagZ s.flags) (s.condTarget f) (.bleU f) s

/-- `bgt.u` (R171). -/
def execBgtU (f : CondForm) (s : State) : Host.Outcome State Fault Refusal :=
  branchIf (!flagC s.flags && !flagZ s.flags) (s.condTarget f) (.bgtU f) s

/-- `bcs` (R163). -/
def execBcs (f : CondForm) (s : State) : Host.Outcome State Fault Refusal :=
  branchIf (flagC s.flags) (s.condTarget f) (.bcs f) s

/-- `bcc` (R162). -/
def execBcc (f : CondForm) (s : State) : Host.Outcome State Fault Refusal :=
  branchIf (!flagC s.flags) (s.condTarget f) (.bcc f) s

/-- `bmi` (R172). -/
def execBmi (off : BitVec 16) (s : State) : Host.Outcome State Fault Refusal :=
  branchIf (flagN s.flags) (s.farTarget off) (.bmi off) s

/-- `bpl` (R173). -/
def execBpl (off : BitVec 16) (s : State) : Host.Outcome State Fault Refusal :=
  branchIf (!flagN s.flags) (s.farTarget off) (.bpl off) s

/-- `bvs` (R174). -/
def execBvs (off : BitVec 16) (s : State) : Host.Outcome State Fault Refusal :=
  branchIf (flagV s.flags) (s.farTarget off) (.bvs off) s

/-- `bvc` (R175). -/
def execBvc (off : BitVec 16) (s : State) : Host.Outcome State Fault Refusal :=
  branchIf (!flagV s.flags) (s.farTarget off) (.bvc off) s

/-! ### Register-test branches -/

/-- `bez.r` (R179): the flags are written whether or not the branch is taken. -/
def execBezR (rs : Reg) (f : TestForm) (s : State) : Host.Outcome State Fault Refusal :=
  branchIf (s.reg rs == 0#32) (s.testTarget f) (.bezR rs f)
    (s.setFlags (testFlags s.flags (s.reg rs)))

/-- `bnz.r` (R180). -/
def execBnzR (rs : Reg) (f : TestForm) (s : State) : Host.Outcome State Fault Refusal :=
  branchIf (s.reg rs != 0#32) (s.testTarget f) (.bnzR rs f)
    (s.setFlags (testFlags s.flags (s.reg rs)))

end Sys2Proof.Machine
end

