-- ==== Sys2Proof/Machine/Compare.lean ====
section
/-! DEFINITION. The compare instructions (45_compare.md): FLAGS only, by R311. -/

namespace Sys2Proof.Machine

/-! ### Shared by the family -/

/-- `Cmp(w, a, b, 0, false)` (R311). -/
def compare {w : Nat} (i : Instr) (a b : BitVec w) (s : State) :
    Host.Outcome State Fault Refusal :=
  finish i (s.setFlags (cmpFlags s.flags a b))

/-- `Cmp(w, a, b, FLAGS.C, true)` (R311). -/
def compareCarry {w : Nat} (i : Instr) (a b : BitVec w) (s : State) :
    Host.Outcome State Fault Refusal :=
  finish i (s.setFlags (cmpFlagsSticky s.params.cmpcZByResult s.flags a b))

/-- The low 16 bits of a register (R310). -/
def State.low16 (s : State) (r : Reg) : BitVec 16 := fld (s.reg r) 0 16

/-- The low 8 bits of a register (R310). -/
def State.low8 (s : State) (r : Reg) : BitVec 8 := fld (s.reg r) 0 8

/-! ### 32-bit compares -/

/-- `cmp.i` (R312). -/
def execCmpI (f : CmpIForm) (s : State) : Host.Outcome State Fault Refusal :=
  match f with
  | .imm rs v => compare (.cmpI f) (s.reg rs) (Imm.sext v) s
  | .short rs v => compare (.cmpI f) (s.reg rs) (v.signExtend 32) s

/-- `cmp.x.i` (R316). -/
def execCmpXI (rs : Reg) (v : Imm) (s : State) : Host.Outcome State Fault Refusal :=
  compare (.cmpXI rs v) (Imm.sext v) (s.reg rs) s

/-- `cmp.c.i` (R314). -/
def execCmpCI (rs : Reg) (v : Imm) (s : State) : Host.Outcome State Fault Refusal :=
  compareCarry (.cmpCI rs v) (s.reg rs) (Imm.sext v) s

/-- `cmp.xc.i` (R317). -/
def execCmpXcI (rs : Reg) (v : Imm) (s : State) : Host.Outcome State Fault Refusal :=
  compareCarry (.cmpXcI rs v) (Imm.sext v) (s.reg rs) s

/-- `cmp.r` (R313). -/
def execCmpR (rs rt : Reg) (s : State) : Host.Outcome State Fault Refusal :=
  compare (.cmpR rs rt) (s.reg rs) (s.reg rt) s

/-- `cmp.c.r` (R315). -/
def execCmpCR (rs rt : Reg) (s : State) : Host.Outcome State Fault Refusal :=
  compareCarry (.cmpCR rs rt) (s.reg rs) (s.reg rt) s

/-! ### 16-bit compares -/

/-- `cmp.16.i` (R318): the short immediate is sign-extended. -/
def execCmp16I (f : Cmp16IForm) (s : State) : Host.Outcome State Fault Refusal :=
  match f with
  | .imm rs v => compare (.cmp16I f) (s.low16 rs) v s
  | .short rs v => compare (.cmp16I f) (s.low16 rs) (v.signExtend 16) s

/-- `cmp.16x.i` (R322). -/
def execCmp16xI (rs : Reg) (v : BitVec 16) (s : State) : Host.Outcome State Fault Refusal :=
  compare (.cmp16xI rs v) v (s.low16 rs) s

/-- `cmp.16c.i` (R320). -/
def execCmp16cI (rs : Reg) (v : BitVec 16) (s : State) : Host.Outcome State Fault Refusal :=
  compareCarry (.cmp16cI rs v) (s.low16 rs) v s

/-- `cmp.16xc.i` (R323). -/
def execCmp16xcI (rs : Reg) (v : BitVec 16) (s : State) : Host.Outcome State Fault Refusal :=
  compareCarry (.cmp16xcI rs v) v (s.low16 rs) s

/-- `cmp.16.r` (R319). -/
def execCmp16R (rs rt : Reg) (s : State) : Host.Outcome State Fault Refusal :=
  compare (.cmp16R rs rt) (s.low16 rs) (s.low16 rt) s

/-- `cmp.16c.r` (R321). -/
def execCmp16cR (rs rt : Reg) (s : State) : Host.Outcome State Fault Refusal :=
  compareCarry (.cmp16cR rs rt) (s.low16 rs) (s.low16 rt) s

/-! ### 8-bit compares -/

/-- `cmp.8.i` (R324): the short immediate is sign-extended. -/
def execCmp8I (f : Cmp8IForm) (s : State) : Host.Outcome State Fault Refusal :=
  match f with
  | .imm rs v => compare (.cmp8I f) (s.low8 rs) v s
  | .short rs v => compare (.cmp8I f) (s.low8 rs) (v.signExtend 8) s

/-- `cmp.8x.i` (R328). -/
def execCmp8xI (rs : Reg) (v : BitVec 8) (s : State) : Host.Outcome State Fault Refusal :=
  compare (.cmp8xI rs v) v (s.low8 rs) s

/-- `cmp.8c.i` (R326). -/
def execCmp8cI (rs : Reg) (v : BitVec 8) (s : State) : Host.Outcome State Fault Refusal :=
  compareCarry (.cmp8cI rs v) (s.low8 rs) v s

/-- `cmp.8xc.i` (R329). -/
def execCmp8xcI (rs : Reg) (v : BitVec 8) (s : State) : Host.Outcome State Fault Refusal :=
  compareCarry (.cmp8xcI rs v) v (s.low8 rs) s

/-- `cmp.8.r` (R325). -/
def execCmp8R (rs rt : Reg) (s : State) : Host.Outcome State Fault Refusal :=
  compare (.cmp8R rs rt) (s.low8 rs) (s.low8 rt) s

/-- `cmp.8c.r` (R327). -/
def execCmp8cR (rs rt : Reg) (s : State) : Host.Outcome State Fault Refusal :=
  compareCarry (.cmp8cR rs rt) (s.low8 rs) (s.low8 rt) s

end Sys2Proof.Machine
end

