-- ==== Sys2Proof/Machine/Dsp.lean ====
section
/-! DEFINITION. The DSP and CLU instructions (48_dsp_clu.md). -/

namespace Sys2Proof.Machine

/-! ### Shared by the family -/

/-- The request has what the rule asks for. -/
def cluRuleFits (r : CluRule) (st : Nat) (q : CluRequest) : Bool :=
  (match r.type with
    | none => true
    | some x => x == q.type)
    && (match r.imm with
      | none => true
      | some x => x == q.imm)
    && (match r.rs with
      | none => true
      | some x => some x == q.rs)
    && (match r.rt with
      | none => true
      | some x => some x == q.rt)
    && (match r.state with
      | none => true
      | some x => x == st)

/-- The reply of the function `CLU` that nothing is known of. -/
def cluOpen (st : Nat) (q : CluRequest) : CluReply :=
  match Config.cluAnswer st q.type q.imm q.rs q.rt with
  | none => .unknown
  | some none => .error
  | some (some r) => .ok r

/-- `CLU(type, imm, rs, rt)` (R380) of a CLU in the state `st`: the reply and its next state. -/
def cluFunction (rules : List CluRule) (st : Nat) (q : CluRequest) : CluReply × Nat :=
  match rules with
  | [] => (cluOpen st q, Config.cluNext st q.type q.imm q.rs q.rt)
  | r :: t => if cluRuleFits r st q then (r.reply, r.next) else cluFunction t st q

/-- The reply to a request; a core without a CLU knows none (R381, D21). -/
def State.cluReply (s : State) (q : CluRequest) : CluReply :=
  if s.cluFitted then (cluFunction s.clu s.cluState q).1 else .unknown

/-- The request is passed; the state of the CLU follows. -/
def State.cluTaken (s : State) (q : CluRequest) : State :=
  { s with
    cluState := if s.cluFitted then (cluFunction s.clu s.cluState q).2 else s.cluState
    cluSent := some q }

/-- A CLU instruction with a destination (R380, R381). -/
def cluTo (i : Instr) (q : CluRequest) (rd : Reg) (s : State) :
    Host.Outcome State Fault Refusal :=
  match s.cluReply q with
  | .ok r => giveResult i rd r (setZN s.flags r) (s.cluTaken q)
  | .unknown => errorHere .instructionError 1#4 (s.cluTaken q)
  | .error => errorHere .instructionError 2#4 (s.cluTaken q)

/-- A CLU instruction without a destination (R380, R381). -/
def cluOnly (i : Instr) (q : CluRequest) (s : State) : Host.Outcome State Fault Refusal :=
  match s.cluReply q with
  | .ok _ => finish i (s.cluTaken q)
  | .unknown => errorHere .instructionError 1#4 (s.cluTaken q)
  | .error => errorHere .instructionError 2#4 (s.cluTaken q)

/-- The absolute value (R374); 0x80000000 is its own. -/
def absOf (v : Word) : Word := if v.getLsbD 31 then 0#32 - v else v

/-- One more than the place of the highest 1, or 0 (R375). -/
def msbOf (v : Word) : Word :=
  (List.range 32).foldl (fun r k => if v.getLsbD k then BitVec.ofNat 32 (k + 1) else r) 0#32

/-- The bits of each byte reversed (R372). -/
def flip8 (v : Word) : Word :=
  flipBits (fld v 24 8) ++ flipBits (fld v 16 8) ++ flipBits (fld v 8 8) ++ flipBits (fld v 0 8)

/-- The bits of each half-word reversed (R373). -/
def flip16 (v : Word) : Word := flipBits (fld v 16 16) ++ flipBits (fld v 0 16)

/-! ### DSP -/

/-- `abs.r` (R374): N is cleared, V marks 0x80000000, C is unchanged. -/
def execAbsR (rd rs : Reg) (s : State) : Host.Outcome State Fault Refusal :=
  giveResult (.absR rd rs) rd (absOf (s.reg rs))
    (putBit (putZN s.flags (absOf (s.reg rs) == 0#32) false) 3 (s.reg rs == 0x80000000#32)) s

/-- `msbit.r` (R375): N is cleared. -/
def execMsbitR (rd rs : Reg) (s : State) : Host.Outcome State Fault Refusal :=
  giveResult (.msbitR rd rs) rd (msbOf (s.reg rs))
    (putZN s.flags (msbOf (s.reg rs) == 0#32) false) s

/-- `flip.8.r` (R372). -/
def execFlip8R (rd rs : Reg) (s : State) : Host.Outcome State Fault Refusal :=
  giveResult (.flip8R rd rs) rd (flip8 (s.reg rs)) (setZN s.flags (flip8 (s.reg rs))) s

/-- `flip.16.r` (R373). -/
def execFlip16R (rd rs : Reg) (s : State) : Host.Outcome State Fault Refusal :=
  giveResult (.flip16R rd rs) rd (flip16 (s.reg rs)) (setZN s.flags (flip16 (s.reg rs))) s

/-- `flip.r` (R371). -/
def execFlipR (rd rs : Reg) (s : State) : Host.Outcome State Fault Refusal :=
  giveResult (.flipR rd rs) rd (flipBits (s.reg rs)) (setZN s.flags (flipBits (s.reg rs))) s

/-! ### CLU -/

/-- `clu` (R382). -/
def execClu (v : BitVec 16) (s : State) : Host.Outcome State Fault Refusal :=
  cluOnly (.clu v) ⟨1#4, v, none, none⟩ s

/-- `clu.d` (R383). -/
def execCluD (v : BitVec 16) (rd : Reg) (s : State) : Host.Outcome State Fault Refusal :=
  cluTo (.cluD v rd) ⟨2#4, v, none, none⟩ rd s

/-- `clu.ds` (R384). -/
def execCluDs (v : BitVec 16) (rd rs : Reg) (s : State) : Host.Outcome State Fault Refusal :=
  cluTo (.cluDs v rd rs) ⟨3#4, v, some (s.reg rs), none⟩ rd s

/-- `clu.dst` (R385). -/
def execCluDst (v : BitVec 16) (rd rs rt : Reg) (s : State) :
    Host.Outcome State Fault Refusal :=
  cluTo (.cluDst v rd rs rt) ⟨4#4, v, some (s.reg rs), some (s.reg rt)⟩ rd s

/-- `clu.s` (R386). -/
def execCluS (v : BitVec 16) (rs : Reg) (s : State) : Host.Outcome State Fault Refusal :=
  cluOnly (.cluS v rs) ⟨5#4, v, some (s.reg rs), none⟩ s

/-- `clu.st` (R387). -/
def execCluSt (v : BitVec 16) (rs rt : Reg) (s : State) : Host.Outcome State Fault Refusal :=
  cluOnly (.cluSt v rs rt) ⟨6#4, v, some (s.reg rs), some (s.reg rt)⟩ s

end Sys2Proof.Machine
end

