-- ==== Sys2Proof/Machine/LoadStore.lean ====
section
/-! DEFINITION. Loads, stores and `swap.i` (41_load_store.md). -/

namespace Sys2Proof.Machine

/-! ### Shared by the family -/

/-- A load (R193, R197-R202): the value read goes to Rd, Z and N are set from it. An 8-bit or 16-bit
value is zero-extended, so its N is 0 (R212). -/
def loadInto (i : Instr) (w : Width) (usesSp : Bool) (addr : Word) (rd : Reg) (s : State) :
    Host.Outcome State Fault Refusal :=
  settle (andThen (spGuard usesSp s) fun _ s1 =>
    andThen (readData w addr s1) fun v s2 =>
      .done () ((s2.result rd v (setZN s2.flags v)).advance i.length))

/-- A store (R193, R203-R208): no flag is written. -/
def storeFrom (i : Instr) (w : Width) (usesSp : Bool) (addr v : Word) (s : State) :
    Host.Outcome State Fault Refusal :=
  settle (andThen (spGuard usesSp s) fun _ s1 =>
    andThen (writeData w addr v s1) fun _ s2 => .done () (s2.advance i.length))

/-! ### Loads -/

/-- `ld.8z.i` (R197). -/
def execLd8zI (rd : Reg) (a : Disp) (s : State) : Host.Outcome State Fault Refusal :=
  loadInto (.ld8zI rd a) .byte (dispUsesSp a) (s.dispAddr .byte a) rd s

/-- `ld.16z.i` (R198). -/
def execLd16zI (rd : Reg) (a : Disp) (s : State) : Host.Outcome State Fault Refusal :=
  loadInto (.ld16zI rd a) .half (dispUsesSp a) (s.dispAddr .half a) rd s

/-- `ld.i` (R199). -/
def execLdI (rd : Reg) (a : Disp) (s : State) : Host.Outcome State Fault Refusal :=
  loadInto (.ldI rd a) .word (dispUsesSp a) (s.dispAddr .word a) rd s

/-- `ld.8z.r` (R200). -/
def execLd8zR (rd rx : Reg) (b : IndexBase) (s : State) : Host.Outcome State Fault Refusal :=
  loadInto (.ld8zR rd rx b) .byte (indexUsesSp b) (s.indexAddr rx b) rd s

/-- `ld.16z.r` (R201). -/
def execLd16zR (rd rx : Reg) (b : IndexBase) (s : State) : Host.Outcome State Fault Refusal :=
  loadInto (.ld16zR rd rx b) .half (indexUsesSp b) (s.indexAddr rx b) rd s

/-- `ld.r` (R202). -/
def execLdR (rd rx : Reg) (b : IndexBase) (s : State) : Host.Outcome State Fault Refusal :=
  loadInto (.ldR rd rx b) .word (indexUsesSp b) (s.indexAddr rx b) rd s

/-! ### Stores -/

/-- `st.8.i` (R203). -/
def execSt8I (src : StoreSrc) (a : Disp) (s : State) : Host.Outcome State Fault Refusal :=
  storeFrom (.st8I src a) .byte (dispUsesSp a) (s.dispAddr .byte a) (s.storeValue src) s

/-- `st.16.i` (R204). -/
def execSt16I (src : StoreSrc) (a : Disp) (s : State) : Host.Outcome State Fault Refusal :=
  storeFrom (.st16I src a) .half (dispUsesSp a) (s.dispAddr .half a) (s.storeValue src) s

/-- `st.i` (R205). -/
def execStI (src : StoreSrc) (a : Disp) (s : State) : Host.Outcome State Fault Refusal :=
  storeFrom (.stI src a) .word (dispUsesSp a) (s.dispAddr .word a) (s.storeValue src) s

/-- `st.8.r` (R206). -/
def execSt8R (src : StoreSrc) (rx : Reg) (b : IndexBase) (s : State) :
    Host.Outcome State Fault Refusal :=
  storeFrom (.st8R src rx b) .byte (indexUsesSp b) (s.indexAddr rx b) (s.storeValue src) s

/-- `st.16.r` (R207). -/
def execSt16R (src : StoreSrc) (rx : Reg) (b : IndexBase) (s : State) :
    Host.Outcome State Fault Refusal :=
  storeFrom (.st16R src rx b) .half (indexUsesSp b) (s.indexAddr rx b) (s.storeValue src) s

/-- `st.r` (R208). -/
def execStR (src : StoreSrc) (rx : Reg) (b : IndexBase) (s : State) :
    Host.Outcome State Fault Refusal :=
  storeFrom (.stR src rx b) .word (indexUsesSp b) (s.indexAddr rx b) (s.storeValue src) s

/-! ### Swap -/

/-- `swap.i` (R216): the read, the write of the old Rd, then Rd and the flags. -/
def execSwapI (rd ra : Reg) (s : State) : Host.Outcome State Fault Refusal :=
  settle (andThen (readData .word (s.reg ra) s) fun old s1 =>
    andThen (writeData .word (s.reg ra) (s.reg rd) s1) fun _ s2 =>
      .done () ((s2.result rd old (setZN s2.flags old)).advance (Instr.swapI rd ra).length))

end Sys2Proof.Machine
end

