-- ==== Sys2Proof/Machine/Move.lean ====
section
/-! DEFINITION. `mov.i`, `mov.r` and `mov.f.r` (43_move.md). -/

namespace Sys2Proof.Machine

/-! ### Shared by the family -/

/-- Rd written, Z and N from the value (R240). -/
def moveTo (i : Instr) (rd : Reg) (v : Word) (s : State) : Host.Outcome State Fault Refusal :=
  giveResult i rd v (setZN s.flags v) s

/-- A bit sequence that does not fit the word is an InstructionError (R244, R275). -/
def checkSeq (size lsb : BitVec 5) (s : State) (body : Host.Outcome State Fault Refusal) :
    Host.Outcome State Fault Refusal :=
  if seqOk size lsb then body else errorHere .instructionError 0#4 s

/-! ### The instructions -/

/-- `mov.i` (R241, R242). -/
def execMovI (f : MovIForm) (s : State) : Host.Outcome State Fault Refusal :=
  match f with
  | .imm rd v => moveTo (.movI f) rd (Imm.sext v) s
  | .pcRel rd o => moveTo (.movI f) rd (s.pc + Imm.sext o) s
  | .gpRel rd o => moveTo (.movI f) rd (s.gp + Imm.zext o) s
  | .short rd v => moveTo (.movI f) rd (v.setWidth 32) s
  | .pow2 rd k b => moveTo (.movI f) rd (constPow2 k b) s
  | .pow2m1 rd k b => moveTo (.movI f) rd (constPow2m1 k b) s

/-- `mov.r` (R243): from and to SP after the K guard; AlignError of a value that is no multiple of 4
comes first and returns to the next instruction (D18). -/
def execMovR (f : MovRForm) (s : State) : Host.Outcome State Fault Refusal :=
  match f with
  | .reg rd rs => moveTo (.movR f) rd (s.reg rs) s
  | .fromSp rd =>
    settle (andThen (spGuard true s) fun _ s1 =>
      .done () ((s1.result rd s.sp (setZN s1.flags s.sp)).advance (Instr.movR f).length))
  | .toSp rs =>
    if fld (s.reg rs) 0 2 = 0#2 then
      settle (andThen (spGuard true s) fun _ s1 =>
        .done () ((s1.setSp (s.reg rs)).advance (Instr.movR f).length))
    else takeTrap (.error .alignError 0#4 (s.pc + (Instr.movR f).length)) s

/-- `mov.f.r` (R244, R245). -/
def execMovFR (f : MovFForm) (s : State) : Host.Outcome State Fault Refusal :=
  match f with
  | .extract rd rs size lsb =>
    checkSeq size lsb s (moveTo (.movFR f) rd (seqExtract (s.reg rs) size lsb) s)
  | .insert rd rs size lsb =>
    checkSeq size lsb s (moveTo (.movFR f) rd (seqInsert (s.reg rd) (s.reg rs) size lsb) s)
  | .short rd n =>
    moveTo (.movFR f) rd (seqExtract (s.reg rd) (shortField n).1 (shortField n).2) s

end Sys2Proof.Machine
end

