-- ==== Sys2Proof/Machine/Shift.lean ====
section
/-! DEFINITION. Shifts, rotates and `b2swap.r` (46_shift_rotate.md). -/

namespace Sys2Proof.Machine

/-! ### Shared by the family -/

/-- Rd, Z, N, and C where the count is not zero (R341). -/
def shiftTo (i : Instr) (rd : Reg) (v : Word) (c : Option Bool) (s : State) :
    Host.Outcome State Fault Refusal :=
  giveResult i rd v (shiftFlags s.flags v c) s

/-- The count of a register form: Rt[4:0] (R342). -/
def State.shiftCount (s : State) (rt : Reg) : BitVec 5 := fld (s.reg rt) 0 5

/-! ### Immediate counts -/

/-- `shiftr.s.i` (R347). -/
def execShiftrSI (f : ShiftForm) (s : State) : Host.Outcome State Fault Refusal :=
  match f with
  | .full rd rs n => shiftTo (.shiftrSI f) rd (shiftRS (s.reg rs) n) (shiftROut (s.reg rs) n) s
  | .short rd n => shiftTo (.shiftrSI f) rd (shiftRS (s.reg rd) n) (shiftROut (s.reg rd) n) s

/-- `shiftr.u.i` (R349). -/
def execShiftrUI (f : ShiftForm) (s : State) : Host.Outcome State Fault Refusal :=
  match f with
  | .full rd rs n => shiftTo (.shiftrUI f) rd (shiftRU (s.reg rs) n) (shiftROut (s.reg rs) n) s
  | .short rd n => shiftTo (.shiftrUI f) rd (shiftRU (s.reg rd) n) (shiftROut (s.reg rd) n) s

/-- `shiftl.i` (R344). -/
def execShiftlI (f : ShiftForm) (s : State) : Host.Outcome State Fault Refusal :=
  match f with
  | .full rd rs n => shiftTo (.shiftlI f) rd (shiftL (s.reg rs) n) (shiftLOut (s.reg rs) n) s
  | .short rd n => shiftTo (.shiftlI f) rd (shiftL (s.reg rd) n) (shiftLOut (s.reg rd) n) s

/-- `rotatel.i` (R352). -/
def execRotatelI (f : ShiftForm) (s : State) : Host.Outcome State Fault Refusal :=
  match f with
  | .full rd rs n => shiftTo (.rotatelI f) rd (rotL (s.reg rs) n) (rotLOut (s.reg rs) n) s
  | .short rd n => shiftTo (.rotatelI f) rd (rotL (s.reg rd) n) (rotLOut (s.reg rd) n) s

/-! ### Register counts -/

/-- `shiftl.r` (R345). -/
def execShiftlR (rd rs rt : Reg) (s : State) : Host.Outcome State Fault Refusal :=
  shiftTo (.shiftlR rd rs rt) rd (shiftL (s.reg rs) (s.shiftCount rt))
    (shiftLOut (s.reg rs) (s.shiftCount rt)) s

/-- `shiftr.s.r` (R348). -/
def execShiftrSR (rd rs rt : Reg) (s : State) : Host.Outcome State Fault Refusal :=
  shiftTo (.shiftrSR rd rs rt) rd (shiftRS (s.reg rs) (s.shiftCount rt))
    (shiftROut (s.reg rs) (s.shiftCount rt)) s

/-- `shiftr.u.r` (R350). -/
def execShiftrUR (rd rs rt : Reg) (s : State) : Host.Outcome State Fault Refusal :=
  shiftTo (.shiftrUR rd rs rt) rd (shiftRU (s.reg rs) (s.shiftCount rt))
    (shiftROut (s.reg rs) (s.shiftCount rt)) s

/-- `rotatel.r` (R353). -/
def execRotatelR (rd rs rt : Reg) (s : State) : Host.Outcome State Fault Refusal :=
  shiftTo (.rotatelR rd rs rt) rd (rotL (s.reg rs) (s.shiftCount rt))
    (rotLOut (s.reg rs) (s.shiftCount rt)) s

/-! ### Through carry, and the byte swap -/

/-- `shiftl.c.i` (R346). -/
def execShiftlCI (rd rs : Reg) (s : State) : Host.Outcome State Fault Refusal :=
  shiftTo (.shiftlCI rd rs) rd (fld (s.reg rs) 0 31 ++ BitVec.ofBool (flagC s.flags))
    (some ((s.reg rs).getLsbD 31)) s

/-- `shiftr.c.i` (R351). -/
def execShiftrCI (rd rs : Reg) (s : State) : Host.Outcome State Fault Refusal :=
  shiftTo (.shiftrCI rd rs) rd (BitVec.ofBool (flagC s.flags) ++ fld (s.reg rs) 1 31)
    (some ((s.reg rs).getLsbD 0)) s

/-- `b2swap.r` (R354): C is unchanged. -/
def execB2swapR (rd rs : Reg) (s : State) : Host.Outcome State Fault Refusal :=
  shiftTo (.b2swapR rd rs) rd (byteSwap2 (s.reg rs)) none s

end Sys2Proof.Machine
end

