-- ==== Sys2Proof/Machine/Stack.lean ====
section
/-! DEFINITION. `push`, `push.i`, `pop` and `pop.ret` (42_push_pop.md): lists of atoms, one atom per
step, progress in FLAGS.S (R221, D13). An event between two steps is an event between two atoms.
Note 11. -/

namespace Sys2Proof.Machine

/-! ### Shared by the family -/

/-- An atom of `push`, `push.i` and `pop` (R223-R225). -/
inductive StackAtom where
  | store (r : Reg)
  | storeImm (v : Word)
  | load (r : Reg)
  | adjust (d : Word)
  deriving DecidableEq, Repr

/-- All of an atom or, on a fault, none of it (R221). -/
def runAtom (a : StackAtom) (s : State) : Attempt Unit :=
  match a with
  | .store r => pushWord (s.reg r) s
  | .storeImm v => pushWord v s
  | .load r => andThen (popWord s) fun v s1 => .done () (s1.setReg r v)
  | .adjust d => .done () (s.setSp (s.sp + d))

/-- The atoms that move SP over the frame: none for the offset 0. -/
def frameAtoms (d : Word) : List StackAtom := if d = 0#32 then [] else [.adjust d]

/-- The atoms of `push` (R223): the highest register first, then the frame. -/
def pushAtoms (f : PushForm) : List StackAtom :=
  (maskRegs (pushMask f)).reverse.map .store ++ frameAtoms (0#32 - pushOffset f)

/-- The atoms of `push.i` (R224). -/
def pushIAtoms (signed : Bool) (f : PushIForm) : List StackAtom :=
  (pushImms signed f).map .storeImm

/-- The atoms of `pop` (R225): the frame, then the lowest register first. -/
def popAtoms (mask : BitVec 8) (offset : Word) : List StackAtom :=
  frameAtoms offset ++ (maskRegs mask).map .load

/-- FLAGS.S written. -/
def State.setS (s : State) (k : Nat) : State :=
  s.setFlags (putField s.flags 24 8 (BitVec.ofNat 8 k))

/-- The number of atoms done (R221). -/
def State.atomsDone (s : State) : Nat := (flagS s.flags).toNat

/-- One atom of a stack instruction, after the K guard (R220, R221): the next atom in the list; the
last one ends the instruction. With FLAGS.S past the end no atom is left. -/
def stackStep (atoms : List StackAtom) (i : Instr) (s : State) : Attempt Unit :=
  andThen (spGuard true s) fun _ s1 =>
    match atoms[s.atomsDone]? with
    | none => .done () ((s1.setS 0).advance i.length)
    | some a =>
      andThen (runAtom a s1) fun _ s2 =>
        if s.atomsDone + 1 < atoms.length then .done () (s2.setS (s.atomsDone + 1))
        else .done () ((s2.setS 0).advance i.length)

/-- The last atom of `pop.ret` (R226): flags as `cmp.i %r0, #0`, the return address, the branch. S
is cleared before the branch, so that an error of the branch target saves S = 0. -/
def returnAtom (s : State) : Attempt Unit :=
  andThen (popWord s) fun t s1 =>
    branchTo 0#4 t ((s1.setFlags (cmpFlags s1.flags (s1.reg .r0) 0#32)).setS 0)

/-- One atom of `pop.ret` (R226): those of `pop`, then the return. FLAGS.S past the return is
refused (U11). -/
def popRetStep (atoms : List StackAtom) (s : State) : Host.Outcome State Fault Refusal :=
  if s.atomsDone < atoms.length then
    settle (andThen (spGuard true s) fun _ s1 =>
      match atoms[s.atomsDone]? with
      | none => .done () s1
      | some a => andThen (runAtom a s1) fun _ s2 => .done () (s2.setS (s.atomsDone + 1)))
  else if s.atomsDone = atoms.length then
    settle (andThen (spGuard true s) fun _ s1 => returnAtom s1)
  else match spGuard true s with
    | .trap t s1 => takeTrap t s1
    | .done _ _ => .refused .resumedPastEnd

/-! ### The instructions -/

/-- `push` (R223). -/
def execPush (f : PushForm) (s : State) : Host.Outcome State Fault Refusal :=
  settle (stackStep (pushAtoms f) (.push f) s)

/-- `pop` (R225). -/
def execPop (f : PopForm) (s : State) : Host.Outcome State Fault Refusal :=
  settle (stackStep (popAtoms (popMask f) (popOffset f)) (.pop f) s)

/-- `pop.ret` (R226). -/
def execPopRet (f : PopRetForm) (s : State) : Host.Outcome State Fault Refusal :=
  popRetStep (popAtoms (popRetMask f) (popRetOffset f)) s

/-- `push.i` (R224). -/
def execPushI (f : PushIForm) (s : State) : Host.Outcome State Fault Refusal :=
  settle (stackStep (pushIAtoms s.params.pushi16Signed f) (.pushI f) s)

end Sys2Proof.Machine
end

