-- ==== Sys2Proof/Machine/System.lean ====
section
/-! DEFINITION. The system, FLAGS-access and special-register instructions (49_system.md). -/

namespace Sys2Proof.Machine

/-! ### Shared by the family -/

/-- A FLAGS field read into Rd (R413, R415, R417, R420): Z from the value, N cleared. -/
def readField (i : Instr) (rd : Reg) (v : Word) (s : State) : Host.Outcome State Fault Refusal :=
  giveResult i rd v (putZN s.flags (v == 0#32) false) s

/-- A register value read into Rd: Z, N from the value. -/
def readSpecial (i : Instr) (rd : Reg) (v : Word) (s : State) :
    Host.Outcome State Fault Refusal :=
  giveResult i rd v (setZN s.flags v) s

/-- The core leaves the Awake state after the instruction (R397, R406, R407, D25). -/
def leaveAwake (i : Instr) (x : ExecState) (s : State) : Host.Outcome State Fault Refusal :=
  finish i { s with exe := x }

/-- A SysCall (R408, R490): its numbers, the argument, the return address nextpc. -/
def sysCall (i : Instr) (num : BitVec 2) (arg : Word) (s : State) :
    Host.Outcome State Fault Refusal :=
  raiseService (12#5 + num.setWidth 5) (28#5 + num.setWidth 5) arg (s.pc + i.length) s.pc s.pc s.pc s

/-- AlignError of `movr2a`, which returns to the next instruction (R422, D18). -/
def alignPast (i : Instr) (s : State) : Host.Outcome State Fault Refusal :=
  takeTrap (.error .alignError 0#4 (s.pc + i.length)) s

/-- The number of the mode or state (R403). -/
def modeNumber (m : Mode) : Word :=
  match m with
  | .supervisor => 0#32
  | .interrupt => 1#32
  | .trusted => 2#32
  | .user => 3#32
  | .recovery => 4#32
  | .nmi => 5#32

/-- `VER_VALUE` (R404). -/
def verValue : Word := 0x006000#24 ++ Config.edition

/-! ### Sign extension -/

/-- `sext.8.r` (R393). -/
def execSext8R (rd rs : Reg) (s : State) : Host.Outcome State Fault Refusal :=
  readSpecial (.sext8R rd rs) rd ((fld (s.reg rs) 0 8).signExtend 32) s

/-- `sext.16.r` (R394). -/
def execSext16R (rd rs : Reg) (s : State) : Host.Outcome State Fault Refusal :=
  readSpecial (.sext16R rd rs) rd ((fld (s.reg rs) 0 16).signExtend 32) s

/-! ### Machine control -/

/-- `rtie` (R411): privileged, the K guard, the return from the event. Every error of it, that of
User mode too, has ErrorPval 2 (R462). -/
def execRtie (s : State) : Host.Outcome State Fault Refusal :=
  privilegedP 2#4 s (settle (andThen (spGuard true s) fun _ s1 => returnFromEvent s1))

/-- `brk` (R396): Break from User mode with B set; else a debugged core halts; else a nop. -/
def execBrk (s : State) : Host.Outcome State Fault Refusal :=
  if breakServed s then takeBreak (s.pc + Instr.brk.length) s.pc s.pc s.pc s
  else if s.runToBreak then leaveAwake .brk .halted s
  else finish .brk s

/-- `halt` (R397). -/
def execHalt (s : State) : Host.Outcome State Fault Refusal :=
  privileged s (leaveAwake .halt .halted s)

/-- `softreset` (R405): event type 0, event number 2, old PC thispc (D26). -/
def execSoftreset (s : State) : Host.Outcome State Fault Refusal :=
  privileged s (softReset 0#3 2#5 s.pc s)

/-- `sleepnop` (R406). -/
def execSleepnop (s : State) : Host.Outcome State Fault Refusal :=
  privileged s (leaveAwake .sleepnop .nopSleep s)

/-- `sleepsif` (R407). -/
def execSleepsif (s : State) : Host.Outcome State Fault Refusal :=
  privileged s (leaveAwake .sleepsif .sifSleep s)

/-- `nop` (R395). -/
def execNop (s : State) : Host.Outcome State Fault Refusal := finish .nop s

/-- `sif` (R398): a privileged nop in a model without the SIF agent (D20, Note 23). -/
def execSif (s : State) : Host.Outcome State Fault Refusal := privileged s (finish .sif s)

/-- `flush` (R400): the prefetch buffer is emptied (R96). -/
def execFlush (s : State) : Host.Outcome State Fault Refusal := finish .flush { s with stale := [] }

/-- `fill` (R399): no functional effect. -/
def execFill (s : State) : Host.Outcome State Fault Refusal := finish .fill s

/-- `print.r` (R401): hardware treats it as a nop. -/
def execPrintR (f1 f2 : Reg) (s : State) : Host.Outcome State Fault Refusal :=
  finish (.printR f1 f2) s

/-- `ver` (R404): no flags. -/
def execVer (rd : Reg) (s : State) : Host.Outcome State Fault Refusal :=
  finish (.ver rd) (s.setReg rd verValue)

/-- `lic` (R402): no flags. -/
def execLic (rd : Reg) (s : State) : Host.Outcome State Fault Refusal :=
  finish (.lic rd) (s.setReg rd Config.licValue)

/-- `fimode` (R403). -/
def execFimode (rd : Reg) (s : State) : Host.Outcome State Fault Refusal :=
  readField (.fimode rd) rd (modeNumber s.mode) s

/-! ### Services -/

/-- `syscall.i` (R409). -/
def execSyscallI (num : BitVec 2) (v : Imm) (s : State) : Host.Outcome State Fault Refusal :=
  sysCall (.syscallI num v) num (Imm.sext v) s

/-- `syscall.r` (R410). -/
def execSyscallR (num : BitVec 2) (rs : Reg) (s : State) : Host.Outcome State Fault Refusal :=
  sysCall (.syscallR num rs) num (s.reg rs) s

/-! ### FLAGS fields -/

/-- `mov.1.i` (R412). -/
def execMov1I (v : BitVec 1) (s : State) : Host.Outcome State Fault Refusal :=
  privileged s (finish (.mov1I v) (s.setFlags (putBit s.flags 6 (v == 1#1))))

/-- `mov.1.r` (R413): the two forms that write I are privileged. -/
def execMov1R (f : Mov1Form) (s : State) : Host.Outcome State Fault Refusal :=
  match f with
  | .getBit rd bit =>
    readField (.mov1R f) rd ((BitVec.ofBool (s.flags.getLsbD bit.toNat)).setWidth 32) s
  | .getI rd => readField (.mov1R f) rd ((BitVec.ofBool (flagI s.flags)).setWidth 32) s
  | .setBit bit rs =>
    finish (.mov1R f) (s.setFlags (putBit s.flags bit.toNat ((s.reg rs).getLsbD 0)))
  | .setI rs =>
    privileged s (finish (.mov1R f) (s.setFlags (putBit s.flags 6 ((s.reg rs).getLsbD 0))))
  | .iFromC => privileged s (finish (.mov1R f) (s.setFlags (putBit s.flags 6 (flagC s.flags))))
  | .cFromI => finish (.mov1R f) (s.setFlags (putBit s.flags 2 (flagI s.flags)))

/-- `mov.2.i` (R414). -/
def execMov2I (v : BitVec 2) (s : State) : Host.Outcome State Fault Refusal :=
  privileged s (finish (.mov2I v) (s.setFlags (putField s.flags 4 2 v)))

/-- `mov.2.r` (R415). -/
def execMov2R (f : FieldForm) (s : State) : Host.Outcome State Fault Refusal :=
  match f with
  | .get rd => readField (.mov2R f) rd ((flagM s.flags).setWidth 32) s
  | .set rs =>
    privileged s (finish (.mov2R f) (s.setFlags (putField s.flags 4 2 (fld (s.reg rs) 0 2))))

/-- `mov.4.i` (R416). -/
def execMov4I (v : BitVec 4) (s : State) : Host.Outcome State Fault Refusal :=
  privileged s (finish (.mov4I v) (s.setFlags (putField s.flags 12 4 v)))

/-- `mov.4.r` (R417). -/
def execMov4R (f : FieldForm) (s : State) : Host.Outcome State Fault Refusal :=
  match f with
  | .get rd => readField (.mov4R f) rd ((flagP s.flags).setWidth 32) s
  | .set rs =>
    privileged s (finish (.mov4R f) (s.setFlags (putField s.flags 12 4 (fld (s.reg rs) 0 4))))

/-- `mov.8.i` (R419): privileged only where `MOV8I_PRIVILEGED` says so (U2). -/
def execMov8I (v : BitVec 8) (s : State) : Host.Outcome State Fault Refusal :=
  if s.params.mov8iPrivileged && s.isUser then errorHere .privInstruction 0#4 s
  else finish (.mov8I v) (s.setFlags (putField s.flags 16 8 v))

/-- `mov.8.r` (R420). -/
def execMov8R (f : FieldForm) (s : State) : Host.Outcome State Fault Refusal :=
  match f with
  | .get rd => readField (.mov8R f) rd ((flagA s.flags).setWidth 32) s
  | .set rs => finish (.mov8R f) (s.setFlags (putField s.flags 16 8 (fld (s.reg rs) 0 8)))

/-! ### Register banks -/

/-- `mova2r` (R421): a reserved register is an InstructionError (R35). -/
def execMova2r (rd : Reg) (as : BitVec 3) (s : State) : Host.Outcome State Fault Refusal :=
  privileged s (match as with
    | 0#3 => readSpecial (.mova2r rd as) rd s.sp0 s
    | 1#3 => readSpecial (.mova2r rd as) rd s.sp1 s
    | 2#3 => readSpecial (.mova2r rd as) rd s.vp s
    | 3#3 => readSpecial (.mova2r rd as) rd s.gp s
    | _ => errorHere .instructionError 0#4 s)

/-- `movr2a` (R422): SP0 sets K0; SP1 sets K1 where K0 is set (R47, R48). -/
def execMovr2a (ad : BitVec 3) (rs : Reg) (s : State) : Host.Outcome State Fault Refusal :=
  privileged s (match ad with
    | 0#3 =>
      if fld (s.reg rs) 0 2 = 0#2 then
        finish (.movr2a ad rs) { s with sp0 := s.reg rs, info := putBit s.info 0 true }
      else alignPast (.movr2a ad rs) s
    | 1#3 =>
      if fld (s.reg rs) 0 2 = 0#2 then
        finish (.movr2a ad rs)
          { s with sp1 := s.reg rs, info := if infoK0 s.info then putBit s.info 1 true else s.info }
      else alignPast (.movr2a ad rs) s
    | 2#3 =>
      if fld (s.reg rs) 0 8 = 0#8 then finish (.movr2a ad rs) { s with vp := s.reg rs }
      else alignPast (.movr2a ad rs) s
    | 3#3 =>
      if fld (s.reg rs) 0 2 = 0#2 then finish (.movr2a ad rs) { s with gp := s.reg rs }
      else alignPast (.movr2a ad rs) s
    | _ => errorHere .instructionError 0#4 s)

/-- `movb2r` (R423). -/
def execMovb2r (rd : Reg) (bs : BitVec 3) (s : State) : Host.Outcome State Fault Refusal :=
  privileged s (match bs with
    | 0#3 => readSpecial (.movb2r rd bs) rd s.brk0 s
    | 1#3 => readSpecial (.movb2r rd bs) rd s.brk1 s
    | 2#3 => readSpecial (.movb2r rd bs) rd s.brk2 s
    | 3#3 => readSpecial (.movb2r rd bs) rd s.brk3 s
    | _ => errorHere .instructionError 0#4 s)

/-- `movr2b` (R424). -/
def execMovr2b (bd : BitVec 3) (rs : Reg) (s : State) : Host.Outcome State Fault Refusal :=
  privileged s (match bd with
    | 0#3 => finish (.movr2b bd rs) { s with brk0 := s.reg rs }
    | 1#3 => finish (.movr2b bd rs) { s with brk1 := s.reg rs }
    | 2#3 => finish (.movr2b bd rs) { s with brk2 := s.reg rs }
    | 3#3 => finish (.movr2b bd rs) { s with brk3 := s.reg rs }
    | _ => errorHere .instructionError 0#4 s)

/-- `movs2r` (R425): FLAGS in every mode, INFO and BRKE in the privileged ones. -/
def execMovs2r (rd : Reg) (ss : BitVec 3) (s : State) : Host.Outcome State Fault Refusal :=
  match ss with
  | 0#3 => readSpecial (.movs2r rd ss) rd s.flagsRead s.flagsUsed
  | 1#3 => privileged s (readSpecial (.movs2r rd ss) rd s.info s)
  | 2#3 => privileged s (readSpecial (.movs2r rd ss) rd s.brkeRead s.brkeUsed)
  | _ => privileged s (errorHere .instructionError 0#4 s)

/-- `movr2s` (R426): FLAGS but for S; INFO is read-only; BRKE. -/
def execMovr2s (sd : BitVec 3) (rs : Reg) (s : State) : Host.Outcome State Fault Refusal :=
  privileged s (match sd with
    | 0#3 => finish (.movr2s sd rs) (s.setFlags (flagS s.flags ++ fld (s.reg rs) 0 24))
    | 1#3 => finish (.movr2s sd rs) s
    | 2#3 => finish (.movr2s sd rs) { s with brke := s.reg rs }
    | _ => errorHere .instructionError 0#4 s)

end Sys2Proof.Machine
end

