-- ==== Sys2Proof/Machine/Dispatch.lean ====
section
/-! DEFINITION. One arm per instruction: one direct call of its meaning. -/

namespace Sys2Proof.Machine

def exec (i : Instr) (s : State) : Host.Outcome State Fault Refusal :=
  match i with
  -- 40_branches.md
  | .braI f => Sys2Proof.Machine.execBraI f s
  | .bsrI f => Sys2Proof.Machine.execBsrI f s
  | .braM f => Sys2Proof.Machine.execBraM f s
  | .bsrM f => Sys2Proof.Machine.execBsrM f s
  | .beq f => Sys2Proof.Machine.execBeq f s
  | .bne f => Sys2Proof.Machine.execBne f s
  | .bleS f => Sys2Proof.Machine.execBleS f s
  | .bgtS f => Sys2Proof.Machine.execBgtS f s
  | .bltS f => Sys2Proof.Machine.execBltS f s
  | .bgeS f => Sys2Proof.Machine.execBgeS f s
  | .bleU f => Sys2Proof.Machine.execBleU f s
  | .bgtU f => Sys2Proof.Machine.execBgtU f s
  | .bcs f => Sys2Proof.Machine.execBcs f s
  | .bcc f => Sys2Proof.Machine.execBcc f s
  | .bmi off => Sys2Proof.Machine.execBmi off s
  | .bpl off => Sys2Proof.Machine.execBpl off s
  | .bvs off => Sys2Proof.Machine.execBvs off s
  | .bvc off => Sys2Proof.Machine.execBvc off s
  | .bezR rs f => Sys2Proof.Machine.execBezR rs f s
  | .bnzR rs f => Sys2Proof.Machine.execBnzR rs f s
  -- 41_load_store.md
  | .ld8zI rd a => Sys2Proof.Machine.execLd8zI rd a s
  | .ld16zI rd a => Sys2Proof.Machine.execLd16zI rd a s
  | .ldI rd a => Sys2Proof.Machine.execLdI rd a s
  | .st8I src a => Sys2Proof.Machine.execSt8I src a s
  | .st16I src a => Sys2Proof.Machine.execSt16I src a s
  | .stI src a => Sys2Proof.Machine.execStI src a s
  | .ld8zR rd rx b => Sys2Proof.Machine.execLd8zR rd rx b s
  | .ld16zR rd rx b => Sys2Proof.Machine.execLd16zR rd rx b s
  | .ldR rd rx b => Sys2Proof.Machine.execLdR rd rx b s
  | .st8R src rx b => Sys2Proof.Machine.execSt8R src rx b s
  | .st16R src rx b => Sys2Proof.Machine.execSt16R src rx b s
  | .stR src rx b => Sys2Proof.Machine.execStR src rx b s
  | .swapI rd ra => Sys2Proof.Machine.execSwapI rd ra s
  -- 42_push_pop.md
  | .push f => Sys2Proof.Machine.execPush f s
  | .pop f => Sys2Proof.Machine.execPop f s
  | .popRet f => Sys2Proof.Machine.execPopRet f s
  | .pushI f => Sys2Proof.Machine.execPushI f s
  -- 43_move.md
  | .movI f => Sys2Proof.Machine.execMovI f s
  | .movR f => Sys2Proof.Machine.execMovR f s
  | .movFR f => Sys2Proof.Machine.execMovFR f s
  -- 44_alu.md
  | .addI f => Sys2Proof.Machine.execAddI f s
  | .addCI f => Sys2Proof.Machine.execAddCI f s
  | .addNI rd rs v => Sys2Proof.Machine.execAddNI rd rs v s
  | .addR rd rs rt => Sys2Proof.Machine.execAddR rd rs rt s
  | .addCR rd rs rt => Sys2Proof.Machine.execAddCR rd rs rt s
  | .addNR rd rs rt => Sys2Proof.Machine.execAddNR rd rs rt s
  | .subR rd rs rt => Sys2Proof.Machine.execSubR rd rs rt s
  | .subCR rd rs rt => Sys2Proof.Machine.execSubCR rd rs rt s
  | .subXI f => Sys2Proof.Machine.execSubXI f s
  | .subXcI f => Sys2Proof.Machine.execSubXcI f s
  | .andI f => Sys2Proof.Machine.execAndI f s
  | .andR rd rs rt => Sys2Proof.Machine.execAndR rd rs rt s
  | .orI f => Sys2Proof.Machine.execOrI f s
  | .orR rd rs rt => Sys2Proof.Machine.execOrR rd rs rt s
  | .xorI f => Sys2Proof.Machine.execXorI f s
  | .xorR rd rs rt => Sys2Proof.Machine.execXorR rd rs rt s
  | .multI rd rs v => Sys2Proof.Machine.execMultI rd rs v s
  | .multR rd rs rt => Sys2Proof.Machine.execMultR rd rs rt s
  | .mult16sI rd rs v => Sys2Proof.Machine.execMult16sI rd rs v s
  | .mult16sR rd rs rt => Sys2Proof.Machine.execMult16sR rd rs rt s
  | .mult16uI rd rs v => Sys2Proof.Machine.execMult16uI rd rs v s
  | .mult16uR rd rs rt => Sys2Proof.Machine.execMult16uR rd rs rt s
  | .divSR rd rs rt => Sys2Proof.Machine.execDivSR rd rs rt s
  | .divUR rd rs rt => Sys2Proof.Machine.execDivUR rd rs rt s
  | .remSR rd rs rt => Sys2Proof.Machine.execRemSR rd rs rt s
  | .remUR rd rs rt => Sys2Proof.Machine.execRemUR rd rs rt s
  | .divremSR rdr rdq rt => Sys2Proof.Machine.execDivremSR rdr rdq rt s
  | .divremUR rdr rdq rt => Sys2Proof.Machine.execDivremUR rdr rdq rt s
  -- 45_compare.md
  | .cmpI f => Sys2Proof.Machine.execCmpI f s
  | .cmpXI rs v => Sys2Proof.Machine.execCmpXI rs v s
  | .cmpCI rs v => Sys2Proof.Machine.execCmpCI rs v s
  | .cmpXcI rs v => Sys2Proof.Machine.execCmpXcI rs v s
  | .cmpR rs rt => Sys2Proof.Machine.execCmpR rs rt s
  | .cmpCR rs rt => Sys2Proof.Machine.execCmpCR rs rt s
  | .cmp16I f => Sys2Proof.Machine.execCmp16I f s
  | .cmp16xI rs v => Sys2Proof.Machine.execCmp16xI rs v s
  | .cmp16cI rs v => Sys2Proof.Machine.execCmp16cI rs v s
  | .cmp16xcI rs v => Sys2Proof.Machine.execCmp16xcI rs v s
  | .cmp16R rs rt => Sys2Proof.Machine.execCmp16R rs rt s
  | .cmp16cR rs rt => Sys2Proof.Machine.execCmp16cR rs rt s
  | .cmp8I f => Sys2Proof.Machine.execCmp8I f s
  | .cmp8xI rs v => Sys2Proof.Machine.execCmp8xI rs v s
  | .cmp8cI rs v => Sys2Proof.Machine.execCmp8cI rs v s
  | .cmp8xcI rs v => Sys2Proof.Machine.execCmp8xcI rs v s
  | .cmp8R rs rt => Sys2Proof.Machine.execCmp8R rs rt s
  | .cmp8cR rs rt => Sys2Proof.Machine.execCmp8cR rs rt s
  -- 46_shift_rotate.md
  | .shiftrSI f => Sys2Proof.Machine.execShiftrSI f s
  | .shiftrUI f => Sys2Proof.Machine.execShiftrUI f s
  | .shiftlI f => Sys2Proof.Machine.execShiftlI f s
  | .rotatelI f => Sys2Proof.Machine.execRotatelI f s
  | .shiftlR rd rs rt => Sys2Proof.Machine.execShiftlR rd rs rt s
  | .shiftrSR rd rs rt => Sys2Proof.Machine.execShiftrSR rd rs rt s
  | .shiftrUR rd rs rt => Sys2Proof.Machine.execShiftrUR rd rs rt s
  | .shiftlCI rd rs => Sys2Proof.Machine.execShiftlCI rd rs s
  | .shiftrCI rd rs => Sys2Proof.Machine.execShiftrCI rd rs s
  | .rotatelR rd rs rt => Sys2Proof.Machine.execRotatelR rd rs rt s
  | .b2swapR rd rs => Sys2Proof.Machine.execB2swapR rd rs s
  -- 47_block.md
  | .blkcpI rad ras num => Sys2Proof.Machine.execBlkcpI rad ras num s
  | .blkcpR rad ras rn => Sys2Proof.Machine.execBlkcpR rad ras rn s
  | .blkst8I src ra num => Sys2Proof.Machine.execBlkst8I src ra num s
  | .blkst8R src ra rn => Sys2Proof.Machine.execBlkst8R src ra rn s
  -- 48_dsp_clu.md
  | .absR rd rs => Sys2Proof.Machine.execAbsR rd rs s
  | .msbitR rd rs => Sys2Proof.Machine.execMsbitR rd rs s
  | .flip8R rd rs => Sys2Proof.Machine.execFlip8R rd rs s
  | .flip16R rd rs => Sys2Proof.Machine.execFlip16R rd rs s
  | .flipR rd rs => Sys2Proof.Machine.execFlipR rd rs s
  | .clu v => Sys2Proof.Machine.execClu v s
  | .cluD v rd => Sys2Proof.Machine.execCluD v rd s
  | .cluDs v rd rs => Sys2Proof.Machine.execCluDs v rd rs s
  | .cluDst v rd rs rt => Sys2Proof.Machine.execCluDst v rd rs rt s
  | .cluS v rs => Sys2Proof.Machine.execCluS v rs s
  | .cluSt v rs rt => Sys2Proof.Machine.execCluSt v rs rt s
  -- 49_system.md
  | .sext8R rd rs => Sys2Proof.Machine.execSext8R rd rs s
  | .sext16R rd rs => Sys2Proof.Machine.execSext16R rd rs s
  | .rtie => Sys2Proof.Machine.execRtie s
  | .brk => Sys2Proof.Machine.execBrk s
  | .halt => Sys2Proof.Machine.execHalt s
  | .softreset => Sys2Proof.Machine.execSoftreset s
  | .sleepnop => Sys2Proof.Machine.execSleepnop s
  | .sleepsif => Sys2Proof.Machine.execSleepsif s
  | .nop => Sys2Proof.Machine.execNop s
  | .sif => Sys2Proof.Machine.execSif s
  | .mov1I v => Sys2Proof.Machine.execMov1I v s
  | .mov1R f => Sys2Proof.Machine.execMov1R f s
  | .mov2I v => Sys2Proof.Machine.execMov2I v s
  | .flush => Sys2Proof.Machine.execFlush s
  | .fill => Sys2Proof.Machine.execFill s
  | .mov2R f => Sys2Proof.Machine.execMov2R f s
  | .fimode rd => Sys2Proof.Machine.execFimode rd s
  | .syscallI num v => Sys2Proof.Machine.execSyscallI num v s
  | .syscallR num rs => Sys2Proof.Machine.execSyscallR num rs s
  | .movs2r rd ss => Sys2Proof.Machine.execMovs2r rd ss s
  | .movb2r rd bs => Sys2Proof.Machine.execMovb2r rd bs s
  | .mova2r rd as => Sys2Proof.Machine.execMova2r rd as s
  | .movr2a ad rs => Sys2Proof.Machine.execMovr2a ad rs s
  | .movr2s sd rs => Sys2Proof.Machine.execMovr2s sd rs s
  | .movr2b bd rs => Sys2Proof.Machine.execMovr2b bd rs s
  | .ver rd => Sys2Proof.Machine.execVer rd s
  | .lic rd => Sys2Proof.Machine.execLic rd s
  | .mov4R f => Sys2Proof.Machine.execMov4R f s
  | .mov8R f => Sys2Proof.Machine.execMov8R f s
  | .printR f1 f2 => Sys2Proof.Machine.execPrintR f1 f2 s
  | .mov4I v => Sys2Proof.Machine.execMov4I v s
  | .mov8I v => Sys2Proof.Machine.execMov8I v s

end Sys2Proof.Machine
end

