-- ==== Sys2Proof/Machine/Cycle.lean ====
section
/-! DEFINITION. The cycle the core repeats (R471): the environment's sample, the interrupt check,
the execute breakpoint, fetch, decode and execution, then the data breakpoint and SingleStep. -/

namespace Sys2Proof.Machine

/-- What the environment presents at this step; nothing once the list is used up (Note 4). -/
def State.sample (s : State) : EnvSample := s.env.headD EnvSample.quiet

/-- The sample is used up; the devices are in the state it gives, if it gives one (R90, Note 33). The
instruction stream goes on at PC until an instruction is fetched (Note 14). -/
def State.sampled (s : State) : State :=
  { s with env := s.env.tail, devState := s.sample.devices.getD s.devState, ahead := s.pc }

/-- The bookkeeping of a step is cleared at its end (Note 25). -/
def State.settled (s : State) : State :=
  { s with ahead := 0#32, breakHit := false, event := false }

/-- The end of a step. -/
def endStep (o : Host.Outcome State Fault Refusal) : Host.Outcome State Fault Refusal :=
  match o with
  | .next s => .next s.settled
  | .fault r => .fault r
  | .refused r => .refused r

/-- SingleStep after the instruction of `before` (R491): User mode with T set before it. -/
def singleStep (before after : State) : Host.Outcome State Fault Refusal :=
  if before.isUser && (flagP before.flags).getLsbD 1 then takeSingleStep before.pc after
  else .next after

/-- After an instruction that raised nothing (R471 step 4): a data breakpoint (R492), then
SingleStep. After an exception, or where the core no longer is Awake, neither (Note 28). -/
def afterInstr (before after : State) : Host.Outcome State Fault Refusal :=
  if after.event || after.exe != .awake then .next after
  else if after.breakHit then
    if breakServed after then takeBreak after.pc after.pc before.pc after.pc after
    else if after.runToBreak then .next { after with exe := .halted }
    else singleStep before after
  else singleStep before after

/-- Fetch, decode and execute the instruction at PC (R471 step 3, R485 steps 2 to 10). -/
def runFetched (s : State) : Host.Outcome State Fault Refusal :=
  if s.pc.getLsbD 0 then .fault .oddPc
  else match fetch s with
    | .instr i s1 => exec i s1
    | .unknown s1 => errorHere .unknownInstruction 0#4 s1
    | .failed k s1 => errorHere k 0#4 s1
    | .refused r => .refused r

/-- What follows an instruction of `before` that ended with `o`. -/
def afterOutcome (before : State) (o : Host.Outcome State Fault Refusal) :
    Host.Outcome State Fault Refusal :=
  match o with
  | .next after => afterInstr before after
  | .fault r => .fault r
  | .refused r => .refused r

/-- The instruction at PC with what follows it (R471 steps 3 and 4). -/
def runInstr (s : State) : Host.Outcome State Fault Refusal := afterOutcome s (runFetched s)

/-- The execute breakpoint, then the instruction (R471 step 2, R492). -/
def runBroken (s : State) : Host.Outcome State Fault Refusal :=
  if s.execBreak then
    if breakServed s then takeBreak s.pc s.pc s.pc s.pc s
    else if s.runToBreak then .next { s with exe := .halted }
    else runInstr s
  else runInstr s

/-- An Awake core (R471): an accepted interrupt, else the instruction. -/
def runAwake (irq : Option (BitVec 5 × BitVec 4)) (s : State) : Host.Outcome State Fault Refusal :=
  match irq with
  | some (num, prio) => if acceptIrq s num prio then interruptEntry num prio s else runBroken s
  | none => runBroken s

/-- One step on the sample `e`: a hard reset in every execution state (R520), a halted core stays
(R511), a sleeping one waits for `WAKE_UP` (R512). -/
def cycleOn (e : EnvSample) (s : State) : Host.Outcome State Fault Refusal :=
  if e.hardReset then hardReset s
  else match s.exe with
    | .awake => runAwake e.irq s
    | .halted => .next s
    | .sifSleep => .next (if e.wakeUp then { s with exe := .awake } else s)
    | .nopSleep => .next (if e.wakeUp then { s with exe := .awake } else s)

/-- One step. -/
def cycle (s : State) : Host.Outcome State Fault Refusal := endStep (cycleOn s.sample s.sampled)

end Sys2Proof.Machine
end

