-- ==== Sys2Proof/Machine/Step.lean ====
section
/-! DEFINITION. One step of the machine, and the host's way to place an instruction where the step
fetches it. -/

namespace Sys2Proof.Machine

/-- One step: R471. -/
def step (s : State) : Host.Outcome State Fault Refusal := cycle s

/-- The instruction `w` of `nbits` bits, zeros above them, stored at PC, where `step` fetches; the
prefetch buffer holds nothing else. -/
def State.withFetchWord (s : State) (nbits w : Nat) : State :=
  { s with mem := storeFetch s.mem s.pc nbits w, stale := [] }

end Sys2Proof.Machine
end

