-- ==== Sys2Proof/Safety.lean ====
section
/-! DEFINITION. The terms statements are written in: what every step keeps (`State.Inv`), what an
instruction leaves as it was (the frame), the conditions under which accesses and branches succeed,
and the normal form of a step. -/

namespace Sys2Proof.Machine

/-! ### The invariant -/

/-- What the architecture keeps of its registers and memory: memory in canonical form, PC even
(R26), SP0, SP1 and GP multiples of 4 (R28, R32), VP a multiple of 256 (R33), the FREE bits of INFO
zero (R46), K1 only with K0 (R48); and no stale half-word without a prefetch buffer (R96). -/
structure State.Arch (s : State) : Prop where
  memory : Memory.wf s.mem = true
  pcEven : s.pc.getLsbD 0 = false
  sp0Aligned : fld s.sp0 0 2 = 0#2
  sp1Aligned : fld s.sp1 0 2 = 0#2
  gpAligned : fld s.gp 0 2 = 0#2
  vpAligned : fld s.vp 0 8 = 0#8
  infoFree : s.info &&& 0xFFFFFECC#32 = 0#32
  stack1Later : infoK1 s.info = true → infoK0 s.info = true
  noBuffer : s.params.prefetchBytes = 0 → s.stale = []

/-- The invariant of the states between steps: also the bookkeeping of a step is clear. -/
structure State.Inv (s : State) : Prop where
  arch : s.Arch
  noAhead : s.ahead = 0#32
  noBreak : s.breakHit = false
  noEvent : s.event = false

/-! ### Frames -/

/-- Every byte of memory reads as before. -/
def MemSame (s t : State) : Prop := ∀ a : Word, read8 t.mem a = read8 s.mem a

/-- Every byte of memory outside the `n` bytes at `a` (addresses modulo 2^32) reads as before. -/
def MemSameBut (s t : State) (a : Word) (n : Nat) : Prop :=
  ∀ b : Word, (∀ k : Nat, k < n → b ≠ a + BitVec.ofNat 32 k) → read8 t.mem b = read8 s.mem b

/-- The normal registers outside the list are as before. -/
def RegsBut (s t : State) (ds : List Reg) : Prop := ∀ r : Reg, r ∉ ds → t.reg r = s.reg r

/-- The bits of FLAGS outside the mask are as before. -/
def FlagsBut (s t : State) (mask : Word) : Prop :=
  t.flags &&& ~~~mask = s.flags &&& ~~~mask

/-- The address, special and breakpoint registers other than PC, FLAGS and the two stack pointers
are as before. -/
def SpecialsSame (s t : State) : Prop :=
  t.gp = s.gp ∧ t.vp = s.vp ∧ t.info = s.info ∧ t.brke = s.brke ∧ t.brk0 = s.brk0
    ∧ t.brk1 = s.brk1 ∧ t.brk2 = s.brk2 ∧ t.brk3 = s.brk3

/-- Both stack pointers are as before. -/
def StacksSame (s t : State) : Prop := t.sp0 = s.sp0 ∧ t.sp1 = s.sp1

/-- Of the two stack pointers the one not in use is as before. -/
def OtherStackSame (s t : State) : Prop :=
  if s.spIsSp0 then t.sp1 = s.sp1 else t.sp0 = s.sp0

/-- What a system fixes is as before: the parameters, the MMU, the memory map, what the devices and the
CLU do, RunToBreak; and the samples to come. -/
def SystemSame (s t : State) : Prop :=
  t.runToBreak = s.runToBreak ∧ t.params = s.params ∧ t.env = s.env ∧ t.mmu = s.mmu ∧ t.map = s.map
    ∧ t.devices = s.devices ∧ t.cluFitted = s.cluFitted ∧ t.clu = s.clu

/-- What stands beside the registers, memory and the prefetch buffer is as before: the execution
state, the system, the state of its devices and CLU, and the model's own bookkeeping (but for a data
breakpoint's mark). -/
def OutsideSame (s t : State) : Prop :=
  t.exe = s.exe ∧ SystemSame s t ∧ t.devState = s.devState ∧ t.cluState = s.cluState
    ∧ t.cluSent = s.cluSent ∧ t.freeNext = s.freeNext ∧ t.blkRun = s.blkRun ∧ t.ahead = s.ahead
    ∧ t.event = s.event

/-- The same but for the numbers of the free values drawn and of the bytes a block copy has done. -/
def OutsideButDraws (s t : State) : Prop :=
  t.exe = s.exe ∧ SystemSame s t ∧ t.devState = s.devState ∧ t.cluState = s.cluState
    ∧ t.cluSent = s.cluSent ∧ t.ahead = s.ahead ∧ t.event = s.event

/-- The same but for the CLU's state and what was passed to it. -/
def OutsideButClu (s t : State) : Prop :=
  t.exe = s.exe ∧ SystemSame s t ∧ t.devState = s.devState ∧ t.freeNext = s.freeNext
    ∧ t.blkRun = s.blkRun ∧ t.ahead = s.ahead ∧ t.event = s.event

/-- Memory and the prefetch buffer are as before. -/
def FetchSame (s t : State) : Prop := MemSame s t ∧ t.stale = s.stale

/-- Memory outside the `n` bytes at `a` is as before; the half-words the change leaves in the prefetch
buffer are those R96 says. -/
def FetchSameBut (s t : State) (a : Word) (n : Nat) : Prop :=
  MemSameBut s t a n ∧ t.stale = s.staleAfter t.mem

/-- Nothing but PC, the listed registers and the masked bits of FLAGS has changed. -/
def OnlyRegs (s t : State) (ds : List Reg) (mask : Word) : Prop :=
  RegsBut s t ds ∧ FlagsBut s t mask ∧ StacksSame s t ∧ SpecialsSame s t ∧ OutsideSame s t
    ∧ t.breakHit = s.breakHit ∧ FetchSame s t

/-- Nothing but PC, the listed registers, the masked bits of FLAGS and the mark of a data breakpoint
has changed. -/
def OnlyRegsRead (s t : State) (ds : List Reg) (mask : Word) : Prop :=
  RegsBut s t ds ∧ FlagsBut s t mask ∧ StacksSame s t ∧ SpecialsSame s t ∧ OutsideSame s t
    ∧ FetchSame s t

/-- Nothing but PC, the listed registers, the masked bits of FLAGS, the mark of a data breakpoint, the
`n` bytes at `a` and what the prefetch buffer keeps of them has changed. -/
def OnlyRegsStored (s t : State) (ds : List Reg) (mask a : Word) (n : Nat) : Prop :=
  RegsBut s t ds ∧ FlagsBut s t mask ∧ StacksSame s t ∧ SpecialsSame s t ∧ OutsideSame s t
    ∧ FetchSameBut s t a n

/-- The masks of Z, N; of Z, N, V; of Z, N, C; of Z, N, C, V. -/
def maskZN : Word := 0x3#32
def maskZNC : Word := 0x7#32
def maskZNV : Word := 0xB#32
def maskZNCV : Word := 0xF#32

/-- Z and N describe a 32-bit value (`SetZN`, R11). -/
def ZNOf (t : State) (v : Word) : Prop :=
  flagZ t.flags = (v == 0#32) ∧ flagN t.flags = v.getLsbD 31

/-! ### When an access or a branch succeeds -/

/-- A read by mode `m` raises no error (R88) and is one of memory. -/
def ReadOkIn (s : State) (m : Mode) (w : Width) (a : Word) : Prop :=
  dataCheck s m w .read a = none ∧ s.place (bytesOf w) a = .memory

/-- The value of an access of this width: its low bytes. -/
def lowBytes (w : Width) (v : Word) : Word :=
  match w with
  | .byte => (fld v 0 8).setWidth 32
  | .half => (fld v 0 16).setWidth 32
  | .word => v

/-- A write by mode `m` raises no error (R88) and is one of RAM. -/
def WriteOkIn (s : State) (m : Mode) (w : Width) (a : Word) : Prop :=
  dataCheck s m w .write a = none ∧ s.place (bytesOf w) a = .memory
    ∧ s.allRam (bytesOf w) a = true

/-- A data read of the current mode succeeds. -/
def ReadOk (s : State) (w : Width) (a : Word) : Prop := ReadOkIn s s.mode w a

/-- A data write of the current mode succeeds. -/
def WriteOk (s : State) (w : Width) (a : Word) : Prop := WriteOkIn s s.mode w a

/-- A branch target raises no error (R152). -/
def TargetOk (t : Word) : Prop := t.getLsbD 0 = false ∧ t ≠ 0#32

/-- The K guard of an operand that uses `%sp` passes (R31). -/
def GuardOk (s : State) (uses : Bool) : Prop := uses = true → s.spEnabled = true

/-! ### The normal form of a step -/

/-- The step runs the instruction at PC: the core is Awake, no reset is presented, no interrupt is
accepted, and no execute breakpoint takes effect (R471, R492). -/
def RunsInstr (s : State) : Prop :=
  s.exe = .awake ∧ s.sample.hardReset = false
    ∧ (∀ num prio, s.sample.irq = some (num, prio) → acceptIrq s num prio = false)
    ∧ (s.execBreak = false ∨ (breakServed s = false ∧ s.runToBreak = false))

/-- The number of half-words the length rule gives an instruction with this first one (R101). -/
def halfCount (h : Half) : Nat :=
  match Sys2Proof.sizeOf h with
  | .two => 1
  | .four => 2
  | .six => 3

/-- The instruction at PC is `i`: PC is even, its half-words are in memory, none of them is refused by
the MMU or stale in the prefetch buffer, and they decode to `i` (R74, R130). -/
def FetchesInstr (s : State) (i : Instr) : Prop :=
  s.pc.getLsbD 0 = false ∧ s.stale = []
    ∧ (∀ k : Nat, k < halfCount (read16 s.mem s.pc) →
        fetchCheck s (s.pc + BitVec.ofNat 32 (2 * k)) = none
          ∧ s.place 2 (s.pc + BitVec.ofNat 32 (2 * k)) = .memory)
    ∧ decode s.params (read16 s.mem s.pc) (read16 s.mem (s.pc + 2#32)) (read16 s.mem (s.pc + 4#32))
        = .ok i

/-- The first half-word of the instruction at PC that the MMU refuses is the one numbered `j`, with
the error `k`; the ones before it are in memory and none is stale (R74, R86). -/
def FetchFailsAt (s : State) (j : Nat) (k : ErrorKind) : Prop :=
  s.stale = [] ∧ (j = 0 ∨ j < halfCount (read16 s.mem s.pc))
    ∧ (∀ x : Nat, x < j → fetchCheck s (s.pc + BitVec.ofNat 32 (2 * x)) = none
        ∧ s.place 2 (s.pc + BitVec.ofNat 32 (2 * x)) = .memory)
    ∧ fetchCheck s (s.pc + BitVec.ofNat 32 (2 * j)) = some k

/-- The half-words at PC are fetched from memory and match no row (R130). -/
def FetchesUnknown (s : State) : Prop :=
  s.stale = []
    ∧ (∀ x : Nat, x < halfCount (read16 s.mem s.pc) →
        fetchCheck s (s.pc + BitVec.ofNat 32 (2 * x)) = none
          ∧ s.place 2 (s.pc + BitVec.ofNat 32 (2 * x)) = .memory)
    ∧ ∃ u, decode s.params (read16 s.mem s.pc) (read16 s.mem (s.pc + 2#32))
        (read16 s.mem (s.pc + 4#32)) = .error u

/-! ### Completion and results -/

/-- `i` completes in `s`: `exec` answers a next state, at the next instruction, of which `P` holds. -/
def Completes (i : Instr) (s : State) (P : State → Prop) : Prop :=
  ∃ t, exec i s = .next t ∧ t.pc = s.pc + i.length ∧ P t

/-- `n` executions of `i` one after another. -/
def execTimes (i : Instr) (n : Nat) (s : State) : Host.Outcome State Fault Refusal :=
  match n with
  | 0 => .next s
  | k + 1 =>
    match exec i s with
    | .next t => execTimes i k t
    | .fault r => .fault r
    | .refused r => .refused r

/-- Rd holds `v`, Z and N describe it, nothing else has changed (R240, R264). -/
def ValueResult (s t : State) (rd : Reg) (v : Word) : Prop :=
  t.reg rd = v ∧ ZNOf t v ∧ OnlyRegs s t [rd] maskZN

/-- Rd holds `v`, no flag is written. -/
def PlainResult (s t : State) (rd : Reg) (v : Word) : Prop :=
  t.reg rd = v ∧ OnlyRegs s t [rd] 0#32

/-- Rd holds the field value `v`; Z describes it and N is cleared (R403, R413). -/
def FieldResult (s t : State) (rd : Reg) (v : Word) : Prop :=
  t.reg rd = v ∧ flagZ t.flags = (v == 0#32) ∧ flagN t.flags = false ∧ OnlyRegs s t [rd] maskZN

/-- Only the bits of FLAGS in the mask have changed, and they are now those of `f`. -/
def FlagsResult (s t : State) (mask f : Word) : Prop :=
  t.flags &&& mask = f &&& mask ∧ OnlyRegs s t [] mask

/-- The 0 or 1 of a carry. -/
def carryWord (w : Nat) (c : Bool) : BitVec w := (BitVec.ofBool c).setWidth w

/-- Z of the carry forms is cleared where it was not set (R263). -/
def stickyZ (sticky : Bool) (s : State) (z : Bool) : Bool := z && (!sticky || flagZ s.flags)

/-- Rd and the flags are those of `a + b + c` (R261, R263). -/
def AddResult (s t : State) (rd : Reg) (a b : Word) (c sticky : Bool) : Prop :=
  t.reg rd = a + b + carryWord 32 c
    ∧ (flagC t.flags = true ↔ 2 ^ 32 ≤ a.toNat + b.toNat + c.toNat)
    ∧ (flagV t.flags = true ↔ a.toInt + b.toInt + (c.toNat : Int) < -(2 ^ 31)
        ∨ 2 ^ 31 ≤ a.toInt + b.toInt + (c.toNat : Int))
    ∧ flagN t.flags = (t.reg rd).getLsbD 31
    ∧ flagZ t.flags = stickyZ sticky s (t.reg rd == 0#32)
    ∧ OnlyRegs s t [rd] maskZNCV

/-- Rd and the flags are those of `a - b - c`, C a borrow (R262, R263). -/
def SubResult (s t : State) (rd : Reg) (a b : Word) (c sticky : Bool) : Prop :=
  t.reg rd = a - b - carryWord 32 c
    ∧ (flagC t.flags = true ↔ a.toNat < b.toNat + c.toNat)
    ∧ (flagV t.flags = true ↔ a.toInt - b.toInt - (c.toNat : Int) < -(2 ^ 31)
        ∨ 2 ^ 31 ≤ a.toInt - b.toInt - (c.toNat : Int))
    ∧ flagN t.flags = (t.reg rd).getLsbD 31
    ∧ flagZ t.flags = stickyZ sticky s (t.reg rd == 0#32)
    ∧ OnlyRegs s t [rd] maskZNCV

/-- The flags are those of a compare of `a` with `b` at width `w` (R311); nothing else has changed.
Z of the carry forms is by the result where `CMPC_Z_BY_RESULT` says so. -/
def CompareResult {w : Nat} (s t : State) (a b : BitVec w) (c sticky : Bool) : Prop :=
  (flagC t.flags = true ↔ a.toNat < b.toNat + c.toNat)
    ∧ (flagV t.flags = true ↔ a.toInt - b.toInt - (c.toNat : Int) < -(2 ^ (w - 1))
        ∨ 2 ^ (w - 1) ≤ a.toInt - b.toInt - (c.toNat : Int))
    ∧ flagN t.flags = (a - b - carryWord w c).getLsbD (w - 1)
    ∧ flagZ t.flags = stickyZ sticky s
        (if sticky && s.params.cmpcZByResult then a - b - carryWord w c == 0#w else a == b)
    ∧ OnlyRegs s t [] maskZNCV

/-- Rd holds `v`; Z, N describe it; C is `c` where there is one and else as before (R341). -/
def ShiftResult (s t : State) (rd : Reg) (v : Word) (c : Option Bool) : Prop :=
  t.reg rd = v ∧ ZNOf t v ∧ flagC t.flags = c.getD (flagC s.flags) ∧ OnlyRegs s t [rd] maskZNC

/-- Rd holds what was loaded; Z, N describe it; a read breakpoint is marked (R55). -/
def LoadResult (s t : State) (rd : Reg) (w : Width) (a v : Word) : Prop :=
  t.reg rd = v ∧ ZNOf t v ∧ OnlyRegsRead s t [rd] maskZN
    ∧ t.breakHit = (s.breakHit || s.dataBreak .read w a)

/-- The bytes at `a` hold the low bytes of `v`; a write breakpoint is marked. -/
def StoreResult (s t : State) (w : Width) (a v : Word) : Prop :=
  (match w with
    | .byte => read8 t.mem a = fld v 0 8
    | .half => read16 t.mem a = fld v 0 16
    | .word => read32 t.mem a = v)
    ∧ OnlyRegsStored s t [] 0#32 a (bytesOf w)
    ∧ t.breakHit = (s.breakHit || s.dataBreak .write w a)

/-- The branch `i` with the condition `c` goes to `t` where `c` holds and else to the next
instruction; it changes nothing else. -/
def Branches (i : Instr) (s : State) (c : Prop) (t : Word) : Prop :=
  (c → TargetOk t → exec i s = .next { s with pc := t })
    ∧ (¬c → exec i s = .next { s with pc := s.pc + i.length })

/-- The branch `i` with the condition `c`, where `c` holds, traps on an odd target with the even one as
return address and on the target 0 with its own; `u` is what it has done by then (R152, R153). -/
def BranchTraps (i : Instr) (s u : State) (c : Prop) (t : Word) : Prop :=
  (c → t.getLsbD 0 = true →
      exec i s = raiseError .alignError 0#4 (t &&& 0xFFFFFFFE#32) s.pc s.pc u)
    ∧ (c → t = 0#32 → exec i s = raiseError .nullPointer 0#4 s.pc s.pc s.pc u)

/-- In the state `t` the ten two-size branches go by the order of `a` and `b` (R331). -/
def OrderBranches {w : Nat} (t : State) (f : CondForm) (a b : BitVec w) : Prop :=
  Branches (.beq f) t (a = b) (t.condTarget f) ∧ Branches (.bne f) t (a ≠ b) (t.condTarget f)
    ∧ Branches (.bcs f) t (a.toNat < b.toNat) (t.condTarget f)
    ∧ Branches (.bcc f) t (b.toNat ≤ a.toNat) (t.condTarget f)
    ∧ Branches (.bgtU f) t (b.toNat < a.toNat) (t.condTarget f)
    ∧ Branches (.bleU f) t (a.toNat ≤ b.toNat) (t.condTarget f)
    ∧ Branches (.bltS f) t (a.toInt < b.toInt) (t.condTarget f)
    ∧ Branches (.bgeS f) t (b.toInt ≤ a.toInt) (t.condTarget f)
    ∧ Branches (.bgtS f) t (b.toInt < a.toInt) (t.condTarget f)
    ∧ Branches (.bleS f) t (a.toInt ≤ b.toInt) (t.condTarget f)

/-- `i` completes in `s`, and after it the ten branches go by the order of `a` and `b`. -/
def ThenOrders {w : Nat} (i : Instr) (s : State) (f : CondForm) (a b : BitVec w) : Prop :=
  ∃ t, exec i s = .next t ∧ t.pc = s.pc + i.length ∧ OrderBranches t f a b

/-! ### Stack instructions -/

/-- The atom's access raises no error. -/
def AtomOk (s : State) (a : StackAtom) : Prop :=
  match a with
  | .store _ => WriteOk s .word (s.sp - 4#32)
  | .storeImm _ => WriteOk s .word (s.sp - 4#32)
  | .load _ => ReadOk s .word s.sp
  | .adjust _ => True

/-- The atom's access fails its check with this error: a push writes the word below SP, a load reads
the word at SP (R223-R225); moving SP makes no access. -/
def AtomFails (s : State) (a : StackAtom) (k : ErrorKind) : Prop :=
  match a with
  | .store _ => dataCheck s s.mode .word .write (s.sp - 4#32) = some k
  | .storeImm _ => dataCheck s s.mode .word .write (s.sp - 4#32) = some k
  | .load _ => dataCheck s s.mode .word .read s.sp = some k
  | .adjust _ => False

/-- The atom's access passes its check and goes where nothing stands. -/
def AtomNowhere (s : State) (a : StackAtom) : Prop :=
  match a with
  | .store _ => dataCheck s s.mode .word .write (s.sp - 4#32) = none
      ∧ s.place 4 (s.sp - 4#32) = .nowhere
  | .storeImm _ => dataCheck s s.mode .word .write (s.sp - 4#32) = none
      ∧ s.place 4 (s.sp - 4#32) = .nowhere
  | .load _ => dataCheck s s.mode .word .read s.sp = none ∧ s.place 4 s.sp = .nowhere
  | .adjust _ => False

/-- What an atom does to the stack pointer, the registers and memory (R223-R225). -/
def AtomDone (s t : State) (a : StackAtom) : Prop :=
  match a with
  | .store r => t.sp = s.sp - 4#32 ∧ read32 t.mem (s.sp - 4#32) = s.reg r
      ∧ FetchSameBut s t (s.sp - 4#32) 4 ∧ t.regs = s.regs
  | .storeImm v => t.sp = s.sp - 4#32 ∧ read32 t.mem (s.sp - 4#32) = v
      ∧ FetchSameBut s t (s.sp - 4#32) 4 ∧ t.regs = s.regs
  | .load r => t.sp = s.sp + 4#32 ∧ t.reg r = read32 s.mem s.sp ∧ RegsBut s t [r] ∧ t.mem = s.mem
      ∧ t.stale = s.stale
  | .adjust d => t.sp = s.sp + d ∧ t.regs = s.regs ∧ t.mem = s.mem ∧ t.stale = s.stale

/-- What a stack instruction leaves alone at each of its atoms. -/
def StackFrame (s t : State) (mask : Word) : Prop :=
  FlagsBut s t mask ∧ OtherStackSame s t ∧ SpecialsSame s t ∧ OutsideSame s t

/-- The registers of a list whose numbers satisfy the condition, lowest first (R222). -/
def regsWhere (p : Nat → Bool) : List Reg :=
  (if p 0 then [.r0] else []) ++ (if p 1 then [.r1] else []) ++ (if p 2 then [.r2] else [])
    ++ (if p 3 then [.r3] else []) ++ (if p 4 then [.r4] else []) ++ (if p 5 then [.r5] else [])
    ++ (if p 6 then [.r6] else []) ++ (if p 7 then [.r7] else [])

/-- The atom that moves SP by this many bytes, where they are not 0 (R223, R225). -/
def moveSp (d : Int) : List StackAtom := if d = 0 then [] else [.adjust (BitVec.ofInt 32 d)]

/-- The atom that pushes a sign-extended immediate (R224). -/
def pushSigned {n : Nat} (v : BitVec n) : StackAtom := .storeImm (BitVec.ofInt 32 v.toInt)

/-- The atom that pushes a one-bit immediate: 0 or 1, or 0 or -1 (R224, D16). -/
def pushBit (signed : Bool) (b : BitVec 1) : StackAtom :=
  .storeImm (if b = 0#1 then 0#32 else if signed then 0xFFFFFFFF#32 else 1#32)

/-- FLAGS.S. -/
def maskS : Word := 0xFF000000#32

/-- FLAGS.S and Z, N, C, V. -/
def maskSZNCV : Word := 0xFF00000F#32

/-- The last atom of `pop.ret` is done but for the jump: the return address is popped, the flags are
those of a compare of R0 with 0, S is 0 (R226). -/
def ReturnPopped (s t : State) : Prop :=
  t.sp = s.sp + 4#32 ∧ flagZ t.flags = (s.reg .r0 == 0#32)
    ∧ flagN t.flags = (s.reg .r0).getLsbD 31 ∧ flagC t.flags = false ∧ flagV t.flags = false
    ∧ t.atomsDone = 0 ∧ t.regs = s.regs ∧ t.mem = s.mem ∧ t.stale = s.stale
    ∧ StackFrame s t maskSZNCV

/-! ### Block instructions -/

/-- What a block instruction leaves alone at each of its atoms: all but PC, the listed registers, S,
the byte at `a` and the numbers of the draws. -/
def BlockFrame (s t : State) (ds : List Reg) (a : Word) : Prop :=
  RegsBut s t ds ∧ FlagsBut s t maskS ∧ StacksSame s t ∧ SpecialsSame s t ∧ OutsideButDraws s t
    ∧ FetchSameBut s t a 1

/-- An atom that is not the last of a block instruction that keeps the bytes done in S (R361). -/
def BlockGoesOnS (s t : State) (addrs : List Reg) : Prop :=
  t.pc = s.pc ∧ flagS t.flags = flagS s.flags + 1#8 ∧ ∀ r ∈ addrs, t.reg r = s.reg r + 1#32

/-- An atom that is not the last of a block instruction that counts `rn` down (R361). -/
def BlockGoesOnR (s t : State) (addrs : List Reg) (rn : Reg) : Prop :=
  t.pc = s.pc ∧ t.flags = s.flags ∧ t.reg rn = s.reg rn - 1#32
    ∧ ∀ r ∈ addrs, t.reg r = s.reg r + 1#32

/-- A block instruction is complete, its last step having moved the addresses by `d`; the address
registers hold what the atoms left only where `BLK_END_STATE` is `pseudocode` (R364). -/
def BlockEnds (i : Instr) (s t : State) (addrs : List Reg) (d : Word) : Prop :=
  t.pc = s.pc + i.length ∧ flagS t.flags = 0#8
    ∧ (s.params.blkEndAny = false → ∀ r ∈ addrs, t.reg r = s.reg r + d)

/-- The register a block store takes its byte from. -/
def srcRegs (src : BlkSrc) : List Reg :=
  match src with
  | .reg rs => [rs]
  | .zero => []
  | .ones => []

/-- The byte a block store writes (R367), and what it makes of a register source (R366). -/
def blkStored (src : BlkSrc) (s : State) : Byte :=
  match src with
  | .reg rs => fld (s.reg rs) 0 8
  | .zero => 0x00#8
  | .ones => 0xFF#8

/-- A register source holds its low byte four times. -/
def Replicated (src : BlkSrc) (s t : State) : Prop :=
  ∀ rs, src = .reg rs → ∀ k : Nat, k < 4 → fld (t.reg rs) (8 * k) 8 = fld (s.reg rs) 0 8

/-- Where the next byte of a copy fails (R363): a read that fails its check raises its error with
nothing changed, a write that fails after it leaves the mark of the read's breakpoint, a draw, and what
the read did to a device. -/
def CopyTraps (i : Instr) (s : State) (rad ras : Reg) : Prop :=
  let src := s.reg ras
  let dst := s.reg rad
  (∀ k, dataCheck s s.mode .byte .read src = some k →
      exec i s = raiseError k 0#4 s.pc s.pc s.pc s)
    ∧ (dataCheck s s.mode .byte .read src = none → s.place 1 src = .nowhere →
      exec i s = .refused .unpopulated)
    ∧ (dataCheck s s.mode .byte .read src = none → s.place 1 src ≠ .nowhere →
      (∀ k, dataCheck s s.mode .byte .write dst = some k →
        ∃ n d, (s.place 1 src = .memory → d = s.devState) ∧ exec i s = raiseError k 0#4 s.pc s.pc s.pc
          { s.accessed .read .byte src with freeNext := n, devState := d })
      ∧ (dataCheck s s.mode .byte .write dst = none → s.place 1 dst = .nowhere →
        exec i s = .refused .unpopulated))

/-- Where the next byte of a block store fails (R363): its error is raised with nothing changed but the
register source, which is replicated before the first byte (R366). -/
def FillTraps (i : Instr) (s : State) (src : BlkSrc) (ra : Reg) : Prop :=
  (∀ k, dataCheck s s.mode .byte .write (s.reg ra) = some k →
      ∃ g, Replicated src s { s with regs := g } ∧ RegsBut s { s with regs := g } (srcRegs src)
        ∧ exec i s = raiseError k 0#4 s.pc s.pc s.pc { s with regs := g })
    ∧ (dataCheck s s.mode .byte .write (s.reg ra) = none → s.place 1 (s.reg ra) = .nowhere →
      exec i s = .refused .unpopulated)

/-! ### Events -/

/-- The memory after the four words of a frame are written, the highest first (R484). -/
def frameMem (m : List Host.Cell) (b ret r1 r0 f : Word) : List Host.Cell :=
  write32 (write32 (write32 (write32 m (b + 12#32) ret) (b + 8#32) r1) (b + 4#32) r0) b f

/-- The four writes of a frame at `b` for a handler in mode `m` succeed (R484). -/
def FrameWritable (s : State) (m : Mode) (b : Word) : Prop :=
  WriteOkIn s m .word b ∧ WriteOkIn s m .word (b + 4#32) ∧ WriteOkIn s m .word (b + 8#32)
    ∧ WriteOkIn s m .word (b + 12#32)

/-- The words of a frame at `b` in the order they are written (R83, R484). -/
def frameWords (b ret r1 r0 f : Word) : List (Word × Word) :=
  [(b + 12#32, ret), (b + 8#32, r1), (b + 4#32, r0), (b, f)]

/-- The state after these words are written. -/
def State.putWords (s : State) (l : List (Word × Word)) : State :=
  l.foldl (fun t x => t.putMem (write32 t.mem x.1 x.2)) s

/-- Of the words of a frame for a handler in mode `m` the first `n` can be written and the next one
raises the error `k` (R484). -/
def FrameFailsAt (s : State) (m : Mode) (l : List (Word × Word)) (n : Nat) (k : ErrorKind) : Prop :=
  (∀ j x, j < n → l[j]? = some x → WriteOkIn s m .word x.1)
    ∧ ∃ x, l[n]? = some x ∧ dataCheck s m .word .write x.1 = some k

/-- The four reads of a frame at `b` in mode `m` succeed (R411). -/
def FrameReadable (s : State) (m : Mode) (b : Word) : Prop :=
  ReadOkIn s m .word b ∧ ReadOkIn s m .word (b + 4#32) ∧ ReadOkIn s m .word (b + 8#32)
    ∧ ReadOkIn s m .word (b + 12#32)

/-- The state after `n` words from `a` up are read: a data breakpoint may be marked. -/
def State.readWords (s : State) (a : Word) (n : Nat) : State :=
  (List.range n).foldl (fun t j => t.accessed .read .word (a + BitVec.ofNat 32 (4 * j))) s

/-- What `rtie` leaves but for PC (R411): FLAGS, R0 and R1 from the frame, the stack pointer above it,
NL or else R cleared; nothing else changes. -/
def FrameReturned (s t : State) : Prop :=
  t.flags = read32 s.mem s.sp ∧ t.reg .r0 = read32 s.mem (s.sp + 4#32)
    ∧ t.reg .r1 = read32 s.mem (s.sp + 8#32) ∧ RegsBut s t [.r0, .r1]
    ∧ t.sp0 = (if s.spIsSp0 then s.sp0 + 16#32 else s.sp0)
    ∧ t.sp1 = (if s.spIsSp0 then s.sp1 else s.sp1 + 16#32)
    ∧ t.info = (if infoNL s.info then s.info &&& ~~~0x10#32 else s.info &&& ~~~0x20#32)
    ∧ t.gp = s.gp ∧ t.vp = s.vp ∧ t.brke = s.brke ∧ t.brk0 = s.brk0 ∧ t.brk1 = s.brk1
    ∧ t.brk2 = s.brk2 ∧ t.brk3 = s.brk3 ∧ t.mem = s.mem ∧ t.stale = s.stale ∧ OutsideSame s t

/-- The vector at `a`, read from memory `m` in mode `x`, is a legal handler address (R463, U7, U22). -/
def VectorOk (s : State) (m : List Host.Cell) (x : Mode) (a : Word) : Prop :=
  mmuAnswer s.mmu x 4 .read a ≠ .dataError ∧ s.place 4 a = .memory ∧ TargetOk (read32 m a)

/-- What every entry does to FLAGS outside M and P: C takes the old I; I and S are cleared; Z, N, V
and A are as before (R451). -/
def EntryFlags (s t : State) : Prop :=
  flagC t.flags = flagI s.flags ∧ flagI t.flags = false ∧ flagS t.flags = 0#8
    ∧ flagZ t.flags = flagZ s.flags ∧ flagN t.flags = flagN s.flags ∧ flagV t.flags = flagV s.flags
    ∧ flagA t.flags = flagA s.flags

/-- What no entry changes: R2 to R7, GP, VP, BRKE, BRK0 to BRK3, and what stands outside. -/
def EntryFrame (s t : State) : Prop :=
  RegsBut s t [.r0, .r1] ∧ t.gp = s.gp ∧ t.vp = s.vp ∧ t.brke = s.brke ∧ t.brk0 = s.brk0
    ∧ t.brk1 = s.brk1 ∧ t.brk2 = s.brk2 ∧ t.brk3 = s.brk3 ∧ t.exe = s.exe ∧ SystemSame s t
    ∧ t.devState = s.devState ∧ t.cluState = s.cluState ∧ t.cluSent = s.cluSent
    ∧ (s.params.prefetchBytes = 0 → t.stale = s.stale)

/-- The frame and the stack pointers after a context push on Stack0 (R83). -/
def FrameOnStack0 (s t : State) (ret : Word) : Prop :=
  t.mem = frameMem s.mem (s.sp0 - 16#32) ret s.regs.r1 s.regs.r0 s.flagsRead
    ∧ t.sp0 = s.sp0 - 16#32 ∧ t.sp1 = s.sp1

/-- The frame and the stack pointers after a context push on Stack1 (R83). -/
def FrameOnStack1 (s t : State) (ret : Word) : Prop :=
  t.mem = frameMem s.mem (s.sp1 - 16#32) ret s.regs.r1 s.regs.r0 s.flagsRead
    ∧ t.sp1 = s.sp1 - 16#32 ∧ t.sp0 = s.sp0

/-- A service can be taken on Stack1 (R480, R484): from User or Trusted mode, both stacks enabled,
the frame writable in Trusted mode, the vector legal. -/
def ServiceOk1 (s : State) (ret : Word) (num : BitVec 5) : Prop :=
  isLow s.mode = true ∧ infoK0 s.info = true ∧ infoK1 s.info = true
    ∧ FrameWritable s .trusted (s.sp1 - 16#32)
    ∧ VectorOk s (frameMem s.mem (s.sp1 - 16#32) ret s.regs.r1 s.regs.r0 s.flagsRead) .trusted
        (exceptionVector s num)

/-- A service can be taken on Stack0: from Supervisor or Interrupt mode. -/
def ServiceOk0 (s : State) (ret : Word) (num : BitVec 5) : Prop :=
  isLow s.mode = false ∧ isLocked s.mode = false ∧ infoK0 s.info = true
    ∧ FrameWritable s s.mode (s.sp0 - 16#32)
    ∧ VectorOk s (frameMem s.mem (s.sp0 - 16#32) ret s.regs.r1 s.regs.r0 s.flagsRead) s.mode
        (exceptionVector s num)

/-- A service has been taken on Stack1: its handler runs in Trusted mode; P is as before. -/
def ServiceTaken1 (s t : State) (arg ret : Word) (num : BitVec 5) : Prop :=
  FrameOnStack1 s t ret ∧ t.pc = read32 t.mem (exceptionVector s num)
    ∧ t.reg .r0 = arg ∧ t.reg .r1 = 0#32 ∧ EntryFlags s t ∧ EntryFrame s t
    ∧ flagP t.flags = flagP s.flags ∧ t.info = s.info ∧ t.mode = .trusted

/-- A service has been taken on Stack0: the mode and P are as before. -/
def ServiceTaken0 (s t : State) (arg ret : Word) (num : BitVec 5) : Prop :=
  FrameOnStack0 s t ret ∧ t.pc = read32 t.mem (exceptionVector s num)
    ∧ t.reg .r0 = arg ∧ t.reg .r1 = 0#32 ∧ EntryFlags s t ∧ EntryFrame s t
    ∧ flagP t.flags = flagP s.flags ∧ t.info = s.info ∧ t.mode = s.mode

/-- The two words a reset reads are legal (R34, R463, U7, U8). -/
def ResetOk (s : State) (off : Word) : Prop :=
  mmuAnswer s.mmu .supervisor 4 .read 0xFFFFFFFC#32 ≠ .dataError
    ∧ s.place 4 0xFFFFFFFC#32 = .memory
    ∧ fld (read32 s.mem 0xFFFFFFFC#32) 0 8 = 0#8
    ∧ VectorOk s s.mem .supervisor (read32 s.mem 0xFFFFFFFC#32 + off)

/-- A soft reset has been done (R524); `errpc` is the address it reports. -/
def SoftResetDone (s t : State) (code errpc : Word) : Prop :=
  t.reg .r0 = s.flagsRead ∧ t.reg .r1 = code ∧ t.reg .r2 = s.flagsUsed.brkeRead
    ∧ RegsBut s t [.r0, .r1, .r2] ∧ t.brk0 = errpc ∧ t.brk1 = s.vp ∧ t.brk2 = s.gp
    ∧ t.brk3 = s.brk3 ∧ t.flags = 0#32 ∧ t.brke = 0#32 ∧ t.gp = 0#32 ∧ t.info = 0x100#32
    ∧ t.vp = read32 s.mem 0xFFFFFFFC#32
    ∧ t.pc = read32 s.mem (read32 s.mem 0xFFFFFFFC#32 + 8#32)
    ∧ t.exe = .awake ∧ t.sp0 = s.sp0 ∧ t.sp1 = s.sp1 ∧ t.mem = s.mem
    ∧ SystemSame s t ∧ t.devState = s.devState ∧ t.cluState = s.cluState ∧ t.cluSent = s.cluSent
    ∧ t.stale = []

/-! ### Encodings -/

/-- The rows of the 16-bit space that a half-word matches: the whole ones, then the damaged ones. -/
def claims16 (p : Params) (h : Half) : List Bool :=
  [(decode16Table h).isSome, bnz16At p h, shiftlcAt p h, mov1rRdIAt p h, mov1rIRsAt p h]

/-- The rows of the 32-bit space that a word matches. -/
def claims32 (p : Params) (l u : Half) : List Bool :=
  [(decode32Table l u).isSome, addNI32At p l, bnz32At p l, lostAt p.push32 l u, lostAt p.pop32 l u,
    lostAt p.popRet32 l u]

/-- The rows of the 48-bit space that a word matches. -/
def claims48 (p : Params) (l : Half) (w : Word) : List Bool :=
  [(decodeATable l (.wide w)).isSome, addNIAt p l]

/-- The patterns that stand for the damaged and lost rows leave every word to one row at most, as R180,
R228, R267, R346 and R413 ask of them. -/
structure PatternsOk (p : Params) : Prop where
  size16 : ∀ h, (claims16 p h).count true ≤ 1
  size32 : ∀ l u, (claims32 p l u).count true ≤ 1
  size48 : ∀ l w, (claims48 p l w).count true ≤ 1

/-- As many of the three half-words as the length rule says (R101). -/
def halvesUsed (h0 h1 h2 : Half) : List Half :=
  match Sys2Proof.sizeOf h0 with
  | .two => [h0]
  | .four => [h0, h1]
  | .six => [h0, h1, h2]

end Sys2Proof.Machine
end

