-- ==== Sys2Proof/Certificates/Slice0/Obligations.lean ====
section
/-! DEFINITION. The statements for the provers. -/

open Sys2Proof Sys2Proof.Machine

/-! ### Encoding -/

/-- Decoding an encoded well-formed instruction gives it back, with every operand at every value,
for every choice of the patterns of the damaged and lost rows that leaves each word to one row.
Those patterns are the spec's parameters (Notes 7, 19, 20). -/
def Obligations.DecodeOfEncode : Prop :=
  ∀ (p : Params) (i : Instr), PatternsOk p → i.wf p = true →
    decodeHalves p (encode p i) = .ok i

/-- Half-words that decode are the encoding of what they decode to, and that is well-formed: no two
encodings share an instruction and no bit of an encoding is dropped. The patterns of damaged and
lost rows are the spec's parameters (Notes 7, 19, 20). -/
def Obligations.EncodeOfDecode : Prop :=
  ∀ (p : Params) (h0 h1 h2 : Half) (i : Instr), decode p h0 h1 h2 = .ok i →
    encode p i = halvesUsed h0 h1 h2 ∧ i.wf p = true

/-- The length of a well-formed instruction is what the length rule reads off its first half-word
(R101), and its encoding has that many half-words. -/
def Obligations.LengthFromFirstHalf : Prop :=
  ∀ (p : Params) (i : Instr), i.wf p = true →
    ∃ h rest, encode p i = h :: rest
      ∧ i.length = (match Sys2Proof.sizeOf h with
        | .two => 2#32
        | .four => 4#32
        | .six => 6#32)
      ∧ i.length = BitVec.ofNat 32 (2 * (encode p i).length)

/-- Words written out in the spec's worked examples decode to the instructions they stand for. -/
def Obligations.WordsOfTheSpecDecode : Prop :=
  ∀ p : Params,
    decode p 0x29E6#16 0#16 0#16 = .ok (.addR .r1 .r2 .r3)
    ∧ decode p 0x2A57#16 0xFFFC#16 0#16 = .ok (.addI (.imm .r1 .r2 (.half 0xFFFC#16)))
    ∧ decode p 0x2A5F#16 0x5678#16 0x1234#16 = .ok (.addI (.imm .r1 .r2 (.wide 0x12345678#32)))
    ∧ decode p 0x010D#16 0#16 0#16 = .ok (.bsrI (.pc16 0x010#9))
    ∧ decode p 0x5CE2#16 0#16 0#16 = .ok (.ldI .r2 (.shortReg .r7 7#6))
    ∧ decode p 0xE837#16 0x8100#16 0#16 = .ok (.ld16zI .r7 (.named .zero (.half 0x8100#16)))
    ∧ decode p 0x0987#16 0x0110#16 0#16 = .ok (.st8R .ones .r3 (.reg .r2))
    ∧ decode p 0x6777#16 0x74EB#16 0#16 = .ok (.pushI (.half4 0xB#4 0xE#4 4#4 7#4))
    ∧ decode p 0x6427#16 0x0904#16 0#16 = .ok (.movFR (.extract .r0 .r1 9#5 4#5))
    ∧ decode p 0x9767#16 0x1234#16 0#16 = .ok (.cluDst 0x1234#16 .r4 .r5 .r6)
    ∧ decode p 0xA105#16 0#16 0#16 = .ok .rtie

/-! ### The step -/

/-- A step in which nothing intervenes runs the instruction at PC: `exec` of the decoded instruction
is followed by what comes after an instruction (data breakpoint, SingleStep). Where the instruction
raised nothing, marked no breakpoint and single stepping is off, that is all. That a step uses up
one sample of the environment is the model's choice (Note 4), and that it keeps bookkeeping of its own,
where the stream goes on among it, and clears it is the model's (Notes 14, 25). -/
def Obligations.StepRunsDecodedInstruction : Prop :=
  ∀ (s : State) (i : Instr), RunsInstr s → FetchesInstr s i →
    step s = endStep (afterOutcome s.sampled (exec i (s.sampled.fetched i)))
    ∧ ∀ t, exec i (s.sampled.fetched i) = .next t → t.event = false → t.breakHit = false →
        (s.isUser = false ∨ (flagP s.flags).getLsbD 1 = false) → step s = .next t.settled

/-- What a fetch finds. Half-words that match no row raise UnknownInstruction, and the first half-word
that the MMU refuses raises its fetch error, before anything is executed; both return to the
instruction, by the spec's decision D29 (Note 21). A half-word where nothing stands is refused (U23,
Note 31). A half-word fetched from memory is what memory holds or one the prefetch buffer still has.
The buffer keeps the half-words of which a byte was changed within the next `PREFETCH_BYTES` bytes of
the instruction stream, and no others (R96, D8). That the bytes are counted from the end of the
instruction is the model's reading (Note 14). -/
def Obligations.StepRaisesFetchErrors : Prop :=
  (∀ s : State, RunsInstr s → s.pc.getLsbD 0 = false →
    (∀ j k, FetchFailsAt s j k →
      step s = endStep (afterOutcome s.sampled (raiseError k 0#4 s.pc s.pc s.pc s.sampled)))
    ∧ (FetchesUnknown s →
      step s = endStep (afterOutcome s.sampled
        (raiseError .unknownInstruction 0#4 s.pc s.pc s.pc s.sampled)))
    ∧ (fetchCheck s s.pc = none → s.place 2 s.pc = .nowhere → step s = .refused .unpopulated))
  ∧ (∀ (s t : State) (a : Word) (h : Half), s.place 2 a = .memory → fetchHalf s a = .half h t →
    (h = read16 s.mem a ∨ ⟨a, h⟩ ∈ s.stale) ∧ (s.stale = [] → t = s))
  ∧ ∀ (s : State) (m : List Host.Cell),
    (s.params.prefetchBytes = 0 → s.staleAfter m = s.stale)
    ∧ (∀ i : Instr, (s.fetched i).ahead = s.pc + i.length)
    ∧ ∀ e : StaleHalf, e ∈ s.staleAfter m ↔ e ∈ s.stale
      ∨ ∃ k j : Nat, j < 2 ∧ 2 * k + j < s.params.prefetchBytes
        ∧ e = ⟨s.ahead + BitVec.ofNat 32 (2 * k), read16 s.mem (s.ahead + BitVec.ofNat 32 (2 * k))⟩
        ∧ read8 m (s.ahead + BitVec.ofNat 32 (2 * k + j))
          ≠ read8 s.mem (s.ahead + BitVec.ofNat 32 (2 * k + j))

/-- An Awake core takes an accepted interrupt request before it fetches; a request is accepted as
R473 says. Where a word of the context push cannot be written, a soft reset of type 2 and number 0
takes the place of the entry, the words before it written (R474, R484 (a)). What a failed push leaves
is the spec's decision D30, the reported address D33 (Note 21); that the frame is written in the mode of
the handler is as Note 32 says, a FREE bit of the FLAGS word is drawn as Note 8 says. One sample of the
environment per step is the model's choice (Note 4). -/
def Obligations.StepTakesAcceptedInterrupt : Prop :=
  (∀ (s : State) (num : BitVec 5) (prio : BitVec 4), s.exe = .awake →
    s.sample.hardReset = false → s.sample.irq = some (num, prio) → acceptIrq s num prio = true →
    step s = endStep (interruptEntry num prio s.sampled))
  ∧ ∀ (s : State) (num : BitVec 5) (prio : BitVec 4),
    (acceptIrq s num prio = true ↔
      infoNL s.info = false ∧ infoK0 s.info = true
        ∧ (num.toNat ≤ 3 ∨ (flagI s.flags = true ∧ infoR s.info = false
            ∧ (flagM s.flags = 1#2 → prio.toNat < (flagP s.flags).toNat))))
    ∧ (acceptIrq s num prio = true →
      let l := frameWords (s.sp0 - 16#32) s.pc s.regs.r1 s.regs.r0 s.flagsRead
      ∀ n e, FrameFailsAt s (if num.toNat ≤ 3 then .nmi else .interrupt) l n e →
        interruptEntry num prio s
          = softReset 2#3 0#5 s.pc (s.flagsUsed.putWords (l.take n)))

/-- Outside the Awake state no instruction runs: a halted core stays as it is, a sleeping one waits
for WAKE_UP, and a hard reset works in every state. That a halted core stays is the spec's decision
D25, that WAKE_UP alone wakes a sleeping one, with its other state unchanged, is D31 (Note 21). One
sample of the environment per step is the model's choice (Notes 4, 24). -/
def Obligations.StepOutsideAwake : Prop :=
  ∀ s : State,
    (s.sample.hardReset = true → step s = endStep (hardReset s.sampled))
    ∧ (s.sample.hardReset = false → s.exe = .halted → step s = .next s.sampled.settled)
    ∧ (s.sample.hardReset = false → (s.exe = .sifSleep ∨ s.exe = .nopSleep) →
        step s = .next (if s.sample.wakeUp then { s.sampled.settled with exe := .awake }
          else s.sampled.settled))

/-- Which breakpoints match (R55): an execute breakpoint where its enable is set and PC is its address
with bit 0 cleared, a data breakpoint where its read or write enable is set and the access has a byte
in its word whose select bit is set. An execute breakpoint takes effect before its instruction:
Break_T in User mode with B set, else the core halts where RunToBreak is on. Comparing all bits but
bit 0 is the spec's decision D14, the return to the instruction D29, the PC of the halted core D25
(Note 21). -/
def Obligations.StepExecuteBreakpoint : Prop :=
  (∀ s : State, s.exe = .awake → s.sample.hardReset = false → s.sample.irq = none →
    s.execBreak = true →
    (s.isUser = true → (flagP s.flags).getLsbD 0 = true →
      step s = endStep (raiseService 17#5 17#5 s.pc s.pc s.pc s.pc s.pc s.sampled))
    ∧ ((s.isUser = false ∨ (flagP s.flags).getLsbD 0 = false) → s.runToBreak = true →
      step s = .next { s.sampled.settled with exe := .halted }))
  ∧ ∀ s : State,
    let brk (k : Nat) : Word := match k with
      | 0 => s.brk0
      | 1 => s.brk1
      | 2 => s.brk2
      | _ => s.brk3
    (s.execBreak = true ↔ ∃ k : Nat, k < 4 ∧ s.brke.getLsbD (8 * k + 2) = true
      ∧ s.pc = brk k &&& 0xFFFFFFFE#32)
    ∧ ∀ (w : Width) (a : Word),
      let hits (k : Nat) : Prop := ∃ j : Nat, j < bytesOf w
        ∧ fld (a + BitVec.ofNat 32 j) 2 30 = fld (brk k) 2 30
        ∧ s.brke.getLsbD (8 * k + 4 + (a + BitVec.ofNat 32 j).toNat % 4) = true
      (s.dataBreak .write w a = true ↔ ∃ k : Nat, k < 4 ∧ s.brke.getLsbD (8 * k) = true ∧ hits k)
      ∧ (s.dataBreak .read w a = true ↔
        ∃ k : Nat, k < 4 ∧ s.brke.getLsbD (8 * k + 1) = true ∧ hits k)

/-- After an instruction that raised nothing, in every mode: a data breakpoint that matched is Break_T
in User mode with B set; else it halts the core where RunToBreak is on, with PC at the following
instruction; else it is ignored. Where none matched or it is ignored, SingleStep follows a User mode
instruction with T set before it, and nothing any other. The order, that the mode and B are those the
instruction left, and none after an exception, are as Note 28 says; PC of the halted core is the spec's
decision D25, the return to the PC the instruction left is D29 (Note 21). -/
def Obligations.StepAfterUserInstruction : Prop :=
  ∀ (s t : State) (i : Instr), RunsInstr s → FetchesInstr s i →
    exec i (s.sampled.fetched i) = .next t → t.event = false → t.exe = .awake →
    let served : Prop := t.isUser = true ∧ (flagP t.flags).getLsbD 0 = true
    let stepped : Prop := s.isUser = true ∧ (flagP s.flags).getLsbD 1 = true
    (t.breakHit = true → served →
      step s = endStep (raiseService 17#5 17#5 s.pc t.pc t.pc s.pc t.pc t))
    ∧ (t.breakHit = true → ¬served → t.runToBreak = true →
      step s = .next { t.settled with exe := .halted })
    ∧ (t.breakHit = false ∨ (¬served ∧ t.runToBreak = false) →
      (stepped → step s = endStep (raiseService 16#5 16#5 s.pc t.pc t.pc s.pc t.pc t))
      ∧ (¬stepped → step s = .next t.settled))

/-- Every step keeps the invariant: canonical memory, the zero bits of PC, SP0, SP1, GP and VP, the
FREE bits of INFO, K1 only with K0, no stale half-word without a prefetch buffer, and the bookkeeping
of the step cleared. -/
def Obligations.StepKeepsInvariant : Prop :=
  ∀ s t : State, s.Inv → step s = .next t → t.Inv

/-- The state after reset has the invariant. PC and VP after reset rest on the word of Note 1, the
model's choice. -/
def Obligations.ResetHasInvariant : Prop := State.reset.Inv

/-- From a state with the invariant a step answers a next state, or is refused for one of five
reasons: a bad vector, a bad VP word, an MMU error on a read of the hardware, an access to an address
that is not populated, a `pop.ret` resumed past its end. The refusals are treatments of the spec for
U7, U8, U22, U23 and U11 (Notes 11, 15, 16, 17, 31). -/
def Obligations.StepStopsOnlyByName : Prop :=
  ∀ s : State, s.Inv →
    (∃ t, step s = .next t) ∨ step s = .refused .badVector ∨ step s = .refused .badVectorBase
      ∨ step s = .refused .mmuOnHardwareRead ∨ step s = .refused .unpopulated
      ∨ step s = .refused .resumedPastEnd

/-! ### Modes and isolation -/

/-- The mode or state, its privilege and its stack are the functions of INFO[NL], INFO[R] and
FLAGS[M] that the table of R52 gives. -/
def Obligations.ModeIsAFunctionOfTheBits : Prop :=
  ∀ s : State,
    (infoNL s.info = true → s.mode = .nmi)
    ∧ (infoNL s.info = false → infoR s.info = true → s.mode = .recovery)
    ∧ (infoNL s.info = false → infoR s.info = false →
        (flagM s.flags = 0#2 → s.mode = .supervisor) ∧ (flagM s.flags = 1#2 → s.mode = .interrupt)
        ∧ (flagM s.flags = 2#2 → s.mode = .trusted) ∧ (flagM s.flags = 3#2 → s.mode = .user))
    ∧ (s.isUser = true ↔ s.mode = .user)
    ∧ (s.sp = if s.mode = .trusted ∨ s.mode = .user then s.sp1 else s.sp0)

/-- A User mode instruction that raises nothing changes no privileged state: of FLAGS only Z, N, C,
V, A and S, of the special registers only SP1; and the core stays Awake but for a `brk`. -/
def Obligations.UserModeKeepsPrivilegedState : Prop :=
  ∀ (i : Instr) (s t : State), s.isUser = true → exec i s = .next t → t.event = false →
    FlagsBut s t 0xFFFF000F#32 ∧ t.sp0 = s.sp0 ∧ t.gp = s.gp ∧ t.vp = s.vp ∧ t.info = s.info
      ∧ t.brke = s.brke ∧ t.brk0 = s.brk0 ∧ t.brk1 = s.brk1 ∧ t.brk2 = s.brk2 ∧ t.brk3 = s.brk3
      ∧ t.runToBreak = s.runToBreak ∧ t.mode = .user ∧ (i ≠ .brk → t.exe = s.exe)

/-- Each privileged form raises PrivInstruction in User mode, `rtie` with ErrorPval 2 (R462), and
does nothing else. That it returns to itself is the spec's decision D29, that reserved register
codes are not looked at before is D23 (Note 21). -/
def Obligations.PrivilegedFormsTrapInUserMode : Prop :=
  ∀ s : State, s.isUser = true → ∀ i : Instr,
    ((i = .rtie ∨ i = .halt ∨ i = .sif ∨ i = .sleepnop ∨ i = .sleepsif ∨ i = .softreset)
      ∨ (∃ v, i = .mov1I v) ∨ (∃ r, i = .mov1R (.setI r)) ∨ i = .mov1R .iFromC
      ∨ (∃ v, i = .mov2I v) ∨ (∃ r, i = .mov2R (.set r))
      ∨ (∃ v, i = .mov4I v) ∨ (∃ r, i = .mov4R (.set r))
      ∨ (∃ d r, i = .movr2s d r) ∨ (∃ r c, c ≠ 0#3 ∧ i = .movs2r r c)
      ∨ (∃ r c, i = .mova2r r c) ∨ (∃ c r, i = .movr2a c r)
      ∨ (∃ r c, i = .movb2r r c) ∨ (∃ c r, i = .movr2b c r)) →
    exec i s = raiseError .privInstruction (if i = .rtie then 2#4 else 0#4) s.pc s.pc s.pc s

/-- Once a soft reset has set SR, a step without a hard reset keeps it; every soft reset sets it, a
hard reset clears it. -/
def Obligations.SoftResetMarkIsSticky : Prop :=
  (∀ s t : State, s.sample.hardReset = false → infoSR s.info = true → step s = .next t →
      infoSR t.info = true)
  ∧ (∀ (s t : State) (type : BitVec 3) (num : BitVec 5) (pc : Word),
      softReset type num pc s = .next t → infoSR t.info = true)
  ∧ (∀ s t : State, hardReset s = .next t → infoSR t.info = false)

/-! ### Memory -/

/-- A word written reads back, its least significant byte at the lowest address, and no other byte
changes; the same of a half-word and of a byte. -/
def Obligations.MemoryIsLittleEndian : Prop :=
  ∀ (m : List Host.Cell) (a v : Word), Memory.wf m = true →
    (∀ k : Nat, k < 4 → read8 (write32 m a v) (a + BitVec.ofNat 32 k) = fld v (8 * k) 8)
    ∧ read32 (write32 m a v) a = v ∧ Memory.wf (write32 m a v) = true
    ∧ (∀ b : Word, (∀ k : Nat, k < 4 → b ≠ a + BitVec.ofNat 32 k) →
        read8 (write32 m a v) b = read8 m b)
    ∧ (∀ h : Half, (∀ k : Nat, k < 2 →
          read8 (write16 m a h) (a + BitVec.ofNat 32 k) = fld h (8 * k) 8)
        ∧ read16 (write16 m a h) a = h ∧ Memory.wf (write16 m a h) = true
        ∧ (∀ b : Word, b ≠ a → b ≠ a + 1#32 → read8 (write16 m a h) b = read8 m b))
    ∧ (∀ c : Byte, read8 (write8 m a c) a = c ∧ Memory.wf (write8 m a c) = true
        ∧ (∀ b : Word, b ≠ a → read8 (write8 m a c) b = read8 m b))

/-- The checks of a data access, in the order of R88: NullPointer, then the MMU's answer, its user
signal in User mode only; no data access raises AlignError. NullPointer first is the spec's decision
D5, the test of the presented address against exactly 0 is D3 (Note 21); the MMU as a list of rules,
and an answer that belongs to fetches counting as ok, are the model's (Note 5). Then the memory map
says where it goes: to memory, where ROM keeps its bytes (Note 31); to a device, which answers by its
own state, once, or twice where the access is unaligned, each with the bytes of its part (R97); or to
an address that is not populated, which is refused (U23, Note 31). Of an access that is partly a
device's the other bytes are memory's. Where an unaligned access is split, and which part is first, is
the model's choice (Note 33). -/
def Obligations.DataAccessChecks : Prop :=
  (∀ (s : State) (m : Mode) (w : Width) (kind : AccessKind) (a : Word),
    (a = 0#32 → dataCheck s m w kind a = some .nullPointer)
    ∧ (a ≠ 0#32 →
        (mmuAnswer s.mmu m (bytesOf w) kind a = .dataError →
          dataCheck s m w kind a = some .mmuDataError)
        ∧ (mmuAnswer s.mmu m (bytesOf w) kind a = .userDataError →
          dataCheck s m w kind a = if m = .user then some .mmuUserDataError else none)
        ∧ (mmuAnswer s.mmu m (bytesOf w) kind a = .ok → dataCheck s m w kind a = none))
    ∧ dataCheck s m w kind a ≠ some .alignError
    ∧ (s.mmu = [] → a ≠ 0#32 → dataCheck s m w kind a = none))
  ∧ ∀ (s : State) (w : Width) (a v : Word),
    let at_ (j : Nat) : Option RegionKind := regionOf s.map (a + BitVec.ofNat 32 j)
    let n := bytesOf w
    let asked (st : Nat) (write : Bool) (k : Nat) (b x : Word) := deviceAccess s.devices st write k b x
    ((∃ j : Nat, j < bytesOf w ∧ at_ j = none) →
      s.load w a = .error .unpopulated ∧ s.store w a v = .error .unpopulated)
    ∧ ((∀ j : Nat, j < bytesOf w → at_ j = some .ram ∨ at_ j = some .rom) →
      s.load w a = .ok (loadMem s.mem w a, s))
    ∧ ((∀ j : Nat, j < bytesOf w → at_ j = some .ram) →
      s.store w a v = .ok (s.putMem (storeMem s.mem w a v)))
    ∧ ((∀ j : Nat, j < bytesOf w → at_ j = some .rom) → Memory.wf s.mem = true →
      ∃ t, s.store w a v = .ok t ∧ MemSame s t)
    ∧ ((∀ j : Nat, j < n → at_ j = some .io) → a.toNat % n = 0 →
      let r := asked s.devState false n a 0#32
      s.load w a = .ok (lowBytes w r.1, { s with devState := r.2 })
      ∧ s.store w a v
        = .ok { s with devState := (asked s.devState true n a (lowBytes w v)).2 })
    ∧ ((∀ j : Nat, j < n → at_ j = some .io) → a.toNat % n ≠ 0 →
      let k := n - a.toNat % n
      let b := a + BitVec.ofNat 32 k
      let r := asked s.devState false k a 0#32
      let q := asked r.2 false (n - k) b 0#32
      let r' := asked s.devState true k a ((fld v 0 (8 * k)).setWidth 32)
      let q' := asked r'.2 true (n - k) b ((fld v (8 * k) (8 * (n - k))).setWidth 32)
      (∃ x, s.load w a = .ok (x, { s with devState := q.2 })
        ∧ ∀ j : Nat, j < n →
          fld x (8 * j) 8 = if j < k then fld r.1 (8 * j) 8 else fld q.1 (8 * (j - k)) 8)
      ∧ s.store w a v = .ok { s with devState := q'.2 })
    ∧ ((∀ j : Nat, j < n → at_ j ≠ none) → (∃ j : Nat, j < n ∧ at_ j = some .io) →
      Memory.wf s.mem = true →
      (∃ x, s.load w a = .ok (x, { s with devState := (s.deviceLoad w a).2 })
        ∧ ∀ j : Nat, j < n → at_ j ≠ some .io →
          fld x (8 * j) 8 = read8 s.mem (a + BitVec.ofNat 32 j))
      ∧ ∃ t, s.store w a v = .ok t ∧ t.devState = s.deviceStore w a v
        ∧ (∀ j : Nat, j < n → at_ j = some .ram →
          read8 t.mem (a + BitVec.ofNat 32 j) = fld v (8 * j) 8)
        ∧ ∀ b : Word, (∀ j : Nat, j < n → at_ j = some .ram → b ≠ a + BitVec.ofNat 32 j) →
          read8 t.mem b = read8 s.mem b)

/-- Displacement and indexed addresses: a register or PC base takes a signed offset, SP, GP and the
zero base an unsigned one; a short offset is scaled by the access size. That the sums are modulo
2^32 is the spec's decision D1 (Note 21). -/
def Obligations.AddressFormation : Prop :=
  ∀ (s : State) (w : Width) (r x : Reg) (v : BitVec 32) (h : BitVec 16) (o : BitVec 6),
    s.dispAddr w (.reg r (.wide v)) = s.reg r + v
    ∧ s.dispAddr w (.reg r (.half h)) = s.reg r + BitVec.ofInt 32 h.toInt
    ∧ s.dispAddr w (.named .pc (.wide v)) = s.pc + v
    ∧ s.dispAddr w (.named .pc (.half h)) = s.pc + BitVec.ofInt 32 h.toInt
    ∧ s.dispAddr w (.named .sp (.wide v)) = s.sp + v
    ∧ s.dispAddr w (.named .sp (.half h)) = s.sp + BitVec.ofNat 32 h.toNat
    ∧ s.dispAddr w (.named .gp (.wide v)) = s.gp + v
    ∧ s.dispAddr w (.named .gp (.half h)) = s.gp + BitVec.ofNat 32 h.toNat
    ∧ s.dispAddr w (.named .zero (.wide v)) = v
    ∧ s.dispAddr w (.named .zero (.half h)) = BitVec.ofNat 32 h.toNat
    ∧ s.dispAddr w (.shortReg r o) = s.reg r + BitVec.ofNat 32 (o.toNat * bytesOf w)
    ∧ s.dispAddr w (.shortSp o) = s.sp + BitVec.ofNat 32 (o.toNat * bytesOf w)
    ∧ s.indexAddr x (.reg r) = s.reg r + s.reg x ∧ s.indexAddr x .sp = s.sp + s.reg x

/-! ### Branches -/

/-- `bra.i` goes to its target and changes nothing else. The target is the absolute address, the
address of the instruction plus the signed offset, or the register. -/
def Obligations.JumpsComplete : Prop :=
  (∀ (s : State) (f : JumpForm), TargetOk (s.jumpTarget f) →
    exec (.braI f) s = .next { s with pc := s.jumpTarget f })
  ∧ ∀ (s : State) (r : Reg) (w : BitVec 31) (h : BitVec 16) (l : BitVec 24) (n : BitVec 9),
    s.jumpTarget (.zero48 w) = BitVec.ofNat 32 (2 * w.toNat)
    ∧ s.jumpTarget (.pc48 w) = s.pc + BitVec.ofNat 32 (2 * w.toNat)
    ∧ s.jumpTarget (.zero32 h) = BitVec.ofNat 32 (2 * h.toNat)
    ∧ s.jumpTarget (.far32 l) = s.pc + BitVec.ofInt 32 (2 * l.toInt)
    ∧ s.jumpTarget (.pc32 h) = s.pc + BitVec.ofInt 32 (2 * h.toInt)
    ∧ s.jumpTarget (.pc16 n) = s.pc + BitVec.ofInt 32 (2 * n.toInt)
    ∧ s.jumpTarget (.reg r) = s.reg r

/-- `bsr.i` pushes the address of the next instruction and goes to its target. -/
def Obligations.CallsComplete : Prop :=
  ∀ (s : State) (f : JumpForm), Memory.wf s.mem = true → s.spEnabled = true →
    WriteOk s .word (s.sp - 4#32) → TargetOk (s.jumpTarget f) →
    ∃ t, exec (.bsrI f) s = .next t ∧ t.pc = s.jumpTarget f ∧ t.sp = s.sp - 4#32
      ∧ read32 t.mem (s.sp - 4#32) = s.pc + (Instr.bsrI f).length
      ∧ FetchSameBut s t (s.sp - 4#32) 4 ∧ t.regs = s.regs ∧ t.flags = s.flags
      ∧ OtherStackSame s t ∧ SpecialsSame s t ∧ OutsideSame s t

/-- `bra.m` goes to the word at its table address; `bsr.m` pushes the address of the next instruction
and goes to the word that is then at its table address. -/
def Obligations.TableBranchesComplete : Prop :=
  (∀ (s : State) (f : TableForm), ReadOk s .word (s.tableAddr f) → fld (s.tableAddr f) 0 2 = 0#2 →
    TargetOk (read32 s.mem (s.tableAddr f)) →
    ∃ t, exec (.braM f) s = .next t ∧ t.pc = read32 s.mem (s.tableAddr f)
      ∧ t.flags = s.flags ∧ OnlyRegsRead s t [] 0#32)
  ∧ (∀ (s : State) (f : TableForm), Memory.wf s.mem = true → s.spEnabled = true →
    WriteOk s .word (s.sp - 4#32) → ReadOk s .word (s.tableAddr f) →
    fld (s.tableAddr f) 0 2 = 0#2 →
    TargetOk (read32 (write32 s.mem (s.sp - 4#32) (s.pc + (Instr.bsrM f).length)) (s.tableAddr f)) →
    ∃ t, exec (.bsrM f) s = .next t ∧ t.pc = read32 t.mem (s.tableAddr f)
      ∧ t.sp = s.sp - 4#32 ∧ read32 t.mem (s.sp - 4#32) = s.pc + (Instr.bsrM f).length
      ∧ FetchSameBut s t (s.sp - 4#32) 4 ∧ t.regs = s.regs ∧ t.flags = s.flags
      ∧ OtherStackSame s t ∧ SpecialsSame s t ∧ OutsideSame s t)
  ∧ ∀ (s : State) (r : Reg) (z : BitVec 30) (w : BitVec 31) (h : BitVec 16),
    s.tableAddr (.zero48 z) = BitVec.ofNat 32 (4 * z.toNat)
    ∧ s.tableAddr (.pc48 w) = s.pc + BitVec.ofNat 32 (2 * w.toNat)
    ∧ s.tableAddr (.zero32 h) = BitVec.ofNat 32 (4 * h.toNat)
    ∧ s.tableAddr (.pc32 h) = s.pc + BitVec.ofInt 32 (2 * h.toInt)
    ∧ s.tableAddr (.reg r) = s.reg r

/-- The fourteen conditional branches, each with its condition (R162 to R175). -/
def Obligations.ConditionalBranchesComplete : Prop :=
  ∀ (s : State) (f : CondForm) (o : BitVec 16),
    let near : Word := match f with
      | .far a => s.pc + BitVec.ofInt 32 (2 * a.toInt)
      | .near a => s.pc + BitVec.ofInt 32 (2 * a.toInt)
    let far : Word := s.pc + BitVec.ofInt 32 (2 * o.toInt)
    let z := flagZ s.flags = true
    let n := flagN s.flags = true
    let c := flagC s.flags = true
    let v := flagV s.flags = true
    Branches (.beq f) s z near ∧ Branches (.bne f) s (¬z) near
    ∧ Branches (.bcs f) s c near ∧ Branches (.bcc f) s (¬c) near
    ∧ Branches (.bleS f) s (¬(n ↔ v) ∨ z) near ∧ Branches (.bgtS f) s ((n ↔ v) ∧ ¬z) near
    ∧ Branches (.bltS f) s (¬(n ↔ v)) near ∧ Branches (.bgeS f) s (n ↔ v) near
    ∧ Branches (.bleU f) s (c ∨ z) near ∧ Branches (.bgtU f) s (¬c ∧ ¬z) near
    ∧ Branches (.bmi o) s n far ∧ Branches (.bpl o) s (¬n) far
    ∧ Branches (.bvs o) s v far ∧ Branches (.bvc o) s (¬v) far

/-- `bez.r` and `bnz.r` set the flags as a compare with 0, whether or not they branch. -/
def Obligations.RegisterTestBranchesComplete : Prop :=
  ∀ (s : State) (r : Reg) (f : TestForm),
    let t : Word := match f with
      | .far a => s.pc + BitVec.ofInt 32 (2 * a.toInt)
      | .near a => s.pc + BitVec.ofInt 32 (2 * a.toInt)
    ∀ i zero, (i = Instr.bezR r f ∧ zero = true) ∨ (i = Instr.bnzR r f ∧ zero = false) →
      ((s.reg r = 0#32 ↔ zero = true) → TargetOk t) →
      ∃ u, exec i s = .next u
        ∧ u.pc = (if (s.reg r = 0#32 ↔ zero = true) then t else s.pc + i.length)
        ∧ ZNOf u (s.reg r) ∧ flagC u.flags = false ∧ flagV u.flags = false
        ∧ OnlyRegs s u [] maskZNCV

/-- Where a branch traps: an odd target is an AlignError that returns to the even target, the target
0 a NullPointer that returns to the branch: of `bra` and `bsr`, direct and through a table, of a
conditional branch that is taken, of `bez.r` and `bnz.r` (whose flags are written) and of `pop.ret`
(whose pop is done). A table address that is no multiple of 4 is an AlignError. A push or a table read
that fails raises its error; `bsr.m` then leaves SP with the pushed word in memory. That the target is
checked last, so that a call has pushed by then, and the return from the target 0 are the spec's
decision D9, what a failed access leaves is D6 (Note 21). Which atom of `pop.ret` is the last by the
count in FLAGS.S, and that S is 0 when an error of its target is raised, are as Note 11 says. -/
def Obligations.BranchTargetsTrap : Prop :=
  (∀ (s : State) (f : JumpForm), BranchTraps (.braI f) s s True (s.jumpTarget f))
  ∧ (∀ (s : State) (f : TableForm),
    let a := s.tableAddr f
    let v := read32 s.mem a
    let read := s.accessed .read .word a
    (ReadOk s .word a →
      (fld a 0 2 ≠ 0#2 → exec (.braM f) s
        = raiseError .alignError 0#4 (v &&& 0xFFFFFFFE#32) s.pc s.pc read)
      ∧ BranchTraps (.braM f) s read (fld a 0 2 = 0#2) v)
    ∧ ∀ k, dataCheck s s.mode .word .read a = some k →
      exec (.braM f) s = raiseError k 0#4 s.pc s.pc s.pc s)
  ∧ (∀ s : State, s.spEnabled = true →
    let pushed (ret : Word) : State := ((s.putMem (write32 s.mem (s.sp - 4#32) ret)).accessed .write
      .word (s.sp - 4#32)).setSp (s.sp - 4#32)
    (WriteOk s .word (s.sp - 4#32) →
      (∀ f : JumpForm,
        BranchTraps (.bsrI f) s (pushed (s.pc + (Instr.bsrI f).length)) True (s.jumpTarget f))
      ∧ ∀ f : TableForm,
        let u := pushed (s.pc + (Instr.bsrM f).length)
        let a := s.tableAddr f
        let v := read32 u.mem a
        (ReadOk s .word a →
          (fld a 0 2 ≠ 0#2 → exec (.bsrM f) s
            = raiseError .alignError 0#4 (v &&& 0xFFFFFFFE#32) s.pc s.pc (u.accessed .read .word a))
          ∧ BranchTraps (.bsrM f) s (u.accessed .read .word a) (fld a 0 2 = 0#2) v)
        ∧ ∀ k, dataCheck s s.mode .word .read a = some k →
          exec (.bsrM f) s = raiseError k 0#4 s.pc s.pc s.pc (u.setSp s.sp))
    ∧ ∀ k, dataCheck s s.mode .word .write (s.sp - 4#32) = some k → ∀ i : Instr,
      ((∃ f, i = .bsrI f) ∨ ∃ f, i = .bsrM f) → exec i s = raiseError k 0#4 s.pc s.pc s.pc s)
  ∧ (∀ (s : State) (f : CondForm) (o : BitVec 16),
    let near := s.condTarget f
    let far := s.farTarget o
    let z := flagZ s.flags = true
    let n := flagN s.flags = true
    let c := flagC s.flags = true
    let v := flagV s.flags = true
    BranchTraps (.beq f) s s z near ∧ BranchTraps (.bne f) s s (¬z) near
    ∧ BranchTraps (.bcs f) s s c near ∧ BranchTraps (.bcc f) s s (¬c) near
    ∧ BranchTraps (.bleS f) s s (¬(n ↔ v) ∨ z) near
    ∧ BranchTraps (.bgtS f) s s ((n ↔ v) ∧ ¬z) near
    ∧ BranchTraps (.bltS f) s s (¬(n ↔ v)) near ∧ BranchTraps (.bgeS f) s s (n ↔ v) near
    ∧ BranchTraps (.bleU f) s s (c ∨ z) near ∧ BranchTraps (.bgtU f) s s (¬c ∧ ¬z) near
    ∧ BranchTraps (.bmi o) s s n far ∧ BranchTraps (.bpl o) s s (¬n) far
    ∧ BranchTraps (.bvs o) s s v far ∧ BranchTraps (.bvc o) s s (¬v) far)
  ∧ (∀ (s : State) (r : Reg) (f : TestForm),
    ∃ u, ZNOf u (s.reg r) ∧ flagC u.flags = false ∧ flagV u.flags = false ∧ u.pc = s.pc
      ∧ OnlyRegs s u [] maskZNCV
      ∧ BranchTraps (.bezR r f) s u (s.reg r = 0#32) (s.testTarget f)
      ∧ BranchTraps (.bnzR r f) s u (s.reg r ≠ 0#32) (s.testTarget f))
  ∧ ∀ (s : State) (f : PopRetForm), s.spEnabled = true →
    s.atomsDone = (popAtoms (popRetMask f) (popRetOffset f)).length →
    (ReadOk s .word s.sp → ∃ u, u.pc = s.pc ∧ ReturnPopped s u
      ∧ BranchTraps (.popRet f) s u True (read32 s.mem s.sp))
    ∧ ∀ k, dataCheck s s.mode .word .read s.sp = some k →
      exec (.popRet f) s = raiseError k 0#4 s.pc s.pc s.pc s

/-! ### Loads, stores, swap -/

/-- The six loads: the value read, zero-extended where it is narrow, goes to Rd; Z and N describe it
(N is 0 for a narrow load); C, V and everything else stay. A load with bytes of a device takes what
the device answers to its one access, or two, and leaves it in its next state (R78, R97, as
DataAccessChecks says of it; the device as rules and an opaque function is the model's form, Note
33). -/
def Obligations.LoadsComplete : Prop :=
  ∀ (s : State) (rd rx : Reg) (d : Disp) (b : IndexBase),
    (GuardOk s (dispUsesSp d) → ReadOk s .byte (s.dispAddr .byte d) →
      Completes (.ld8zI rd d) s fun t => LoadResult s t rd .byte (s.dispAddr .byte d)
        (BitVec.ofNat 32 (read8 s.mem (s.dispAddr .byte d)).toNat))
    ∧ (GuardOk s (dispUsesSp d) → ReadOk s .half (s.dispAddr .half d) →
      Completes (.ld16zI rd d) s fun t => LoadResult s t rd .half (s.dispAddr .half d)
        (BitVec.ofNat 32 (read16 s.mem (s.dispAddr .half d)).toNat))
    ∧ (GuardOk s (dispUsesSp d) → ReadOk s .word (s.dispAddr .word d) →
      Completes (.ldI rd d) s fun t => LoadResult s t rd .word (s.dispAddr .word d)
        (read32 s.mem (s.dispAddr .word d)))
    ∧ (GuardOk s (indexUsesSp b) → ReadOk s .byte (s.indexAddr rx b) →
      Completes (.ld8zR rd rx b) s fun t => LoadResult s t rd .byte (s.indexAddr rx b)
        (BitVec.ofNat 32 (read8 s.mem (s.indexAddr rx b)).toNat))
    ∧ (GuardOk s (indexUsesSp b) → ReadOk s .half (s.indexAddr rx b) →
      Completes (.ld16zR rd rx b) s fun t => LoadResult s t rd .half (s.indexAddr rx b)
        (BitVec.ofNat 32 (read16 s.mem (s.indexAddr rx b)).toNat))
    ∧ (GuardOk s (indexUsesSp b) → ReadOk s .word (s.indexAddr rx b) →
      Completes (.ldR rd rx b) s fun t => LoadResult s t rd .word (s.indexAddr rx b)
        (read32 s.mem (s.indexAddr rx b)))
    ∧ ∀ (i : Instr) (w : Width) (a : Word),
      ((GuardOk s (dispUsesSp d) ∧ a = s.dispAddr w d ∧ ((i = .ld8zI rd d ∧ w = .byte)
          ∨ (i = .ld16zI rd d ∧ w = .half) ∨ (i = .ldI rd d ∧ w = .word)))
        ∨ (GuardOk s (indexUsesSp b) ∧ a = s.indexAddr rx b ∧ ((i = .ld8zR rd rx b ∧ w = .byte)
          ∨ (i = .ld16zR rd rx b ∧ w = .half) ∨ (i = .ldR rd rx b ∧ w = .word)))) →
      dataCheck s s.mode w .read a = none → s.place (bytesOf w) a = .device →
      let r := s.deviceLoad w a
      Completes i s fun t => t.reg rd = r.1 ∧ ZNOf t r.1
        ∧ OnlyRegsRead { s with devState := r.2 } t [rd] maskZN
        ∧ t.breakHit = (s.breakHit || s.dataBreak .read w a)

/-- The six stores: the low bytes of the register, or 0, 1 or all ones, stand at the address;
nothing else changes. A store with bytes of a device changes the device's state and those of its bytes
that stand in RAM, alone (R78, R97, as DataAccessChecks says of it; the device as rules and an opaque
function is the model's form, Note 33). -/
def Obligations.StoresComplete : Prop :=
  ∀ (s : State) (src : StoreSrc) (rx : Reg) (d : Disp) (b : IndexBase), Memory.wf s.mem = true →
    let v : Word := match src with
      | .reg r => s.reg r
      | .zero => 0#32
      | .one => 1#32
      | .ones => 0xFFFFFFFF#32
    (GuardOk s (dispUsesSp d) → WriteOk s .byte (s.dispAddr .byte d) →
      Completes (.st8I src d) s fun t => StoreResult s t .byte (s.dispAddr .byte d) v)
    ∧ (GuardOk s (dispUsesSp d) → WriteOk s .half (s.dispAddr .half d) →
      Completes (.st16I src d) s fun t => StoreResult s t .half (s.dispAddr .half d) v)
    ∧ (GuardOk s (dispUsesSp d) → WriteOk s .word (s.dispAddr .word d) →
      Completes (.stI src d) s fun t => StoreResult s t .word (s.dispAddr .word d) v)
    ∧ (GuardOk s (indexUsesSp b) → WriteOk s .byte (s.indexAddr rx b) →
      Completes (.st8R src rx b) s fun t => StoreResult s t .byte (s.indexAddr rx b) v)
    ∧ (GuardOk s (indexUsesSp b) → WriteOk s .half (s.indexAddr rx b) →
      Completes (.st16R src rx b) s fun t => StoreResult s t .half (s.indexAddr rx b) v)
    ∧ (GuardOk s (indexUsesSp b) → WriteOk s .word (s.indexAddr rx b) →
      Completes (.stR src rx b) s fun t => StoreResult s t .word (s.indexAddr rx b) v)
    ∧ ∀ (i : Instr) (w : Width) (a : Word),
      ((GuardOk s (dispUsesSp d) ∧ a = s.dispAddr w d ∧ ((i = .st8I src d ∧ w = .byte)
          ∨ (i = .st16I src d ∧ w = .half) ∨ (i = .stI src d ∧ w = .word)))
        ∨ (GuardOk s (indexUsesSp b) ∧ a = s.indexAddr rx b ∧ ((i = .st8R src rx b ∧ w = .byte)
          ∨ (i = .st16R src rx b ∧ w = .half) ∨ (i = .stR src rx b ∧ w = .word)))) →
      dataCheck s s.mode w .write a = none → s.place (bytesOf w) a = .device →
      Completes i s fun t =>
        OnlyRegsStored { s with devState := s.deviceStore w a v } t [] 0#32 a (bytesOf w)
        ∧ (∀ j : Nat, j < bytesOf w →
          let b := a + BitVec.ofNat 32 j
          read8 t.mem b
            = if regionOf s.map b = some .ram then fld v (8 * j) 8 else read8 s.mem b)
        ∧ t.breakHit = (s.breakHit || s.dataBreak .write w a)

/-- `swap.i`: memory takes the old Rd, Rd the old word; Z and N describe it. -/
def Obligations.SwapCompletes : Prop :=
  ∀ (s : State) (rd ra : Reg), Memory.wf s.mem = true → ReadOk s .word (s.reg ra) →
    WriteOk s .word (s.reg ra) →
    Completes (.swapI rd ra) s fun t => t.reg rd = read32 s.mem (s.reg ra)
      ∧ read32 t.mem (s.reg ra) = s.reg rd ∧ ZNOf t (read32 s.mem (s.reg ra))
      ∧ OnlyRegsStored s t [rd] maskZN (s.reg ra) 4

/-- A load, store or swap whose access fails its check raises that error and has changed nothing; a
`swap.i` whose read passes and whose write fails leaves Rd. That they return to themselves, and what
they leave, is the spec's decision D6 (Note 21). An access that passes its check where nothing stands
is refused (U23, Note 31). -/
def Obligations.AccessesTrap : Prop :=
  (∀ (s : State) (i : Instr) (w : Width) (a : Word) (kind : AccessKind),
    ((∃ rd d, GuardOk s (dispUsesSp d) ∧ a = s.dispAddr w d ∧ kind = .read
        ∧ ((i = .ld8zI rd d ∧ w = .byte) ∨ (i = .ld16zI rd d ∧ w = .half)
          ∨ (i = .ldI rd d ∧ w = .word)))
      ∨ (∃ rd rx b, GuardOk s (indexUsesSp b) ∧ a = s.indexAddr rx b ∧ kind = .read
        ∧ ((i = .ld8zR rd rx b ∧ w = .byte) ∨ (i = .ld16zR rd rx b ∧ w = .half)
          ∨ (i = .ldR rd rx b ∧ w = .word)))
      ∨ (∃ src d, GuardOk s (dispUsesSp d) ∧ a = s.dispAddr w d ∧ kind = .write
        ∧ ((i = .st8I src d ∧ w = .byte) ∨ (i = .st16I src d ∧ w = .half)
          ∨ (i = .stI src d ∧ w = .word)))
      ∨ (∃ src rx b, GuardOk s (indexUsesSp b) ∧ a = s.indexAddr rx b ∧ kind = .write
        ∧ ((i = .st8R src rx b ∧ w = .byte) ∨ (i = .st16R src rx b ∧ w = .half)
          ∨ (i = .stR src rx b ∧ w = .word)))
      ∨ (∃ rd ra, i = .swapI rd ra ∧ a = s.reg ra ∧ w = .word ∧ kind = .read)) →
    (∀ k, dataCheck s s.mode w kind a = some k → exec i s = raiseError k 0#4 s.pc s.pc s.pc s)
    ∧ (dataCheck s s.mode w kind a = none → s.place (bytesOf w) a = .nowhere →
      exec i s = .refused .unpopulated))
  ∧ ∀ (s : State) (rd ra : Reg) (k : ErrorKind), ReadOk s .word (s.reg ra) →
    dataCheck s s.mode .word .write (s.reg ra) = some k →
    exec (.swapI rd ra) s
      = raiseError k 0#4 s.pc s.pc s.pc (s.accessed .read .word (s.reg ra))

/-- Every instruction that uses `%sp` while its stack is not enabled soft-resets (type 2 for SP0, 3
for SP1, number 2) and does nothing else; `mova2r` reads both stack pointers all the same, and
`movr2a` writes them: SP0 sets K0, SP1 sets K1 where K0 is set. That the soft reset reports the
address of the instruction is the spec's decisions D26 and D33 (Note 21). -/
def Obligations.StackGuardSoftResets : Prop :=
  (∀ (s : State) (i : Instr), s.spEnabled = false →
    ((∃ rd d, dispUsesSp d = true ∧ (i = .ld8zI rd d ∨ i = .ld16zI rd d ∨ i = .ldI rd d))
      ∨ (∃ src d, dispUsesSp d = true ∧ (i = .st8I src d ∨ i = .st16I src d ∨ i = .stI src d))
      ∨ (∃ rd rx, i = .ld8zR rd rx .sp ∨ i = .ld16zR rd rx .sp ∨ i = .ldR rd rx .sp)
      ∨ (∃ src rx, i = .st8R src rx .sp ∨ i = .st16R src rx .sp ∨ i = .stR src rx .sp)
      ∨ (∃ f, i = .push f) ∨ (∃ f, i = .pop f) ∨ (∃ f, i = .popRet f) ∨ (∃ f, i = .pushI f)
      ∨ (∃ f, i = .bsrI f) ∨ (∃ f, i = .bsrM f)
      ∨ (∃ rd, i = .movR (.fromSp rd)) ∨ (∃ rs, fld (s.reg rs) 0 2 = 0#2 ∧ i = .movR (.toSp rs))
      ∨ (∃ rd v, i = .addI (.sp rd v)) ∨ (∃ rd v, i = .addI (.spShort rd v))
      ∨ (∃ v, i = .addI (.spsp48 v)) ∨ (∃ v, i = .addI (.spsp32 v))
      ∨ (∃ v, i = .addI (.spspShort v)) ∨ (i = .rtie ∧ s.isUser = false)) →
    exec i s = softReset (if s.spIsSp0 then 2#3 else 3#3) 2#5 s.pc s)
  ∧ ∀ (s : State) (r : Reg), s.isUser = false →
    (Completes (.mova2r r 0#3) s fun t => ValueResult s t r s.sp0)
    ∧ (Completes (.mova2r r 1#3) s fun t => ValueResult s t r s.sp1)
    ∧ (fld (s.reg r) 0 2 = 0#2 →
      (Completes (.movr2a 0#3 r) s fun t => t.sp0 = s.reg r ∧ infoK0 t.info = true
        ∧ infoK1 t.info = infoK1 s.info ∧ t.sp1 = s.sp1)
      ∧ (Completes (.movr2a 1#3 r) s fun t => t.sp1 = s.reg r ∧ infoK0 t.info = infoK0 s.info
        ∧ (infoK1 t.info = true ↔ infoK1 s.info = true ∨ infoK0 s.info = true) ∧ t.sp0 = s.sp0))

/-! ### Stack instructions -/

/-- The next atom of `push`, `push.i`, `pop` or of the loads of `pop.ret`: all of it is done. Where
it is not the last the instruction stays and FLAGS.S counts the atoms; the last one ends it with S
0. An atom whose access fails its check raises its error and is not done: the atoms before it stay
done, FLAGS.S keeps their number and the error returns to the instruction, which is the spec's decision
D6 (Note 21); one that goes where nothing stands is refused (U23, Note 31). Which atoms they are, in
their order: `push` stores the highest register first and moves SP last, `push.i` pushes its first
immediate first, each sign-extended, `pop` and `pop.ret` move SP first and load the lowest register
first. Bit i of a mask for Ri is D15, the count in S D13, the one-bit immediates as 0 and 1 D16 (Note
21), but as 0 and -1 where the parameter PUSHI16_SIGNED is set (U3, Note 7). One atom per step and the
count in S are as Note 11 says. -/
def Obligations.StackAtomsComplete : Prop :=
  (∀ (s : State) (i : Instr) (l : List StackAtom) (a : StackAtom),
    ((∃ f, i = .push f ∧ l = pushAtoms f) ∨ (∃ f, i = .pop f ∧ l = popAtoms (popMask f) (popOffset f))
      ∨ (∃ f, i = .pushI f ∧ l = pushIAtoms s.params.pushi16Signed f)) →
    s.spEnabled = true → l[s.atomsDone]? = some a →
    (Memory.wf s.mem = true → AtomOk s a →
      ∃ t, exec i s = .next t ∧ AtomDone s t a ∧ StackFrame s t maskS
        ∧ (s.atomsDone + 1 < l.length → t.pc = s.pc ∧ t.atomsDone = s.atomsDone + 1)
        ∧ (l.length ≤ s.atomsDone + 1 → t.pc = s.pc + i.length ∧ t.atomsDone = 0))
    ∧ (∀ k, AtomFails s a k → exec i s = raiseError k 0#4 s.pc s.pc s.pc s)
    ∧ (AtomNowhere s a → exec i s = .refused .unpopulated))
  ∧ (∀ (s : State) (f : PopRetForm) (a : StackAtom), s.spEnabled = true →
    (popAtoms (popRetMask f) (popRetOffset f))[s.atomsDone]? = some a →
    (AtomOk s a → ∃ t, exec (.popRet f) s = .next t ∧ AtomDone s t a ∧ StackFrame s t maskS
      ∧ t.pc = s.pc ∧ t.atomsDone = s.atomsDone + 1)
    ∧ (∀ k, AtomFails s a k → exec (.popRet f) s = raiseError k 0#4 s.pc s.pc s.pc s)
    ∧ (AtomNowhere s a → exec (.popRet f) s = .refused .unpopulated))
  ∧ (∀ (m : BitVec 8) (nn : BitVec 2) (o5 : BitVec 5) (o6 : BitVec 6),
    let listed := regsWhere fun r => m.getLsbD r
    let range := regsWhere fun r => decide (4 ≤ r ∧ r ≤ 4 + nn.toNat)
    pushAtoms (.mask m) = listed.reverse.map .store
    ∧ pushAtoms (.range nn o5) = range.reverse.map .store ++ moveSp (-4 * o5.toNat)
    ∧ pushAtoms (.full m o6) = listed.reverse.map .store ++ moveSp (-4 * o6.toNat)
    ∧ (let pops (f : PopForm) := popAtoms (popMask f) (popOffset f)
      pops (.mask m) = listed.map .load
      ∧ pops (.full m o6) = moveSp (4 * o6.toNat) ++ listed.map .load)
    ∧ (let pops (f : PopRetForm) := popAtoms (popRetMask f) (popRetOffset f)
      pops (.range nn o5) = moveSp (4 * o5.toNat) ++ range.map .load
      ∧ pops (.empty o5) = moveSp (4 * o5.toNat)
      ∧ pops (.full m o6) = moveSp (4 * o6.toNat) ++ listed.map .load))
  ∧ (∀ (g : Bool) (w : Word) (a b : BitVec 16) (c d e f : BitVec 8) (x y z u : BitVec 4),
    pushIAtoms g (.wide1 w) = [.storeImm w]
    ∧ pushIAtoms g (.wide2 a b) = [pushSigned a, pushSigned b]
    ∧ pushIAtoms g (.wide3 c d e) = [pushSigned c, pushSigned d, pushSigned e]
    ∧ pushIAtoms g (.wide4 c d e f) = [pushSigned c, pushSigned d, pushSigned e, pushSigned f]
    ∧ pushIAtoms g (.half1 a) = [pushSigned a]
    ∧ pushIAtoms g (.half2 c d) = [pushSigned c, pushSigned d]
    ∧ pushIAtoms g (.half3 x y z) = [pushSigned x, pushSigned y, pushSigned z]
    ∧ pushIAtoms g (.half4 x y z u) = [pushSigned x, pushSigned y, pushSigned z, pushSigned u])
  ∧ ∀ (g : Bool) (a b c d : BitVec 1),
    pushIAtoms g (.bits1 a) = [pushBit g a]
    ∧ pushIAtoms g (.bits2 a b) = [pushBit g a, pushBit g b]
    ∧ pushIAtoms g (.bits3 a b c) = [pushBit g a, pushBit g b, pushBit g c]
    ∧ pushIAtoms g (.bits4 a b c d) = [pushBit g a, pushBit g b, pushBit g c, pushBit g d]

/-- The last atom of `pop.ret`: the flags of a compare of R0 with 0, the return address popped, the
jump to it. One atom per step and the count in S are as Note 11 says. -/
def Obligations.PopRetReturns : Prop :=
  ∀ (s : State) (f : PopRetForm), s.spEnabled = true →
    s.atomsDone = (popAtoms (popRetMask f) (popRetOffset f)).length → ReadOk s .word s.sp →
    TargetOk (read32 s.mem s.sp) →
    ∃ t, exec (.popRet f) s = .next t ∧ t.pc = read32 s.mem s.sp ∧ ReturnPopped s t

/-- The end state of a whole `push` (R223): the j-th lowest selected register stands at S0 - 4n +
4j, SP is S0 - 4n - offset, no other byte and nothing but S has changed. One atom per step and the
count in S are as Note 11 says. -/
def Obligations.PushEndState : Prop :=
  ∀ (s : State) (f : PushForm), Memory.wf s.mem = true → s.spEnabled = true → s.atomsDone = 0 →
    let l := maskRegs (pushMask f)
    let low := s.sp - BitVec.ofNat 32 (4 * l.length)
    (∀ j : Nat, j < l.length → WriteOk s .word (low + BitVec.ofNat 32 (4 * j))) →
    ∃ t, execTimes (.push f) (max 1 (pushAtoms f).length) s = .next t
      ∧ t.pc = s.pc + (Instr.push f).length ∧ t.sp = low - pushOffset f
      ∧ (∀ j r, l[j]? = some r → read32 t.mem (low + BitVec.ofNat 32 (4 * j)) = s.reg r)
      ∧ MemSameBut s t low (4 * l.length) ∧ t.regs = s.regs ∧ StackFrame s t maskS
      ∧ t.atomsDone = 0 ∧ (s.params.prefetchBytes = 0 → t.stale = s.stale)

/-- `pop L, #k` undoes `push L, #k` (R225), for the forms with any list and offset: whatever the
registers hold in between, the listed ones and SP are as before the push and the others as in between.
One atom per step is the model's (Note 11). -/
def Obligations.PopUndoesPush : Prop :=
  ∀ (s : State) (m : BitVec 8) (o : BitVec 6) (g : Regs), Memory.wf s.mem = true →
    s.spEnabled = true → s.atomsDone = 0 →
    (∀ j : Nat, j < (maskRegs m).length →
      let a := s.sp - BitVec.ofNat 32 (4 * (maskRegs m).length) + BitVec.ofNat 32 (4 * j)
      WriteOk s .word a ∧ ReadOk s .word a) →
    let n := max 1 (pushAtoms (.full m o)).length
    ∃ t u, execTimes (.push (.full m o)) n s = .next t
      ∧ execTimes (.pop (.full m o)) n { t with regs := g } = .next u
      ∧ u.sp = s.sp ∧ (∀ r ∈ maskRegs m, u.reg r = s.reg r) ∧ (∀ r ∉ maskRegs m, u.reg r = g.get r)
      ∧ u.mem = t.mem ∧ OtherStackSame s u ∧ SpecialsSame s u ∧ OutsideSame s u

/-! ### Moves -/

/-- `mov.i`, `mov.r` and `mov.f.r` into a register: the value of the form, Z and N from it. The field
of the short `mov.f.r` has the size and the lowest bit of the table of R245. -/
def Obligations.MovesComplete : Prop :=
  ∀ (s : State) (rd rs : Reg) (v : Imm) (b : BitVec 8) (k : BitVec 3) (c : BitVec 2)
    (n : BitVec 4),
    let field : Nat × Nat := match n.toNat with
      | 0 => (2, 4)
      | 1 => (1, 1)
      | 2 => (1, 2)
      | 3 => (1, 3)
      | 4 => (1, 4)
      | 5 => (1, 8)
      | 6 => (1, 16)
      | 7 => (1, 24)
      | 8 => (4, 4)
      | 9 => (4, 8)
      | 10 => (4, 12)
      | 11 => (4, 16)
      | 12 => (4, 20)
      | 13 => (4, 24)
      | 14 => (8, 8)
      | _ => (8, 16)
    (Completes (.movI (.imm rd v)) s fun t => ValueResult s t rd (Imm.sext v))
    ∧ (Completes (.movI (.pcRel rd v)) s fun t => ValueResult s t rd (s.pc + (Imm.sext v)))
    ∧ (Completes (.movI (.gpRel rd v)) s fun t => ValueResult s t rd (s.gp + (Imm.zext v)))
    ∧ (Completes (.movI (.short rd b)) s fun t => ValueResult s t rd (BitVec.ofNat 32 b.toNat))
    ∧ (Completes (.movI (.pow2 rd k c)) s fun t =>
        ValueResult s t rd (BitVec.ofNat 32 (2 ^ (8 * c.toNat + k.toNat))))
    ∧ (Completes (.movI (.pow2m1 rd k c)) s fun t => ValueResult s t rd
        (if k = 0#3 ∧ c = 1#2 then 0xFFFFFFFF#32
          else BitVec.ofNat 32 (2 ^ (8 * c.toNat + k.toNat) - 1)))
    ∧ (Completes (.movR (.reg rd rs)) s fun t => ValueResult s t rd (s.reg rs))
    ∧ (s.spEnabled = true → Completes (.movR (.fromSp rd)) s fun t => ValueResult s t rd s.sp)
    ∧ (s.spEnabled = true → fld (s.reg rs) 0 2 = 0#2 → Completes (.movR (.toSp rs)) s fun t =>
        t.sp = s.reg rs ∧ OtherStackSame s t ∧ t.regs = s.regs ∧ t.flags = s.flags ∧ t.mem = s.mem
          ∧ t.stale = s.stale ∧ SpecialsSame s t ∧ OutsideSame s t)
    ∧ (Completes (.movFR (.short rd n)) s fun t => ∃ x, ValueResult s t rd x
        ∧ ∀ i : Nat, i < 32 →
          x.getLsbD i = (decide (i < field.1) && (s.reg rd).getLsbD (i + field.2)))

/-- The bit fields of `mov.f.r` and of the bit-sequence `and.i`, bit by bit; a field that leaves the
word is an InstructionError that changes nothing. That a size field of 0 is 32 is the spec's
decision D17, that the InstructionError returns to the instruction is D29 (Note 21). -/
def Obligations.BitFieldsComplete : Prop :=
  ∀ (s : State) (rd rs : Reg) (size lsb : BitVec 5),
    let sz : Nat := if size = 0#5 then 32 else size.toNat
    let inside (i : Nat) : Bool := decide (lsb.toNat ≤ i) && decide (i < lsb.toNat + sz)
    (lsb.toNat + sz ≤ 32 →
      (Completes (.movFR (.extract rd rs size lsb)) s fun t => ∃ x, ValueResult s t rd x
        ∧ ∀ i : Nat, i < 32 → x.getLsbD i = (decide (i < sz) && (s.reg rs).getLsbD (i + lsb.toNat)))
      ∧ (Completes (.movFR (.insert rd rs size lsb)) s fun t => ∃ x, ValueResult s t rd x
        ∧ ∀ i : Nat, i < 32 → x.getLsbD i
          = if inside i then (s.reg rs).getLsbD (i - lsb.toNat) else (s.reg rd).getLsbD i)
      ∧ (Completes (.andI (.setBits rd rs size lsb)) s fun t => ∃ x, ValueResult s t rd x
        ∧ ∀ i : Nat, i < 32 → x.getLsbD i = (inside i && (s.reg rs).getLsbD i))
      ∧ (Completes (.andI (.clearBits rd rs size lsb)) s fun t => ∃ x, ValueResult s t rd x
        ∧ ∀ i : Nat, i < 32 → x.getLsbD i = (!(inside i) && (s.reg rs).getLsbD i)))
    ∧ (32 < lsb.toNat + sz → ∀ i : Instr, (i = .movFR (.extract rd rs size lsb)
        ∨ i = .movFR (.insert rd rs size lsb) ∨ i = .andI (.setBits rd rs size lsb)
        ∨ i = .andI (.clearBits rd rs size lsb)) →
      exec i s = raiseError .instructionError 0#4 s.pc s.pc s.pc s)

/-! ### Arithmetic and logic -/

/-- The additions and subtractions without carry in: Rd, Z, N, C (a borrow after a subtraction) and V
from exact integers, for every form of `add.i`, `add.r`, `sub.r` and `sub.x.i`. Which of the two
16-bit `add.i` rows without an immediate adds 1 and which -1 goes by the parameter ADDI16_SWAP (R265,
U13, Note 7). -/
def Obligations.AddAndSubComplete : Prop :=
  ∀ (s : State) (rd rs rt : Reg) (v : Imm) (b : BitVec 7),
    (Completes (.addR rd rs rt) s fun t => AddResult s t rd (s.reg rs) (s.reg rt) false false)
    ∧ (Completes (.addI (.imm rd rs v)) s fun t => AddResult s t rd (s.reg rs) (Imm.sext v) false false)
    ∧ (Completes (.addI (.short rd b)) s fun t =>
        AddResult s t rd (s.reg rd) (BitVec.ofInt 32 b.toInt) false false)
    ∧ (Completes (.addI (.rowA rd rs)) s fun t => AddResult s t rd (s.reg rs)
        (if s.params.addi16Swap then 0xFFFFFFFF#32 else 1#32) false false)
    ∧ (Completes (.addI (.rowB rd rs)) s fun t => AddResult s t rd (s.reg rs)
        (if s.params.addi16Swap then 1#32 else 0xFFFFFFFF#32) false false)
    ∧ (s.spEnabled = true → Completes (.addI (.sp rd v)) s fun t =>
        AddResult s t rd s.sp (Imm.sext v) false false)
    ∧ (s.spEnabled = true → Completes (.addI (.spShort rd b)) s fun t =>
        AddResult s t rd s.sp (BitVec.ofNat 32 b.toNat) false false)
    ∧ (Completes (.subR rd rs rt) s fun t => SubResult s t rd (s.reg rs) (s.reg rt) false false)
    ∧ (Completes (.subXI (.imm rd rs v)) s fun t => SubResult s t rd (Imm.sext v) (s.reg rs) false false)
    ∧ (Completes (.subXI (.zero rd rs)) s fun t => SubResult s t rd 0#32 (s.reg rs) false false)

/-- `add.i %sp, %sp, #imm`: SP moves by a multiple of 4, no flag is written. -/
def Obligations.StackPointerAddsComplete : Prop :=
  ∀ (s : State) (i : Instr) (d : Word), s.spEnabled = true →
    ((∃ v, i = .addI (.spsp48 v) ∧ d = BitVec.ofNat 32 (4 * v.toNat))
      ∨ (∃ v, i = .addI (.spsp32 v) ∧ d = BitVec.ofInt 32 (4 * v.toInt))
      ∨ (∃ v, i = .addI (.spspShort v) ∧ d = BitVec.ofInt 32 (4 * v.toInt))) →
    Completes i s fun t => t.sp = s.sp + d ∧ OtherStackSame s t ∧ t.regs = s.regs
      ∧ t.flags = s.flags ∧ t.mem = s.mem ∧ t.stale = s.stale ∧ SpecialsSame s t ∧ OutsideSame s t

/-- The additions and subtractions with carry in: the same with FLAGS.C added or borrowed, and Z only
where it was set before. -/
def Obligations.CarryArithmeticComplete : Prop :=
  ∀ (s : State) (rd rs rt : Reg) (v : Imm) (b : BitVec 4),
    let c := flagC s.flags
    (Completes (.addCR rd rs rt) s fun t => AddResult s t rd (s.reg rs) (s.reg rt) c true)
    ∧ (Completes (.addCI (.imm rd rs v)) s fun t => AddResult s t rd (s.reg rs) (Imm.sext v) c true)
    ∧ (Completes (.addCI (.short rd b)) s fun t =>
        AddResult s t rd (s.reg rd) (BitVec.ofInt 32 b.toInt) c true)
    ∧ (Completes (.addCI (.zero rd rs)) s fun t => AddResult s t rd (s.reg rs) 0#32 c true)
    ∧ (Completes (.addCI (.one rd rs)) s fun t => AddResult s t rd (s.reg rs) 1#32 c true)
    ∧ (Completes (.addCI (.minusOne rd rs)) s fun t =>
        AddResult s t rd (s.reg rs) 0xFFFFFFFF#32 c true)
    ∧ (Completes (.subCR rd rs rt) s fun t => SubResult s t rd (s.reg rs) (s.reg rt) c true)
    ∧ (Completes (.subXcI (.imm rd rs v)) s fun t => SubResult s t rd (Imm.sext v) (s.reg rs) c true)
    ∧ (Completes (.subXcI (.zero rd rs)) s fun t => SubResult s t rd 0#32 (s.reg rs) c true)

/-- The logical instructions, `add.n` and the multiplications: Rd, Z and N; C and V stay. -/
def Obligations.LogicAndMultiplyComplete : Prop :=
  ∀ (s : State) (rd rs rt : Reg) (v : Imm) (b : BitVec 7) (n : BitVec 4) (h : BitVec 16),
    (Completes (.andR rd rs rt) s fun t => ValueResult s t rd (s.reg rs &&& s.reg rt))
    ∧ (Completes (.andI (.imm rd rs v)) s fun t => ValueResult s t rd (s.reg rs &&& (Imm.zext v)))
    ∧ (Completes (.andI (.short rd b)) s fun t =>
        ValueResult s t rd (s.reg rd &&& BitVec.ofInt 32 b.toInt))
    ∧ (Completes (.andI (.one rd rs)) s fun t => ValueResult s t rd (s.reg rs &&& 1#32))
    ∧ (Completes (.andI (.ff rd rs)) s fun t => ValueResult s t rd (s.reg rs &&& 0xFF#32))
    ∧ (Completes (.andI (.ffff rd rs)) s fun t => ValueResult s t rd (s.reg rs &&& 0xFFFF#32))
    ∧ (Completes (.orR rd rs rt) s fun t => ValueResult s t rd (s.reg rs ||| s.reg rt))
    ∧ (Completes (.orI (.imm rd rs v)) s fun t => ValueResult s t rd (s.reg rs ||| (Imm.zext v)))
    ∧ (Completes (.orI (.short rd n)) s fun t =>
        ValueResult s t rd (s.reg rd ||| BitVec.ofInt 32 n.toInt))
    ∧ (Completes (.orI (.one rd rs)) s fun t => ValueResult s t rd (s.reg rs ||| 1#32))
    ∧ (Completes (.xorR rd rs rt) s fun t => ValueResult s t rd (s.reg rs ^^^ s.reg rt))
    ∧ (Completes (.xorI (.imm rd rs v)) s fun t => ValueResult s t rd (s.reg rs ^^^ (Imm.zext v)))
    ∧ (Completes (.xorI (.short rd n)) s fun t =>
        ValueResult s t rd (s.reg rd ^^^ BitVec.ofInt 32 n.toInt))
    ∧ (Completes (.xorI (.one rd rs)) s fun t => ValueResult s t rd (s.reg rs ^^^ 1#32))
    ∧ (Completes (.xorI (.minusOne rd rs)) s fun t => ValueResult s t rd (~~~ s.reg rs))
    ∧ (Completes (.addNR rd rs rt) s fun t => ValueResult s t rd (s.reg rs + s.reg rt))
    ∧ (Completes (.addNI rd rs v) s fun t => ValueResult s t rd (s.reg rs + (Imm.sext v)))
    ∧ (Completes (.multR rd rs rt) s fun t =>
        ValueResult s t rd (BitVec.ofNat 32 ((s.reg rs).toNat * (s.reg rt).toNat)))
    ∧ (Completes (.multI rd rs v) s fun t => ValueResult s t rd (s.reg rs * (Imm.sext v)))
    ∧ (Completes (.mult16sR rd rs rt) s fun t => ValueResult s t rd
        (BitVec.ofInt 32 ((fld (s.reg rs) 0 16).toInt * (fld (s.reg rt) 0 16).toInt)))
    ∧ (Completes (.mult16sI rd rs h) s fun t => ValueResult s t rd
        (BitVec.ofInt 32 ((fld (s.reg rs) 0 16).toInt * h.toInt)))
    ∧ (Completes (.mult16uR rd rs rt) s fun t => ValueResult s t rd
        (BitVec.ofNat 32 ((s.reg rs).toNat % 2 ^ 16 * ((s.reg rt).toNat % 2 ^ 16))))
    ∧ (Completes (.mult16uI rd rs h) s fun t => ValueResult s t rd
        (BitVec.ofNat 32 ((s.reg rs).toNat % 2 ^ 16 * h.toNat)))

/-- The divisions by a divisor other than 0: quotients truncate toward zero, the remainder has the
sign of the dividend; the one signed quotient that does not fit gives 0 and sets V; signed forms
leave C, unsigned forms leave V. `divrem` gives both results and of the flags writes only V or C. -/
def Obligations.DivisionsComplete : Prop :=
  ∀ (s : State) (rd rs rt rm : Reg), s.reg rt ≠ 0#32 →
    let a := s.reg rs
    let b := s.reg rt
    let ovf : Bool := a == 0x80000000#32 && b == 0xFFFFFFFF#32
    let q : Word := if ovf then 0#32 else BitVec.ofInt 32 (a.toInt.tdiv b.toInt)
    let m : Word := if ovf then 0#32 else BitVec.ofInt 32 (a.toInt.tmod b.toInt)
    let uq : Word := BitVec.ofNat 32 (a.toNat / b.toNat)
    let um : Word := BitVec.ofNat 32 (a.toNat % b.toNat)
    let signed (t : State) (r : Word) : Prop :=
      t.reg rd = r ∧ ZNOf t r ∧ flagV t.flags = ovf ∧ OnlyRegs s t [rd] maskZNV
    let unsigned (t : State) (r : Word) : Prop :=
      t.reg rd = r ∧ ZNOf t r ∧ flagC t.flags = false ∧ OnlyRegs s t [rd] maskZNC
    (Completes (.divSR rd rs rt) s fun t => signed t q)
    ∧ (Completes (.remSR rd rs rt) s fun t => signed t m)
    ∧ (Completes (.divUR rd rs rt) s fun t => unsigned t uq)
    ∧ (Completes (.remUR rd rs rt) s fun t => unsigned t um)
    ∧ (ovf = false → q * b + m = a) ∧ uq * b + um = a
    ∧ (rm ≠ rs →
      (Completes (.divremSR rm rs rt) s fun t => t.reg rs = q ∧ t.reg rm = m
        ∧ flagV t.flags = ovf ∧ OnlyRegs s t [rm, rs] 0x8#32)
      ∧ (Completes (.divremUR rm rs rt) s fun t => t.reg rs = uq ∧ t.reg rm = um
        ∧ flagC t.flags = false ∧ OnlyRegs s t [rm, rs] 0x4#32))

/-- A division by 0 writes zeros and its flags and then raises DivideByZero, which returns to the
next instruction; `divrem` with equal result registers is an InstructionError that writes nothing.
That the results and the flags are written before the exception, and its return to the next
instruction, are the spec's decision D19, the return of the InstructionError to the instruction D29
(Note 21). -/
def Obligations.DivisionsTrap : Prop :=
  (∀ (s : State) (rd rs rt : Reg), s.reg rt = 0#32 → ∀ i : Instr,
    (i = .divSR rd rs rt ∨ i = .remSR rd rs rt ∨ i = .divUR rd rs rt ∨ i = .remUR rd rs rt) →
    ∃ t, exec i s = raiseError .divideByZero 0#4 (s.pc + i.length) s.pc s.pc t ∧ t.pc = s.pc
      ∧ t.reg rd = 0#32 ∧ ZNOf t 0#32
      ∧ (if i = .divSR rd rs rt ∨ i = .remSR rd rs rt then
          flagV t.flags = true ∧ OnlyRegs s t [rd] maskZNV
        else flagC t.flags = true ∧ OnlyRegs s t [rd] maskZNC))
  ∧ (∀ (s : State) (rm rq rt : Reg), s.reg rt = 0#32 → rm ≠ rq → ∀ i : Instr,
    (i = .divremSR rm rq rt ∨ i = .divremUR rm rq rt) →
    ∃ t, exec i s = raiseError .divideByZero 0#4 (s.pc + i.length) s.pc s.pc t ∧ t.pc = s.pc
      ∧ t.reg rm = 0#32 ∧ t.reg rq = 0#32
      ∧ (if i = .divremSR rm rq rt then flagV t.flags = true ∧ OnlyRegs s t [rm, rq] 0x8#32
        else flagC t.flags = true ∧ OnlyRegs s t [rm, rq] 0x4#32))
  ∧ ∀ (s : State) (r rt : Reg),
    exec (.divremSR r r rt) s = raiseError .instructionError 0#4 s.pc s.pc s.pc s
    ∧ exec (.divremUR r r rt) s = raiseError .instructionError 0#4 s.pc s.pc s.pc s

/-! ### Compares -/

/-- The eighteen compares: C is the borrow, V the signed overflow, N the sign of the difference at
the compare's width; Z is equality of the operands. In the carry forms Z is and-ed with the old Z,
and where the parameter CMPC_Z_BY_RESULT is set it is that of the result (U15, Note 7). -/
def Obligations.ComparesComplete : Prop :=
  ∀ (s : State) (rs rt : Reg) (v : Imm) (b : BitVec 7) (h : BitVec 16) (e : BitVec 8),
    let c := flagC s.flags
    let rs16 : BitVec 16 := fld (s.reg rs) 0 16
    let rt16 : BitVec 16 := fld (s.reg rt) 0 16
    let rs8 : BitVec 8 := fld (s.reg rs) 0 8
    let rt8 : BitVec 8 := fld (s.reg rt) 0 8
    (Completes (.cmpI (.imm rs v)) s fun t => CompareResult s t (s.reg rs) (Imm.sext v) false false)
    ∧ (Completes (.cmpI (.short rs b)) s fun t =>
        CompareResult s t (s.reg rs) (BitVec.ofInt 32 b.toInt) false false)
    ∧ (Completes (.cmpXI rs v) s fun t => CompareResult s t (Imm.sext v) (s.reg rs) false false)
    ∧ (Completes (.cmpCI rs v) s fun t => CompareResult s t (s.reg rs) (Imm.sext v) c true)
    ∧ (Completes (.cmpXcI rs v) s fun t => CompareResult s t (Imm.sext v) (s.reg rs) c true)
    ∧ (Completes (.cmpR rs rt) s fun t => CompareResult s t (s.reg rs) (s.reg rt) false false)
    ∧ (Completes (.cmpCR rs rt) s fun t => CompareResult s t (s.reg rs) (s.reg rt) c true)
    ∧ (Completes (.cmp16I (.imm rs h)) s fun t => CompareResult s t rs16 h false false)
    ∧ (Completes (.cmp16I (.short rs b)) s fun t =>
        CompareResult s t rs16 (BitVec.ofInt 16 b.toInt) false false)
    ∧ (Completes (.cmp16xI rs h) s fun t => CompareResult s t h rs16 false false)
    ∧ (Completes (.cmp16cI rs h) s fun t => CompareResult s t rs16 h c true)
    ∧ (Completes (.cmp16xcI rs h) s fun t => CompareResult s t h rs16 c true)
    ∧ (Completes (.cmp16R rs rt) s fun t => CompareResult s t rs16 rt16 false false)
    ∧ (Completes (.cmp16cR rs rt) s fun t => CompareResult s t rs16 rt16 c true)
    ∧ (Completes (.cmp8I (.imm rs e)) s fun t => CompareResult s t rs8 e false false)
    ∧ (Completes (.cmp8I (.short rs b)) s fun t =>
        CompareResult s t rs8 (BitVec.ofInt 8 b.toInt) false false)
    ∧ (Completes (.cmp8xI rs e) s fun t => CompareResult s t e rs8 false false)
    ∧ (Completes (.cmp8cI rs e) s fun t => CompareResult s t rs8 e c true)
    ∧ (Completes (.cmp8xcI rs e) s fun t => CompareResult s t e rs8 c true)
    ∧ (Completes (.cmp8R rs rt) s fun t => CompareResult s t rs8 rt8 false false)
    ∧ (Completes (.cmp8cR rs rt) s fun t => CompareResult s t rs8 rt8 c true)

/-- After a compare of `a` with `b` (for the exchange forms the immediate is `a`) the ten two-size
branches go by the order of the operands at the compare's width (R331). -/
def Obligations.BranchAfterCompare : Prop :=
  ∀ (s : State) (rs rt : Reg) (v : Imm) (h : BitVec 16) (e : BitVec 8) (b : BitVec 7)
    (f : CondForm),
    let rs16 : BitVec 16 := fld (s.reg rs) 0 16
    let rs8 : BitVec 8 := fld (s.reg rs) 0 8
    ThenOrders (.cmpR rs rt) s f (s.reg rs) (s.reg rt)
    ∧ ThenOrders (.cmpI (.imm rs v)) s f (s.reg rs) (Imm.sext v)
    ∧ ThenOrders (.cmpI (.short rs b)) s f (s.reg rs) (BitVec.ofInt 32 b.toInt)
    ∧ ThenOrders (.cmpXI rs v) s f (Imm.sext v) (s.reg rs)
    ∧ ThenOrders (.cmp16R rs rt) s f rs16 (fld (s.reg rt) 0 16)
    ∧ ThenOrders (.cmp16I (.imm rs h)) s f rs16 h
    ∧ ThenOrders (.cmp16I (.short rs b)) s f rs16 (BitVec.ofInt 16 b.toInt)
    ∧ ThenOrders (.cmp16xI rs h) s f h rs16
    ∧ ThenOrders (.cmp8R rs rt) s f rs8 (fld (s.reg rt) 0 8)
    ∧ ThenOrders (.cmp8I (.imm rs e)) s f rs8 e
    ∧ ThenOrders (.cmp8I (.short rs b)) s f rs8 (BitVec.ofInt 8 b.toInt)
    ∧ ThenOrders (.cmp8xI rs e) s f e rs8

/-- A 64-bit compare in two instructions (R330): after the compare of the low words and the carry
compare of the high words Z, C, N and V are those of the 64-bit compare, nothing else has changed, and
the branches go by the order of the 64-bit values. -/
def Obligations.DoubleWordCompare : Prop :=
  ∀ (s : State) (lo hi : Reg) (vlo vhi : Imm) (f : CondForm),
    let a : BitVec 64 := s.reg hi ++ s.reg lo
    let b : BitVec 64 := Imm.sext vhi ++ Imm.sext vlo
    ∃ t u, exec (.cmpI (.imm lo vlo)) s = .next t ∧ exec (.cmpCI hi vhi) t = .next u
      ∧ u.pc = s.pc + (Instr.cmpI (.imm lo vlo)).length + (Instr.cmpCI hi vhi).length
      ∧ CompareResult s u a b false false ∧ OrderBranches u f a b

/-! ### Shifts -/

/-- The eight shifts and rotates by a count: the result, Z and N from it, C the last bit out and
unchanged for the count 0. -/
def Obligations.ShiftsComplete : Prop :=
  ∀ (s : State) (rd rs rt : Reg) (n : BitVec 5),
    let last (k : BitVec 5) (b : Bool) : Option Bool := if k = 0#5 then none else some b
    let left (k : BitVec 5) (x : Word) (t : State) : Prop :=
      ShiftResult s t rd (BitVec.ofNat 32 (x.toNat * 2 ^ k.toNat)) (last k (x.getLsbD (32 - k.toNat)))
    let rightU (k : BitVec 5) (x : Word) (t : State) : Prop :=
      ShiftResult s t rd (BitVec.ofNat 32 (x.toNat / 2 ^ k.toNat)) (last k (x.getLsbD (k.toNat - 1)))
    let rightS (k : BitVec 5) (x : Word) (t : State) : Prop :=
      ShiftResult s t rd (BitVec.ofInt 32 (x.toInt / 2 ^ k.toNat)) (last k (x.getLsbD (k.toNat - 1)))
    let rot (k : BitVec 5) (x : Word) (t : State) : Prop :=
      let r := BitVec.ofNat 32 (x.toNat * 2 ^ k.toNat + x.toNat / 2 ^ (32 - k.toNat))
      ShiftResult s t rd r (last k (r.getLsbD 0))
    let k : BitVec 5 := fld (s.reg rt) 0 5
    (Completes (.shiftlI (.full rd rs n)) s (left n (s.reg rs)))
    ∧ (Completes (.shiftlI (.short rd n)) s (left n (s.reg rd)))
    ∧ (Completes (.shiftrUI (.full rd rs n)) s (rightU n (s.reg rs)))
    ∧ (Completes (.shiftrUI (.short rd n)) s (rightU n (s.reg rd)))
    ∧ (Completes (.shiftrSI (.full rd rs n)) s (rightS n (s.reg rs)))
    ∧ (Completes (.shiftrSI (.short rd n)) s (rightS n (s.reg rd)))
    ∧ (Completes (.rotatelI (.full rd rs n)) s (rot n (s.reg rs)))
    ∧ (Completes (.rotatelI (.short rd n)) s (rot n (s.reg rd)))
    ∧ (Completes (.shiftlR rd rs rt) s (left k (s.reg rs)))
    ∧ (Completes (.shiftrUR rd rs rt) s (rightU k (s.reg rs)))
    ∧ (Completes (.shiftrSR rd rs rt) s (rightS k (s.reg rs)))
    ∧ (Completes (.rotatelR rd rs rt) s (rot k (s.reg rs)))

/-- The single-bit shifts through C, and `b2swap.r`, which leaves C. -/
def Obligations.CarryShiftsAndByteSwapComplete : Prop :=
  ∀ (s : State) (rd rs : Reg),
    let x := s.reg rs
    (Completes (.shiftlCI rd rs) s fun t => ShiftResult s t rd
      (BitVec.ofNat 32 (2 * x.toNat + (flagC s.flags).toNat)) (some (x.getLsbD 31)))
    ∧ (Completes (.shiftrCI rd rs) s fun t => ShiftResult s t rd
      (BitVec.ofNat 32 (x.toNat / 2 + 2 ^ 31 * (flagC s.flags).toNat)) (some (x.getLsbD 0)))
    ∧ (Completes (.b2swapR rd rs) s fun t => ∃ r, ValueResult s t rd r
      ∧ fld r 0 8 = fld x 8 8 ∧ fld r 8 8 = fld x 0 8 ∧ fld r 16 8 = fld x 24 8
      ∧ fld r 24 8 = fld x 16 8)

/-! ### Block instructions -/

/-- One step of the four block instructions: a byte is copied or stored and the count goes on; the
last byte, and a count already used up, end the instruction with S 0. A byte that the same copy
wrote 1 to 3 bytes below its source may be any byte (U17). A register named twice is an
InstructionError that returns to the instruction, which is the spec's decision D29. A byte whose read
or write fails its check raises its error and is not done: the bytes before it stay, FLAGS.S or Rn keeps
their number and the error returns to the instruction, which is D6 (both Note 21); one that goes where
nothing stands is refused (U23, Note 31). What the read of a device leaves when the write fails is free
(Note 33). One byte per step, the overlap and the end state are as Notes 11, 12 and 13 say. -/
def Obligations.BlockAtomsComplete : Prop :=
  (∀ (s : State) (rad ras : Reg) (num : BitVec 8), Memory.wf s.mem = true →
    let i : Instr := .blkcpI rad ras num
    let done := (flagS s.flags).toNat
    (rad ≠ ras → done < blkCount num → ReadOk s .byte (s.reg ras) → WriteOk s .byte (s.reg rad) →
      ∃ t, exec i s = .next t ∧ BlockFrame s t [rad, ras] (s.reg rad)
        ∧ (s.overlaps rad ras = false → read8 t.mem (s.reg rad) = read8 s.mem (s.reg ras))
        ∧ (done + 1 < blkCount num → BlockGoesOnS s t [rad, ras])
        ∧ (done + 1 = blkCount num → BlockEnds i s t [rad, ras] 1#32))
    ∧ (rad ≠ ras → blkCount num ≤ done → ∃ t, exec i s = .next t
        ∧ BlockFrame s t [rad, ras] (s.reg rad) ∧ t.mem = s.mem ∧ BlockEnds i s t [rad, ras] 0#32)
    ∧ (rad ≠ ras → done < blkCount num → CopyTraps i s rad ras)
    ∧ (rad = ras → exec i s = raiseError .instructionError 0#4 s.pc s.pc s.pc s))
  ∧ (∀ (s : State) (rad ras rn : Reg), Memory.wf s.mem = true →
    let i : Instr := .blkcpR rad ras rn
    let apart := rad ≠ ras ∧ rad ≠ rn ∧ ras ≠ rn
    (apart → s.reg rn ≠ 0#32 → ReadOk s .byte (s.reg ras) → WriteOk s .byte (s.reg rad) →
      ∃ t, exec i s = .next t ∧ BlockFrame s t [rad, ras, rn] (s.reg rad)
        ∧ (s.overlaps rad ras = false → read8 t.mem (s.reg rad) = read8 s.mem (s.reg ras))
        ∧ (s.reg rn ≠ 1#32 → BlockGoesOnR s t [rad, ras] rn)
        ∧ (s.reg rn = 1#32 → BlockEnds i s t [rad, ras] 1#32))
    ∧ (apart → s.reg rn = 0#32 → ∃ t, exec i s = .next t
        ∧ BlockFrame s t [rad, ras, rn] (s.reg rad) ∧ t.mem = s.mem
        ∧ BlockEnds i s t [rad, ras, rn] 0#32)
    ∧ (apart → s.reg rn ≠ 0#32 → CopyTraps i s rad ras)
    ∧ (¬apart → exec i s = raiseError .instructionError 0#4 s.pc s.pc s.pc s))
  ∧ (∀ (s : State) (src : BlkSrc) (ra : Reg) (num : BitVec 8), Memory.wf s.mem = true →
    let i : Instr := .blkst8I src ra num
    let done := (flagS s.flags).toNat
    (src ≠ .reg ra → done < blkCount num → WriteOk s .byte (s.reg ra) →
      ∃ t, exec i s = .next t ∧ BlockFrame s t (ra :: srcRegs src) (s.reg ra)
        ∧ read8 t.mem (s.reg ra) = blkStored src s ∧ Replicated src s t
        ∧ (done + 1 < blkCount num → BlockGoesOnS s t [ra])
        ∧ (done + 1 = blkCount num → BlockEnds i s t [ra] 1#32))
    ∧ (src ≠ .reg ra → blkCount num ≤ done → ∃ t, exec i s = .next t
        ∧ BlockFrame s t (ra :: srcRegs src) (s.reg ra) ∧ t.mem = s.mem ∧ Replicated src s t
        ∧ BlockEnds i s t [ra] 0#32)
    ∧ (src ≠ .reg ra → done < blkCount num → FillTraps i s src ra)
    ∧ (src = .reg ra → exec i s = raiseError .instructionError 0#4 s.pc s.pc s.pc s))
  ∧ (∀ (s : State) (src : BlkSrc) (ra rn : Reg), Memory.wf s.mem = true →
    let i : Instr := .blkst8R src ra rn
    let apart := src ≠ .reg ra ∧ src ≠ .reg rn ∧ ra ≠ rn
    (apart → s.reg rn ≠ 0#32 → WriteOk s .byte (s.reg ra) →
      ∃ t, exec i s = .next t ∧ BlockFrame s t (ra :: rn :: srcRegs src) (s.reg ra)
        ∧ read8 t.mem (s.reg ra) = blkStored src s ∧ Replicated src s t
        ∧ (s.reg rn ≠ 1#32 → BlockGoesOnR s t [ra] rn)
        ∧ (s.reg rn = 1#32 → BlockEnds i s t [ra] 1#32))
    ∧ (apart → s.reg rn = 0#32 → ∃ t, exec i s = .next t
        ∧ BlockFrame s t (ra :: rn :: srcRegs src) (s.reg ra) ∧ t.mem = s.mem
        ∧ Replicated src s t ∧ BlockEnds i s t [ra, rn] 0#32)
    ∧ (apart → s.reg rn ≠ 0#32 → FillTraps i s src ra)
    ∧ (¬apart → exec i s = raiseError .instructionError 0#4 s.pc s.pc s.pc s))

/-- A whole `blkst.8.i`: from a fresh start its count of executions fills that many bytes, 256 for
the field 0, and changes no other byte. One byte per step is as Note 11 says. -/
def Obligations.BlockStoreFills : Prop :=
  ∀ (s : State) (src : BlkSrc) (ra : Reg) (num : BitVec 8), Memory.wf s.mem = true →
    src ≠ .reg ra → flagS s.flags = 0#8 →
    let n : Nat := if num = 0#8 then 256 else num.toNat
    (∀ k : Nat, k < n → WriteOk s .byte (s.reg ra + BitVec.ofNat 32 k)) →
    ∃ t, execTimes (.blkst8I src ra num) n s = .next t
      ∧ t.pc = s.pc + (Instr.blkst8I src ra num).length
      ∧ (∀ k : Nat, k < n → read8 t.mem (s.reg ra + BitVec.ofNat 32 k) = blkStored src s)
      ∧ MemSameBut s t (s.reg ra) n ∧ Replicated src s t ∧ RegsBut s t (ra :: srcRegs src)
      ∧ (s.params.prefetchBytes = 0 → t.stale = s.stale) ∧ t.flags = s.flags ∧ StacksSame s t ∧ SpecialsSame s t ∧ OutsideButDraws s t

/-! ### DSP and CLU -/

/-- `abs.r`, `msbit.r` and the three bit reversals; and the six CLU forms: the reply to the type,
the immediate, Rs and Rt is the value of Rd with Z and N from it (nothing where there is no Rd), a
refusal or an error of the CLU is an InstructionError with ErrorPval 1 or 2 that returns to the
instruction (D29). A core without a CLU knows no request (D21; both Note 21). The reply is a function of the request and the CLU's state; that
function as a list of rules, and as an opaque constant where no rule fits, is the model's form (Note
6). -/
def Obligations.DspAndCluComplete : Prop :=
  (∀ (s : State) (rd rs : Reg),
    let x := s.reg rs
    (Completes (.absR rd rs) s fun t => t.reg rd = BitVec.ofNat 32 x.toInt.natAbs
      ∧ flagZ t.flags = (x == 0#32) ∧ flagN t.flags = false
      ∧ flagV t.flags = (x == 0x80000000#32) ∧ OnlyRegs s t [rd] maskZNV)
    ∧ (Completes (.msbitR rd rs) s fun t => ∃ r, FieldResult s t rd r
      ∧ (x = 0#32 → r = 0#32)
      ∧ (x ≠ 0#32 → 1 ≤ r.toNat ∧ 2 ^ (r.toNat - 1) ≤ x.toNat ∧ x.toNat < 2 ^ r.toNat))
    ∧ (Completes (.flip8R rd rs) s fun t => ∃ r, ValueResult s t rd r
      ∧ ∀ k : Nat, k < 32 → r.getLsbD k = x.getLsbD (8 * (k / 8) + (7 - k % 8)))
    ∧ (Completes (.flip16R rd rs) s fun t => ∃ r, ValueResult s t rd r
      ∧ ∀ k : Nat, k < 32 → r.getLsbD k = x.getLsbD (16 * (k / 16) + (15 - k % 16)))
    ∧ (Completes (.flipR rd rs) s fun t => ∃ r, ValueResult s t rd r
      ∧ ∀ k : Nat, k < 32 → r.getLsbD k = x.getLsbD (31 - k)))
  ∧ ∀ (s : State) (v : BitVec 16) (rd rs rt : Reg) (i : Instr) (q : CluRequest) (dest : Bool),
    (i = .clu v ∧ q = ⟨1#4, v, none, none⟩ ∧ dest = false)
      ∨ (i = .cluD v rd ∧ q = ⟨2#4, v, none, none⟩ ∧ dest = true)
      ∨ (i = .cluDs v rd rs ∧ q = ⟨3#4, v, some (s.reg rs), none⟩ ∧ dest = true)
      ∨ (i = .cluDst v rd rs rt ∧ q = ⟨4#4, v, some (s.reg rs), some (s.reg rt)⟩ ∧ dest = true)
      ∨ (i = .cluS v rs ∧ q = ⟨5#4, v, some (s.reg rs), none⟩ ∧ dest = false)
      ∨ (i = .cluSt v rs rt ∧ q = ⟨6#4, v, some (s.reg rs), some (s.reg rt)⟩ ∧ dest = false) →
    (∀ r, s.cluReply q = .ok r → Completes i s fun t => t.cluSent = some q
      ∧ (if dest then t.reg rd = r ∧ ZNOf t r ∧ RegsBut s t [rd] ∧ FlagsBut s t maskZN
        else t.regs = s.regs ∧ t.flags = s.flags)
      ∧ StacksSame s t ∧ SpecialsSame s t ∧ OutsideButClu s t ∧ t.breakHit = s.breakHit
      ∧ FetchSame s t)
    ∧ (s.cluReply q = .unknown →
      exec i s = raiseError .instructionError 1#4 s.pc s.pc s.pc (s.cluTaken q))
    ∧ (s.cluReply q = .error →
      exec i s = raiseError .instructionError 2#4 s.pc s.pc s.pc (s.cluTaken q))
    ∧ (s.cluFitted = false → s.cluReply q = .unknown)
    ∧ (∀ rule rules, s.cluFitted = true → s.clu = rule :: rules →
      s.cluReply q = if cluRuleFits rule s.cluState q then rule.reply
        else State.cluReply { s with clu := rules } q)
    ∧ ∀ t : State, t.cluFitted = s.cluFitted → t.clu = s.clu → t.cluState = s.cluState →
      t.cluReply q = s.cluReply q

/-! ### System instructions -/

/-- Sign extension, the instructions without an effect of their own, the reads of constants and of
the mode, and the ones that leave the Awake state. `flush` empties the prefetch buffer (Note 14). PC
after `halt` and `brk` is the spec's decision D25, `sif` without its agent D20 (Note 21). See Notes 10,
23, 24, 26 and 30. -/
def Obligations.SystemInstructionsComplete : Prop :=
  ∀ (s : State) (rd rs : Reg),
    let goesOn (i : Instr) := exec i s = .next { s with pc := s.pc + i.length }
    let goesTo (i : Instr) (x : ExecState) :=
      exec i s = .next { s with pc := s.pc + i.length, exe := x }
    (Completes (.sext8R rd rs) s fun t => ValueResult s t rd
      (BitVec.ofInt 32 (BitVec.ofNat 8 (s.reg rs).toNat).toInt))
    ∧ (Completes (.sext16R rd rs) s fun t => ValueResult s t rd
      (BitVec.ofInt 32 (BitVec.ofNat 16 (s.reg rs).toNat).toInt))
    ∧ goesOn .nop ∧ goesOn .fill ∧ goesOn (.printR rd rs)
    ∧ exec .flush s = .next { s with pc := s.pc + Instr.flush.length, stale := [] }
    ∧ (s.isUser = false → goesOn .sif ∧ goesTo .halt .halted ∧ goesTo .sleepnop .nopSleep
      ∧ goesTo .sleepsif .sifSleep)
    ∧ ((s.isUser = false ∨ (flagP s.flags).getLsbD 0 = false) →
      (s.runToBreak = false → goesOn .brk) ∧ (s.runToBreak = true → goesTo .brk .halted))
    ∧ (Completes (.ver rd) s fun t => PlainResult s t rd verValue) ∧ fld verValue 8 24 = 0x006000#24
    ∧ (Completes (.lic rd) s fun t => PlainResult s t rd Config.licValue)
    ∧ (Completes (.fimode rd) s fun t => FieldResult s t rd (match s.mode with
      | .supervisor => 0#32
      | .interrupt => 1#32
      | .trusted => 2#32
      | .user => 3#32
      | .recovery => 4#32
      | .nmi => 5#32))

/-- The FLAGS fields: `mov.1` moves I and the bits Z, N, C, V, `mov.2` M, `mov.4` P, `mov.8` A; a
write changes that field alone, a read sets Z from the field and clears N. The writes of I, M and P
are privileged, `mov.8.i` where the parameter says so: it then raises PrivInstruction in User mode.
The parameter is U2 (Note 7), the return of that error to the instruction the spec's decision D29
(Note 21). -/
def Obligations.FlagFieldMovesComplete : Prop :=
  ∀ (s : State) (rd rs : Reg) (b : BitVec 2) (v1 : BitVec 1) (v2 : BitVec 2) (v4 : BitVec 4)
    (v8 : BitVec 8),
    let x := s.reg rs
    let reads (i : Instr) (lo len : Nat) := Completes i s fun t =>
      FieldResult s t rd (BitVec.ofNat 32 (fld s.flags lo len).toNat)
    let writes (i : Instr) (lo len : Nat) (v : Word) := Completes i s fun t =>
      FlagsResult s t ((BitVec.ofNat 32 (2 ^ len - 1)) <<< lo) (v <<< lo)
    (reads (.mov1R (.getBit rd b)) b.toNat 1 ∧ reads (.mov1R (.getI rd)) 6 1
      ∧ reads (.mov2R (.get rd)) 4 2 ∧ reads (.mov4R (.get rd)) 12 4
      ∧ reads (.mov8R (.get rd)) 16 8)
    ∧ (writes (.mov1R (.setBit b rs)) b.toNat 1 x ∧ writes (.mov8R (.set rs)) 16 8 x
      ∧ writes (.mov1R .cFromI) 2 1 (if flagI s.flags then 1#32 else 0#32))
    ∧ (s.isUser = false →
      writes (.mov1I v1) 6 1 (BitVec.ofNat 32 v1.toNat) ∧ writes (.mov1R (.setI rs)) 6 1 x
      ∧ writes (.mov1R .iFromC) 6 1 (if flagC s.flags then 1#32 else 0#32)
      ∧ writes (.mov2I v2) 4 2 (BitVec.ofNat 32 v2.toNat) ∧ writes (.mov2R (.set rs)) 4 2 x
      ∧ writes (.mov4I v4) 12 4 (BitVec.ofNat 32 v4.toNat) ∧ writes (.mov4R (.set rs)) 12 4 x)
    ∧ ((s.isUser = false ∨ s.params.mov8iPrivileged = false) →
      writes (.mov8I v8) 16 8 (BitVec.ofNat 32 v8.toNat))
    ∧ (s.isUser = true → s.params.mov8iPrivileged = true →
      exec (.mov8I v8) s = raiseError .privInstruction 0#4 s.pc s.pc s.pc s)

/-- The reads of the address, breakpoint and special registers into Rd, Z and N from the value. A
FREE bit of FLAGS or BRKE that was written 0 reads as 0; what one that was written 1 reads as is
open. A reserved register code is an InstructionError that changes nothing (R35, R56). The open bits are
U1 (Note 8), the return of that error to the instruction is the spec's decision D29 (Note 21). -/
def Obligations.RegisterBankReadsComplete : Prop :=
  ∀ (s : State) (r : Reg),
    let loose (x free : Word) (t : State) := t.reg r &&& ~~~free = x &&& ~~~free
      ∧ t.reg r &&& ~~~x = 0#32 ∧ ZNOf t (t.reg r) ∧ RegsBut s t [r] ∧ FlagsBut s t maskZN
      ∧ StacksSame s t ∧ SpecialsSame s t ∧ OutsideButDraws s t ∧ FetchSame s t
    (Completes (.movs2r r 0#3) s (loose s.flags 0xF80#32))
    ∧ (s.isUser = false →
      (Completes (.mova2r r 0#3) s fun t => ValueResult s t r s.sp0)
      ∧ (Completes (.mova2r r 1#3) s fun t => ValueResult s t r s.sp1)
      ∧ (Completes (.mova2r r 2#3) s fun t => ValueResult s t r s.vp)
      ∧ (Completes (.mova2r r 3#3) s fun t => ValueResult s t r s.gp)
      ∧ (Completes (.movb2r r 0#3) s fun t => ValueResult s t r s.brk0)
      ∧ (Completes (.movb2r r 1#3) s fun t => ValueResult s t r s.brk1)
      ∧ (Completes (.movb2r r 2#3) s fun t => ValueResult s t r s.brk2)
      ∧ (Completes (.movb2r r 3#3) s fun t => ValueResult s t r s.brk3)
      ∧ (Completes (.movs2r r 1#3) s fun t => ValueResult s t r s.info)
      ∧ (Completes (.movs2r r 2#3) s (loose s.brke 0x08080808#32))
      ∧ ∀ c : BitVec 3,
        (4 ≤ c.toNat →
          exec (.mova2r r c) s = raiseError .instructionError 0#4 s.pc s.pc s.pc s
          ∧ exec (.movb2r r c) s = raiseError .instructionError 0#4 s.pc s.pc s.pc s)
        ∧ (3 ≤ c.toNat →
          exec (.movs2r r c) s = raiseError .instructionError 0#4 s.pc s.pc s.pc s))

/-- The writes of those registers: SP0 sets K0, SP1 sets K1 where K0 is set, FLAGS is written but
for S, INFO is not written; a misaligned value for an address register is an AlignError that returns
to the next instruction, a reserved register code an InstructionError that returns to this one. All
are privileged; `mov.r %sp, Rs` is not, and a misaligned Rs is the same AlignError in every mode. The
first return address is the spec's decision D18, the second D29 (Note 21). -/
def Obligations.RegisterBankWritesComplete : Prop :=
  ∀ (s : State) (r : Reg),
    let x := s.reg r
    let next (i : Instr) := s.pc + i.length
    let misaligned (i : Instr) := exec i s = raiseError .alignError 0#4 (next i) s.pc s.pc s
    (fld x 0 2 ≠ 0#2 → misaligned (.movR (.toSp r)))
    ∧ (s.isUser = false →
    (fld x 0 2 = 0#2 →
      exec (.movr2a 0#3 r) s = .next { s with
        sp0 := x, info := s.info ||| 1#32, pc := next (.movr2a 0#3 r) }
      ∧ exec (.movr2a 1#3 r) s = .next { s with
        sp1 := x, info := if infoK0 s.info then s.info ||| 2#32 else s.info
        pc := next (.movr2a 1#3 r) }
      ∧ exec (.movr2a 3#3 r) s = .next { s with gp := x, pc := next (.movr2a 3#3 r) })
    ∧ (fld x 0 8 = 0#8 →
      exec (.movr2a 2#3 r) s = .next { s with vp := x, pc := next (.movr2a 2#3 r) })
    ∧ (fld x 0 2 ≠ 0#2 → misaligned (.movr2a 0#3 r) ∧ misaligned (.movr2a 1#3 r)
      ∧ misaligned (.movr2a 3#3 r))
    ∧ (fld x 0 8 ≠ 0#8 → misaligned (.movr2a 2#3 r))
    ∧ exec (.movr2b 0#3 r) s = .next { s with brk0 := x, pc := next (.movr2b 0#3 r) }
    ∧ exec (.movr2b 1#3 r) s = .next { s with brk1 := x, pc := next (.movr2b 1#3 r) }
    ∧ exec (.movr2b 2#3 r) s = .next { s with brk2 := x, pc := next (.movr2b 2#3 r) }
    ∧ exec (.movr2b 3#3 r) s = .next { s with brk3 := x, pc := next (.movr2b 3#3 r) }
    ∧ exec (.movr2s 0#3 r) s = .next { s with
        flags := (s.flags &&& 0xFF000000#32) ||| (x &&& 0x00FFFFFF#32)
        pc := next (.movr2s 0#3 r) }
    ∧ exec (.movr2s 1#3 r) s = .next { s with pc := next (.movr2s 1#3 r) }
    ∧ exec (.movr2s 2#3 r) s = .next { s with brke := x, pc := next (.movr2s 2#3 r) }
    ∧ ∀ c : BitVec 3,
      (4 ≤ c.toNat →
        exec (.movr2a c r) s = raiseError .instructionError 0#4 s.pc s.pc s.pc s
        ∧ exec (.movr2b c r) s = raiseError .instructionError 0#4 s.pc s.pc s.pc s)
      ∧ (3 ≤ c.toNat →
        exec (.movr2s c r) s = raiseError .instructionError 0#4 s.pc s.pc s.pc s))

/-! ### Resets and events -/

/-- A soft reset: what it saves and clears, where it goes, and its code, field by field; `softreset`
in a privileged mode is one with type 0 and number 2. The FREE bits of the code as 0 are the spec's
decision D32, the address `softreset` saves is D26 (Note 21). A hard reset: every register 0 but VP
and PC, Supervisor mode, Awake, the prefetch buffer empty, memory and what stands outside as before;
the state after reset is the one a hard reset leaves of it. That both resets empty the prefetch buffer
is the spec's decision D8 (Notes 14, 21). That they leave the state of the CLU and of the devices as it
was is the model's choice (Notes 6, 33); so is the draw of the FREE bits of the FLAGS and BRKE words
that a soft reset saves (Note 8). The last clause rests on Notes 1 and 2, the model's choice. -/
def Obligations.ResetsComplete : Prop :=
  (∀ (s : State) (type : BitVec 3) (num : BitVec 5) (errpc : Word), ResetOk s 8#32 →
    ∃ t, softReset type num errpc s = .next t
      ∧ SoftResetDone s t (softCode type num s.info) errpc ∧ t.mode = .supervisor)
  ∧ (∀ s : State, s.isUser = false → ResetOk s 8#32 →
    ∃ t, exec .softreset s = .next t ∧ SoftResetDone s t (softCode 0#3 2#5 s.info) s.pc)
  ∧ (∀ (type : BitVec 3) (num : BitVec 5) (x : Word),
    let c := softCode type num x
    fld c 0 5 = num ∧ fld c 5 3 = 0#3 ∧ fld c 8 3 = type ∧ c.getLsbD 11 = infoSR x
      ∧ c.getLsbD 12 = infoK0 x ∧ c.getLsbD 13 = infoK1 x ∧ c.getLsbD 14 = infoNL x
      ∧ c.getLsbD 15 = infoR x ∧ fld c 16 16 = 0#16)
  ∧ (∀ s : State, ResetOk s 4#32 →
    hardReset s = .next { s with
      regs := ⟨0#32, 0#32, 0#32, 0#32, 0#32, 0#32, 0#32, 0#32⟩
      vp := read32 s.mem 0xFFFFFFFC#32
      pc := read32 s.mem (read32 s.mem 0xFFFFFFFC#32 + 4#32)
      sp0 := 0#32, sp1 := 0#32, gp := 0#32, flags := 0#32, info := 0#32, brke := 0#32
      brk0 := 0#32, brk1 := 0#32, brk2 := 0#32, brk3 := 0#32, exe := .awake, blkRun := 0, stale := [] })
  ∧ hardReset State.reset = .next State.reset

/-- Taking an error: the frame on Stack0, R0 the address of the instruction, R1 0, P the ErrorPval,
PC from the vector of its number; from User and Trusted mode the handler runs in Supervisor mode, from
Supervisor and Interrupt mode in Recovery state with its own vector. In Recovery or NMI state, with
K0 clear, or where one of the four writes of the frame fails (the words before it stay written), a
soft reset takes its place. The order of the four writes and what a failed one leaves are the spec's
decision D30, the number a soft reset reports in place of an entry D34 (Note 21); that frame and
vector are accessed in the handler's mode is as Note 32 says, a FREE bit of the FLAGS word is drawn as
Note 8 says. -/
def Obligations.ErrorsAreTaken : Prop :=
  (∀ (s : State) (k : ErrorKind) (pval : BitVec 4) (ret thispc errpc : Word),
    let low := isLow s.mode = true
    let dest : Mode := if low then .supervisor else .recovery
    let vector := exceptionVector s (if low then numS k else numR k)
    let err := raiseError k pval ret thispc errpc s
    (isLocked s.mode = false → infoK0 s.info = true → FrameWritable s dest (s.sp0 - 16#32) →
      VectorOk s (frameMem s.mem (s.sp0 - 16#32) ret s.regs.r1 s.regs.r0 s.flagsRead) dest vector →
      ∃ t, err = .next t ∧ FrameOnStack0 s t ret ∧ t.pc = read32 t.mem vector
        ∧ t.reg .r0 = thispc ∧ t.reg .r1 = 0#32 ∧ EntryFlags s t ∧ flagP t.flags = pval
        ∧ EntryFrame s t ∧ t.mode = dest
        ∧ (if low then t.info = s.info
          else t.info = s.info ||| 0x20#32 ∧ flagM t.flags = flagM s.flags))
    ∧ (isLocked s.mode = true → err = softReset 0#3 (numR k) errpc s)
    ∧ (isLocked s.mode = false → infoK0 s.info = false → err = softReset 2#3 1#5 errpc s)
    ∧ (isLocked s.mode = false → infoK0 s.info = true →
      let l := frameWords (s.sp0 - 16#32) ret s.regs.r1 s.regs.r0 s.flagsRead
      ∀ n e, FrameFailsAt s dest l n e →
        err = softReset 2#3 0#5 errpc (s.flagsUsed.putWords (l.take n))))
  ∧ ∀ (s : State) (k : ErrorKind),
    exceptionVector s (numS k) = s.vp + BitVec.ofNat 32 (4 * (match k with
      | .instructionError => 3
      | .nullPointer => 4
      | .divideByZero => 5
      | .unknownInstruction => 6
      | .alignError => 7
      | .mmuDataError => 8
      | .mmuProgError => 9
      | .mmuUserDataError => 10
      | .mmuUserProgError => 11
      | .privInstruction => 18))
    ∧ (k ≠ .mmuUserDataError → k ≠ .mmuUserProgError → k ≠ .privInstruction →
      exceptionVector s (numR k) = exceptionVector s (numS k) + 64#32)

/-- `syscall.i` and `syscall.r` complete in the handler of their number with the argument in R0 and
the next instruction as return address: in Trusted mode on Stack1 from User and Trusted mode, on
Stack0 from Supervisor and Interrupt mode; without their stack, or in Recovery or NMI state, a soft
reset takes their place. `brk` in User mode with B set is the service 17. A push to Stack1 that fails
is its error with ErrorPval 1, returning to the instruction, the words before it written (R484 (b));
one to Stack0 is a soft reset. That K1 counts for Stack1 only is the spec's decision D27, the return
address of `brk` and of a failed push D29, the order of the writes D30, the address a soft reset
reports, that of the instruction, D33 with D26, the number it reports D34 (Note 21); that the frame is
accessed in the handler's mode is as Note 32 says, a FREE bit of the FLAGS word is drawn as Note 8
says. -/
def Obligations.ServicesAreTaken : Prop :=
  (∀ (s : State) (num : BitVec 2) (i : Instr) (arg : Word),
    ((∃ v, i = .syscallI num v ∧ arg = Imm.sext v) ∨ (∃ r, i = .syscallR num r ∧ arg = s.reg r)) →
    let ret := s.pc + i.length
    let numT : BitVec 5 := BitVec.ofNat 5 (12 + num.toNat)
    let numSI : BitVec 5 := BitVec.ofNat 5 (28 + num.toNat)
    (ServiceOk1 s ret numT → ∃ t, exec i s = .next t ∧ ServiceTaken1 s t arg ret numT)
    ∧ (ServiceOk0 s ret numSI → ∃ t, exec i s = .next t ∧ ServiceTaken0 s t arg ret numSI)
    ∧ (isLocked s.mode = true → exec i s = softReset 0#3 numSI s.pc s)
    ∧ (isLow s.mode = true → infoK0 s.info = false ∨ infoK1 s.info = false →
      exec i s = softReset 3#3 1#5 s.pc s)
    ∧ (isLow s.mode = false → isLocked s.mode = false → infoK0 s.info = false →
      exec i s = softReset 2#3 1#5 s.pc s)
    ∧ (isLow s.mode = true → infoK0 s.info = true → infoK1 s.info = true →
      let l := frameWords (s.sp1 - 16#32) ret s.regs.r1 s.regs.r0 s.flagsRead
      ∀ n e, FrameFailsAt s .trusted l n e →
        exec i s = raiseError e 1#4 s.pc s.pc s.pc (s.flagsUsed.putWords (l.take n)))
    ∧ (isLow s.mode = false → isLocked s.mode = false → infoK0 s.info = true →
      let l := frameWords (s.sp0 - 16#32) ret s.regs.r1 s.regs.r0 s.flagsRead
      ∀ n e, FrameFailsAt s s.mode l n e →
        exec i s = softReset 2#3 0#5 s.pc (s.flagsUsed.putWords (l.take n))))
  ∧ ∀ s : State, s.isUser = true → (flagP s.flags).getLsbD 0 = true →
    let ret := s.pc + Instr.brk.length
    (ServiceOk1 s ret 17#5 → ∃ t, exec .brk s = .next t ∧ ServiceTaken1 s t s.pc ret 17#5)
    ∧ (infoK0 s.info = false ∨ infoK1 s.info = false → exec .brk s = softReset 3#3 1#5 s.pc s)
    ∧ (infoK0 s.info = true → infoK1 s.info = true →
      let l := frameWords (s.sp1 - 16#32) ret s.regs.r1 s.regs.r0 s.flagsRead
      ∀ n e, FrameFailsAt s .trusted l n e →
        exec .brk s = raiseError e 1#4 s.pc s.pc s.pc (s.flagsUsed.putWords (l.take n)))

/-- `rtie`: FLAGS, R0, R1 and PC from the frame, the stack pointer above it, NL or else R cleared;
nothing else changes. Each of the four reads that fails raises its error with ErrorPval 2 and has
changed nothing but the marks of the reads before it; a popped PC that is odd or 0 raises AlignError or
NullPointer with ErrorPval 2 after the rest is done. What a failed read leaves and that the target is
checked after the commit are the spec's decision D22 (Note 21). -/
def Obligations.ReturnFromEventCompletes : Prop :=
  ∀ s : State, s.isUser = false → s.spEnabled = true →
    let v := read32 s.mem (s.sp + 12#32)
    (FrameReadable s s.mode s.sp →
      (TargetOk v → ∃ t, exec .rtie s = .next t ∧ t.pc = v ∧ FrameReturned s t)
      ∧ ∃ u, u.pc = s.pc ∧ FrameReturned s u
        ∧ (v.getLsbD 0 = true → exec .rtie s
          = raiseError .alignError 2#4 (v &&& 0xFFFFFFFE#32) s.pc s.pc u)
        ∧ (v = 0#32 → exec .rtie s = raiseError .nullPointer 2#4 s.pc s.pc s.pc u))
    ∧ ∀ n k, n < 4 → (∀ j : Nat, j < n → ReadOk s .word (s.sp + BitVec.ofNat 32 (4 * j))) →
      dataCheck s s.mode .word .read (s.sp + BitVec.ofNat 32 (4 * n)) = some k →
      exec .rtie s = raiseError k 2#4 s.pc s.pc s.pc (s.readWords s.sp n)

/-- An interrupt and its return: after the entry, `rtie` at the handler restores every normal
register, FLAGS, INFO, PC, the stack pointers and all the rest of the state the program sees, but
for the four words below its stack. States with a FREE bit of FLAGS set are left out. That the frame
and the vector are accessed in the handler's mode is as Note 32 says. -/
def Obligations.InterruptThenReturn : Prop :=
  ∀ (s : State) (num : BitVec 5) (prio : BitVec 4), Memory.wf s.mem = true →
    acceptIrq s num prio = true → s.flags &&& 0xF80#32 = 0#32 → TargetOk s.pc →
    let b := s.sp0 - 16#32
    let dest : Mode := if num.toNat ≤ 3 then .nmi else .interrupt
    let m := frameMem s.mem b s.pc s.regs.r1 s.regs.r0 s.flags
    FrameWritable s dest b → FrameReadable s dest b →
    VectorOk s m dest (s.vp + BitVec.ofNat 32 (0x80 + 4 * num.toNat)) →
    ∃ t u, interruptEntry num prio s = .next t
      ∧ t.mode = dest ∧ t.pc = read32 m (s.vp + BitVec.ofNat 32 (0x80 + 4 * num.toNat))
      ∧ t.regs = s.regs ∧ t.sp0 = b ∧ t.mem = m ∧ EntryFlags s t
      ∧ flagP t.flags = (if num.toNat ≤ 3 then 0#4 else prio)
      ∧ exec .rtie t = .next u
      ∧ u.regs = s.regs ∧ u.pc = s.pc ∧ u.flags = s.flags ∧ u.info = s.info ∧ u.sp0 = s.sp0
      ∧ u.sp1 = s.sp1 ∧ u.gp = s.gp ∧ u.vp = s.vp ∧ u.brke = s.brke ∧ u.brk0 = s.brk0
      ∧ u.brk1 = s.brk1 ∧ u.brk2 = s.brk2 ∧ u.brk3 = s.brk3 ∧ u.exe = s.exe ∧ u.mode = s.mode
      ∧ MemSameBut s u b 16 ∧ SystemSame s u ∧ u.devState = s.devState ∧ u.cluState = s.cluState
      ∧ (s.params.prefetchBytes = 0 → u.stale = s.stale)
end

