-- ==== Sys2Proof/Laws/State.lean ====
section
/-! SUPPORT. One lemma per field per update of the state, so that no proof unfolds a record update;
what `setSp` and the free reads leave; reading a register after writing one. -/

namespace Sys2Proof.Machine

@[simp] theorem setReg_regs (s : State) (r : Reg) (v : Word) : (s.setReg r v).regs = s.regs.set r v := rfl
@[simp] theorem setReg_pc (s : State) (r : Reg) (v : Word) : (s.setReg r v).pc = s.pc := rfl
@[simp] theorem setReg_sp0 (s : State) (r : Reg) (v : Word) : (s.setReg r v).sp0 = s.sp0 := rfl
@[simp] theorem setReg_sp1 (s : State) (r : Reg) (v : Word) : (s.setReg r v).sp1 = s.sp1 := rfl
@[simp] theorem setReg_gp (s : State) (r : Reg) (v : Word) : (s.setReg r v).gp = s.gp := rfl
@[simp] theorem setReg_vp (s : State) (r : Reg) (v : Word) : (s.setReg r v).vp = s.vp := rfl
@[simp] theorem setReg_flags (s : State) (r : Reg) (v : Word) : (s.setReg r v).flags = s.flags := rfl
@[simp] theorem setReg_info (s : State) (r : Reg) (v : Word) : (s.setReg r v).info = s.info := rfl
@[simp] theorem setReg_brke (s : State) (r : Reg) (v : Word) : (s.setReg r v).brke = s.brke := rfl
@[simp] theorem setReg_brk0 (s : State) (r : Reg) (v : Word) : (s.setReg r v).brk0 = s.brk0 := rfl
@[simp] theorem setReg_brk1 (s : State) (r : Reg) (v : Word) : (s.setReg r v).brk1 = s.brk1 := rfl
@[simp] theorem setReg_brk2 (s : State) (r : Reg) (v : Word) : (s.setReg r v).brk2 = s.brk2 := rfl
@[simp] theorem setReg_brk3 (s : State) (r : Reg) (v : Word) : (s.setReg r v).brk3 = s.brk3 := rfl
@[simp] theorem setReg_exe (s : State) (r : Reg) (v : Word) : (s.setReg r v).exe = s.exe := rfl
@[simp] theorem setReg_runToBreak (s : State) (r : Reg) (v : Word) : (s.setReg r v).runToBreak = s.runToBreak := rfl
@[simp] theorem setReg_mem (s : State) (r : Reg) (v : Word) : (s.setReg r v).mem = s.mem := rfl
@[simp] theorem setReg_params (s : State) (r : Reg) (v : Word) : (s.setReg r v).params = s.params := rfl
@[simp] theorem setReg_env (s : State) (r : Reg) (v : Word) : (s.setReg r v).env = s.env := rfl
@[simp] theorem setReg_mmu (s : State) (r : Reg) (v : Word) : (s.setReg r v).mmu = s.mmu := rfl
@[simp] theorem setReg_map (s : State) (r : Reg) (v : Word) : (s.setReg r v).map = s.map := rfl
@[simp] theorem setReg_devices (s : State) (r : Reg) (v : Word) : (s.setReg r v).devices = s.devices := rfl
@[simp] theorem setReg_devState (s : State) (r : Reg) (v : Word) : (s.setReg r v).devState = s.devState := rfl
@[simp] theorem setReg_stale (s : State) (r : Reg) (v : Word) : (s.setReg r v).stale = s.stale := rfl
@[simp] theorem setReg_cluFitted (s : State) (r : Reg) (v : Word) : (s.setReg r v).cluFitted = s.cluFitted := rfl
@[simp] theorem setReg_clu (s : State) (r : Reg) (v : Word) : (s.setReg r v).clu = s.clu := rfl
@[simp] theorem setReg_cluState (s : State) (r : Reg) (v : Word) : (s.setReg r v).cluState = s.cluState := rfl
@[simp] theorem setReg_cluSent (s : State) (r : Reg) (v : Word) : (s.setReg r v).cluSent = s.cluSent := rfl
@[simp] theorem setReg_freeNext (s : State) (r : Reg) (v : Word) : (s.setReg r v).freeNext = s.freeNext := rfl
@[simp] theorem setReg_blkRun (s : State) (r : Reg) (v : Word) : (s.setReg r v).blkRun = s.blkRun := rfl
@[simp] theorem setReg_ahead (s : State) (r : Reg) (v : Word) : (s.setReg r v).ahead = s.ahead := rfl
@[simp] theorem setReg_breakHit (s : State) (r : Reg) (v : Word) : (s.setReg r v).breakHit = s.breakHit := rfl
@[simp] theorem setReg_event (s : State) (r : Reg) (v : Word) : (s.setReg r v).event = s.event := rfl

@[simp] theorem setFlags_regs (s : State) (f : Word) : (s.setFlags f).regs = s.regs := rfl
@[simp] theorem setFlags_pc (s : State) (f : Word) : (s.setFlags f).pc = s.pc := rfl
@[simp] theorem setFlags_sp0 (s : State) (f : Word) : (s.setFlags f).sp0 = s.sp0 := rfl
@[simp] theorem setFlags_sp1 (s : State) (f : Word) : (s.setFlags f).sp1 = s.sp1 := rfl
@[simp] theorem setFlags_gp (s : State) (f : Word) : (s.setFlags f).gp = s.gp := rfl
@[simp] theorem setFlags_vp (s : State) (f : Word) : (s.setFlags f).vp = s.vp := rfl
@[simp] theorem setFlags_flags (s : State) (f : Word) : (s.setFlags f).flags = f := rfl
@[simp] theorem setFlags_info (s : State) (f : Word) : (s.setFlags f).info = s.info := rfl
@[simp] theorem setFlags_brke (s : State) (f : Word) : (s.setFlags f).brke = s.brke := rfl
@[simp] theorem setFlags_brk0 (s : State) (f : Word) : (s.setFlags f).brk0 = s.brk0 := rfl
@[simp] theorem setFlags_brk1 (s : State) (f : Word) : (s.setFlags f).brk1 = s.brk1 := rfl
@[simp] theorem setFlags_brk2 (s : State) (f : Word) : (s.setFlags f).brk2 = s.brk2 := rfl
@[simp] theorem setFlags_brk3 (s : State) (f : Word) : (s.setFlags f).brk3 = s.brk3 := rfl
@[simp] theorem setFlags_exe (s : State) (f : Word) : (s.setFlags f).exe = s.exe := rfl
@[simp] theorem setFlags_runToBreak (s : State) (f : Word) : (s.setFlags f).runToBreak = s.runToBreak := rfl
@[simp] theorem setFlags_mem (s : State) (f : Word) : (s.setFlags f).mem = s.mem := rfl
@[simp] theorem setFlags_params (s : State) (f : Word) : (s.setFlags f).params = s.params := rfl
@[simp] theorem setFlags_env (s : State) (f : Word) : (s.setFlags f).env = s.env := rfl
@[simp] theorem setFlags_mmu (s : State) (f : Word) : (s.setFlags f).mmu = s.mmu := rfl
@[simp] theorem setFlags_map (s : State) (f : Word) : (s.setFlags f).map = s.map := rfl
@[simp] theorem setFlags_devices (s : State) (f : Word) : (s.setFlags f).devices = s.devices := rfl
@[simp] theorem setFlags_devState (s : State) (f : Word) : (s.setFlags f).devState = s.devState := rfl
@[simp] theorem setFlags_stale (s : State) (f : Word) : (s.setFlags f).stale = s.stale := rfl
@[simp] theorem setFlags_cluFitted (s : State) (f : Word) : (s.setFlags f).cluFitted = s.cluFitted := rfl
@[simp] theorem setFlags_clu (s : State) (f : Word) : (s.setFlags f).clu = s.clu := rfl
@[simp] theorem setFlags_cluState (s : State) (f : Word) : (s.setFlags f).cluState = s.cluState := rfl
@[simp] theorem setFlags_cluSent (s : State) (f : Word) : (s.setFlags f).cluSent = s.cluSent := rfl
@[simp] theorem setFlags_freeNext (s : State) (f : Word) : (s.setFlags f).freeNext = s.freeNext := rfl
@[simp] theorem setFlags_blkRun (s : State) (f : Word) : (s.setFlags f).blkRun = s.blkRun := rfl
@[simp] theorem setFlags_ahead (s : State) (f : Word) : (s.setFlags f).ahead = s.ahead := rfl
@[simp] theorem setFlags_breakHit (s : State) (f : Word) : (s.setFlags f).breakHit = s.breakHit := rfl
@[simp] theorem setFlags_event (s : State) (f : Word) : (s.setFlags f).event = s.event := rfl

@[simp] theorem advance_regs (s : State) (n : Word) : (s.advance n).regs = s.regs := rfl
@[simp] theorem advance_pc (s : State) (n : Word) : (s.advance n).pc = s.pc + n := rfl
@[simp] theorem advance_sp0 (s : State) (n : Word) : (s.advance n).sp0 = s.sp0 := rfl
@[simp] theorem advance_sp1 (s : State) (n : Word) : (s.advance n).sp1 = s.sp1 := rfl
@[simp] theorem advance_gp (s : State) (n : Word) : (s.advance n).gp = s.gp := rfl
@[simp] theorem advance_vp (s : State) (n : Word) : (s.advance n).vp = s.vp := rfl
@[simp] theorem advance_flags (s : State) (n : Word) : (s.advance n).flags = s.flags := rfl
@[simp] theorem advance_info (s : State) (n : Word) : (s.advance n).info = s.info := rfl
@[simp] theorem advance_brke (s : State) (n : Word) : (s.advance n).brke = s.brke := rfl
@[simp] theorem advance_brk0 (s : State) (n : Word) : (s.advance n).brk0 = s.brk0 := rfl
@[simp] theorem advance_brk1 (s : State) (n : Word) : (s.advance n).brk1 = s.brk1 := rfl
@[simp] theorem advance_brk2 (s : State) (n : Word) : (s.advance n).brk2 = s.brk2 := rfl
@[simp] theorem advance_brk3 (s : State) (n : Word) : (s.advance n).brk3 = s.brk3 := rfl
@[simp] theorem advance_exe (s : State) (n : Word) : (s.advance n).exe = s.exe := rfl
@[simp] theorem advance_runToBreak (s : State) (n : Word) : (s.advance n).runToBreak = s.runToBreak := rfl
@[simp] theorem advance_mem (s : State) (n : Word) : (s.advance n).mem = s.mem := rfl
@[simp] theorem advance_params (s : State) (n : Word) : (s.advance n).params = s.params := rfl
@[simp] theorem advance_env (s : State) (n : Word) : (s.advance n).env = s.env := rfl
@[simp] theorem advance_mmu (s : State) (n : Word) : (s.advance n).mmu = s.mmu := rfl
@[simp] theorem advance_map (s : State) (n : Word) : (s.advance n).map = s.map := rfl
@[simp] theorem advance_devices (s : State) (n : Word) : (s.advance n).devices = s.devices := rfl
@[simp] theorem advance_devState (s : State) (n : Word) : (s.advance n).devState = s.devState := rfl
@[simp] theorem advance_stale (s : State) (n : Word) : (s.advance n).stale = s.stale := rfl
@[simp] theorem advance_cluFitted (s : State) (n : Word) : (s.advance n).cluFitted = s.cluFitted := rfl
@[simp] theorem advance_clu (s : State) (n : Word) : (s.advance n).clu = s.clu := rfl
@[simp] theorem advance_cluState (s : State) (n : Word) : (s.advance n).cluState = s.cluState := rfl
@[simp] theorem advance_cluSent (s : State) (n : Word) : (s.advance n).cluSent = s.cluSent := rfl
@[simp] theorem advance_freeNext (s : State) (n : Word) : (s.advance n).freeNext = s.freeNext := rfl
@[simp] theorem advance_blkRun (s : State) (n : Word) : (s.advance n).blkRun = s.blkRun := rfl
@[simp] theorem advance_ahead (s : State) (n : Word) : (s.advance n).ahead = s.ahead := rfl
@[simp] theorem advance_breakHit (s : State) (n : Word) : (s.advance n).breakHit = s.breakHit := rfl
@[simp] theorem advance_event (s : State) (n : Word) : (s.advance n).event = s.event := rfl

@[simp] theorem result_regs (s : State) (r : Reg) (v f : Word) : (s.result r v f).regs = s.regs.set r v := rfl
@[simp] theorem result_pc (s : State) (r : Reg) (v f : Word) : (s.result r v f).pc = s.pc := rfl
@[simp] theorem result_sp0 (s : State) (r : Reg) (v f : Word) : (s.result r v f).sp0 = s.sp0 := rfl
@[simp] theorem result_sp1 (s : State) (r : Reg) (v f : Word) : (s.result r v f).sp1 = s.sp1 := rfl
@[simp] theorem result_gp (s : State) (r : Reg) (v f : Word) : (s.result r v f).gp = s.gp := rfl
@[simp] theorem result_vp (s : State) (r : Reg) (v f : Word) : (s.result r v f).vp = s.vp := rfl
@[simp] theorem result_flags (s : State) (r : Reg) (v f : Word) : (s.result r v f).flags = f := rfl
@[simp] theorem result_info (s : State) (r : Reg) (v f : Word) : (s.result r v f).info = s.info := rfl
@[simp] theorem result_brke (s : State) (r : Reg) (v f : Word) : (s.result r v f).brke = s.brke := rfl
@[simp] theorem result_brk0 (s : State) (r : Reg) (v f : Word) : (s.result r v f).brk0 = s.brk0 := rfl
@[simp] theorem result_brk1 (s : State) (r : Reg) (v f : Word) : (s.result r v f).brk1 = s.brk1 := rfl
@[simp] theorem result_brk2 (s : State) (r : Reg) (v f : Word) : (s.result r v f).brk2 = s.brk2 := rfl
@[simp] theorem result_brk3 (s : State) (r : Reg) (v f : Word) : (s.result r v f).brk3 = s.brk3 := rfl
@[simp] theorem result_exe (s : State) (r : Reg) (v f : Word) : (s.result r v f).exe = s.exe := rfl
@[simp] theorem result_runToBreak (s : State) (r : Reg) (v f : Word) : (s.result r v f).runToBreak = s.runToBreak := rfl
@[simp] theorem result_mem (s : State) (r : Reg) (v f : Word) : (s.result r v f).mem = s.mem := rfl
@[simp] theorem result_params (s : State) (r : Reg) (v f : Word) : (s.result r v f).params = s.params := rfl
@[simp] theorem result_env (s : State) (r : Reg) (v f : Word) : (s.result r v f).env = s.env := rfl
@[simp] theorem result_mmu (s : State) (r : Reg) (v f : Word) : (s.result r v f).mmu = s.mmu := rfl
@[simp] theorem result_map (s : State) (r : Reg) (v f : Word) : (s.result r v f).map = s.map := rfl
@[simp] theorem result_devices (s : State) (r : Reg) (v f : Word) : (s.result r v f).devices = s.devices := rfl
@[simp] theorem result_devState (s : State) (r : Reg) (v f : Word) : (s.result r v f).devState = s.devState := rfl
@[simp] theorem result_stale (s : State) (r : Reg) (v f : Word) : (s.result r v f).stale = s.stale := rfl
@[simp] theorem result_cluFitted (s : State) (r : Reg) (v f : Word) : (s.result r v f).cluFitted = s.cluFitted := rfl
@[simp] theorem result_clu (s : State) (r : Reg) (v f : Word) : (s.result r v f).clu = s.clu := rfl
@[simp] theorem result_cluState (s : State) (r : Reg) (v f : Word) : (s.result r v f).cluState = s.cluState := rfl
@[simp] theorem result_cluSent (s : State) (r : Reg) (v f : Word) : (s.result r v f).cluSent = s.cluSent := rfl
@[simp] theorem result_freeNext (s : State) (r : Reg) (v f : Word) : (s.result r v f).freeNext = s.freeNext := rfl
@[simp] theorem result_blkRun (s : State) (r : Reg) (v f : Word) : (s.result r v f).blkRun = s.blkRun := rfl
@[simp] theorem result_ahead (s : State) (r : Reg) (v f : Word) : (s.result r v f).ahead = s.ahead := rfl
@[simp] theorem result_breakHit (s : State) (r : Reg) (v f : Word) : (s.result r v f).breakHit = s.breakHit := rfl
@[simp] theorem result_event (s : State) (r : Reg) (v f : Word) : (s.result r v f).event = s.event := rfl

@[simp] theorem accessed_regs (s : State) (k : AccessKind) (w : Width) (a : Word) : (s.accessed k w a).regs = s.regs := rfl
@[simp] theorem accessed_pc (s : State) (k : AccessKind) (w : Width) (a : Word) : (s.accessed k w a).pc = s.pc := rfl
@[simp] theorem accessed_sp0 (s : State) (k : AccessKind) (w : Width) (a : Word) : (s.accessed k w a).sp0 = s.sp0 := rfl
@[simp] theorem accessed_sp1 (s : State) (k : AccessKind) (w : Width) (a : Word) : (s.accessed k w a).sp1 = s.sp1 := rfl
@[simp] theorem accessed_gp (s : State) (k : AccessKind) (w : Width) (a : Word) : (s.accessed k w a).gp = s.gp := rfl
@[simp] theorem accessed_vp (s : State) (k : AccessKind) (w : Width) (a : Word) : (s.accessed k w a).vp = s.vp := rfl
@[simp] theorem accessed_flags (s : State) (k : AccessKind) (w : Width) (a : Word) : (s.accessed k w a).flags = s.flags := rfl
@[simp] theorem accessed_info (s : State) (k : AccessKind) (w : Width) (a : Word) : (s.accessed k w a).info = s.info := rfl
@[simp] theorem accessed_brke (s : State) (k : AccessKind) (w : Width) (a : Word) : (s.accessed k w a).brke = s.brke := rfl
@[simp] theorem accessed_brk0 (s : State) (k : AccessKind) (w : Width) (a : Word) : (s.accessed k w a).brk0 = s.brk0 := rfl
@[simp] theorem accessed_brk1 (s : State) (k : AccessKind) (w : Width) (a : Word) : (s.accessed k w a).brk1 = s.brk1 := rfl
@[simp] theorem accessed_brk2 (s : State) (k : AccessKind) (w : Width) (a : Word) : (s.accessed k w a).brk2 = s.brk2 := rfl
@[simp] theorem accessed_brk3 (s : State) (k : AccessKind) (w : Width) (a : Word) : (s.accessed k w a).brk3 = s.brk3 := rfl
@[simp] theorem accessed_exe (s : State) (k : AccessKind) (w : Width) (a : Word) : (s.accessed k w a).exe = s.exe := rfl
@[simp] theorem accessed_runToBreak (s : State) (k : AccessKind) (w : Width) (a : Word) : (s.accessed k w a).runToBreak = s.runToBreak := rfl
@[simp] theorem accessed_mem (s : State) (k : AccessKind) (w : Width) (a : Word) : (s.accessed k w a).mem = s.mem := rfl
@[simp] theorem accessed_params (s : State) (k : AccessKind) (w : Width) (a : Word) : (s.accessed k w a).params = s.params := rfl
@[simp] theorem accessed_env (s : State) (k : AccessKind) (w : Width) (a : Word) : (s.accessed k w a).env = s.env := rfl
@[simp] theorem accessed_mmu (s : State) (k : AccessKind) (w : Width) (a : Word) : (s.accessed k w a).mmu = s.mmu := rfl
@[simp] theorem accessed_map (s : State) (k : AccessKind) (w : Width) (a : Word) : (s.accessed k w a).map = s.map := rfl
@[simp] theorem accessed_devices (s : State) (k : AccessKind) (w : Width) (a : Word) : (s.accessed k w a).devices = s.devices := rfl
@[simp] theorem accessed_devState (s : State) (k : AccessKind) (w : Width) (a : Word) : (s.accessed k w a).devState = s.devState := rfl
@[simp] theorem accessed_stale (s : State) (k : AccessKind) (w : Width) (a : Word) : (s.accessed k w a).stale = s.stale := rfl
@[simp] theorem accessed_cluFitted (s : State) (k : AccessKind) (w : Width) (a : Word) : (s.accessed k w a).cluFitted = s.cluFitted := rfl
@[simp] theorem accessed_clu (s : State) (k : AccessKind) (w : Width) (a : Word) : (s.accessed k w a).clu = s.clu := rfl
@[simp] theorem accessed_cluState (s : State) (k : AccessKind) (w : Width) (a : Word) : (s.accessed k w a).cluState = s.cluState := rfl
@[simp] theorem accessed_cluSent (s : State) (k : AccessKind) (w : Width) (a : Word) : (s.accessed k w a).cluSent = s.cluSent := rfl
@[simp] theorem accessed_freeNext (s : State) (k : AccessKind) (w : Width) (a : Word) : (s.accessed k w a).freeNext = s.freeNext := rfl
@[simp] theorem accessed_blkRun (s : State) (k : AccessKind) (w : Width) (a : Word) : (s.accessed k w a).blkRun = s.blkRun := rfl
@[simp] theorem accessed_ahead (s : State) (k : AccessKind) (w : Width) (a : Word) : (s.accessed k w a).ahead = s.ahead := rfl
@[simp] theorem accessed_breakHit (s : State) (k : AccessKind) (w : Width) (a : Word) : (s.accessed k w a).breakHit = (s.breakHit || s.dataBreak k w a) := rfl
@[simp] theorem accessed_event (s : State) (k : AccessKind) (w : Width) (a : Word) : (s.accessed k w a).event = s.event := rfl

@[simp] theorem sampled_regs (s : State) : (s.sampled).regs = s.regs := rfl
@[simp] theorem sampled_pc (s : State) : (s.sampled).pc = s.pc := rfl
@[simp] theorem sampled_sp0 (s : State) : (s.sampled).sp0 = s.sp0 := rfl
@[simp] theorem sampled_sp1 (s : State) : (s.sampled).sp1 = s.sp1 := rfl
@[simp] theorem sampled_gp (s : State) : (s.sampled).gp = s.gp := rfl
@[simp] theorem sampled_vp (s : State) : (s.sampled).vp = s.vp := rfl
@[simp] theorem sampled_flags (s : State) : (s.sampled).flags = s.flags := rfl
@[simp] theorem sampled_info (s : State) : (s.sampled).info = s.info := rfl
@[simp] theorem sampled_brke (s : State) : (s.sampled).brke = s.brke := rfl
@[simp] theorem sampled_brk0 (s : State) : (s.sampled).brk0 = s.brk0 := rfl
@[simp] theorem sampled_brk1 (s : State) : (s.sampled).brk1 = s.brk1 := rfl
@[simp] theorem sampled_brk2 (s : State) : (s.sampled).brk2 = s.brk2 := rfl
@[simp] theorem sampled_brk3 (s : State) : (s.sampled).brk3 = s.brk3 := rfl
@[simp] theorem sampled_exe (s : State) : (s.sampled).exe = s.exe := rfl
@[simp] theorem sampled_runToBreak (s : State) : (s.sampled).runToBreak = s.runToBreak := rfl
@[simp] theorem sampled_mem (s : State) : (s.sampled).mem = s.mem := rfl
@[simp] theorem sampled_params (s : State) : (s.sampled).params = s.params := rfl
@[simp] theorem sampled_env (s : State) : (s.sampled).env = s.env.tail := rfl
@[simp] theorem sampled_mmu (s : State) : (s.sampled).mmu = s.mmu := rfl
@[simp] theorem sampled_map (s : State) : (s.sampled).map = s.map := rfl
@[simp] theorem sampled_devices (s : State) : (s.sampled).devices = s.devices := rfl
@[simp] theorem sampled_devState (s : State) : (s.sampled).devState = s.sample.devices.getD s.devState := rfl
@[simp] theorem sampled_stale (s : State) : (s.sampled).stale = s.stale := rfl
@[simp] theorem sampled_cluFitted (s : State) : (s.sampled).cluFitted = s.cluFitted := rfl
@[simp] theorem sampled_clu (s : State) : (s.sampled).clu = s.clu := rfl
@[simp] theorem sampled_cluState (s : State) : (s.sampled).cluState = s.cluState := rfl
@[simp] theorem sampled_cluSent (s : State) : (s.sampled).cluSent = s.cluSent := rfl
@[simp] theorem sampled_freeNext (s : State) : (s.sampled).freeNext = s.freeNext := rfl
@[simp] theorem sampled_blkRun (s : State) : (s.sampled).blkRun = s.blkRun := rfl
@[simp] theorem sampled_ahead (s : State) : (s.sampled).ahead = s.pc := rfl
@[simp] theorem sampled_breakHit (s : State) : (s.sampled).breakHit = s.breakHit := rfl
@[simp] theorem sampled_event (s : State) : (s.sampled).event = s.event := rfl

@[simp] theorem putMem_regs (s : State) (m : List Host.Cell) : (s.putMem m).regs = s.regs := rfl
@[simp] theorem putMem_pc (s : State) (m : List Host.Cell) : (s.putMem m).pc = s.pc := rfl
@[simp] theorem putMem_sp0 (s : State) (m : List Host.Cell) : (s.putMem m).sp0 = s.sp0 := rfl
@[simp] theorem putMem_sp1 (s : State) (m : List Host.Cell) : (s.putMem m).sp1 = s.sp1 := rfl
@[simp] theorem putMem_gp (s : State) (m : List Host.Cell) : (s.putMem m).gp = s.gp := rfl
@[simp] theorem putMem_vp (s : State) (m : List Host.Cell) : (s.putMem m).vp = s.vp := rfl
@[simp] theorem putMem_flags (s : State) (m : List Host.Cell) : (s.putMem m).flags = s.flags := rfl
@[simp] theorem putMem_info (s : State) (m : List Host.Cell) : (s.putMem m).info = s.info := rfl
@[simp] theorem putMem_brke (s : State) (m : List Host.Cell) : (s.putMem m).brke = s.brke := rfl
@[simp] theorem putMem_brk0 (s : State) (m : List Host.Cell) : (s.putMem m).brk0 = s.brk0 := rfl
@[simp] theorem putMem_brk1 (s : State) (m : List Host.Cell) : (s.putMem m).brk1 = s.brk1 := rfl
@[simp] theorem putMem_brk2 (s : State) (m : List Host.Cell) : (s.putMem m).brk2 = s.brk2 := rfl
@[simp] theorem putMem_brk3 (s : State) (m : List Host.Cell) : (s.putMem m).brk3 = s.brk3 := rfl
@[simp] theorem putMem_exe (s : State) (m : List Host.Cell) : (s.putMem m).exe = s.exe := rfl
@[simp] theorem putMem_runToBreak (s : State) (m : List Host.Cell) : (s.putMem m).runToBreak = s.runToBreak := rfl
@[simp] theorem putMem_mem (s : State) (m : List Host.Cell) : (s.putMem m).mem = m := rfl
@[simp] theorem putMem_params (s : State) (m : List Host.Cell) : (s.putMem m).params = s.params := rfl
@[simp] theorem putMem_env (s : State) (m : List Host.Cell) : (s.putMem m).env = s.env := rfl
@[simp] theorem putMem_mmu (s : State) (m : List Host.Cell) : (s.putMem m).mmu = s.mmu := rfl
@[simp] theorem putMem_map (s : State) (m : List Host.Cell) : (s.putMem m).map = s.map := rfl
@[simp] theorem putMem_devices (s : State) (m : List Host.Cell) : (s.putMem m).devices = s.devices := rfl
@[simp] theorem putMem_devState (s : State) (m : List Host.Cell) : (s.putMem m).devState = s.devState := rfl
@[simp] theorem putMem_stale (s : State) (m : List Host.Cell) : (s.putMem m).stale = s.staleAfter m := rfl
@[simp] theorem putMem_cluFitted (s : State) (m : List Host.Cell) : (s.putMem m).cluFitted = s.cluFitted := rfl
@[simp] theorem putMem_clu (s : State) (m : List Host.Cell) : (s.putMem m).clu = s.clu := rfl
@[simp] theorem putMem_cluState (s : State) (m : List Host.Cell) : (s.putMem m).cluState = s.cluState := rfl
@[simp] theorem putMem_cluSent (s : State) (m : List Host.Cell) : (s.putMem m).cluSent = s.cluSent := rfl
@[simp] theorem putMem_freeNext (s : State) (m : List Host.Cell) : (s.putMem m).freeNext = s.freeNext := rfl
@[simp] theorem putMem_blkRun (s : State) (m : List Host.Cell) : (s.putMem m).blkRun = s.blkRun := rfl
@[simp] theorem putMem_ahead (s : State) (m : List Host.Cell) : (s.putMem m).ahead = s.ahead := rfl
@[simp] theorem putMem_breakHit (s : State) (m : List Host.Cell) : (s.putMem m).breakHit = s.breakHit := rfl
@[simp] theorem putMem_event (s : State) (m : List Host.Cell) : (s.putMem m).event = s.event := rfl

@[simp] theorem scrambled_regs (s : State) : (s.scrambled).regs = s.regs := rfl
@[simp] theorem scrambled_pc (s : State) : (s.scrambled).pc = s.pc := rfl
@[simp] theorem scrambled_sp0 (s : State) : (s.scrambled).sp0 = s.sp0 := rfl
@[simp] theorem scrambled_sp1 (s : State) : (s.scrambled).sp1 = s.sp1 := rfl
@[simp] theorem scrambled_gp (s : State) : (s.scrambled).gp = s.gp := rfl
@[simp] theorem scrambled_vp (s : State) : (s.scrambled).vp = s.vp := rfl
@[simp] theorem scrambled_flags (s : State) : (s.scrambled).flags = s.flags := rfl
@[simp] theorem scrambled_info (s : State) : (s.scrambled).info = s.info := rfl
@[simp] theorem scrambled_brke (s : State) : (s.scrambled).brke = s.brke := rfl
@[simp] theorem scrambled_brk0 (s : State) : (s.scrambled).brk0 = s.brk0 := rfl
@[simp] theorem scrambled_brk1 (s : State) : (s.scrambled).brk1 = s.brk1 := rfl
@[simp] theorem scrambled_brk2 (s : State) : (s.scrambled).brk2 = s.brk2 := rfl
@[simp] theorem scrambled_brk3 (s : State) : (s.scrambled).brk3 = s.brk3 := rfl
@[simp] theorem scrambled_exe (s : State) : (s.scrambled).exe = s.exe := rfl
@[simp] theorem scrambled_runToBreak (s : State) : (s.scrambled).runToBreak = s.runToBreak := rfl
@[simp] theorem scrambled_mem (s : State) : (s.scrambled).mem = s.mem := rfl
@[simp] theorem scrambled_params (s : State) : (s.scrambled).params = s.params := rfl
@[simp] theorem scrambled_env (s : State) : (s.scrambled).env = s.env := rfl
@[simp] theorem scrambled_mmu (s : State) : (s.scrambled).mmu = s.mmu := rfl
@[simp] theorem scrambled_map (s : State) : (s.scrambled).map = s.map := rfl
@[simp] theorem scrambled_devices (s : State) : (s.scrambled).devices = s.devices := rfl
@[simp] theorem scrambled_devState (s : State) : (s.scrambled).devState = Config.freeNat s.freeNext := rfl
@[simp] theorem scrambled_stale (s : State) : (s.scrambled).stale = s.stale := rfl
@[simp] theorem scrambled_cluFitted (s : State) : (s.scrambled).cluFitted = s.cluFitted := rfl
@[simp] theorem scrambled_clu (s : State) : (s.scrambled).clu = s.clu := rfl
@[simp] theorem scrambled_cluState (s : State) : (s.scrambled).cluState = s.cluState := rfl
@[simp] theorem scrambled_cluSent (s : State) : (s.scrambled).cluSent = s.cluSent := rfl
@[simp] theorem scrambled_freeNext (s : State) : (s.scrambled).freeNext = s.freeNext + 1 := rfl
@[simp] theorem scrambled_blkRun (s : State) : (s.scrambled).blkRun = s.blkRun := rfl
@[simp] theorem scrambled_ahead (s : State) : (s.scrambled).ahead = s.ahead := rfl
@[simp] theorem scrambled_breakHit (s : State) : (s.scrambled).breakHit = s.breakHit := rfl
@[simp] theorem scrambled_event (s : State) : (s.scrambled).event = s.event := rfl

@[simp] theorem fetched_regs (s : State) (i : Instr) : (s.fetched i).regs = s.regs := rfl
@[simp] theorem fetched_pc (s : State) (i : Instr) : (s.fetched i).pc = s.pc := rfl
@[simp] theorem fetched_sp0 (s : State) (i : Instr) : (s.fetched i).sp0 = s.sp0 := rfl
@[simp] theorem fetched_sp1 (s : State) (i : Instr) : (s.fetched i).sp1 = s.sp1 := rfl
@[simp] theorem fetched_gp (s : State) (i : Instr) : (s.fetched i).gp = s.gp := rfl
@[simp] theorem fetched_vp (s : State) (i : Instr) : (s.fetched i).vp = s.vp := rfl
@[simp] theorem fetched_flags (s : State) (i : Instr) : (s.fetched i).flags = s.flags := rfl
@[simp] theorem fetched_info (s : State) (i : Instr) : (s.fetched i).info = s.info := rfl
@[simp] theorem fetched_brke (s : State) (i : Instr) : (s.fetched i).brke = s.brke := rfl
@[simp] theorem fetched_brk0 (s : State) (i : Instr) : (s.fetched i).brk0 = s.brk0 := rfl
@[simp] theorem fetched_brk1 (s : State) (i : Instr) : (s.fetched i).brk1 = s.brk1 := rfl
@[simp] theorem fetched_brk2 (s : State) (i : Instr) : (s.fetched i).brk2 = s.brk2 := rfl
@[simp] theorem fetched_brk3 (s : State) (i : Instr) : (s.fetched i).brk3 = s.brk3 := rfl
@[simp] theorem fetched_exe (s : State) (i : Instr) : (s.fetched i).exe = s.exe := rfl
@[simp] theorem fetched_runToBreak (s : State) (i : Instr) : (s.fetched i).runToBreak = s.runToBreak := rfl
@[simp] theorem fetched_mem (s : State) (i : Instr) : (s.fetched i).mem = s.mem := rfl
@[simp] theorem fetched_params (s : State) (i : Instr) : (s.fetched i).params = s.params := rfl
@[simp] theorem fetched_env (s : State) (i : Instr) : (s.fetched i).env = s.env := rfl
@[simp] theorem fetched_mmu (s : State) (i : Instr) : (s.fetched i).mmu = s.mmu := rfl
@[simp] theorem fetched_map (s : State) (i : Instr) : (s.fetched i).map = s.map := rfl
@[simp] theorem fetched_devices (s : State) (i : Instr) : (s.fetched i).devices = s.devices := rfl
@[simp] theorem fetched_devState (s : State) (i : Instr) : (s.fetched i).devState = s.devState := rfl
@[simp] theorem fetched_stale (s : State) (i : Instr) : (s.fetched i).stale = s.stale := rfl
@[simp] theorem fetched_cluFitted (s : State) (i : Instr) : (s.fetched i).cluFitted = s.cluFitted := rfl
@[simp] theorem fetched_clu (s : State) (i : Instr) : (s.fetched i).clu = s.clu := rfl
@[simp] theorem fetched_cluState (s : State) (i : Instr) : (s.fetched i).cluState = s.cluState := rfl
@[simp] theorem fetched_cluSent (s : State) (i : Instr) : (s.fetched i).cluSent = s.cluSent := rfl
@[simp] theorem fetched_freeNext (s : State) (i : Instr) : (s.fetched i).freeNext = s.freeNext := rfl
@[simp] theorem fetched_blkRun (s : State) (i : Instr) : (s.fetched i).blkRun = s.blkRun := rfl
@[simp] theorem fetched_ahead (s : State) (i : Instr) : (s.fetched i).ahead = s.pc + i.length := rfl
@[simp] theorem fetched_breakHit (s : State) (i : Instr) : (s.fetched i).breakHit = s.breakHit := rfl
@[simp] theorem fetched_event (s : State) (i : Instr) : (s.fetched i).event = s.event := rfl

@[simp] theorem settled_regs (s : State) : (s.settled).regs = s.regs := rfl
@[simp] theorem settled_pc (s : State) : (s.settled).pc = s.pc := rfl
@[simp] theorem settled_sp0 (s : State) : (s.settled).sp0 = s.sp0 := rfl
@[simp] theorem settled_sp1 (s : State) : (s.settled).sp1 = s.sp1 := rfl
@[simp] theorem settled_gp (s : State) : (s.settled).gp = s.gp := rfl
@[simp] theorem settled_vp (s : State) : (s.settled).vp = s.vp := rfl
@[simp] theorem settled_flags (s : State) : (s.settled).flags = s.flags := rfl
@[simp] theorem settled_info (s : State) : (s.settled).info = s.info := rfl
@[simp] theorem settled_brke (s : State) : (s.settled).brke = s.brke := rfl
@[simp] theorem settled_brk0 (s : State) : (s.settled).brk0 = s.brk0 := rfl
@[simp] theorem settled_brk1 (s : State) : (s.settled).brk1 = s.brk1 := rfl
@[simp] theorem settled_brk2 (s : State) : (s.settled).brk2 = s.brk2 := rfl
@[simp] theorem settled_brk3 (s : State) : (s.settled).brk3 = s.brk3 := rfl
@[simp] theorem settled_exe (s : State) : (s.settled).exe = s.exe := rfl
@[simp] theorem settled_runToBreak (s : State) : (s.settled).runToBreak = s.runToBreak := rfl
@[simp] theorem settled_mem (s : State) : (s.settled).mem = s.mem := rfl
@[simp] theorem settled_params (s : State) : (s.settled).params = s.params := rfl
@[simp] theorem settled_env (s : State) : (s.settled).env = s.env := rfl
@[simp] theorem settled_mmu (s : State) : (s.settled).mmu = s.mmu := rfl
@[simp] theorem settled_map (s : State) : (s.settled).map = s.map := rfl
@[simp] theorem settled_devices (s : State) : (s.settled).devices = s.devices := rfl
@[simp] theorem settled_devState (s : State) : (s.settled).devState = s.devState := rfl
@[simp] theorem settled_stale (s : State) : (s.settled).stale = s.stale := rfl
@[simp] theorem settled_cluFitted (s : State) : (s.settled).cluFitted = s.cluFitted := rfl
@[simp] theorem settled_clu (s : State) : (s.settled).clu = s.clu := rfl
@[simp] theorem settled_cluState (s : State) : (s.settled).cluState = s.cluState := rfl
@[simp] theorem settled_cluSent (s : State) : (s.settled).cluSent = s.cluSent := rfl
@[simp] theorem settled_freeNext (s : State) : (s.settled).freeNext = s.freeNext := rfl
@[simp] theorem settled_blkRun (s : State) : (s.settled).blkRun = s.blkRun := rfl
@[simp] theorem settled_ahead (s : State) : (s.settled).ahead = 0#32 := rfl
@[simp] theorem settled_breakHit (s : State) : (s.settled).breakHit = false := rfl
@[simp] theorem settled_event (s : State) : (s.settled).event = false := rfl

@[simp] theorem setS_regs (s : State) (k : Nat) : (s.setS k).regs = s.regs := rfl
@[simp] theorem setS_pc (s : State) (k : Nat) : (s.setS k).pc = s.pc := rfl
@[simp] theorem setS_sp0 (s : State) (k : Nat) : (s.setS k).sp0 = s.sp0 := rfl
@[simp] theorem setS_sp1 (s : State) (k : Nat) : (s.setS k).sp1 = s.sp1 := rfl
@[simp] theorem setS_gp (s : State) (k : Nat) : (s.setS k).gp = s.gp := rfl
@[simp] theorem setS_vp (s : State) (k : Nat) : (s.setS k).vp = s.vp := rfl
@[simp] theorem setS_flags (s : State) (k : Nat) : (s.setS k).flags = putField s.flags 24 8 (BitVec.ofNat 8 k) := rfl
@[simp] theorem setS_info (s : State) (k : Nat) : (s.setS k).info = s.info := rfl
@[simp] theorem setS_brke (s : State) (k : Nat) : (s.setS k).brke = s.brke := rfl
@[simp] theorem setS_brk0 (s : State) (k : Nat) : (s.setS k).brk0 = s.brk0 := rfl
@[simp] theorem setS_brk1 (s : State) (k : Nat) : (s.setS k).brk1 = s.brk1 := rfl
@[simp] theorem setS_brk2 (s : State) (k : Nat) : (s.setS k).brk2 = s.brk2 := rfl
@[simp] theorem setS_brk3 (s : State) (k : Nat) : (s.setS k).brk3 = s.brk3 := rfl
@[simp] theorem setS_exe (s : State) (k : Nat) : (s.setS k).exe = s.exe := rfl
@[simp] theorem setS_runToBreak (s : State) (k : Nat) : (s.setS k).runToBreak = s.runToBreak := rfl
@[simp] theorem setS_mem (s : State) (k : Nat) : (s.setS k).mem = s.mem := rfl
@[simp] theorem setS_params (s : State) (k : Nat) : (s.setS k).params = s.params := rfl
@[simp] theorem setS_env (s : State) (k : Nat) : (s.setS k).env = s.env := rfl
@[simp] theorem setS_mmu (s : State) (k : Nat) : (s.setS k).mmu = s.mmu := rfl
@[simp] theorem setS_map (s : State) (k : Nat) : (s.setS k).map = s.map := rfl
@[simp] theorem setS_devices (s : State) (k : Nat) : (s.setS k).devices = s.devices := rfl
@[simp] theorem setS_devState (s : State) (k : Nat) : (s.setS k).devState = s.devState := rfl
@[simp] theorem setS_stale (s : State) (k : Nat) : (s.setS k).stale = s.stale := rfl
@[simp] theorem setS_cluFitted (s : State) (k : Nat) : (s.setS k).cluFitted = s.cluFitted := rfl
@[simp] theorem setS_clu (s : State) (k : Nat) : (s.setS k).clu = s.clu := rfl
@[simp] theorem setS_cluState (s : State) (k : Nat) : (s.setS k).cluState = s.cluState := rfl
@[simp] theorem setS_cluSent (s : State) (k : Nat) : (s.setS k).cluSent = s.cluSent := rfl
@[simp] theorem setS_freeNext (s : State) (k : Nat) : (s.setS k).freeNext = s.freeNext := rfl
@[simp] theorem setS_blkRun (s : State) (k : Nat) : (s.setS k).blkRun = s.blkRun := rfl
@[simp] theorem setS_ahead (s : State) (k : Nat) : (s.setS k).ahead = s.ahead := rfl
@[simp] theorem setS_breakHit (s : State) (k : Nat) : (s.setS k).breakHit = s.breakHit := rfl
@[simp] theorem setS_event (s : State) (k : Nat) : (s.setS k).event = s.event := rfl

@[simp] theorem setDone_regs (s : State) (k : Nat) : (s.setDone k).regs = s.regs := rfl
@[simp] theorem setDone_pc (s : State) (k : Nat) : (s.setDone k).pc = s.pc := rfl
@[simp] theorem setDone_sp0 (s : State) (k : Nat) : (s.setDone k).sp0 = s.sp0 := rfl
@[simp] theorem setDone_sp1 (s : State) (k : Nat) : (s.setDone k).sp1 = s.sp1 := rfl
@[simp] theorem setDone_gp (s : State) (k : Nat) : (s.setDone k).gp = s.gp := rfl
@[simp] theorem setDone_vp (s : State) (k : Nat) : (s.setDone k).vp = s.vp := rfl
@[simp] theorem setDone_flags (s : State) (k : Nat) : (s.setDone k).flags = putField s.flags 24 8 (BitVec.ofNat 8 k) := rfl
@[simp] theorem setDone_info (s : State) (k : Nat) : (s.setDone k).info = s.info := rfl
@[simp] theorem setDone_brke (s : State) (k : Nat) : (s.setDone k).brke = s.brke := rfl
@[simp] theorem setDone_brk0 (s : State) (k : Nat) : (s.setDone k).brk0 = s.brk0 := rfl
@[simp] theorem setDone_brk1 (s : State) (k : Nat) : (s.setDone k).brk1 = s.brk1 := rfl
@[simp] theorem setDone_brk2 (s : State) (k : Nat) : (s.setDone k).brk2 = s.brk2 := rfl
@[simp] theorem setDone_brk3 (s : State) (k : Nat) : (s.setDone k).brk3 = s.brk3 := rfl
@[simp] theorem setDone_exe (s : State) (k : Nat) : (s.setDone k).exe = s.exe := rfl
@[simp] theorem setDone_runToBreak (s : State) (k : Nat) : (s.setDone k).runToBreak = s.runToBreak := rfl
@[simp] theorem setDone_mem (s : State) (k : Nat) : (s.setDone k).mem = s.mem := rfl
@[simp] theorem setDone_params (s : State) (k : Nat) : (s.setDone k).params = s.params := rfl
@[simp] theorem setDone_env (s : State) (k : Nat) : (s.setDone k).env = s.env := rfl
@[simp] theorem setDone_mmu (s : State) (k : Nat) : (s.setDone k).mmu = s.mmu := rfl
@[simp] theorem setDone_map (s : State) (k : Nat) : (s.setDone k).map = s.map := rfl
@[simp] theorem setDone_devices (s : State) (k : Nat) : (s.setDone k).devices = s.devices := rfl
@[simp] theorem setDone_devState (s : State) (k : Nat) : (s.setDone k).devState = s.devState := rfl
@[simp] theorem setDone_stale (s : State) (k : Nat) : (s.setDone k).stale = s.stale := rfl
@[simp] theorem setDone_cluFitted (s : State) (k : Nat) : (s.setDone k).cluFitted = s.cluFitted := rfl
@[simp] theorem setDone_clu (s : State) (k : Nat) : (s.setDone k).clu = s.clu := rfl
@[simp] theorem setDone_cluState (s : State) (k : Nat) : (s.setDone k).cluState = s.cluState := rfl
@[simp] theorem setDone_cluSent (s : State) (k : Nat) : (s.setDone k).cluSent = s.cluSent := rfl
@[simp] theorem setDone_freeNext (s : State) (k : Nat) : (s.setDone k).freeNext = s.freeNext := rfl
@[simp] theorem setDone_blkRun (s : State) (k : Nat) : (s.setDone k).blkRun = s.blkRun := rfl
@[simp] theorem setDone_ahead (s : State) (k : Nat) : (s.setDone k).ahead = s.ahead := rfl
@[simp] theorem setDone_breakHit (s : State) (k : Nat) : (s.setDone k).breakHit = s.breakHit := rfl
@[simp] theorem setDone_event (s : State) (k : Nat) : (s.setDone k).event = s.event := rfl

@[simp] theorem blkMore_regs (s : State) : (s.blkMore).regs = s.regs := rfl
@[simp] theorem blkMore_pc (s : State) : (s.blkMore).pc = s.pc := rfl
@[simp] theorem blkMore_sp0 (s : State) : (s.blkMore).sp0 = s.sp0 := rfl
@[simp] theorem blkMore_sp1 (s : State) : (s.blkMore).sp1 = s.sp1 := rfl
@[simp] theorem blkMore_gp (s : State) : (s.blkMore).gp = s.gp := rfl
@[simp] theorem blkMore_vp (s : State) : (s.blkMore).vp = s.vp := rfl
@[simp] theorem blkMore_flags (s : State) : (s.blkMore).flags = s.flags := rfl
@[simp] theorem blkMore_info (s : State) : (s.blkMore).info = s.info := rfl
@[simp] theorem blkMore_brke (s : State) : (s.blkMore).brke = s.brke := rfl
@[simp] theorem blkMore_brk0 (s : State) : (s.blkMore).brk0 = s.brk0 := rfl
@[simp] theorem blkMore_brk1 (s : State) : (s.blkMore).brk1 = s.brk1 := rfl
@[simp] theorem blkMore_brk2 (s : State) : (s.blkMore).brk2 = s.brk2 := rfl
@[simp] theorem blkMore_brk3 (s : State) : (s.blkMore).brk3 = s.brk3 := rfl
@[simp] theorem blkMore_exe (s : State) : (s.blkMore).exe = s.exe := rfl
@[simp] theorem blkMore_runToBreak (s : State) : (s.blkMore).runToBreak = s.runToBreak := rfl
@[simp] theorem blkMore_mem (s : State) : (s.blkMore).mem = s.mem := rfl
@[simp] theorem blkMore_params (s : State) : (s.blkMore).params = s.params := rfl
@[simp] theorem blkMore_env (s : State) : (s.blkMore).env = s.env := rfl
@[simp] theorem blkMore_mmu (s : State) : (s.blkMore).mmu = s.mmu := rfl
@[simp] theorem blkMore_map (s : State) : (s.blkMore).map = s.map := rfl
@[simp] theorem blkMore_devices (s : State) : (s.blkMore).devices = s.devices := rfl
@[simp] theorem blkMore_devState (s : State) : (s.blkMore).devState = s.devState := rfl
@[simp] theorem blkMore_stale (s : State) : (s.blkMore).stale = s.stale := rfl
@[simp] theorem blkMore_cluFitted (s : State) : (s.blkMore).cluFitted = s.cluFitted := rfl
@[simp] theorem blkMore_clu (s : State) : (s.blkMore).clu = s.clu := rfl
@[simp] theorem blkMore_cluState (s : State) : (s.blkMore).cluState = s.cluState := rfl
@[simp] theorem blkMore_cluSent (s : State) : (s.blkMore).cluSent = s.cluSent := rfl
@[simp] theorem blkMore_freeNext (s : State) : (s.blkMore).freeNext = s.freeNext := rfl
@[simp] theorem blkMore_blkRun (s : State) : (s.blkMore).blkRun = s.blkRun + 1 := rfl
@[simp] theorem blkMore_ahead (s : State) : (s.blkMore).ahead = s.ahead := rfl
@[simp] theorem blkMore_breakHit (s : State) : (s.blkMore).breakHit = s.breakHit := rfl
@[simp] theorem blkMore_event (s : State) : (s.blkMore).event = s.event := rfl

@[simp] theorem drawReg_regs (s : State) (r : Reg) : (s.drawReg r).regs = s.regs.set r (Config.freeWord s.freeNext) := rfl
@[simp] theorem drawReg_pc (s : State) (r : Reg) : (s.drawReg r).pc = s.pc := rfl
@[simp] theorem drawReg_sp0 (s : State) (r : Reg) : (s.drawReg r).sp0 = s.sp0 := rfl
@[simp] theorem drawReg_sp1 (s : State) (r : Reg) : (s.drawReg r).sp1 = s.sp1 := rfl
@[simp] theorem drawReg_gp (s : State) (r : Reg) : (s.drawReg r).gp = s.gp := rfl
@[simp] theorem drawReg_vp (s : State) (r : Reg) : (s.drawReg r).vp = s.vp := rfl
@[simp] theorem drawReg_flags (s : State) (r : Reg) : (s.drawReg r).flags = s.flags := rfl
@[simp] theorem drawReg_info (s : State) (r : Reg) : (s.drawReg r).info = s.info := rfl
@[simp] theorem drawReg_brke (s : State) (r : Reg) : (s.drawReg r).brke = s.brke := rfl
@[simp] theorem drawReg_brk0 (s : State) (r : Reg) : (s.drawReg r).brk0 = s.brk0 := rfl
@[simp] theorem drawReg_brk1 (s : State) (r : Reg) : (s.drawReg r).brk1 = s.brk1 := rfl
@[simp] theorem drawReg_brk2 (s : State) (r : Reg) : (s.drawReg r).brk2 = s.brk2 := rfl
@[simp] theorem drawReg_brk3 (s : State) (r : Reg) : (s.drawReg r).brk3 = s.brk3 := rfl
@[simp] theorem drawReg_exe (s : State) (r : Reg) : (s.drawReg r).exe = s.exe := rfl
@[simp] theorem drawReg_runToBreak (s : State) (r : Reg) : (s.drawReg r).runToBreak = s.runToBreak := rfl
@[simp] theorem drawReg_mem (s : State) (r : Reg) : (s.drawReg r).mem = s.mem := rfl
@[simp] theorem drawReg_params (s : State) (r : Reg) : (s.drawReg r).params = s.params := rfl
@[simp] theorem drawReg_env (s : State) (r : Reg) : (s.drawReg r).env = s.env := rfl
@[simp] theorem drawReg_mmu (s : State) (r : Reg) : (s.drawReg r).mmu = s.mmu := rfl
@[simp] theorem drawReg_map (s : State) (r : Reg) : (s.drawReg r).map = s.map := rfl
@[simp] theorem drawReg_devices (s : State) (r : Reg) : (s.drawReg r).devices = s.devices := rfl
@[simp] theorem drawReg_devState (s : State) (r : Reg) : (s.drawReg r).devState = s.devState := rfl
@[simp] theorem drawReg_stale (s : State) (r : Reg) : (s.drawReg r).stale = s.stale := rfl
@[simp] theorem drawReg_cluFitted (s : State) (r : Reg) : (s.drawReg r).cluFitted = s.cluFitted := rfl
@[simp] theorem drawReg_clu (s : State) (r : Reg) : (s.drawReg r).clu = s.clu := rfl
@[simp] theorem drawReg_cluState (s : State) (r : Reg) : (s.drawReg r).cluState = s.cluState := rfl
@[simp] theorem drawReg_cluSent (s : State) (r : Reg) : (s.drawReg r).cluSent = s.cluSent := rfl
@[simp] theorem drawReg_freeNext (s : State) (r : Reg) : (s.drawReg r).freeNext = s.freeNext + 1 := rfl
@[simp] theorem drawReg_blkRun (s : State) (r : Reg) : (s.drawReg r).blkRun = s.blkRun := rfl
@[simp] theorem drawReg_ahead (s : State) (r : Reg) : (s.drawReg r).ahead = s.ahead := rfl
@[simp] theorem drawReg_breakHit (s : State) (r : Reg) : (s.drawReg r).breakHit = s.breakHit := rfl
@[simp] theorem drawReg_event (s : State) (r : Reg) : (s.drawReg r).event = s.event := rfl

@[simp] theorem cluTaken_regs (s : State) (q : CluRequest) : (s.cluTaken q).regs = s.regs := rfl
@[simp] theorem cluTaken_pc (s : State) (q : CluRequest) : (s.cluTaken q).pc = s.pc := rfl
@[simp] theorem cluTaken_sp0 (s : State) (q : CluRequest) : (s.cluTaken q).sp0 = s.sp0 := rfl
@[simp] theorem cluTaken_sp1 (s : State) (q : CluRequest) : (s.cluTaken q).sp1 = s.sp1 := rfl
@[simp] theorem cluTaken_gp (s : State) (q : CluRequest) : (s.cluTaken q).gp = s.gp := rfl
@[simp] theorem cluTaken_vp (s : State) (q : CluRequest) : (s.cluTaken q).vp = s.vp := rfl
@[simp] theorem cluTaken_flags (s : State) (q : CluRequest) : (s.cluTaken q).flags = s.flags := rfl
@[simp] theorem cluTaken_info (s : State) (q : CluRequest) : (s.cluTaken q).info = s.info := rfl
@[simp] theorem cluTaken_brke (s : State) (q : CluRequest) : (s.cluTaken q).brke = s.brke := rfl
@[simp] theorem cluTaken_brk0 (s : State) (q : CluRequest) : (s.cluTaken q).brk0 = s.brk0 := rfl
@[simp] theorem cluTaken_brk1 (s : State) (q : CluRequest) : (s.cluTaken q).brk1 = s.brk1 := rfl
@[simp] theorem cluTaken_brk2 (s : State) (q : CluRequest) : (s.cluTaken q).brk2 = s.brk2 := rfl
@[simp] theorem cluTaken_brk3 (s : State) (q : CluRequest) : (s.cluTaken q).brk3 = s.brk3 := rfl
@[simp] theorem cluTaken_exe (s : State) (q : CluRequest) : (s.cluTaken q).exe = s.exe := rfl
@[simp] theorem cluTaken_runToBreak (s : State) (q : CluRequest) : (s.cluTaken q).runToBreak = s.runToBreak := rfl
@[simp] theorem cluTaken_mem (s : State) (q : CluRequest) : (s.cluTaken q).mem = s.mem := rfl
@[simp] theorem cluTaken_params (s : State) (q : CluRequest) : (s.cluTaken q).params = s.params := rfl
@[simp] theorem cluTaken_env (s : State) (q : CluRequest) : (s.cluTaken q).env = s.env := rfl
@[simp] theorem cluTaken_mmu (s : State) (q : CluRequest) : (s.cluTaken q).mmu = s.mmu := rfl
@[simp] theorem cluTaken_map (s : State) (q : CluRequest) : (s.cluTaken q).map = s.map := rfl
@[simp] theorem cluTaken_devices (s : State) (q : CluRequest) : (s.cluTaken q).devices = s.devices := rfl
@[simp] theorem cluTaken_devState (s : State) (q : CluRequest) : (s.cluTaken q).devState = s.devState := rfl
@[simp] theorem cluTaken_stale (s : State) (q : CluRequest) : (s.cluTaken q).stale = s.stale := rfl
@[simp] theorem cluTaken_cluFitted (s : State) (q : CluRequest) : (s.cluTaken q).cluFitted = s.cluFitted := rfl
@[simp] theorem cluTaken_clu (s : State) (q : CluRequest) : (s.cluTaken q).clu = s.clu := rfl
@[simp] theorem cluTaken_cluState (s : State) (q : CluRequest) : (s.cluTaken q).cluState = (if s.cluFitted then (cluFunction s.clu s.cluState q).2 else s.cluState) := rfl
@[simp] theorem cluTaken_cluSent (s : State) (q : CluRequest) : (s.cluTaken q).cluSent = some q := rfl
@[simp] theorem cluTaken_freeNext (s : State) (q : CluRequest) : (s.cluTaken q).freeNext = s.freeNext := rfl
@[simp] theorem cluTaken_blkRun (s : State) (q : CluRequest) : (s.cluTaken q).blkRun = s.blkRun := rfl
@[simp] theorem cluTaken_ahead (s : State) (q : CluRequest) : (s.cluTaken q).ahead = s.ahead := rfl
@[simp] theorem cluTaken_breakHit (s : State) (q : CluRequest) : (s.cluTaken q).breakHit = s.breakHit := rfl
@[simp] theorem cluTaken_event (s : State) (q : CluRequest) : (s.cluTaken q).event = s.event := rfl

@[simp] theorem setSp_regs (s : State) (v : Word) : (s.setSp v).regs = s.regs := by
  unfold State.setSp; split <;> rfl
@[simp] theorem setSp_pc (s : State) (v : Word) : (s.setSp v).pc = s.pc := by
  unfold State.setSp; split <;> rfl
@[simp] theorem setSp_gp (s : State) (v : Word) : (s.setSp v).gp = s.gp := by
  unfold State.setSp; split <;> rfl
@[simp] theorem setSp_vp (s : State) (v : Word) : (s.setSp v).vp = s.vp := by
  unfold State.setSp; split <;> rfl
@[simp] theorem setSp_flags (s : State) (v : Word) : (s.setSp v).flags = s.flags := by
  unfold State.setSp; split <;> rfl
@[simp] theorem setSp_info (s : State) (v : Word) : (s.setSp v).info = s.info := by
  unfold State.setSp; split <;> rfl
@[simp] theorem setSp_brke (s : State) (v : Word) : (s.setSp v).brke = s.brke := by
  unfold State.setSp; split <;> rfl
@[simp] theorem setSp_brk0 (s : State) (v : Word) : (s.setSp v).brk0 = s.brk0 := by
  unfold State.setSp; split <;> rfl
@[simp] theorem setSp_brk1 (s : State) (v : Word) : (s.setSp v).brk1 = s.brk1 := by
  unfold State.setSp; split <;> rfl
@[simp] theorem setSp_brk2 (s : State) (v : Word) : (s.setSp v).brk2 = s.brk2 := by
  unfold State.setSp; split <;> rfl
@[simp] theorem setSp_brk3 (s : State) (v : Word) : (s.setSp v).brk3 = s.brk3 := by
  unfold State.setSp; split <;> rfl
@[simp] theorem setSp_exe (s : State) (v : Word) : (s.setSp v).exe = s.exe := by
  unfold State.setSp; split <;> rfl
@[simp] theorem setSp_runToBreak (s : State) (v : Word) : (s.setSp v).runToBreak = s.runToBreak := by
  unfold State.setSp; split <;> rfl
@[simp] theorem setSp_mem (s : State) (v : Word) : (s.setSp v).mem = s.mem := by
  unfold State.setSp; split <;> rfl
@[simp] theorem setSp_params (s : State) (v : Word) : (s.setSp v).params = s.params := by
  unfold State.setSp; split <;> rfl
@[simp] theorem setSp_env (s : State) (v : Word) : (s.setSp v).env = s.env := by
  unfold State.setSp; split <;> rfl
@[simp] theorem setSp_mmu (s : State) (v : Word) : (s.setSp v).mmu = s.mmu := by
  unfold State.setSp; split <;> rfl
@[simp] theorem setSp_map (s : State) (v : Word) : (s.setSp v).map = s.map := by
  unfold State.setSp; split <;> rfl
@[simp] theorem setSp_devices (s : State) (v : Word) : (s.setSp v).devices = s.devices := by
  unfold State.setSp; split <;> rfl
@[simp] theorem setSp_devState (s : State) (v : Word) : (s.setSp v).devState = s.devState := by
  unfold State.setSp; split <;> rfl
@[simp] theorem setSp_stale (s : State) (v : Word) : (s.setSp v).stale = s.stale := by
  unfold State.setSp; split <;> rfl
@[simp] theorem setSp_cluFitted (s : State) (v : Word) : (s.setSp v).cluFitted = s.cluFitted := by
  unfold State.setSp; split <;> rfl
@[simp] theorem setSp_clu (s : State) (v : Word) : (s.setSp v).clu = s.clu := by
  unfold State.setSp; split <;> rfl
@[simp] theorem setSp_cluState (s : State) (v : Word) : (s.setSp v).cluState = s.cluState := by
  unfold State.setSp; split <;> rfl
@[simp] theorem setSp_cluSent (s : State) (v : Word) : (s.setSp v).cluSent = s.cluSent := by
  unfold State.setSp; split <;> rfl
@[simp] theorem setSp_freeNext (s : State) (v : Word) : (s.setSp v).freeNext = s.freeNext := by
  unfold State.setSp; split <;> rfl
@[simp] theorem setSp_blkRun (s : State) (v : Word) : (s.setSp v).blkRun = s.blkRun := by
  unfold State.setSp; split <;> rfl
@[simp] theorem setSp_ahead (s : State) (v : Word) : (s.setSp v).ahead = s.ahead := by
  unfold State.setSp; split <;> rfl
@[simp] theorem setSp_breakHit (s : State) (v : Word) : (s.setSp v).breakHit = s.breakHit := by
  unfold State.setSp; split <;> rfl
@[simp] theorem setSp_event (s : State) (v : Word) : (s.setSp v).event = s.event := by
  unfold State.setSp; split <;> rfl

@[simp] theorem flagsUsed_regs (s : State) : s.flagsUsed.regs = s.regs := by
  unfold State.flagsUsed freeUsed; split <;> rfl
@[simp] theorem flagsUsed_pc (s : State) : s.flagsUsed.pc = s.pc := by
  unfold State.flagsUsed freeUsed; split <;> rfl
@[simp] theorem flagsUsed_sp0 (s : State) : s.flagsUsed.sp0 = s.sp0 := by
  unfold State.flagsUsed freeUsed; split <;> rfl
@[simp] theorem flagsUsed_sp1 (s : State) : s.flagsUsed.sp1 = s.sp1 := by
  unfold State.flagsUsed freeUsed; split <;> rfl
@[simp] theorem flagsUsed_gp (s : State) : s.flagsUsed.gp = s.gp := by
  unfold State.flagsUsed freeUsed; split <;> rfl
@[simp] theorem flagsUsed_vp (s : State) : s.flagsUsed.vp = s.vp := by
  unfold State.flagsUsed freeUsed; split <;> rfl
@[simp] theorem flagsUsed_flags (s : State) : s.flagsUsed.flags = s.flags := by
  unfold State.flagsUsed freeUsed; split <;> rfl
@[simp] theorem flagsUsed_info (s : State) : s.flagsUsed.info = s.info := by
  unfold State.flagsUsed freeUsed; split <;> rfl
@[simp] theorem flagsUsed_brke (s : State) : s.flagsUsed.brke = s.brke := by
  unfold State.flagsUsed freeUsed; split <;> rfl
@[simp] theorem flagsUsed_brk0 (s : State) : s.flagsUsed.brk0 = s.brk0 := by
  unfold State.flagsUsed freeUsed; split <;> rfl
@[simp] theorem flagsUsed_brk1 (s : State) : s.flagsUsed.brk1 = s.brk1 := by
  unfold State.flagsUsed freeUsed; split <;> rfl
@[simp] theorem flagsUsed_brk2 (s : State) : s.flagsUsed.brk2 = s.brk2 := by
  unfold State.flagsUsed freeUsed; split <;> rfl
@[simp] theorem flagsUsed_brk3 (s : State) : s.flagsUsed.brk3 = s.brk3 := by
  unfold State.flagsUsed freeUsed; split <;> rfl
@[simp] theorem flagsUsed_exe (s : State) : s.flagsUsed.exe = s.exe := by
  unfold State.flagsUsed freeUsed; split <;> rfl
@[simp] theorem flagsUsed_runToBreak (s : State) : s.flagsUsed.runToBreak = s.runToBreak := by
  unfold State.flagsUsed freeUsed; split <;> rfl
@[simp] theorem flagsUsed_mem (s : State) : s.flagsUsed.mem = s.mem := by
  unfold State.flagsUsed freeUsed; split <;> rfl
@[simp] theorem flagsUsed_params (s : State) : s.flagsUsed.params = s.params := by
  unfold State.flagsUsed freeUsed; split <;> rfl
@[simp] theorem flagsUsed_env (s : State) : s.flagsUsed.env = s.env := by
  unfold State.flagsUsed freeUsed; split <;> rfl
@[simp] theorem flagsUsed_mmu (s : State) : s.flagsUsed.mmu = s.mmu := by
  unfold State.flagsUsed freeUsed; split <;> rfl
@[simp] theorem flagsUsed_map (s : State) : s.flagsUsed.map = s.map := by
  unfold State.flagsUsed freeUsed; split <;> rfl
@[simp] theorem flagsUsed_devices (s : State) : s.flagsUsed.devices = s.devices := by
  unfold State.flagsUsed freeUsed; split <;> rfl
@[simp] theorem flagsUsed_devState (s : State) : s.flagsUsed.devState = s.devState := by
  unfold State.flagsUsed freeUsed; split <;> rfl
@[simp] theorem flagsUsed_stale (s : State) : s.flagsUsed.stale = s.stale := by
  unfold State.flagsUsed freeUsed; split <;> rfl
@[simp] theorem flagsUsed_cluFitted (s : State) : s.flagsUsed.cluFitted = s.cluFitted := by
  unfold State.flagsUsed freeUsed; split <;> rfl
@[simp] theorem flagsUsed_clu (s : State) : s.flagsUsed.clu = s.clu := by
  unfold State.flagsUsed freeUsed; split <;> rfl
@[simp] theorem flagsUsed_cluState (s : State) : s.flagsUsed.cluState = s.cluState := by
  unfold State.flagsUsed freeUsed; split <;> rfl
@[simp] theorem flagsUsed_cluSent (s : State) : s.flagsUsed.cluSent = s.cluSent := by
  unfold State.flagsUsed freeUsed; split <;> rfl
@[simp] theorem flagsUsed_blkRun (s : State) : s.flagsUsed.blkRun = s.blkRun := by
  unfold State.flagsUsed freeUsed; split <;> rfl
@[simp] theorem flagsUsed_ahead (s : State) : s.flagsUsed.ahead = s.ahead := by
  unfold State.flagsUsed freeUsed; split <;> rfl
@[simp] theorem flagsUsed_breakHit (s : State) : s.flagsUsed.breakHit = s.breakHit := by
  unfold State.flagsUsed freeUsed; split <;> rfl
@[simp] theorem flagsUsed_event (s : State) : s.flagsUsed.event = s.event := by
  unfold State.flagsUsed freeUsed; split <;> rfl

@[simp] theorem brkeUsed_regs (s : State) : s.brkeUsed.regs = s.regs := by
  unfold State.brkeUsed freeUsed; split <;> rfl
@[simp] theorem brkeUsed_pc (s : State) : s.brkeUsed.pc = s.pc := by
  unfold State.brkeUsed freeUsed; split <;> rfl
@[simp] theorem brkeUsed_sp0 (s : State) : s.brkeUsed.sp0 = s.sp0 := by
  unfold State.brkeUsed freeUsed; split <;> rfl
@[simp] theorem brkeUsed_sp1 (s : State) : s.brkeUsed.sp1 = s.sp1 := by
  unfold State.brkeUsed freeUsed; split <;> rfl
@[simp] theorem brkeUsed_gp (s : State) : s.brkeUsed.gp = s.gp := by
  unfold State.brkeUsed freeUsed; split <;> rfl
@[simp] theorem brkeUsed_vp (s : State) : s.brkeUsed.vp = s.vp := by
  unfold State.brkeUsed freeUsed; split <;> rfl
@[simp] theorem brkeUsed_flags (s : State) : s.brkeUsed.flags = s.flags := by
  unfold State.brkeUsed freeUsed; split <;> rfl
@[simp] theorem brkeUsed_info (s : State) : s.brkeUsed.info = s.info := by
  unfold State.brkeUsed freeUsed; split <;> rfl
@[simp] theorem brkeUsed_brke (s : State) : s.brkeUsed.brke = s.brke := by
  unfold State.brkeUsed freeUsed; split <;> rfl
@[simp] theorem brkeUsed_brk0 (s : State) : s.brkeUsed.brk0 = s.brk0 := by
  unfold State.brkeUsed freeUsed; split <;> rfl
@[simp] theorem brkeUsed_brk1 (s : State) : s.brkeUsed.brk1 = s.brk1 := by
  unfold State.brkeUsed freeUsed; split <;> rfl
@[simp] theorem brkeUsed_brk2 (s : State) : s.brkeUsed.brk2 = s.brk2 := by
  unfold State.brkeUsed freeUsed; split <;> rfl
@[simp] theorem brkeUsed_brk3 (s : State) : s.brkeUsed.brk3 = s.brk3 := by
  unfold State.brkeUsed freeUsed; split <;> rfl
@[simp] theorem brkeUsed_exe (s : State) : s.brkeUsed.exe = s.exe := by
  unfold State.brkeUsed freeUsed; split <;> rfl
@[simp] theorem brkeUsed_runToBreak (s : State) : s.brkeUsed.runToBreak = s.runToBreak := by
  unfold State.brkeUsed freeUsed; split <;> rfl
@[simp] theorem brkeUsed_mem (s : State) : s.brkeUsed.mem = s.mem := by
  unfold State.brkeUsed freeUsed; split <;> rfl
@[simp] theorem brkeUsed_params (s : State) : s.brkeUsed.params = s.params := by
  unfold State.brkeUsed freeUsed; split <;> rfl
@[simp] theorem brkeUsed_env (s : State) : s.brkeUsed.env = s.env := by
  unfold State.brkeUsed freeUsed; split <;> rfl
@[simp] theorem brkeUsed_mmu (s : State) : s.brkeUsed.mmu = s.mmu := by
  unfold State.brkeUsed freeUsed; split <;> rfl
@[simp] theorem brkeUsed_map (s : State) : s.brkeUsed.map = s.map := by
  unfold State.brkeUsed freeUsed; split <;> rfl
@[simp] theorem brkeUsed_devices (s : State) : s.brkeUsed.devices = s.devices := by
  unfold State.brkeUsed freeUsed; split <;> rfl
@[simp] theorem brkeUsed_devState (s : State) : s.brkeUsed.devState = s.devState := by
  unfold State.brkeUsed freeUsed; split <;> rfl
@[simp] theorem brkeUsed_stale (s : State) : s.brkeUsed.stale = s.stale := by
  unfold State.brkeUsed freeUsed; split <;> rfl
@[simp] theorem brkeUsed_cluFitted (s : State) : s.brkeUsed.cluFitted = s.cluFitted := by
  unfold State.brkeUsed freeUsed; split <;> rfl
@[simp] theorem brkeUsed_clu (s : State) : s.brkeUsed.clu = s.clu := by
  unfold State.brkeUsed freeUsed; split <;> rfl
@[simp] theorem brkeUsed_cluState (s : State) : s.brkeUsed.cluState = s.cluState := by
  unfold State.brkeUsed freeUsed; split <;> rfl
@[simp] theorem brkeUsed_cluSent (s : State) : s.brkeUsed.cluSent = s.cluSent := by
  unfold State.brkeUsed freeUsed; split <;> rfl
@[simp] theorem brkeUsed_blkRun (s : State) : s.brkeUsed.blkRun = s.blkRun := by
  unfold State.brkeUsed freeUsed; split <;> rfl
@[simp] theorem brkeUsed_ahead (s : State) : s.brkeUsed.ahead = s.ahead := by
  unfold State.brkeUsed freeUsed; split <;> rfl
@[simp] theorem brkeUsed_breakHit (s : State) : s.brkeUsed.breakHit = s.breakHit := by
  unfold State.brkeUsed freeUsed; split <;> rfl
@[simp] theorem brkeUsed_event (s : State) : s.brkeUsed.event = s.event := by
  unfold State.brkeUsed freeUsed; split <;> rfl

@[simp] theorem copyDrawn_regs (s : State) (d : Bool) : (s.copyDrawn d).regs = s.regs := by
  unfold State.copyDrawn; split <;> rfl
@[simp] theorem copyDrawn_pc (s : State) (d : Bool) : (s.copyDrawn d).pc = s.pc := by
  unfold State.copyDrawn; split <;> rfl
@[simp] theorem copyDrawn_sp0 (s : State) (d : Bool) : (s.copyDrawn d).sp0 = s.sp0 := by
  unfold State.copyDrawn; split <;> rfl
@[simp] theorem copyDrawn_sp1 (s : State) (d : Bool) : (s.copyDrawn d).sp1 = s.sp1 := by
  unfold State.copyDrawn; split <;> rfl
@[simp] theorem copyDrawn_gp (s : State) (d : Bool) : (s.copyDrawn d).gp = s.gp := by
  unfold State.copyDrawn; split <;> rfl
@[simp] theorem copyDrawn_vp (s : State) (d : Bool) : (s.copyDrawn d).vp = s.vp := by
  unfold State.copyDrawn; split <;> rfl
@[simp] theorem copyDrawn_flags (s : State) (d : Bool) : (s.copyDrawn d).flags = s.flags := by
  unfold State.copyDrawn; split <;> rfl
@[simp] theorem copyDrawn_info (s : State) (d : Bool) : (s.copyDrawn d).info = s.info := by
  unfold State.copyDrawn; split <;> rfl
@[simp] theorem copyDrawn_brke (s : State) (d : Bool) : (s.copyDrawn d).brke = s.brke := by
  unfold State.copyDrawn; split <;> rfl
@[simp] theorem copyDrawn_brk0 (s : State) (d : Bool) : (s.copyDrawn d).brk0 = s.brk0 := by
  unfold State.copyDrawn; split <;> rfl
@[simp] theorem copyDrawn_brk1 (s : State) (d : Bool) : (s.copyDrawn d).brk1 = s.brk1 := by
  unfold State.copyDrawn; split <;> rfl
@[simp] theorem copyDrawn_brk2 (s : State) (d : Bool) : (s.copyDrawn d).brk2 = s.brk2 := by
  unfold State.copyDrawn; split <;> rfl
@[simp] theorem copyDrawn_brk3 (s : State) (d : Bool) : (s.copyDrawn d).brk3 = s.brk3 := by
  unfold State.copyDrawn; split <;> rfl
@[simp] theorem copyDrawn_exe (s : State) (d : Bool) : (s.copyDrawn d).exe = s.exe := by
  unfold State.copyDrawn; split <;> rfl
@[simp] theorem copyDrawn_runToBreak (s : State) (d : Bool) : (s.copyDrawn d).runToBreak = s.runToBreak := by
  unfold State.copyDrawn; split <;> rfl
@[simp] theorem copyDrawn_mem (s : State) (d : Bool) : (s.copyDrawn d).mem = s.mem := by
  unfold State.copyDrawn; split <;> rfl
@[simp] theorem copyDrawn_params (s : State) (d : Bool) : (s.copyDrawn d).params = s.params := by
  unfold State.copyDrawn; split <;> rfl
@[simp] theorem copyDrawn_env (s : State) (d : Bool) : (s.copyDrawn d).env = s.env := by
  unfold State.copyDrawn; split <;> rfl
@[simp] theorem copyDrawn_mmu (s : State) (d : Bool) : (s.copyDrawn d).mmu = s.mmu := by
  unfold State.copyDrawn; split <;> rfl
@[simp] theorem copyDrawn_map (s : State) (d : Bool) : (s.copyDrawn d).map = s.map := by
  unfold State.copyDrawn; split <;> rfl
@[simp] theorem copyDrawn_devices (s : State) (d : Bool) : (s.copyDrawn d).devices = s.devices := by
  unfold State.copyDrawn; split <;> rfl
@[simp] theorem copyDrawn_devState (s : State) (d : Bool) : (s.copyDrawn d).devState = s.devState := by
  unfold State.copyDrawn; split <;> rfl
@[simp] theorem copyDrawn_stale (s : State) (d : Bool) : (s.copyDrawn d).stale = s.stale := by
  unfold State.copyDrawn; split <;> rfl
@[simp] theorem copyDrawn_cluFitted (s : State) (d : Bool) : (s.copyDrawn d).cluFitted = s.cluFitted := by
  unfold State.copyDrawn; split <;> rfl
@[simp] theorem copyDrawn_clu (s : State) (d : Bool) : (s.copyDrawn d).clu = s.clu := by
  unfold State.copyDrawn; split <;> rfl
@[simp] theorem copyDrawn_cluState (s : State) (d : Bool) : (s.copyDrawn d).cluState = s.cluState := by
  unfold State.copyDrawn; split <;> rfl
@[simp] theorem copyDrawn_cluSent (s : State) (d : Bool) : (s.copyDrawn d).cluSent = s.cluSent := by
  unfold State.copyDrawn; split <;> rfl
@[simp] theorem copyDrawn_blkRun (s : State) (d : Bool) : (s.copyDrawn d).blkRun = s.blkRun := by
  unfold State.copyDrawn; split <;> rfl
@[simp] theorem copyDrawn_ahead (s : State) (d : Bool) : (s.copyDrawn d).ahead = s.ahead := by
  unfold State.copyDrawn; split <;> rfl
@[simp] theorem copyDrawn_breakHit (s : State) (d : Bool) : (s.copyDrawn d).breakHit = s.breakHit := by
  unfold State.copyDrawn; split <;> rfl
@[simp] theorem copyDrawn_event (s : State) (d : Bool) : (s.copyDrawn d).event = s.event := by
  unfold State.copyDrawn; split <;> rfl

@[simp] theorem sourced_pc (s : State) (x : BlkSrc) : (s.sourced x).pc = s.pc := by
  cases x <;> rfl
@[simp] theorem sourced_sp0 (s : State) (x : BlkSrc) : (s.sourced x).sp0 = s.sp0 := by
  cases x <;> rfl
@[simp] theorem sourced_sp1 (s : State) (x : BlkSrc) : (s.sourced x).sp1 = s.sp1 := by
  cases x <;> rfl
@[simp] theorem sourced_gp (s : State) (x : BlkSrc) : (s.sourced x).gp = s.gp := by
  cases x <;> rfl
@[simp] theorem sourced_vp (s : State) (x : BlkSrc) : (s.sourced x).vp = s.vp := by
  cases x <;> rfl
@[simp] theorem sourced_flags (s : State) (x : BlkSrc) : (s.sourced x).flags = s.flags := by
  cases x <;> rfl
@[simp] theorem sourced_info (s : State) (x : BlkSrc) : (s.sourced x).info = s.info := by
  cases x <;> rfl
@[simp] theorem sourced_brke (s : State) (x : BlkSrc) : (s.sourced x).brke = s.brke := by
  cases x <;> rfl
@[simp] theorem sourced_brk0 (s : State) (x : BlkSrc) : (s.sourced x).brk0 = s.brk0 := by
  cases x <;> rfl
@[simp] theorem sourced_brk1 (s : State) (x : BlkSrc) : (s.sourced x).brk1 = s.brk1 := by
  cases x <;> rfl
@[simp] theorem sourced_brk2 (s : State) (x : BlkSrc) : (s.sourced x).brk2 = s.brk2 := by
  cases x <;> rfl
@[simp] theorem sourced_brk3 (s : State) (x : BlkSrc) : (s.sourced x).brk3 = s.brk3 := by
  cases x <;> rfl
@[simp] theorem sourced_exe (s : State) (x : BlkSrc) : (s.sourced x).exe = s.exe := by
  cases x <;> rfl
@[simp] theorem sourced_runToBreak (s : State) (x : BlkSrc) : (s.sourced x).runToBreak = s.runToBreak := by
  cases x <;> rfl
@[simp] theorem sourced_mem (s : State) (x : BlkSrc) : (s.sourced x).mem = s.mem := by
  cases x <;> rfl
@[simp] theorem sourced_params (s : State) (x : BlkSrc) : (s.sourced x).params = s.params := by
  cases x <;> rfl
@[simp] theorem sourced_env (s : State) (x : BlkSrc) : (s.sourced x).env = s.env := by
  cases x <;> rfl
@[simp] theorem sourced_mmu (s : State) (x : BlkSrc) : (s.sourced x).mmu = s.mmu := by
  cases x <;> rfl
@[simp] theorem sourced_map (s : State) (x : BlkSrc) : (s.sourced x).map = s.map := by
  cases x <;> rfl
@[simp] theorem sourced_devices (s : State) (x : BlkSrc) : (s.sourced x).devices = s.devices := by
  cases x <;> rfl
@[simp] theorem sourced_devState (s : State) (x : BlkSrc) : (s.sourced x).devState = s.devState := by
  cases x <;> rfl
@[simp] theorem sourced_stale (s : State) (x : BlkSrc) : (s.sourced x).stale = s.stale := by
  cases x <;> rfl
@[simp] theorem sourced_cluFitted (s : State) (x : BlkSrc) : (s.sourced x).cluFitted = s.cluFitted := by
  cases x <;> rfl
@[simp] theorem sourced_clu (s : State) (x : BlkSrc) : (s.sourced x).clu = s.clu := by
  cases x <;> rfl
@[simp] theorem sourced_cluState (s : State) (x : BlkSrc) : (s.sourced x).cluState = s.cluState := by
  cases x <;> rfl
@[simp] theorem sourced_cluSent (s : State) (x : BlkSrc) : (s.sourced x).cluSent = s.cluSent := by
  cases x <;> rfl
@[simp] theorem sourced_freeNext (s : State) (x : BlkSrc) : (s.sourced x).freeNext = s.freeNext := by
  cases x <;> rfl
@[simp] theorem sourced_blkRun (s : State) (x : BlkSrc) : (s.sourced x).blkRun = s.blkRun := by
  cases x <;> rfl
@[simp] theorem sourced_ahead (s : State) (x : BlkSrc) : (s.sourced x).ahead = s.ahead := by
  cases x <;> rfl
@[simp] theorem sourced_breakHit (s : State) (x : BlkSrc) : (s.sourced x).breakHit = s.breakHit := by
  cases x <;> rfl
@[simp] theorem sourced_event (s : State) (x : BlkSrc) : (s.sourced x).event = s.event := by
  cases x <;> rfl

/-! ### Registers -/

@[simp] theorem get_set_same (g : Regs) (r : Reg) (v : Word) : (g.set r v).get r = v := by
  cases r <;> rfl

theorem get_set_other (g : Regs) (r q : Reg) (v : Word) (h : q ≠ r) :
    (g.set r v).get q = g.get q := by
  cases r <;> cases q <;> first | rfl | exact absurd rfl h

@[simp] theorem reg_setReg_same (s : State) (r : Reg) (v : Word) : (s.setReg r v).reg r = v :=
  get_set_same s.regs r v

theorem reg_setReg_other (s : State) (r q : Reg) (v : Word) (h : q ≠ r) :
    (s.setReg r v).reg q = s.reg q := get_set_other s.regs r q v h

@[simp] theorem reg_result_same (s : State) (r : Reg) (v f : Word) : (s.result r v f).reg r = v :=
  get_set_same s.regs r v

theorem reg_result_other (s : State) (r q : Reg) (v f : Word) (h : q ≠ r) :
    (s.result r v f).reg q = s.reg q := get_set_other s.regs r q v h

@[simp] theorem reg_advance (s : State) (n : Word) (r : Reg) : (s.advance n).reg r = s.reg r := rfl

@[simp] theorem reg_setFlags (s : State) (f : Word) (r : Reg) : (s.setFlags f).reg r = s.reg r :=
  rfl

@[simp] theorem reg_setS (s : State) (k : Nat) (r : Reg) : (s.setS k).reg r = s.reg r := rfl

@[simp] theorem reg_setDone (s : State) (k : Nat) (r : Reg) : (s.setDone k).reg r = s.reg r := rfl

@[simp] theorem reg_blkMore (s : State) (r : Reg) : s.blkMore.reg r = s.reg r := rfl

@[simp] theorem reg_accessed (s : State) (k : AccessKind) (w : Width) (a : Word) (r : Reg) :
    (s.accessed k w a).reg r = s.reg r := rfl

@[simp] theorem reg_cluTaken (s : State) (q : CluRequest) (r : Reg) :
    (s.cluTaken q).reg r = s.reg r := rfl

@[simp] theorem reg_setSp (s : State) (v : Word) (r : Reg) : (s.setSp v).reg r = s.reg r := by
  simp [State.reg]

@[simp] theorem reg_flagsUsed (s : State) (r : Reg) : s.flagsUsed.reg r = s.reg r := by
  simp [State.reg]

@[simp] theorem reg_brkeUsed (s : State) (r : Reg) : s.brkeUsed.reg r = s.reg r := by
  simp [State.reg]

@[simp] theorem reg_putMem (s : State) (m : List Host.Cell) (r : Reg) :
    (s.putMem m).reg r = s.reg r := rfl

/-! ### Where an access goes depends on the memory map only -/

theorem place_congr {s t : State} (h : t.map = s.map) (n : Nat) (a : Word) :
    t.place n a = s.place n a := by
  unfold State.place; rw [h]

theorem allRam_congr {s t : State} (h : t.map = s.map) (n : Nat) (a : Word) :
    t.allRam n a = s.allRam n a := by
  unfold State.allRam; rw [h]

/-! ### The mode and the stack pointer depend on FLAGS and INFO only -/

theorem mode_congr (s t : State) (hf : t.flags = s.flags) (hi : t.info = s.info) :
    t.mode = s.mode := by
  unfold State.mode; rw [hf, hi]

theorem spIsSp0_congr (s t : State) (h : t.mode = s.mode) : t.spIsSp0 = s.spIsSp0 := by
  unfold State.spIsSp0; rw [h]

@[simp] theorem mode_setReg (s : State) (r : Reg) (v : Word) : (s.setReg r v).mode = s.mode := rfl

@[simp] theorem mode_advance (s : State) (n : Word) : (s.advance n).mode = s.mode := rfl

@[simp] theorem mode_accessed (s : State) (k : AccessKind) (w : Width) (a : Word) :
    (s.accessed k w a).mode = s.mode := rfl

@[simp] theorem mode_putMem (s : State) (m : List Host.Cell) : (s.putMem m).mode = s.mode := rfl

@[simp] theorem mode_sampled (s : State) : s.sampled.mode = s.mode := rfl

@[simp] theorem mode_setSp (s : State) (v : Word) : (s.setSp v).mode = s.mode :=
  mode_congr s _ (by simp) (by simp)

@[simp] theorem mode_flagsUsed (s : State) : s.flagsUsed.mode = s.mode :=
  mode_congr s _ (by simp) (by simp)

@[simp] theorem spIsSp0_setReg (s : State) (r : Reg) (v : Word) :
    (s.setReg r v).spIsSp0 = s.spIsSp0 := rfl

@[simp] theorem spIsSp0_advance (s : State) (n : Word) : (s.advance n).spIsSp0 = s.spIsSp0 := rfl

@[simp] theorem spIsSp0_accessed (s : State) (k : AccessKind) (w : Width) (a : Word) :
    (s.accessed k w a).spIsSp0 = s.spIsSp0 := rfl

@[simp] theorem spIsSp0_setSp (s : State) (v : Word) : (s.setSp v).spIsSp0 = s.spIsSp0 :=
  spIsSp0_congr s _ (by simp)

@[simp] theorem sp_setSp (s : State) (v : Word) : (s.setSp v).sp = v := by
  unfold State.sp; rw [spIsSp0_setSp]; unfold State.setSp; split <;> rfl

theorem setSp_sp0 (s : State) (v : Word) :
    (s.setSp v).sp0 = if s.spIsSp0 then v else s.sp0 := by
  unfold State.setSp; split <;> rfl

theorem setSp_sp1 (s : State) (v : Word) :
    (s.setSp v).sp1 = if s.spIsSp0 then s.sp1 else v := by
  unfold State.setSp; split <;> rfl

end Sys2Proof.Machine
end

