-- ==== Sys2Proof/Laws/Flags.lean ====
section
/-! SUPPORT. What the field writes of FLAGS and INFO do bit by bit, and what each flag reads after
each flag computation. -/

namespace Sys2Proof.Machine

/-! ### Bits of a field write -/

theorem fieldMask_bit (lo len i : Nat) (h : lo + len ≤ 32) :
    (fieldMask lo len).getLsbD i = (decide (lo ≤ i) && decide (i < lo + len)) := by
  unfold fieldMask
  simp only [BitVec.getLsbD_shiftLeft, BitVec.getLsbD_setWidth, BitVec.getLsbD_allOnes]
  by_cases h1 : i < lo
  · have : ¬ lo ≤ i := by omega
    simp [h1, this]
  · by_cases h2 : i < lo + len
    · have e1 : i < 32 := by omega
      have e2 : i - lo < 32 := by omega
      have e3 : i - lo < len := by omega
      have e4 : lo ≤ i := by omega
      simp [h1, h2, e1, e2, e3, e4]
    · have e3 : ¬ i - lo < len := by omega
      simp [h2, e3]

theorem putField_bit (x : Word) (lo len : Nat) (v : BitVec len) (i : Nat) (h : lo + len ≤ 32)
    (hi : i < 32) :
    (putField x lo len v).getLsbD i
      = if lo ≤ i ∧ i < lo + len then v.getLsbD (i - lo) else x.getLsbD i := by
  unfold putField
  simp only [BitVec.getLsbD_or, BitVec.getLsbD_and, BitVec.getLsbD_not, fieldMask_bit lo len i h,
    BitVec.getLsbD_shiftLeft, BitVec.getLsbD_setWidth, hi, decide_true, Bool.true_and]
  by_cases h1 : lo ≤ i
  · have hn : ¬ i < lo := by omega
    have e2 : i - lo < 32 := by omega
    by_cases h2 : i < lo + len
    · simp [h1, h2, hn, e2]
    · have : v.getLsbD (i - lo) = false := BitVec.getLsbD_of_ge v _ (by omega)
      simp [h2, hn, e2, this]
  · have hn : i < lo := by omega
    simp [h1, hn]

theorem putBit_bit (x : Word) (k i : Nat) (b : Bool) (hk : k < 32) (hi : i < 32) :
    (putBit x k b).getLsbD i = if i = k then b else x.getLsbD i := by
  unfold putBit
  rw [putField_bit x k 1 _ i (by omega) hi]
  by_cases h : i = k
  · subst h; simp
  · have : ¬ (k ≤ i ∧ i < k + 1) := by omega
    rw [if_neg this, if_neg h]

/-- A field of a field is a field. -/
theorem fld_fld {w : Nat} (x : BitVec w) (lo len lo' len' : Nat) (h : lo' + len' ≤ len) :
    fld (fld x lo len) lo' len' = fld x (lo + lo') len' := by
  apply BitVec.eq_of_getLsbD_eq
  intro i hi
  simp only [fld, BitVec.getLsbD_extractLsb', Nat.add_assoc]
  simp [hi, show lo' + i < len by omega]

/-- A field of a field write: the field written where they are the same. -/
theorem fld_putField_same (x : Word) (lo len : Nat) (v : BitVec len) (h : lo + len ≤ 32) :
    fld (putField x lo len v) lo len = v := by
  apply BitVec.eq_of_getLsbD_eq
  intro i hi
  unfold fld
  rw [BitVec.getLsbD_extractLsb', putField_bit x lo len v (lo + i) h (by omega)]
  have : lo ≤ lo + i ∧ lo + i < lo + len := by omega
  simp [hi]

/-- A field outside the field written is as before. -/
theorem fld_putField_other (x : Word) (lo len : Nat) (v : BitVec len) (lo' len' : Nat)
    (h : lo + len ≤ 32) (h' : lo' + len' ≤ 32) (hd : lo' + len' ≤ lo ∨ lo + len ≤ lo') :
    fld (putField x lo len v) lo' len' = fld x lo' len' := by
  apply BitVec.eq_of_getLsbD_eq
  intro i hi
  unfold fld
  rw [BitVec.getLsbD_extractLsb', BitVec.getLsbD_extractLsb',
    putField_bit x lo len v (lo' + i) h (by omega)]
  have : ¬ (lo ≤ lo' + i ∧ lo' + i < lo + len) := by omega
  simp [this]

/-- Outside a mask that covers the field, a field write changes nothing. -/
theorem putField_outside (x : Word) (lo len : Nat) (v : BitVec len) (mask : Word)
    (h : lo + len ≤ 32) (hm : ∀ i, lo ≤ i → i < lo + len → mask.getLsbD i = true) :
    putField x lo len v &&& ~~~mask = x &&& ~~~mask := by
  apply BitVec.eq_of_getLsbD_eq
  intro i hi
  simp only [BitVec.getLsbD_and, BitVec.getLsbD_not]
  rw [putField_bit x lo len v i h hi]
  by_cases hc : lo ≤ i ∧ i < lo + len
  · simp [hm i hc.1 hc.2]
  · simp [hc]

/-! ### Z and N written -/

@[simp] theorem flagZ_putZN (f : Word) (z n : Bool) : flagZ (putZN f z n) = z := by
  unfold flagZ putZN
  rw [putField_bit f 0 2 _ 0 (by decide) (by decide)]
  cases z <;> cases n <;> rfl

@[simp] theorem flagN_putZN (f : Word) (z n : Bool) : flagN (putZN f z n) = n := by
  unfold flagN putZN
  rw [putField_bit f 0 2 _ 1 (by decide) (by decide)]
  cases z <;> cases n <;> rfl

theorem putZN_bit (f : Word) (z n : Bool) (i : Nat) (h : 2 ≤ i) (hi : i < 32) :
    (putZN f z n).getLsbD i = f.getLsbD i := by
  unfold putZN
  rw [putField_bit f 0 2 _ i (by decide) hi]
  have : ¬ (0 ≤ i ∧ i < 0 + 2) := by omega
  rw [if_neg this]

theorem putZN_outside (f : Word) (z n : Bool) :
    putZN f z n &&& ~~~maskZN = f &&& ~~~maskZN :=
  putField_outside f 0 2 _ maskZN (by decide) (by
    intro i _ h; have : i = 0 ∨ i = 1 := by omega
    rcases this with rfl | rfl <;> decide)

/-! ### Z, N, C, V written -/

@[simp] theorem flagZ_putZNCV (f : Word) (z n c v : Bool) : flagZ (putZNCV f z n c v) = z := by
  unfold flagZ putZNCV
  rw [putField_bit f 0 4 _ 0 (by decide) (by decide)]
  cases z <;> cases n <;> cases c <;> cases v <;> rfl

@[simp] theorem flagN_putZNCV (f : Word) (z n c v : Bool) : flagN (putZNCV f z n c v) = n := by
  unfold flagN putZNCV
  rw [putField_bit f 0 4 _ 1 (by decide) (by decide)]
  cases z <;> cases n <;> cases c <;> cases v <;> rfl

@[simp] theorem flagC_putZNCV (f : Word) (z n c v : Bool) : flagC (putZNCV f z n c v) = c := by
  unfold flagC putZNCV
  rw [putField_bit f 0 4 _ 2 (by decide) (by decide)]
  cases z <;> cases n <;> cases c <;> cases v <;> rfl

@[simp] theorem flagV_putZNCV (f : Word) (z n c v : Bool) : flagV (putZNCV f z n c v) = v := by
  unfold flagV putZNCV
  rw [putField_bit f 0 4 _ 3 (by decide) (by decide)]
  cases z <;> cases n <;> cases c <;> cases v <;> rfl

theorem putZNCV_outside (f : Word) (z n c v : Bool) :
    putZNCV f z n c v &&& ~~~maskZNCV = f &&& ~~~maskZNCV :=
  putField_outside f 0 4 _ maskZNCV (by decide) (by
    intro i _ h; have : i = 0 ∨ i = 1 ∨ i = 2 ∨ i = 3 := by omega
    rcases this with rfl | rfl | rfl | rfl <;> decide)

/-! ### The flag computations -/

@[simp] theorem flagZ_setZN (f v : Word) : flagZ (setZN f v) = (v == 0#32) := flagZ_putZN _ _ _

@[simp] theorem flagN_setZN (f v : Word) : flagN (setZN f v) = v.getLsbD 31 := flagN_putZN _ _ _

@[simp] theorem flagC_setZN (f v : Word) : flagC (setZN f v) = flagC f :=
  putZN_bit f _ _ 2 (by decide) (by decide)

@[simp] theorem flagV_setZN (f v : Word) : flagV (setZN f v) = flagV f :=
  putZN_bit f _ _ 3 (by decide) (by decide)

theorem setZN_outside (f v : Word) : setZN f v &&& ~~~maskZN = f &&& ~~~maskZN :=
  putZN_outside f _ _

/-- A field above the condition flags is not touched by `SetZN`. -/
theorem fld_setZN (f v : Word) (lo len : Nat) (h : lo + len ≤ 32) (hlo : 2 ≤ lo) :
    fld (setZN f v) lo len = fld f lo len :=
  fld_putField_other f 0 2 _ lo len (by decide) h (Or.inr (by omega))

theorem fld_putZN (f : Word) (z n : Bool) (lo len : Nat) (h : lo + len ≤ 32) (hlo : 2 ≤ lo) :
    fld (putZN f z n) lo len = fld f lo len :=
  fld_putField_other f 0 2 _ lo len (by decide) h (Or.inr (by omega))

theorem fld_putZNCV (f : Word) (z n c v : Bool) (lo len : Nat) (h : lo + len ≤ 32)
    (hlo : 4 ≤ lo) : fld (putZNCV f z n c v) lo len = fld f lo len :=
  fld_putField_other f 0 4 _ lo len (by decide) h (Or.inr (by omega))

@[simp] theorem flagS_setS (s : State) (k : Nat) : flagS (s.setS k).flags = BitVec.ofNat 8 k :=
  fld_putField_same s.flags 24 8 _ (by decide)

@[simp] theorem flagS_setDone (s : State) (k : Nat) :
    flagS (s.setDone k).flags = BitVec.ofNat 8 k :=
  fld_putField_same s.flags 24 8 _ (by decide)

/-! ### One bit written -/

theorem putBit_same (x : Word) (k : Nat) (b : Bool) (hk : k < 32) : (putBit x k b).getLsbD k = b := by
  rw [putBit_bit x k k b hk hk]; simp

theorem putBit_other (x : Word) (k i : Nat) (b : Bool) (hk : k < 32) (hi : i < 32) (h : i ≠ k) :
    (putBit x k b).getLsbD i = x.getLsbD i := by
  rw [putBit_bit x k i b hk hi]; simp [h]

theorem putBit_outside (x : Word) (k : Nat) (b : Bool) (mask : Word) (hk : k < 32)
    (hm : mask.getLsbD k = true) : putBit x k b &&& ~~~mask = x &&& ~~~mask :=
  putField_outside x k 1 _ mask (by omega) (by
    intro i h1 h2; have : i = k := by omega
    rw [this]; exact hm)

/-! ### The mode after a write of the condition flags or of S -/

theorem flagM_putField (f : Word) (lo len : Nat) (v : BitVec len) (h : lo + len ≤ 32)
    (hd : 6 ≤ lo ∨ lo + len ≤ 4) : flagM (putField f lo len v) = flagM f :=
  fld_putField_other f lo len v 4 2 h (by decide) (by omega)

theorem mode_setFlags (s : State) (f : Word) (h : flagM f = flagM s.flags) :
    (s.setFlags f).mode = s.mode := by
  unfold State.mode; simp only [setFlags_info, setFlags_flags, h]

@[simp] theorem mode_setS (s : State) (k : Nat) : (s.setS k).mode = s.mode :=
  mode_setFlags s _ (flagM_putField _ _ _ _ (by decide) (Or.inl (by decide)))

@[simp] theorem mode_setDone (s : State) (k : Nat) : (s.setDone k).mode = s.mode :=
  mode_setFlags s _ (flagM_putField _ _ _ _ (by decide) (Or.inl (by decide)))

end Sys2Proof.Machine
end

