-- ==== Sys2Proof/Laws/Memory.lean ====
section
/-! SUPPORT. The laws of memory: a read after a write of the same byte, of another byte, and that
every memory operation keeps the canonical form. -/

namespace Sys2Proof.Machine

/-! ### One byte -/

theorem memWfFrom_le {m : List Host.Cell} {lo hi : Nat} (h : memWfFrom hi m = true) (hl : lo ≤ hi) :
    memWfFrom lo m = true := by
  cases m with
  | nil => rfl
  | cons c t =>
    obtain ⟨k, v⟩ := c
    simp only [memWfFrom, Bool.and_eq_true, decide_eq_true_eq] at h ⊢
    exact ⟨⟨⟨by omega, h.1.1.2⟩, h.1.2⟩, h.2⟩

theorem readCell_below {m : List Host.Cell} {lo a : Nat} (h : memWfFrom lo m = true) (ha : a < lo) :
    readCell m a = unlistedByte a := by
  induction m generalizing lo with
  | nil => rfl
  | cons c t ih =>
    obtain ⟨k, v⟩ := c
    simp only [memWfFrom, Bool.and_eq_true, decide_eq_true_eq] at h
    have : k ≠ a := by omega
    simp only [readCell, this, if_false]
    exact ih h.2 (by omega)

theorem readCell_writeCell_same {m : List Host.Cell} {lo a : Nat} (v : Byte)
    (h : memWfFrom lo m = true) : readCell (writeCell m a v) a = v := by
  induction m generalizing lo with
  | nil =>
    simp only [writeCell]
    split
    · rename_i hv; simp [readCell, hv]
    · simp [readCell]
  | cons c t ih =>
    obtain ⟨k, w⟩ := c
    have h' := h
    simp only [memWfFrom, Bool.and_eq_true, decide_eq_true_eq] at h
    simp only [writeCell]
    split
    · rename_i hlt
      split
      · rename_i hv
        have hne : k ≠ a := by omega
        simp only [readCell, hne, if_false]
        rw [hv]
        exact readCell_below h.2 (by omega)
      · simp [readCell]
    · split
      · rename_i _ he
        subst he
        split
        · rename_i hv
          rw [hv]
          exact readCell_below h.2 (by omega)
        · simp [readCell]
      · rename_i _ hne
        have hne' : k ≠ a := fun e => hne e.symm
        simp only [readCell, hne', if_false]
        exact ih h.2

theorem readCell_writeCell_other (m : List Host.Cell) {a b : Nat} (v : Byte) (hab : b ≠ a) :
    readCell (writeCell m a v) b = readCell m b := by
  have hba : a ≠ b := fun e => hab e.symm
  induction m with
  | nil =>
    simp only [writeCell]
    split
    · rfl
    · simp [readCell, hba]
  | cons c t ih =>
    obtain ⟨k, w⟩ := c
    simp only [writeCell]
    split
    · split
      · rfl
      · simp [readCell, hba]
    · split
      · rename_i _ he
        subst he
        split
        · simp [readCell, hba]
        · simp [readCell, hba]
      · simp only [readCell]
        split
        · rfl
        · exact ih

theorem memWfFrom_writeCell {m : List Host.Cell} {lo a : Nat} (v : Byte)
    (h : memWfFrom lo m = true) (hlo : lo ≤ a) (ha : a < 2 ^ 32) :
    memWfFrom lo (writeCell m a v) = true := by
  induction m generalizing lo with
  | nil =>
    simp only [writeCell]
    split
    · rfl
    · rename_i hv; simp [memWfFrom, hv, hlo]; omega
  | cons c t ih =>
    obtain ⟨k, w⟩ := c
    have h' := h
    simp only [memWfFrom, Bool.and_eq_true, decide_eq_true_eq] at h
    simp only [writeCell]
    split
    · rename_i hlt
      split
      · exact h'
      · rename_i hv
        simp only [memWfFrom, Bool.and_eq_true, decide_eq_true_eq]
        exact ⟨⟨⟨hlo, ha⟩, hv⟩, ⟨⟨by omega, h.1.1.2⟩, h.1.2⟩, h.2⟩
    · split
      · rename_i _ he
        subst he
        split
        · exact memWfFrom_le h.2 (by omega)
        · rename_i hv
          simp only [memWfFrom, Bool.and_eq_true, decide_eq_true_eq]
          exact ⟨⟨⟨hlo, ha⟩, hv⟩, h.2⟩
      · simp only [memWfFrom, Bool.and_eq_true, decide_eq_true_eq]
        exact ⟨h.1, ih h.2 (by omega)⟩

/-! ### The canonical form -/

theorem wf_nil : Memory.wf [] = true := rfl

theorem wf_write8 {m : List Host.Cell} (a : Word) (v : Byte) (h : Memory.wf m = true) :
    Memory.wf (write8 m a v) = true :=
  memWfFrom_writeCell v h (Nat.zero_le _) a.isLt

theorem wf_write16 {m : List Host.Cell} (a : Word) (v : Half) (h : Memory.wf m = true) :
    Memory.wf (write16 m a v) = true :=
  wf_write8 _ _ (wf_write8 _ _ h)

theorem wf_write32 {m : List Host.Cell} (a : Word) (v : Word) (h : Memory.wf m = true) :
    Memory.wf (write32 m a v) = true :=
  wf_write8 _ _ (wf_write8 _ _ (wf_write8 _ _ (wf_write8 _ _ h)))

theorem wf_storeMem {m : List Host.Cell} (w : Width) (a v : Word) (h : Memory.wf m = true) :
    Memory.wf (storeMem m w a v) = true := by
  cases w
  · exact wf_write8 _ _ h
  · exact wf_write16 _ _ h
  · exact wf_write32 _ _ h

theorem wf_storeFetch {m : List Host.Cell} (pc : Word) (nbits w : Nat) (h : Memory.wf m = true) :
    Memory.wf (storeFetch m pc nbits w) = true :=
  wf_write8 _ _ (wf_write8 _ _ (wf_write8 _ _ (wf_write8 _ _ (wf_write8 _ _ (wf_write8 _ _ h)))))

/-! ### Reads after writes -/

@[simp] theorem read8_write8_same {m : List Host.Cell} (a : Word) (v : Byte)
    (h : Memory.wf m = true) : read8 (write8 m a v) a = v :=
  readCell_writeCell_same v h

theorem read8_write8_other (m : List Host.Cell) {a b : Word} (v : Byte) (h : b ≠ a) :
    read8 (write8 m a v) b = read8 m b :=
  readCell_writeCell_other m v fun e => h (BitVec.eq_of_toNat_eq e)

theorem read8_write16_other (m : List Host.Cell) {a b : Word} (v : Half) (h0 : b ≠ a)
    (h1 : b ≠ a + 1#32) : read8 (write16 m a v) b = read8 m b := by
  unfold write16
  rw [read8_write8_other _ _ h1, read8_write8_other _ _ h0]

theorem read8_write32_other (m : List Host.Cell) {a b : Word} (v : Word) (h0 : b ≠ a)
    (h1 : b ≠ a + 1#32) (h2 : b ≠ a + 2#32) (h3 : b ≠ a + 3#32) :
    read8 (write32 m a v) b = read8 m b := by
  unfold write32
  rw [read8_write8_other _ _ h3, read8_write8_other _ _ h2, read8_write8_other _ _ h1,
    read8_write8_other _ _ h0]

theorem read8_storeMem_other (m : List Host.Cell) (w : Width) {a b : Word} (v : Word)
    (h : ∀ k : Nat, k < bytesOf w → b ≠ a + BitVec.ofNat 32 k) :
    read8 (storeMem m w a v) b = read8 m b := by
  have h0 : b ≠ a := by simpa using h 0 (by cases w <;> decide)
  cases w
  · exact read8_write8_other _ _ h0
  · exact read8_write16_other _ _ h0 (h 1 (by decide))
  · exact read8_write32_other _ _ h0 (h 1 (by decide)) (h 2 (by decide)) (h 3 (by decide))

/-- The four bytes of a stored word. -/
theorem read8_write32 {m : List Host.Cell} (a : Word) (v : Word) (h : Memory.wf m = true) :
    read8 (write32 m a v) a = fld v 0 8 ∧ read8 (write32 m a v) (a + 1#32) = fld v 8 8
      ∧ read8 (write32 m a v) (a + 2#32) = fld v 16 8
      ∧ read8 (write32 m a v) (a + 3#32) = fld v 24 8 := by
  have w0 := wf_write8 a (fld v 0 8) h
  have w1 := wf_write8 (a + 1#32) (fld v 8 8) w0
  have w2 := wf_write8 (a + 2#32) (fld v 16 8) w1
  have n01 : a ≠ a + 1#32 := by bv_omega
  have n02 : a ≠ a + 2#32 := by bv_omega
  have n03 : a ≠ a + 3#32 := by bv_omega
  have n12 : a + 1#32 ≠ a + 2#32 := by bv_omega
  have n13 : a + 1#32 ≠ a + 3#32 := by bv_omega
  have n23 : a + 2#32 ≠ a + 3#32 := by bv_omega
  unfold write32
  refine ⟨?_, ?_, ?_, read8_write8_same _ _ w2⟩
  · rw [read8_write8_other _ _ n03, read8_write8_other _ _ n02, read8_write8_other _ _ n01,
      read8_write8_same _ _ h]
  · rw [read8_write8_other _ _ n13, read8_write8_other _ _ n12, read8_write8_same _ _ w0]
  · rw [read8_write8_other _ _ n23, read8_write8_same _ _ w1]

/-- The two bytes of a stored half-word. -/
theorem read8_write16 {m : List Host.Cell} (a : Word) (v : Half) (h : Memory.wf m = true) :
    read8 (write16 m a v) a = fld v 0 8 ∧ read8 (write16 m a v) (a + 1#32) = fld v 8 8 := by
  have w0 := wf_write8 a (fld v 0 8) h
  have n01 : a ≠ a + 1#32 := by bv_omega
  unfold write16
  exact ⟨by rw [read8_write8_other _ _ n01, read8_write8_same _ _ h], read8_write8_same _ _ w0⟩

/-! ### Words that a write does not touch -/

/-- Two words at addresses that are multiples of 4 do not overlap unless they are the same. -/
theorem read32_write32_other (m : List Host.Cell) {a b : Word} (v : Word)
    (h : ∀ i j : Nat, i < 4 → j < 4 → b + BitVec.ofNat 32 i ≠ a + BitVec.ofNat 32 j) :
    read32 (write32 m a v) b = read32 m b := by
  have key : ∀ i : Nat, i < 4 →
      read8 (write32 m a v) (b + BitVec.ofNat 32 i) = read8 m (b + BitVec.ofNat 32 i) := by
    intro i hi
    refine read8_write32_other m v ?_ ?_ ?_ ?_
    · simpa using h i 0 hi (by decide)
    · exact h i 1 hi (by decide)
    · exact h i 2 hi (by decide)
    · exact h i 3 hi (by decide)
  have k0 : read8 (write32 m a v) b = read8 m b := by simpa using key 0 (by decide)
  unfold read32
  rw [k0, key 1 (by decide), key 2 (by decide), key 3 (by decide)]

end Sys2Proof.Machine
end

