-- ==== Sys2Proof/Laws/Ops.lean ====
section
/-! SUPPORT. One lemma per shared operation that says what it does: the ones that succeed, and for
the ones that can trap also what a trap carries. -/

namespace Sys2Proof.Machine

/-! ### Parts of an instruction's work -/

@[simp] theorem andThen_done {α β : Type} (a : α) (s : State) (k : α → State → Attempt β) :
    andThen (.done a s) k = k a s := rfl

@[simp] theorem andThen_trap {α β : Type} (t : Trap) (s : State) (k : α → State → Attempt β) :
    andThen (.trap t s) k = .trap t s := rfl

/-- A sequence that is done: both parts were. -/
theorem andThen_eq_done {α β : Type} {r : Attempt α} {k : α → State → Attempt β} {b : β}
    {s' : State} (h : andThen r k = .done b s') : ∃ a s1, r = .done a s1 ∧ k a s1 = .done b s' := by
  cases r with
  | done a s1 => exact ⟨a, s1, rfl, h⟩
  | trap t s1 => cases h

@[simp] theorem settle_done (s : State) : settle (.done () s) = .next s := rfl

@[simp] theorem settle_trap (t : Trap) (s : State) : settle (.trap t s) = takeTrap t s := rfl

@[simp] theorem finish_eq (i : Instr) (s : State) : finish i s = .next (s.advance i.length) := rfl

@[simp] theorem giveResult_eq (i : Instr) (rd : Reg) (v f : Word) (s : State) :
    giveResult i rd v f s = .next ((s.result rd v f).advance i.length) := rfl

theorem privilegedP_ok {s : State} (p : BitVec 4) (h : s.isUser = false)
    (body : Host.Outcome State Fault Refusal) : privilegedP p s body = body := by
  unfold privilegedP; simp [h]

theorem privilegedP_user {s : State} (p : BitVec 4) (h : s.isUser = true)
    (body : Host.Outcome State Fault Refusal) :
    privilegedP p s body = errorHere .privInstruction p s := by
  unfold privilegedP; simp [h]

theorem privileged_ok {s : State} (h : s.isUser = false)
    (body : Host.Outcome State Fault Refusal) : privileged s body = body := privilegedP_ok _ h body

theorem privileged_user {s : State} (h : s.isUser = true)
    (body : Host.Outcome State Fault Refusal) :
    privileged s body = errorHere .privInstruction 0#4 s := privilegedP_user _ h body

/-! ### The memory system -/

/-- Where all is RAM, a write stores every byte. -/
theorem storeRam_ram {s : State} {w : Width} {a : Word} (v : Word)
    (h : s.allRam (bytesOf w) a = true) : s.storeRam (bytesOf w) a v = storeMem s.mem w a v := by
  unfold State.allRam at h
  rw [List.all_eq_true] at h
  have hk : ∀ k, k < bytesOf w → s.kindIs a k .ram = true := fun k hk => h k (by simpa using hk)
  unfold State.storeRam storeMem write32 write16
  cases w <;> simp only [bytesOf] at hk ⊢ <;>
    simp +decide [List.range, List.range.loop, hk, fld_fld]

/-- A write keeps memory canonical. -/
theorem wf_storeRam {s : State} (n : Nat) (a v : Word) (h : Memory.wf s.mem = true) :
    Memory.wf (s.storeRam n a v) = true := by
  unfold State.storeRam
  generalize s.mem = m at h
  generalize List.range n = l
  induction l generalizing m with
  | nil => exact h
  | cons k l ih =>
    rw [List.foldl_cons]
    apply ih
    split
    · exact wf_write8 _ _ h
    · exact h

/-- What a write leaves in memory: in RAM the bytes written, elsewhere what stood there. -/
theorem read8_storeRam {s : State} {n : Nat} (a v : Word) (hw : Memory.wf s.mem = true)
    (hn : n ≤ 4) :
    (∀ j : Nat, j < n → read8 (s.storeRam n a v) (a + BitVec.ofNat 32 j)
      = if s.kindIs a j .ram then fld v (8 * j) 8 else read8 s.mem (a + BitVec.ofNat 32 j))
    ∧ ∀ b : Word, (∀ j : Nat, j < n → s.kindIs a j .ram = true → b ≠ a + BitVec.ofNat 32 j) →
      read8 (s.storeRam n a v) b = read8 s.mem b := by
  induction n with
  | zero => exact ⟨fun j h => absurd h (by omega), fun _ _ => rfl⟩
  | succ n ih =>
    obtain ⟨ih1, ih2⟩ := ih (by omega)
    have apart : ∀ j, j < n → a + BitVec.ofNat 32 j ≠ a + BitVec.ofNat 32 n := by
      intro j hj h
      have h := congrArg BitVec.toNat (show BitVec.ofNat 32 j = BitVec.ofNat 32 n by simpa using h)
      simp at h; omega
    have last : s.storeRam (n + 1) a v = if s.kindIs a n .ram then
        write8 (s.storeRam n a v) (a + BitVec.ofNat 32 n) (fld v (8 * n) 8)
        else s.storeRam n a v := by
      unfold State.storeRam; rw [List.range_succ, List.foldl_append]; rfl
    rw [last]
    split
    · rename_i hr
      refine ⟨fun j hj => ?_, fun b hb => ?_⟩
      · by_cases hjn : j = n
        · subst hjn; rw [read8_write8_same _ _ (wf_storeRam _ _ _ hw), if_pos hr]
        · rw [read8_write8_other _ _ (apart j (by omega))]; exact ih1 j (by omega)
      · rw [read8_write8_other _ _ (hb n (by omega) hr)]
        exact ih2 b fun j hj => hb j (by omega)
    · rename_i hr
      refine ⟨fun j hj => ?_, fun b hb => ih2 b fun j hj => hb j (by omega)⟩
      by_cases hjn : j = n
      · subst hjn; rw [if_neg hr]; exact ih2 _ fun i hi _ => (apart i hi).symm
      · exact ih1 j (by omega)

/-- An access with bytes of a device (R97). -/
theorem load_device {s : State} {w : Width} {a : Word} (h : s.place (bytesOf w) a = .device) :
    s.load w a
      = .ok ((s.deviceLoad w a).1, { s with devState := (s.deviceLoad w a).2 }) := by
  unfold State.load; rw [h]

theorem store_device {s : State} {w : Width} {a : Word} (v : Word)
    (h : s.place (bytesOf w) a = .device) :
    s.store w a v
      = .ok { s.putMem (s.storeRam (bytesOf w) a v) with devState := s.deviceStore w a v } := by
  unfold State.store; rw [h]

/-- Without a prefetch buffer no half-word is kept. -/
theorem staleAfter_none {s : State} {m : List Host.Cell} (h : s.params.prefetchBytes = 0) :
    s.staleAfter m = s.stale := by
  unfold State.staleAfter; rw [h]; simp

/-- A read of memory gives what stands there and changes nothing. -/
theorem load_memory {s : State} {w : Width} {a : Word} (h : s.place (bytesOf w) a = .memory) :
    s.load w a = .ok (loadMem s.mem w a, s) := by
  unfold State.load; rw [h]

/-- A write of RAM stores the bytes. -/
theorem store_ram {s : State} {w : Width} {a : Word} (v : Word)
    (h : s.place (bytesOf w) a = .memory) (hr : s.allRam (bytesOf w) a = true) :
    s.store w a v = .ok (s.putMem (storeMem s.mem w a v)) := by
  unfold State.store; rw [h, storeRam_ram v hr]

/-- An access where nothing stands is refused. -/
theorem load_nowhere {s : State} {w : Width} {a : Word} (h : s.place (bytesOf w) a = .nowhere) :
    s.load w a = .error .unpopulated := by
  unfold State.load; rw [h]

theorem store_nowhere {s : State} {w : Width} {a : Word} (v : Word)
    (h : s.place (bytesOf w) a = .nowhere) : s.store w a v = .error .unpopulated := by
  unfold State.store; rw [h]

/-- Between the two states only memory, the prefetch buffer's leftovers and the devices have changed;
memory stays canonical, and without a buffer nothing is left in it. -/
def MemoryOnly (s t : State) : Prop :=
  ∃ m l d, t = { s with mem := m, stale := l, devState := d }
    ∧ (Memory.wf s.mem = true → Memory.wf m = true)
    ∧ (s.params.prefetchBytes = 0 → l = s.stale)

theorem MemoryOnly.refl (s : State) : MemoryOnly s s := ⟨_, _, _, rfl, id, fun _ => rfl⟩

theorem MemoryOnly.trans {s t u : State} (h : MemoryOnly s t) (g : MemoryOnly t u) :
    MemoryOnly s u := by
  obtain ⟨m, l, d, rfl, hm, hl⟩ := h
  obtain ⟨m', l', d', rfl, hm', hl'⟩ := g
  exact ⟨m', l', d', rfl, fun w => hm' (hm w), fun z => (hl' z).trans (hl z)⟩

theorem MemoryOnly.putMem {s : State} {m : List Host.Cell}
    (h : Memory.wf s.mem = true → Memory.wf m = true) : MemoryOnly s (s.putMem m) :=
  ⟨m, s.staleAfter m, s.devState, rfl, h, staleAfter_none⟩

theorem load_memoryOnly {s t : State} {w : Width} {a v : Word} (h : s.load w a = .ok (v, t)) :
    MemoryOnly s t := by
  unfold State.load at h
  split at h
  · injection h with h; injection h with _ h; subst h; exact .refl s
  · injection h with h; injection h with _ h; subst h; exact ⟨_, _, _, rfl, id, fun _ => rfl⟩
  · cases h

theorem store_memoryOnly {s t : State} {w : Width} {a v : Word} (h : s.store w a v = .ok t) :
    MemoryOnly s t := by
  unfold State.store at h
  split at h
  · injection h with h; subst h; exact .putMem (wf_storeRam _ _ _)
  · injection h with h; subst h; exact ⟨_, _, _, rfl, wf_storeRam _ _ _, staleAfter_none⟩
  · cases h

/-! ### The K guard -/

theorem spGuard_ok {s : State} {uses : Bool} (h : GuardOk s uses) :
    spGuard uses s = .done () s := by
  unfold spGuard
  cases uses with
  | false => rfl
  | true => simp [h rfl]

theorem spGuard_off {s : State} (h : s.spEnabled = false) :
    spGuard true s = .trap .stackGuard s := by
  unfold spGuard; simp [h]

/-- The K guard either leaves the state as it is or traps on it. -/
theorem spGuard_cases (uses : Bool) (s : State) :
    spGuard uses s = .done () s ∨ (spGuard uses s = .trap .stackGuard s ∧ uses = true
      ∧ s.spEnabled = false) := by
  unfold spGuard
  cases uses with
  | false => exact Or.inl rfl
  | true =>
    cases h : s.spEnabled with
    | true => exact Or.inl rfl
    | false => exact Or.inr ⟨rfl, rfl, rfl⟩

/-! ### Accesses -/

theorem readDataP_ok {s : State} {w : Width} {a : Word} (p : BitVec 4) (h : ReadOk s w a) :
    readDataP p w a s = .done (loadMem s.mem w a) (s.accessed .read w a) := by
  unfold readDataP
  rw [show dataCheck s s.mode w .read a = none from h.1, load_memory h.2]

theorem readData_ok {s : State} {w : Width} {a : Word} (h : ReadOk s w a) :
    readData w a s = .done (loadMem s.mem w a) (s.accessed .read w a) := readDataP_ok _ h

theorem writeData_ok {s : State} {w : Width} {a v : Word} (h : WriteOk s w a) :
    writeData w a v s = .done () ((s.putMem (storeMem s.mem w a v)).accessed .write w a) := by
  unfold writeData
  rw [show dataCheck s s.mode w .write a = none from h.1, store_ram v h.2.1 h.2.2]

theorem readDataP_error {s : State} {w : Width} {a : Word} {k : ErrorKind} (p : BitVec 4)
    (h : dataCheck s s.mode w .read a = some k) :
    readDataP p w a s = .trap (.error k p s.pc) s := by
  unfold readDataP; rw [h]

theorem writeData_error {s : State} {w : Width} {a v : Word} {k : ErrorKind}
    (h : dataCheck s s.mode w .write a = some k) :
    writeData w a v s = .trap (.error k 0#4 s.pc) s := by
  unfold writeData; rw [h]

/-- A read raises its error on the state it was given, is refused on it, or is done: then only a
device may have changed, and a data breakpoint may be marked. -/
theorem readDataP_cases (p : BitVec 4) (w : Width) (a : Word) (s : State) :
    (∃ k, dataCheck s s.mode w .read a = some k ∧ readDataP p w a s = .trap (.error k p s.pc) s)
      ∨ (dataCheck s s.mode w .read a = none
        ∧ ((∃ r, readDataP p w a s = .trap (.refuse r) s)
          ∨ ∃ v t, s.load w a = .ok (v, t)
            ∧ readDataP p w a s = .done v (t.accessed .read w a))) := by
  unfold readDataP
  cases h : dataCheck s s.mode w .read a with
  | some k => exact Or.inl ⟨k, rfl, rfl⟩
  | none =>
    cases hl : s.load w a with
    | error r => exact Or.inr ⟨rfl, Or.inl ⟨r, rfl⟩⟩
    | ok x => exact Or.inr ⟨rfl, Or.inr ⟨x.1, x.2, rfl, rfl⟩⟩

/-- A write raises its error on the state it was given, is refused on it, or is done. -/
theorem writeData_cases (w : Width) (a v : Word) (s : State) :
    (∃ k, dataCheck s s.mode w .write a = some k
        ∧ writeData w a v s = .trap (.error k 0#4 s.pc) s)
      ∨ (dataCheck s s.mode w .write a = none
        ∧ ((∃ r, writeData w a v s = .trap (.refuse r) s)
          ∨ ∃ t, s.store w a v = .ok t
            ∧ writeData w a v s = .done () (t.accessed .write w a))) := by
  unfold writeData
  cases h : dataCheck s s.mode w .write a with
  | some k => exact Or.inl ⟨k, rfl, rfl⟩
  | none =>
    cases hl : s.store w a v with
    | error r => exact Or.inr ⟨rfl, Or.inl ⟨r, rfl⟩⟩
    | ok t => exact Or.inr ⟨rfl, Or.inr ⟨t, rfl, rfl⟩⟩

/-- The checks of an access see memory through nothing, and of the state only the MMU's rules. -/
theorem dataCheck_congr {s t : State} (h : t.mmu = s.mmu) (m : Mode) (w : Width) (k : AccessKind)
    (a : Word) : dataCheck t m w k a = dataCheck s m w k a := by
  unfold dataCheck; rw [h]

/-- Whether a read succeeds depends on the MMU's rules and the memory map only. -/
theorem ReadOkIn_congr {s t : State} (h : t.mmu = s.mmu) (g : t.map = s.map) {m : Mode} {w : Width}
    {a : Word} (hr : ReadOkIn s m w a) : ReadOkIn t m w a :=
  ⟨(dataCheck_congr h m w .read a).trans hr.1, (place_congr g _ a).trans hr.2⟩

theorem WriteOkIn_congr {s t : State} (h : t.mmu = s.mmu) (g : t.map = s.map) {m : Mode} {w : Width}
    {a : Word} (hw : WriteOkIn s m w a) : WriteOkIn t m w a :=
  ⟨(dataCheck_congr h m w .write a).trans hw.1, (place_congr g _ a).trans hw.2.1,
    (allRam_congr g _ a).trans hw.2.2⟩

theorem pushWord_ok {s : State} {v : Word} (h : WriteOk s .word (s.sp - 4#32)) :
    pushWord v s = .done ()
      (((s.putMem (write32 s.mem (s.sp - 4#32) v)).accessed .write .word (s.sp - 4#32)).setSp
        (s.sp - 4#32)) := by
  unfold pushWord; rw [writeData_ok h]; rfl

theorem popWord_ok {s : State} (h : ReadOk s .word s.sp) :
    popWord s = .done (read32 s.mem s.sp)
      ((s.accessed .read .word s.sp).setSp (s.sp + 4#32)) := by
  unfold popWord; rw [readData_ok h]; rfl

/-! ### Branches -/

theorem branchTo_ok {t : Word} (p : BitVec 4) (h : TargetOk t) (s : State) :
    branchTo p t s = .done () { s with pc := t } := by
  unfold branchTo; rw [if_neg (by rw [h.1]; decide), if_neg h.2]

theorem branchTo_odd {t : Word} (p : BitVec 4) (h : t.getLsbD 0 = true) (s : State) :
    branchTo p t s = .trap (.error .alignError p (t &&& 0xFFFFFFFE#32)) s := by
  unfold branchTo; simp [h]

theorem branchTo_zero (p : BitVec 4) (s : State) :
    branchTo p 0#32 s = .trap (.error .nullPointer p s.pc) s := by
  unfold branchTo; simp

/-- A branch that is done went to an even target other than 0. -/
theorem branchTo_done {p : BitVec 4} {t : Word} {s s' : State} {u : Unit}
    (h : branchTo p t s = .done u s') : TargetOk t ∧ s' = { s with pc := t } := by
  unfold branchTo at h
  split at h
  · cases h
  · split at h
    · cases h
    · cases h
      rename_i h1 h2
      exact ⟨⟨by simpa using h1, h2⟩, rfl⟩

/-! ### Resets -/

/-- A read by the hardware changes nothing but a device. -/
theorem hardwareRead_done {s t : State} {m : Mode} {a v : Word}
    (h : hardwareRead s m a = .ok (v, t)) : s.load .word a = .ok (v, t) := by
  unfold hardwareRead at h
  split at h
  · cases h
  · exact h

theorem hardwareRead_ok {s : State} {m : Mode} {a : Word}
    (hm : mmuAnswer s.mmu m 4 .read a ≠ .dataError) (hp : s.place 4 a = .memory) :
    hardwareRead s m a = .ok (read32 s.mem a, s) := by
  unfold hardwareRead
  split
  · exact absurd (by assumption) hm
  · exact load_memory hp

theorem vectorAt_done {s t : State} {m : Mode} {a v : Word} (h : vectorAt s m a = .ok (v, t)) :
    s.load .word a = .ok (v, t) ∧ TargetOk v := by
  unfold vectorAt at h
  split at h
  · cases h
  · rename_i v' t' hv
    split at h
    · cases h
    · rename_i hc
      injection h with h
      injection h with h1 h2
      subst h1 h2
      simp only [Bool.or_eq_true, beq_iff_eq, not_or] at hc
      exact ⟨hardwareRead_done hv, by simpa using hc.1, hc.2⟩

theorem vectorAt_ok {s : State} {m : Mode} {a : Word} (h : VectorOk s s.mem m a) :
    vectorAt s m a = .ok (read32 s.mem a, s) := by
  unfold vectorAt
  rw [hardwareRead_ok h.1 h.2.1]
  simp only
  rw [h.2.2.1, Bool.false_or, if_neg (by simpa using h.2.2.2)]

theorem resetVp_done {s t : State} {v : Word} (h : resetVp s = .ok (v, t)) :
    s.load .word 0xFFFFFFFC#32 = .ok (v, t) ∧ fld v 0 8 = 0#8 := by
  unfold resetVp at h
  split at h
  · cases h
  · rename_i v' t' hv
    split at h
    · rename_i h0
      injection h with h
      injection h with h1 h2
      subst h1 h2
      exact ⟨hardwareRead_done hv, h0⟩
    · cases h

/-- A reset that answers a state loaded VP, a multiple of 256, and PC, a legal address; of the rest
only a device may have changed. -/
theorem resetInto_next {s t : State} {off : Word} (h : resetInto s off = .next t) :
    ∃ u vp pc, MemoryOnly s u ∧ t = { u with vp := vp, pc := pc } ∧ fld vp 0 8 = 0#8
      ∧ TargetOk pc := by
  unfold resetInto at h
  split at h
  · cases h
  · rename_i vp s1 hvp
    obtain ⟨h1, h8⟩ := resetVp_done hvp
    split at h
    · cases h
    · rename_i t' s2 ht
      obtain ⟨h2, hok⟩ := vectorAt_done ht
      injection h with h
      exact ⟨s2, vp, t', (load_memoryOnly h1).trans (load_memoryOnly h2), h.symm, h8, hok⟩

/-- Where its two reads are legal a reset loads VP and PC from memory. -/
theorem resetInto_ok {s : State} {off : Word} (h : ResetOk s off) :
    resetInto s off = .next { s with vp := read32 s.mem 0xFFFFFFFC#32
                                     pc := read32 s.mem (read32 s.mem 0xFFFFFFFC#32 + off) } := by
  unfold resetInto resetVp
  rw [hardwareRead_ok h.1 h.2.1]
  simp only
  rw [if_pos h.2.2.1]
  simp only
  rw [vectorAt_ok h.2.2.2]

/-! ### The context push and the entry -/

theorem wf_frameMem {m : List Host.Cell} (b ret r1 r0 f : Word) (h : Memory.wf m = true) :
    Memory.wf (frameMem m b ret r1 r0 f) = true :=
  wf_write32 _ _ (wf_write32 _ _ (wf_write32 _ _ (wf_write32 _ _ h)))

/-- One word of a context push that can be written. -/
theorem pushFrameWord_ok {m : Mode} {a : Word} (v : Word) {s : State}
    (h : WriteOkIn s m .word a) :
    pushFrameWord m a v (.ok s) = .ok (s.putMem (write32 s.mem a v)) := by
  unfold pushFrameWord
  simp only
  rw [h.1, store_ram v h.2.1 h.2.2]
  rfl

theorem pushFrameWord_failed {m : Mode} {a : Word} (v : Word) {s : State} {k : ErrorKind}
    (h : dataCheck s m .word .write a = some k) :
    pushFrameWord m a v (.ok s) = .failed k s := by
  unfold pushFrameWord
  simp only
  rw [h]

@[simp] theorem pushFrameWord_of_failed (m : Mode) (a v : Word) (k : ErrorKind) (s : State) :
    pushFrameWord m a v (.failed k s) = .failed k s := rfl

/-- What a context push answers: a state in which only memory has changed, or a refusal. -/
def PushedFrom (s : State) (p : Pushed) : Prop :=
  match p with
  | .ok t => MemoryOnly s t
  | .failed _ t => MemoryOnly s t
  | .refused _ => True

theorem pushFrameWord_from {m : Mode} {a v : Word} {p : Pushed} {s : State} (h : PushedFrom s p) :
    PushedFrom s (pushFrameWord m a v p) := by
  unfold pushFrameWord
  cases p with
  | failed k t => exact h
  | refused r => trivial
  | ok t =>
    simp only
    split
    · exact h
    · split
      · trivial
      · rename_i hs; exact MemoryOnly.trans h (store_memoryOnly hs)

/-- A context push that is done: only memory and the stack pointer have changed. -/
theorem contextPush_ok {z : Bool} {m : Mode} {ret r1 r0 f : Word} {s t : State}
    (h : contextPush z m ret r1 r0 f s = .ok t) :
    ∃ u, MemoryOnly s u ∧ t = if z then { u with sp0 := s.sp0 - 16#32 }
      else { u with sp1 := s.sp1 - 16#32 } := by
  unfold contextPush at h
  simp only at h
  have all := pushFrameWord_from (m := m) (a := (if z then s.sp0 else s.sp1) - 16#32) (v := f)
    (pushFrameWord_from (m := m) (a := (if z then s.sp0 else s.sp1) - 16#32 + 4#32) (v := r0)
      (pushFrameWord_from (m := m) (a := (if z then s.sp0 else s.sp1) - 16#32 + 8#32) (v := r1)
        (pushFrameWord_from (m := m) (a := (if z then s.sp0 else s.sp1) - 16#32 + 12#32)
          (v := ret) (show PushedFrom s (.ok s) from .refl s))))
  split at h
  · cases h
  · cases h
  · rename_i s' hs
    rw [hs] at all
    injection h with h
    subst h
    exact ⟨s', all, by cases z <;> rfl⟩

/-- A context push that fails has changed memory only. -/
theorem contextPush_failed {z : Bool} {m : Mode} {ret r1 r0 f : Word} {s t : State}
    {k : ErrorKind} (h : contextPush z m ret r1 r0 f s = .failed k t) : MemoryOnly s t := by
  unfold contextPush at h
  simp only at h
  have all := pushFrameWord_from (m := m) (a := (if z then s.sp0 else s.sp1) - 16#32) (v := f)
    (pushFrameWord_from (m := m) (a := (if z then s.sp0 else s.sp1) - 16#32 + 4#32) (v := r0)
      (pushFrameWord_from (m := m) (a := (if z then s.sp0 else s.sp1) - 16#32 + 8#32) (v := r1)
        (pushFrameWord_from (m := m) (a := (if z then s.sp0 else s.sp1) - 16#32 + 12#32)
          (v := ret) (show PushedFrom s (.ok s) from .refl s))))
  split at h
  · rename_i k' s' hs
    rw [hs] at all
    injection h with hk ht
    subst ht
    exact all
  · cases h
  · cases h

/-- A context push succeeds where its four writes do: the words are in memory, in the order of R484,
and the stack pointer is below them. -/
theorem contextPush_done {z : Bool} {m : Mode} {ret r1 r0 f : Word} {s : State} {b : Word}
    (hb : b = (if z then s.sp0 else s.sp1) - 16#32) (h : FrameWritable s m b) :
    contextPush z m ret r1 r0 f s
      = .ok (if z then { s.putWords (frameWords b ret r1 r0 f) with sp0 := b }
             else { s.putWords (frameWords b ret r1 r0 f) with sp1 := b }) := by
  subst hb
  obtain ⟨h0, h4, h8, h12⟩ := h
  unfold contextPush
  simp only
  rw [pushFrameWord_ok ret h12, pushFrameWord_ok r1, pushFrameWord_ok r0, pushFrameWord_ok f]
  · rfl
  · exact WriteOkIn_congr (s := s) rfl rfl h0
  · exact WriteOkIn_congr (s := s) rfl rfl h4
  · exact WriteOkIn_congr (s := s) rfl rfl h8

/-- The memory after the words of a frame are written. -/
@[simp] theorem putWords_frame_mem (s : State) (b ret r1 r0 f : Word) :
    (s.putWords (frameWords b ret r1 r0 f)).mem = frameMem s.mem b ret r1 r0 f := rfl

/-- An entry that answers a state loaded PC from the vector, a legal address. -/
theorem enterVector_next {m : Mode} {a : Word} {s t : State} (h : enterVector m a s = .next t) :
    ∃ u v, MemoryOnly s u ∧ t = { u with pc := v, blkRun := 0, event := true } ∧ TargetOk v := by
  unfold enterVector at h
  split at h
  · cases h
  · rename_i v s1 hv
    obtain ⟨hl, hok⟩ := vectorAt_done hv
    injection h with h
    exact ⟨s1, v, load_memoryOnly hl, h.symm, hok⟩

theorem enterVector_ok {m : Mode} {a : Word} {s : State} (h : VectorOk s s.mem m a) :
    enterVector m a s = .next { s with pc := read32 s.mem a, blkRun := 0, event := true } := by
  unfold enterVector; rw [vectorAt_ok h]

/-! ### The return from an event -/

/-- A return that is done: the frame's four words were read and committed (R411). -/
theorem returnFromEvent_ok {s : State} (h0 : ReadOk s .word s.sp) (h4 : ReadOk s .word (s.sp + 4#32))
    (h8 : ReadOk s .word (s.sp + 8#32)) (h12 : ReadOk s .word (s.sp + 12#32)) :
    returnFromEvent s
      = branchTo 2#4 (read32 s.mem (s.sp + 12#32))
          (((((s.accessed .read .word s.sp).accessed .read .word (s.sp + 4#32)).accessed .read .word
            (s.sp + 8#32)).accessed .read .word (s.sp + 12#32)).returned (read32 s.mem s.sp)
              (read32 s.mem (s.sp + 4#32)) (read32 s.mem (s.sp + 8#32))) := by
  unfold returnFromEvent
  rw [readDataP_ok _ h0]
  simp only
  rw [readDataP_ok (s := s.accessed .read .word s.sp) _ (ReadOkIn_congr (s := s) rfl rfl h4)]
  simp only
  rw [readDataP_ok (s := (s.accessed .read .word s.sp).accessed .read .word (s.sp + 4#32)) _
    (ReadOkIn_congr (s := s) rfl rfl h8)]
  simp only
  rw [readDataP_ok (s := ((s.accessed .read .word s.sp).accessed .read .word
      (s.sp + 4#32)).accessed .read .word (s.sp + 8#32)) _ (ReadOkIn_congr (s := s) rfl rfl h12)]
  rfl

/-! ### The fetch -/

/-- A half-word in memory, not stale, that the MMU lets through is fetched as it stands. -/
theorem fetchHalf_ok {s : State} {a : Word} (hs : s.stale = []) (hc : fetchCheck s a = none)
    (hp : s.place 2 a = .memory) : fetchHalf s a = .half (read16 s.mem a) s := by
  have hv : fld (loadMem s.mem .half a) 0 16 = read16 s.mem a := by
    unfold fld loadMem
    ext i hi
    simp [hi]
    omega
  unfold fetchHalf
  rw [hc]
  simp only
  rw [load_memory (w := .half) hp]
  simp only [hv]
  congr 1
  · rw [hs]; rfl
  · cases s; cases hs; rfl

theorem fetchHalf_failed {s : State} {a : Word} {k : ErrorKind} (hc : fetchCheck s a = some k) :
    fetchHalf s a = .failed k s := by
  unfold fetchHalf; rw [hc]

end Sys2Proof.Machine
end

