-- ==== Sys2Proof/Laws/Invariant.lean ====
section
/-! SUPPORT. What the shared operations keep of `State.Arch`: every update of a register, a memory
write, a trap, an event entry, a reset. -/

namespace Sys2Proof.Machine

/-! ### Bits of aligned words -/

theorem even_add {a b : Word} (ha : a.getLsbD 0 = false) (hb : b.getLsbD 0 = false) :
    (a + b).getLsbD 0 = false := by
  have ha' : a.toNat % 2 = 0 := by
    have := ha; rw [BitVec.getLsbD, Nat.testBit_zero] at this; simpa using this
  have hb' : b.toNat % 2 = 0 := by
    have := hb; rw [BitVec.getLsbD, Nat.testBit_zero] at this; simpa using this
  rw [BitVec.getLsbD, Nat.testBit_zero, BitVec.toNat_add]
  simp only [decide_eq_false_iff_not]
  omega

/-- A word is a multiple of 4 exactly where its low two bits are 0. -/
theorem aligned_iff (a : Word) : fld a 0 2 = 0#2 ↔ a.toNat % 4 = 0 := by
  rw [← BitVec.toNat_inj]; simp [BitVec.extractLsb'_toNat]

theorem aligned_add {a b : Word} (ha : fld a 0 2 = 0#2) (hb : fld b 0 2 = 0#2) :
    fld (a + b) 0 2 = 0#2 := by
  rw [aligned_iff] at *; rw [BitVec.toNat_add]; omega

theorem aligned_sub {a b : Word} (ha : fld a 0 2 = 0#2) (hb : fld b 0 2 = 0#2) :
    fld (a - b) 0 2 = 0#2 := by
  rw [aligned_iff] at *; rw [BitVec.toNat_sub]; omega

/-- The even neighbour of a word is even. -/
theorem even_mask (a : Word) : (a &&& 0xFFFFFFFE#32).getLsbD 0 = false := by
  rw [BitVec.getLsbD_and]; simp

theorem length_even (i : Instr) : i.length.getLsbD 0 = false := by
  unfold Instr.length; split <;> rfl

/-! ### Updates -/

/-- Only memory, PC, the stack pointers, GP, VP, INFO, the parameters and the prefetch buffer's
leftovers matter. -/
theorem Arch_congr {s t : State} (h : s.Arch)
    (e : (t.mem, t.pc, t.sp0, t.sp1, t.gp, t.vp, t.info, t.params, t.stale)
      = (s.mem, s.pc, s.sp0, s.sp1, s.gp, s.vp, s.info, s.params, s.stale)) : t.Arch := by
  simp only [Prod.mk.injEq] at e
  obtain ⟨hm, hp, h0, h1, hg, hv, hi, hq, hl⟩ := e
  exact ⟨hm ▸ h.memory, hp ▸ h.pcEven, h0 ▸ h.sp0Aligned, h1 ▸ h.sp1Aligned, hg ▸ h.gpAligned,
    hv ▸ h.vpAligned, hi ▸ h.infoFree, hi ▸ h.stack1Later, hq ▸ hl ▸ h.noBuffer⟩

/-- What an access does to the memory system keeps the invariant. -/
theorem Arch_memoryOnly {s t : State} (h : s.Arch) (g : MemoryOnly s t) : t.Arch := by
  obtain ⟨m, l, d, rfl, hm, hl⟩ := g
  exact ⟨hm h.memory, h.pcEven, h.sp0Aligned, h.sp1Aligned, h.gpAligned, h.vpAligned, h.infoFree,
    h.stack1Later, fun z => (hl z).trans (h.noBuffer z)⟩

/-- The number of the next draw does not matter. -/
theorem Arch_draws {s : State} (h : s.Arch) (n : Nat) : State.Arch { s with freeNext := n } :=
  Arch_congr h rfl

theorem Arch_setReg {s : State} (h : s.Arch) (r : Reg) (v : Word) : (s.setReg r v).Arch :=
  Arch_congr h rfl

theorem Arch_setFlags {s : State} (h : s.Arch) (f : Word) : (s.setFlags f).Arch :=
  Arch_congr h rfl

theorem Arch_result {s : State} (h : s.Arch) (r : Reg) (v f : Word) : (s.result r v f).Arch :=
  Arch_congr h rfl

theorem Arch_accessed {s : State} (h : s.Arch) (k : AccessKind) (w : Width) (a : Word) :
    (s.accessed k w a).Arch := Arch_congr h rfl

theorem Arch_setS {s : State} (h : s.Arch) (k : Nat) : (s.setS k).Arch :=
  Arch_congr h rfl

theorem Arch_setDone {s : State} (h : s.Arch) (k : Nat) : (s.setDone k).Arch :=
  Arch_congr h rfl

theorem Arch_blkMore {s : State} (h : s.Arch) : s.blkMore.Arch :=
  Arch_congr h rfl

theorem Arch_drawReg {s : State} (h : s.Arch) (r : Reg) : (s.drawReg r).Arch :=
  Arch_congr h rfl

theorem Arch_cluTaken {s : State} (h : s.Arch) (q : CluRequest) : (s.cluTaken q).Arch :=
  Arch_congr h rfl

theorem Arch_flagsUsed {s : State} (h : s.Arch) : s.flagsUsed.Arch :=
  Arch_congr h (by simp)

theorem Arch_brkeUsed {s : State} (h : s.Arch) : s.brkeUsed.Arch :=
  Arch_congr h (by simp)

theorem Arch_copyDrawn {s : State} (h : s.Arch) (d : Bool) : (s.copyDrawn d).Arch :=
  Arch_congr h (by simp)

theorem Arch_sourced {s : State} (h : s.Arch) (x : BlkSrc) : (s.sourced x).Arch :=
  Arch_congr h (by simp)

theorem Arch_setPc {s : State} (h : s.Arch) {t : Word} (ht : t.getLsbD 0 = false) :
    State.Arch { s with pc := t } :=
  ⟨h.memory, ht, h.sp0Aligned, h.sp1Aligned, h.gpAligned, h.vpAligned, h.infoFree, h.stack1Later,
    h.noBuffer⟩

theorem Arch_putMem {s : State} (h : s.Arch) {m : List Host.Cell} (hm : Memory.wf m = true) :
    (s.putMem m).Arch := Arch_memoryOnly h (.putMem fun _ => hm)

theorem Arch_advance {s : State} (h : s.Arch) (i : Instr) : (s.advance i.length).Arch :=
  Arch_setPc h (even_add h.pcEven (length_even i))

theorem Arch_setSp {s : State} (h : s.Arch) {v : Word} (hv : fld v 0 2 = 0#2) :
    (s.setSp v).Arch := by
  unfold State.setSp
  split
  · exact ⟨h.memory, h.pcEven, hv, h.sp1Aligned, h.gpAligned, h.vpAligned, h.infoFree, h.stack1Later,
    h.noBuffer⟩
  · exact ⟨h.memory, h.pcEven, h.sp0Aligned, hv, h.gpAligned, h.vpAligned, h.infoFree, h.stack1Later,
    h.noBuffer⟩

theorem Arch_sp {s : State} (h : s.Arch) : fld s.sp 0 2 = 0#2 := by
  unfold State.sp; split
  · exact h.sp0Aligned
  · exact h.sp1Aligned

/-! ### INFO -/

/-- Writing one of the bits K0, K1, NL, R keeps the FREE bits zero. -/
theorem infoFree_putBit {x : Word} {k : Nat} (b : Bool) (hk : k < 32)
    (hc : (0xFFFFFECC#32).getLsbD k = false) (h : x &&& 0xFFFFFECC#32 = 0#32) :
    putBit x k b &&& 0xFFFFFECC#32 = 0#32 := by
  apply BitVec.eq_of_getLsbD_eq
  intro i hi
  have hx := congrArg (fun y => y.getLsbD i) h
  simp only [BitVec.getLsbD_and] at hx ⊢
  rw [putBit_bit x k i b hk hi]
  by_cases e : i = k
  · subst e; rw [hc]; simp
  · rw [if_neg e, hx]

theorem infoK0_putBit_other (x : Word) (k : Nat) (b : Bool) (hk : k < 32) (h : 0 ≠ k) :
    infoK0 (putBit x k b) = infoK0 x := putBit_other x k 0 b hk (by decide) h

theorem infoK1_putBit_other (x : Word) (k : Nat) (b : Bool) (hk : k < 32) (h : 1 ≠ k) :
    infoK1 (putBit x k b) = infoK1 x := putBit_other x k 1 b hk (by decide) h

/-- A write of NL or R keeps what the invariant says of INFO. -/
theorem Arch_setLock {s : State} (h : s.Arch) (k : Nat) (b : Bool) (hk : k = 4 ∨ k = 5) :
    State.Arch { s with info := putBit s.info k b } := by
  refine ⟨h.memory, h.pcEven, h.sp0Aligned, h.sp1Aligned, h.gpAligned, h.vpAligned, ?_, ?_,
    h.noBuffer⟩
  · rcases hk with rfl | rfl
    · exact infoFree_putBit b (by decide) (by decide) h.infoFree
    · exact infoFree_putBit b (by decide) (by decide) h.infoFree
  · rcases hk with rfl | rfl
    · rw [infoK0_putBit_other _ _ _ (by decide) (by decide),
        infoK1_putBit_other _ _ _ (by decide) (by decide)]
      exact h.stack1Later
    · rw [infoK0_putBit_other _ _ _ (by decide) (by decide),
        infoK1_putBit_other _ _ _ (by decide) (by decide)]
      exact h.stack1Later

/-! ### Resets and entries -/

theorem Arch_resetInto {s t : State} {off : Word} (h : s.Arch) (e : resetInto s off = .next t) :
    t.Arch := by
  obtain ⟨u, vp, pc, g, rfl, h8, hok⟩ := resetInto_next e
  have a := Arch_memoryOnly h g
  exact ⟨a.memory, hok.1, a.sp0Aligned, a.sp1Aligned, a.gpAligned, h8, a.infoFree, a.stack1Later,
    a.noBuffer⟩

theorem Arch_hardReset {s t : State} (hm : Memory.wf s.mem = true) (e : hardReset s = .next t) :
    t.Arch := by
  refine Arch_resetInto ?_ e
  have z : fld (0#32 : Word) 0 2 = 0#2 := by decide
  exact ⟨hm, (by decide : (0#32 : Word).getLsbD 0 = false), z, z, z,
    (by decide : fld (0#32 : Word) 0 8 = 0#8), (by decide : (0#32 : Word) &&& 0xFFFFFECC#32 = 0#32),
    fun h => absurd (show infoK1 0#32 = true from h) (by decide), fun _ => rfl⟩

theorem Arch_softReset {s t : State} {ty : BitVec 3} {n : BitVec 5} {p : Word} (h : s.Arch)
    (e : softReset ty n p s = .next t) : t.Arch := by
  refine Arch_resetInto ?_ e
  have hb := Arch_brkeUsed (Arch_flagsUsed h)
  exact ⟨hb.memory, hb.pcEven, hb.sp0Aligned, hb.sp1Aligned,
    (by decide : fld (0#32 : Word) 0 2 = 0#2), hb.vpAligned,
    (by decide : (0x00000100#32 : Word) &&& 0xFFFFFECC#32 = 0#32),
    fun h => absurd (show infoK1 0x00000100#32 = true from h) (by decide), fun _ => rfl⟩

theorem Arch_contextPush_ok {z : Bool} {m : Mode} {ret r1 r0 f : Word} {s t : State} (h : s.Arch)
    (e : contextPush z m ret r1 r0 f s = .ok t) : t.Arch := by
  obtain ⟨u, g, rfl⟩ := contextPush_ok e
  have a := Arch_memoryOnly h g
  cases z
  · exact ⟨a.memory, a.pcEven, a.sp0Aligned, aligned_sub h.sp1Aligned (by decide), a.gpAligned,
      a.vpAligned, a.infoFree, a.stack1Later, a.noBuffer⟩
  · exact ⟨a.memory, a.pcEven, aligned_sub h.sp0Aligned (by decide), a.sp1Aligned, a.gpAligned,
      a.vpAligned, a.infoFree, a.stack1Later, a.noBuffer⟩

theorem Arch_contextPush_failed {z : Bool} {m : Mode} {ret r1 r0 f : Word} {s t : State}
    {k : ErrorKind} (h : s.Arch) (e : contextPush z m ret r1 r0 f s = .failed k t) : t.Arch := by
  exact Arch_memoryOnly h (contextPush_failed e)

theorem Arch_enterVector {m : Mode} {a : Word} {s t : State} (h : s.Arch)
    (e : enterVector m a s = .next t) : t.Arch := by
  obtain ⟨u, v, g, rfl, hok⟩ := enterVector_next e
  exact Arch_congr (Arch_setPc (Arch_memoryOnly h g) hok.1) rfl

theorem Arch_errorEntered {s : State} (h : s.Arch) (low : Bool) (p : BitVec 4) (t : Word) :
    (s.errorEntered low p t).Arch := by
  unfold State.errorEntered
  cases low
  · exact Arch_congr (Arch_setLock h 5 true (Or.inr rfl)) rfl
  · exact Arch_congr h rfl

theorem Arch_serviceEntered {s : State} (h : s.Arch) (arg : Word) : (s.serviceEntered arg).Arch :=
  Arch_congr h rfl

theorem Arch_interruptEntered {s : State} (h : s.Arch) (nmi : Bool) (p : BitVec 4) :
    (s.interruptEntered nmi p).Arch := by
  unfold State.interruptEntered
  cases nmi
  · exact Arch_congr h rfl
  · exact Arch_congr (Arch_setLock h 4 true (Or.inl rfl)) rfl

theorem Arch_raiseError {k : ErrorKind} {p : BitVec 4} {ret tp ep : Word} {s t : State}
    (h : s.Arch) (e : raiseError k p ret tp ep s = .next t) : t.Arch := by
  unfold raiseError at e
  split at e
  · exact Arch_softReset h e
  · split at e
    · exact Arch_softReset h e
    · simp only at e
      split at e
      · rename_i hp; exact Arch_softReset (Arch_contextPush_failed (Arch_flagsUsed h) hp) e
      · cases e
      · rename_i hp
        exact Arch_enterVector (Arch_errorEntered (Arch_contextPush_ok (Arch_flagsUsed h) hp) _ _ _) e

theorem Arch_raiseService {nt ns : BitVec 5} {arg ret er tp ep : Word} {s t : State} (h : s.Arch)
    (e : raiseService nt ns arg ret er tp ep s = .next t) : t.Arch := by
  unfold raiseService at e
  split at e
  · exact Arch_softReset h e
  · split at e
    · split at e
      · exact Arch_softReset h e
      · split at e
        · rename_i hp; exact Arch_raiseError (Arch_contextPush_failed (Arch_flagsUsed h) hp) e
        · cases e
        · rename_i hp
          exact Arch_enterVector
            (Arch_serviceEntered (Arch_contextPush_ok (Arch_flagsUsed h) hp) _) e
    · split at e
      · exact Arch_softReset h e
      · split at e
        · rename_i hp; exact Arch_softReset (Arch_contextPush_failed (Arch_flagsUsed h) hp) e
        · cases e
        · rename_i hp
          exact Arch_enterVector
            (Arch_serviceEntered (Arch_contextPush_ok (Arch_flagsUsed h) hp) _) e

theorem Arch_interruptEntry {n : BitVec 5} {p : BitVec 4} {s t : State} (h : s.Arch)
    (e : interruptEntry n p s = .next t) : t.Arch := by
  unfold interruptEntry at e
  simp only at e
  split at e
  · rename_i hp; exact Arch_softReset (Arch_contextPush_failed (Arch_flagsUsed h) hp) e
  · cases e
  · rename_i hp
    exact Arch_enterVector (Arch_interruptEntered (Arch_contextPush_ok (Arch_flagsUsed h) hp) _ _) e

theorem Arch_takeTrap {x : Trap} {s t : State} (h : s.Arch) (e : takeTrap x s = .next t) :
    t.Arch := by
  cases x with
  | error k p r => exact Arch_raiseError h e
  | stackGuard => exact Arch_softReset h e
  | refuse r => cases e

/-! ### Attempts -/

/-- Whether an attempt is done or traps, its state keeps the invariant. -/
def AttemptArch {α : Type} (r : Attempt α) : Prop :=
  match r with
  | .done _ s => s.Arch
  | .trap _ s => s.Arch

theorem Arch_settle {r : Attempt Unit} {t : State} (h : AttemptArch r) (e : settle r = .next t) :
    t.Arch := by
  cases r with
  | done u s => injection e with e; subst e; exact h
  | trap x s => exact Arch_takeTrap h e

theorem AttemptArch_andThen {α β : Type} {r : Attempt α} {k : α → State → Attempt β}
    (h : AttemptArch r) (hk : ∀ a s, r = .done a s → s.Arch → AttemptArch (k a s)) :
    AttemptArch (andThen r k) := by
  cases r with
  | done a s => exact hk a s rfl h
  | trap x s => exact h

theorem AttemptArch_spGuard {s : State} (u : Bool) (h : s.Arch) : AttemptArch (spGuard u s) := by
  rcases spGuard_cases u s with e | ⟨e, -, -⟩ <;> rw [e] <;> exact h

theorem AttemptArch_readDataP {s : State} (p : BitVec 4) (w : Width) (a : Word) (h : s.Arch) :
    AttemptArch (readDataP p w a s) := by
  rcases readDataP_cases p w a s with ⟨k, -, e⟩ | ⟨-, ⟨r, e⟩ | ⟨v, t, g, e⟩⟩ <;> rw [e]
  · exact h
  · exact h
  · exact Arch_accessed (Arch_memoryOnly h (load_memoryOnly g)) _ _ _

theorem AttemptArch_readData {s : State} (w : Width) (a : Word) (h : s.Arch) :
    AttemptArch (readData w a s) := AttemptArch_readDataP _ w a h

theorem AttemptArch_writeData {s : State} (w : Width) (a v : Word) (h : s.Arch) :
    AttemptArch (writeData w a v s) := by
  rcases writeData_cases w a v s with ⟨k, -, e⟩ | ⟨-, ⟨r, e⟩ | ⟨t, g, e⟩⟩ <;> rw [e]
  · exact h
  · exact h
  · exact Arch_accessed (Arch_memoryOnly h (store_memoryOnly g)) _ _ _

theorem AttemptArch_branchTo {s : State} (p : BitVec 4) (t : Word) (h : s.Arch) :
    AttemptArch (branchTo p t s) := by
  unfold branchTo
  split
  · exact h
  · split
    · exact h
    · rename_i h0 _
      exact Arch_setPc h (by simpa using h0)

theorem AttemptArch_pushWord {s : State} (v : Word) (h : s.Arch) : AttemptArch (pushWord v s) :=
  AttemptArch_andThen (AttemptArch_writeData _ _ _ h) fun _ _ _ h1 =>
    Arch_setSp h1 (aligned_sub (Arch_sp h) (by decide))

theorem AttemptArch_popWord {s : State} (h : s.Arch) : AttemptArch (popWord s) :=
  AttemptArch_andThen (AttemptArch_readData _ _ h) fun _ _ _ h1 =>
    Arch_setSp h1 (aligned_add (Arch_sp h) (by decide))

end Sys2Proof.Machine
end

