-- ==== Sys2Proof/Laws/PerInstr.lean ====
section
/-! SUPPORT. A family of lemmas with one per constructor of `Instr`: the encoding of a well-formed
instruction has one, two or three half-words (R100). -/

namespace Sys2Proof

/-- One, two or three half-words. -/
def Sized (l : List Half) : Prop := 1 ≤ l.length ∧ l.length ≤ 3

theorem sized1 (a : Half) : Sized [a] := ⟨by simp, by simp⟩

theorem sized2 (a b : Half) : Sized [a, b] := ⟨by simp, by simp⟩

theorem sized3 (a b c : Half) : Sized [a, b, c] := ⟨by simp, by simp⟩

theorem sized_enc16 (h : Half) : Sized (enc16 h) := sized1 h

theorem sized_encA (a b : BitVec 3) (o : BitVec 5) (v : Imm) : Sized (encA a b o v) := by
  cases v
  · exact sized3 _ _ _
  · exact sized2 _ _

theorem sized_encB (a b c : BitVec 3) (u : Half) : Sized (encB a b c u) := sized2 _ _

theorem sized_encC (a b c : BitVec 3) (u : Half) : Sized (encC a b c u) := sized2 _ _

theorem sized_encDispA (zz : BitVec 2) (t : BitVec 1) (r ra : Reg) (v : Imm) :
    Sized (encDispA zz t r (.reg ra v)) := sized_encA _ _ _ _

theorem sized_encDispA_named (zz : BitVec 2) (t : BitVec 1) (r : Reg) (b : Base) (v : Imm) :
    Sized (encDispA zz t r (.named b v)) := sized_encA _ _ _ _

theorem sized_encDisp8 (t : BitVec 1) (r : Reg) (d : Disp) : Sized (encDisp8 t r d) := by
  cases d <;> first | exact sized_encA _ _ _ _ | exact sized1 _

theorem sized_encDisp16 (t : BitVec 1) (r : Reg) (d : Disp) : Sized (encDisp16 t r d) := by
  cases d <;> first | exact sized_encA _ _ _ _ | exact sized1 _

theorem sized_encDisp32 (t : BitVec 1) (r : Reg) (d : Disp) : Sized (encDisp32 t r d) := by
  cases d <;> first | exact sized_encA _ _ _ _ | exact sized1 _

theorem sized_encSt8I {src : StoreSrc} {d : Disp} (h : storeFormOk src d = true) :
    Sized (encSt8I src d) := by
  cases src <;> cases d <;> first | exact sized_encA _ _ _ _ | exact sized1 _ | cases h

theorem sized_encSt16I {src : StoreSrc} {d : Disp} (h : storeFormOk src d = true) :
    Sized (encSt16I src d) := by
  cases src <;> cases d <;> first | exact sized_encA _ _ _ _ | exact sized1 _ | cases h

theorem sized_encStI {src : StoreSrc} {d : Disp} (h : storeFormOk src d = true) :
    Sized (encStI src d) := by
  cases src <;> cases d <;> first | exact sized_encA _ _ _ _ | exact sized1 _ | cases h

theorem sized_encJump (k : BitVec 1) (f : JumpForm) : Sized (encJump k f) := by
  cases f <;> simp only [encJump] <;> first | exact sized_encA _ _ _ _ | exact sized1 _ | exact sized2 _ _

theorem sized_encTable (k : BitVec 1) (f : TableForm) : Sized (encTable k f) := by
  cases f <;> simp only [encTable] <;> first | exact sized_encA _ _ _ _ | exact sized1 _

theorem sized_encCond (c : BitVec 6) (t : BitVec 3) (n : BitVec 1) (f : CondForm) :
    Sized (encCond c t n f) := by
  cases f <;> first | exact sized1 _ | exact sized2 _ _

theorem sized_encTest (c : BitVec 3) (n : BitVec 1) (r : Reg) (f : TestForm) :
    Sized (encTest c n r f) := by
  cases f <;> first | exact sized1 _ | exact sized2 _ _

theorem sized_encLdR (o : BitVec 4) (u : Half) (rd rx : Reg) (b : IndexBase) :
    Sized (encLdR o u rd rx b) := by
  cases b <;> first | exact sized1 _ | exact sized2 _ _

theorem sized_encStR (o : BitVec 4) (zz : BitVec 2) (src : StoreSrc) (rx : Reg) (b : IndexBase) :
    Sized (encStR o zz src rx b) := by
  cases src <;> cases b <;> first | exact sized1 _ | exact sized2 _ _

theorem sized_encPushI (f : PushIForm) : Sized (encPushI f) := by
  cases f <;> simp only [encPushI] <;> first | exact sized_encA _ _ _ _ | exact sized1 _

theorem sized_encShift (t : BitVec 3) (u : BitVec 2) (f : ShiftForm) : Sized (encShift t u f) := by
  cases f <;> first | exact sized1 _ | exact sized2 _ _

theorem sized_encMovI (f : MovIForm) : Sized (encMovI f) := by
  cases f <;> simp only [encMovI] <;> first | exact sized_encA _ _ _ _ | exact sized1 _

theorem sized_encAddI (f : AddIForm) : Sized (encAddI f) := by
  cases f <;> simp only [encAddI] <;> first | exact sized_encA _ _ _ _ | exact sized1 _

theorem sized_encMov1R (p : Params) (f : Mov1Form) : Sized (encMov1R p f) := by
  cases f <;> first | exact sized1 _ | exact sized2 _ _

theorem sized_encLost {pat : Option (BitVec 18)} (regs : BitVec 8) (off : BitVec 6)
    (h : lostPatternOk pat = true) : Sized (encLost pat regs off) := by
  cases pat with
  | none => cases h
  | some v => exact sized2 _ _

end Sys2Proof

namespace Sys2Proof.Laws.Shape

/-- The encoding of the instruction, where it has one, is one, two or three half-words. -/
def Statement (i : Instr) : Prop := ∀ p : Params, i.wf p = true → Sized (encode p i)

theorem braI (f : JumpForm) :
    Statement (.braI f) := fun _ _ => sized_encJump _ _

theorem bsrI (f : JumpForm) :
    Statement (.bsrI f) := fun _ _ => sized_encJump _ _

theorem braM (f : TableForm) :
    Statement (.braM f) := fun _ _ => sized_encTable _ _

theorem bsrM (f : TableForm) :
    Statement (.bsrM f) := fun _ _ => sized_encTable _ _

theorem beq (f : CondForm) :
    Statement (.beq f) := fun _ _ => sized_encCond _ _ _ _

theorem bne (f : CondForm) :
    Statement (.bne f) := fun _ _ => sized_encCond _ _ _ _

theorem bleS (f : CondForm) :
    Statement (.bleS f) := fun _ _ => sized_encCond _ _ _ _

theorem bgtS (f : CondForm) :
    Statement (.bgtS f) := fun _ _ => sized_encCond _ _ _ _

theorem bltS (f : CondForm) :
    Statement (.bltS f) := fun _ _ => sized_encCond _ _ _ _

theorem bgeS (f : CondForm) :
    Statement (.bgeS f) := fun _ _ => sized_encCond _ _ _ _

theorem bleU (f : CondForm) :
    Statement (.bleU f) := fun _ _ => sized_encCond _ _ _ _

theorem bgtU (f : CondForm) :
    Statement (.bgtU f) := fun _ _ => sized_encCond _ _ _ _

theorem bcs (f : CondForm) :
    Statement (.bcs f) := fun _ _ => sized_encCond _ _ _ _

theorem bcc (f : CondForm) :
    Statement (.bcc f) := fun _ _ => sized_encCond _ _ _ _

theorem bmi (off : BitVec 16) :
    Statement (.bmi off) := fun _ _ => sized2 _ _

theorem bpl (off : BitVec 16) :
    Statement (.bpl off) := fun _ _ => sized2 _ _

theorem bvs (off : BitVec 16) :
    Statement (.bvs off) := fun _ _ => sized2 _ _

theorem bvc (off : BitVec 16) :
    Statement (.bvc off) := fun _ _ => sized2 _ _

theorem bezR (rs : Reg) (f : TestForm) :
    Statement (.bezR rs f) := fun _ _ => sized_encTest _ _ _ _

theorem bnzR (rs : Reg) (f : TestForm) :
    Statement (.bnzR rs f) := by
  intro p h
  cases f <;> first | exact sized1 _ | exact sized2 _ _

theorem ld8zI (rd : Reg) (a : Disp) :
    Statement (.ld8zI rd a) := fun _ _ => sized_encDisp8 _ _ _

theorem ld16zI (rd : Reg) (a : Disp) :
    Statement (.ld16zI rd a) := fun _ _ => sized_encDisp16 _ _ _

theorem ldI (rd : Reg) (a : Disp) :
    Statement (.ldI rd a) := fun _ _ => sized_encDisp32 _ _ _

theorem st8I (src : StoreSrc) (a : Disp) :
    Statement (.st8I src a) := fun _ h =>
  sized_encSt8I (Bool.and_eq_true_iff.mp h).1

theorem st16I (src : StoreSrc) (a : Disp) :
    Statement (.st16I src a) := fun _ h =>
  sized_encSt16I (Bool.and_eq_true_iff.mp h).1

theorem stI (src : StoreSrc) (a : Disp) :
    Statement (.stI src a) := fun _ h =>
  sized_encStI (Bool.and_eq_true_iff.mp h).1

theorem ld8zR (rd : Reg) (rx : Reg) (b : IndexBase) :
    Statement (.ld8zR rd rx b) := fun _ _ => sized_encLdR _ _ _ _ _

theorem ld16zR (rd : Reg) (rx : Reg) (b : IndexBase) :
    Statement (.ld16zR rd rx b) := fun _ _ => sized_encLdR _ _ _ _ _

theorem ldR (rd : Reg) (rx : Reg) (b : IndexBase) :
    Statement (.ldR rd rx b) := fun _ _ => sized_encLdR _ _ _ _ _

theorem st8R (src : StoreSrc) (rx : Reg) (b : IndexBase) :
    Statement (.st8R src rx b) := fun _ _ => sized_encStR _ _ _ _ _

theorem st16R (src : StoreSrc) (rx : Reg) (b : IndexBase) :
    Statement (.st16R src rx b) := fun _ _ => sized_encStR _ _ _ _ _

theorem stR (src : StoreSrc) (rx : Reg) (b : IndexBase) :
    Statement (.stR src rx b) := fun _ _ => sized_encStR _ _ _ _ _

theorem swapI (rd : Reg) (ra : Reg) :
    Statement (.swapI rd ra) := fun _ _ => sized2 _ _

theorem push (f : PushForm) :
    Statement (.push f) := by
  intro p h
  cases f <;> first | exact sized1 _ | exact sized_encLost _ _ (Bool.and_eq_true_iff.mp h).2

theorem pop (f : PopForm) :
    Statement (.pop f) := by
  intro p h
  cases f <;> first | exact sized1 _ | exact sized_encLost _ _ (Bool.and_eq_true_iff.mp h).2

theorem popRet (f : PopRetForm) :
    Statement (.popRet f) := by
  intro p h
  cases f <;> first | exact sized1 _ | exact sized_encLost _ _ (Bool.and_eq_true_iff.mp h).2

theorem pushI (f : PushIForm) :
    Statement (.pushI f) := fun _ _ => sized_encPushI _

theorem movI (f : MovIForm) :
    Statement (.movI f) := fun _ _ => sized_encMovI _

theorem movR (f : MovRForm) :
    Statement (.movR f) := by
  intro p h
  cases f <;> first | exact sized1 _ | exact sized2 _ _

theorem movFR (f : MovFForm) :
    Statement (.movFR f) := by
  intro p h
  cases f <;> first | exact sized1 _ | exact sized2 _ _

theorem addI (f : AddIForm) :
    Statement (.addI f) := fun _ _ => sized_encAddI _

theorem addCI (f : AddCIForm) :
    Statement (.addCI f) := by
  intro p h
  cases f <;> first | exact sized1 _ | exact sized_encA _ _ _ _

theorem addNI (rd : Reg) (rs : Reg) (v : Imm) :
    Statement (.addNI rd rs v) := fun _ _ => sized_encA _ _ _ _

theorem addR (rd : Reg) (rs : Reg) (rt : Reg) :
    Statement (.addR rd rs rt) := fun _ _ => sized1 _

theorem addCR (rd : Reg) (rs : Reg) (rt : Reg) :
    Statement (.addCR rd rs rt) := fun _ _ => sized1 _

theorem addNR (rd : Reg) (rs : Reg) (rt : Reg) :
    Statement (.addNR rd rs rt) := fun _ _ => sized2 _ _

theorem subR (rd : Reg) (rs : Reg) (rt : Reg) :
    Statement (.subR rd rs rt) := fun _ _ => sized1 _

theorem subCR (rd : Reg) (rs : Reg) (rt : Reg) :
    Statement (.subCR rd rs rt) := fun _ _ => sized1 _

theorem subXI (f : SubXForm) :
    Statement (.subXI f) := by
  intro p h
  cases f <;> first | exact sized1 _ | exact sized_encA _ _ _ _

theorem subXcI (f : SubXForm) :
    Statement (.subXcI f) := by
  intro p h
  cases f <;> first | exact sized1 _ | exact sized_encA _ _ _ _

theorem andI (f : AndIForm) :
    Statement (.andI f) := by
  intro p h
  cases f <;> first | exact sized1 _ | exact sized2 _ _ | exact sized_encA _ _ _ _

theorem andR (rd : Reg) (rs : Reg) (rt : Reg) :
    Statement (.andR rd rs rt) := fun _ _ => sized1 _

theorem orI (f : OrIForm) :
    Statement (.orI f) := by
  intro p h
  cases f <;> first | exact sized1 _ | exact sized_encA _ _ _ _

theorem orR (rd : Reg) (rs : Reg) (rt : Reg) :
    Statement (.orR rd rs rt) := fun _ _ => sized1 _

theorem xorI (f : XorIForm) :
    Statement (.xorI f) := by
  intro p h
  cases f <;> first | exact sized1 _ | exact sized_encA _ _ _ _

theorem xorR (rd : Reg) (rs : Reg) (rt : Reg) :
    Statement (.xorR rd rs rt) := fun _ _ => sized1 _

theorem multI (rd : Reg) (rs : Reg) (v : Imm) :
    Statement (.multI rd rs v) := fun _ _ => sized_encA _ _ _ _

theorem multR (rd : Reg) (rs : Reg) (rt : Reg) :
    Statement (.multR rd rs rt) := fun _ _ => sized2 _ _

theorem mult16sI (rd : Reg) (rs : Reg) (v : BitVec 16) :
    Statement (.mult16sI rd rs v) := fun _ _ => sized2 _ _

theorem mult16sR (rd : Reg) (rs : Reg) (rt : Reg) :
    Statement (.mult16sR rd rs rt) := fun _ _ => sized2 _ _

theorem mult16uI (rd : Reg) (rs : Reg) (v : BitVec 16) :
    Statement (.mult16uI rd rs v) := fun _ _ => sized2 _ _

theorem mult16uR (rd : Reg) (rs : Reg) (rt : Reg) :
    Statement (.mult16uR rd rs rt) := fun _ _ => sized2 _ _

theorem divSR (rd : Reg) (rs : Reg) (rt : Reg) :
    Statement (.divSR rd rs rt) := fun _ _ => sized2 _ _

theorem divUR (rd : Reg) (rs : Reg) (rt : Reg) :
    Statement (.divUR rd rs rt) := fun _ _ => sized2 _ _

theorem remSR (rd : Reg) (rs : Reg) (rt : Reg) :
    Statement (.remSR rd rs rt) := fun _ _ => sized2 _ _

theorem remUR (rd : Reg) (rs : Reg) (rt : Reg) :
    Statement (.remUR rd rs rt) := fun _ _ => sized2 _ _

theorem divremSR (rdr : Reg) (rdq : Reg) (rt : Reg) :
    Statement (.divremSR rdr rdq rt) := fun _ _ => sized2 _ _

theorem divremUR (rdr : Reg) (rdq : Reg) (rt : Reg) :
    Statement (.divremUR rdr rdq rt) := fun _ _ => sized2 _ _

theorem cmpI (f : CmpIForm) :
    Statement (.cmpI f) := by
  intro p h
  cases f <;> first | exact sized1 _ | exact sized_encA _ _ _ _

theorem cmpXI (rs : Reg) (v : Imm) :
    Statement (.cmpXI rs v) := fun _ _ => sized_encA _ _ _ _

theorem cmpCI (rs : Reg) (v : Imm) :
    Statement (.cmpCI rs v) := fun _ _ => sized_encA _ _ _ _

theorem cmpXcI (rs : Reg) (v : Imm) :
    Statement (.cmpXcI rs v) := fun _ _ => sized_encA _ _ _ _

theorem cmpR (rs : Reg) (rt : Reg) :
    Statement (.cmpR rs rt) := fun _ _ => sized1 _

theorem cmpCR (rs : Reg) (rt : Reg) :
    Statement (.cmpCR rs rt) := fun _ _ => sized1 _

theorem cmp16I (f : Cmp16IForm) :
    Statement (.cmp16I f) := by
  intro p h
  cases f <;> first | exact sized1 _ | exact sized2 _ _

theorem cmp16xI (rs : Reg) (v : BitVec 16) :
    Statement (.cmp16xI rs v) := fun _ _ => sized2 _ _

theorem cmp16cI (rs : Reg) (v : BitVec 16) :
    Statement (.cmp16cI rs v) := fun _ _ => sized2 _ _

theorem cmp16xcI (rs : Reg) (v : BitVec 16) :
    Statement (.cmp16xcI rs v) := fun _ _ => sized2 _ _

theorem cmp16R (rs : Reg) (rt : Reg) :
    Statement (.cmp16R rs rt) := fun _ _ => sized1 _

theorem cmp16cR (rs : Reg) (rt : Reg) :
    Statement (.cmp16cR rs rt) := fun _ _ => sized1 _

theorem cmp8I (f : Cmp8IForm) :
    Statement (.cmp8I f) := by
  intro p h
  cases f <;> first | exact sized1 _ | exact sized2 _ _

theorem cmp8xI (rs : Reg) (v : BitVec 8) :
    Statement (.cmp8xI rs v) := fun _ _ => sized2 _ _

theorem cmp8cI (rs : Reg) (v : BitVec 8) :
    Statement (.cmp8cI rs v) := fun _ _ => sized2 _ _

theorem cmp8xcI (rs : Reg) (v : BitVec 8) :
    Statement (.cmp8xcI rs v) := fun _ _ => sized2 _ _

theorem cmp8R (rs : Reg) (rt : Reg) :
    Statement (.cmp8R rs rt) := fun _ _ => sized1 _

theorem cmp8cR (rs : Reg) (rt : Reg) :
    Statement (.cmp8cR rs rt) := fun _ _ => sized1 _

theorem shiftrSI (f : ShiftForm) :
    Statement (.shiftrSI f) := fun _ _ => sized_encShift _ _ _

theorem shiftrUI (f : ShiftForm) :
    Statement (.shiftrUI f) := fun _ _ => sized_encShift _ _ _

theorem shiftlI (f : ShiftForm) :
    Statement (.shiftlI f) := fun _ _ => sized_encShift _ _ _

theorem rotatelI (f : ShiftForm) :
    Statement (.rotatelI f) := fun _ _ => sized_encShift _ _ _

theorem shiftlR (rd : Reg) (rs : Reg) (rt : Reg) :
    Statement (.shiftlR rd rs rt) := fun _ _ => sized1 _

theorem shiftrSR (rd : Reg) (rs : Reg) (rt : Reg) :
    Statement (.shiftrSR rd rs rt) := fun _ _ => sized1 _

theorem shiftrUR (rd : Reg) (rs : Reg) (rt : Reg) :
    Statement (.shiftrUR rd rs rt) := fun _ _ => sized1 _

theorem shiftlCI (rd : Reg) (rs : Reg) :
    Statement (.shiftlCI rd rs) := fun _ _ => sized1 _

theorem shiftrCI (rd : Reg) (rs : Reg) :
    Statement (.shiftrCI rd rs) := fun _ _ => sized1 _

theorem rotatelR (rd : Reg) (rs : Reg) (rt : Reg) :
    Statement (.rotatelR rd rs rt) := fun _ _ => sized2 _ _

theorem b2swapR (rd : Reg) (rs : Reg) :
    Statement (.b2swapR rd rs) := fun _ _ => sized1 _

theorem blkcpI (rad : Reg) (ras : Reg) (num : BitVec 8) :
    Statement (.blkcpI rad ras num) := fun _ _ => sized2 _ _

theorem blkcpR (rad : Reg) (ras : Reg) (rn : Reg) :
    Statement (.blkcpR rad ras rn) := fun _ _ => sized2 _ _

theorem blkst8I (src : BlkSrc) (ra : Reg) (num : BitVec 8) :
    Statement (.blkst8I src ra num) := by
  intro p h
  cases src <;> exact sized2 _ _

theorem blkst8R (src : BlkSrc) (ra : Reg) (rn : Reg) :
    Statement (.blkst8R src ra rn) := by
  intro p h
  cases src <;> exact sized2 _ _

theorem absR (rd : Reg) (rs : Reg) :
    Statement (.absR rd rs) := fun _ _ => sized2 _ _

theorem msbitR (rd : Reg) (rs : Reg) :
    Statement (.msbitR rd rs) := fun _ _ => sized2 _ _

theorem flip8R (rd : Reg) (rs : Reg) :
    Statement (.flip8R rd rs) := fun _ _ => sized2 _ _

theorem flip16R (rd : Reg) (rs : Reg) :
    Statement (.flip16R rd rs) := fun _ _ => sized2 _ _

theorem flipR (rd : Reg) (rs : Reg) :
    Statement (.flipR rd rs) := fun _ _ => sized2 _ _

theorem clu (v : BitVec 16) :
    Statement (.clu v) := fun _ _ => sized2 _ _

theorem cluD (v : BitVec 16) (rd : Reg) :
    Statement (.cluD v rd) := fun _ _ => sized2 _ _

theorem cluDs (v : BitVec 16) (rd : Reg) (rs : Reg) :
    Statement (.cluDs v rd rs) := fun _ _ => sized2 _ _

theorem cluDst (v : BitVec 16) (rd : Reg) (rs : Reg) (rt : Reg) :
    Statement (.cluDst v rd rs rt) := fun _ _ => sized2 _ _

theorem cluS (v : BitVec 16) (rs : Reg) :
    Statement (.cluS v rs) := fun _ _ => sized2 _ _

theorem cluSt (v : BitVec 16) (rs : Reg) (rt : Reg) :
    Statement (.cluSt v rs rt) := fun _ _ => sized2 _ _

theorem sext8R (rd : Reg) (rs : Reg) :
    Statement (.sext8R rd rs) := fun _ _ => sized1 _

theorem sext16R (rd : Reg) (rs : Reg) :
    Statement (.sext16R rd rs) := fun _ _ => sized1 _

theorem rtie :
    Statement (.rtie) := fun _ _ => sized1 _

theorem brk :
    Statement (.brk) := fun _ _ => sized1 _

theorem halt :
    Statement (.halt) := fun _ _ => sized1 _

theorem softreset :
    Statement (.softreset) := fun _ _ => sized1 _

theorem sleepnop :
    Statement (.sleepnop) := fun _ _ => sized1 _

theorem sleepsif :
    Statement (.sleepsif) := fun _ _ => sized1 _

theorem nop :
    Statement (.nop) := fun _ _ => sized1 _

theorem sif :
    Statement (.sif) := fun _ _ => sized1 _

theorem mov1I (v : BitVec 1) :
    Statement (.mov1I v) := fun _ _ => sized1 _

theorem mov1R (f : Mov1Form) :
    Statement (.mov1R f) := fun _ _ => sized_encMov1R _ _

theorem mov2I (v : BitVec 2) :
    Statement (.mov2I v) := fun _ _ => sized1 _

theorem flush :
    Statement (.flush) := fun _ _ => sized1 _

theorem fill :
    Statement (.fill) := fun _ _ => sized1 _

theorem mov2R (f : FieldForm) :
    Statement (.mov2R f) := by
  intro p h
  cases f <;> exact sized1 _

theorem fimode (rd : Reg) :
    Statement (.fimode rd) := fun _ _ => sized1 _

theorem syscallI (num : BitVec 2) (v : Imm) :
    Statement (.syscallI num v) := fun _ _ => sized_encA _ _ _ _

theorem syscallR (num : BitVec 2) (rs : Reg) :
    Statement (.syscallR num rs) := fun _ _ => sized2 _ _

theorem movs2r (rd : Reg) (ss : BitVec 3) :
    Statement (.movs2r rd ss) := fun _ _ => sized2 _ _

theorem movb2r (rd : Reg) (bs : BitVec 3) :
    Statement (.movb2r rd bs) := fun _ _ => sized2 _ _

theorem mova2r (rd : Reg) (as : BitVec 3) :
    Statement (.mova2r rd as) := fun _ _ => sized2 _ _

theorem movr2a (ad : BitVec 3) (rs : Reg) :
    Statement (.movr2a ad rs) := fun _ _ => sized2 _ _

theorem movr2s (sd : BitVec 3) (rs : Reg) :
    Statement (.movr2s sd rs) := fun _ _ => sized2 _ _

theorem movr2b (bd : BitVec 3) (rs : Reg) :
    Statement (.movr2b bd rs) := fun _ _ => sized2 _ _

theorem ver (rd : Reg) :
    Statement (.ver rd) := fun _ _ => sized2 _ _

theorem lic (rd : Reg) :
    Statement (.lic rd) := fun _ _ => sized2 _ _

theorem mov4R (f : FieldForm) :
    Statement (.mov4R f) := by
  intro p h
  cases f <;> exact sized2 _ _

theorem mov8R (f : FieldForm) :
    Statement (.mov8R f) := by
  intro p h
  cases f <;> exact sized2 _ _

theorem printR (f1 : Reg) (f2 : Reg) :
    Statement (.printR f1 f2) := fun _ _ => sized2 _ _

theorem mov4I (v : BitVec 4) :
    Statement (.mov4I v) := fun _ _ => sized2 _ _

theorem mov8I (v : BitVec 8) :
    Statement (.mov8I v) := fun _ _ => sized2 _ _

end Sys2Proof.Laws.Shape
end

