-- ==== Sys2Proof/Laws/Results.lean ====
section
/-! SUPPORT. What an instruction that writes a register and FLAGS, or FLAGS alone, leaves: the frames
and results of Sys2Proof/Safety.lean from the shared ends of instructions. -/

namespace Sys2Proof.Machine

/-- What stands outside is as before where these fields are. -/
theorem OutsideSame.of_eq {s t : State}
    (e : (t.exe, t.runToBreak, t.params, t.env, t.mmu, t.map, t.devices, t.cluFitted, t.clu,
        t.devState, t.cluState, t.cluSent, t.freeNext, t.blkRun, t.ahead, t.event)
      = (s.exe, s.runToBreak, s.params, s.env, s.mmu, s.map, s.devices, s.cluFitted, s.clu,
        s.devState, s.cluState, s.cluSent, s.freeNext, s.blkRun, s.ahead, s.event)) : OutsideSame s t := by
  simp only [Prod.mk.injEq] at e
  obtain ⟨h1, h2, h3, h4, h5, h6, h7, h8, h9, h10, h11, h12, h13, h14, h15⟩ := e
  exact ⟨h1, ⟨h2, h3, h4, h5, h6, h7, h8, h9⟩, h10, h11, h12, h13, h14, h15⟩

theorem regsBut_result (s : State) (rd : Reg) (v f n : Word) :
    RegsBut s ((s.result rd v f).advance n) [rd] := by
  intro r h
  rw [reg_advance]
  exact reg_result_other s rd r v f (by simpa using h)

/-- A register result changes the register, and of FLAGS what its new value says. -/
theorem onlyRegs_result {s : State} (rd : Reg) (v n : Word) {f mask : Word}
    (h : f &&& ~~~mask = s.flags &&& ~~~mask) :
    OnlyRegs s ((s.result rd v f).advance n) [rd] mask :=
  ⟨regsBut_result s rd v f n, h, ⟨rfl, rfl⟩, ⟨rfl, rfl, rfl, rfl, rfl, rfl, rfl, rfl⟩,
    OutsideSame.of_eq rfl, rfl, fun _ => rfl, rfl⟩

/-- A result of FLAGS alone. -/
theorem onlyRegs_setFlags {s : State} (n : Word) {f mask : Word}
    (h : f &&& ~~~mask = s.flags &&& ~~~mask) :
    OnlyRegs s ((s.setFlags f).advance n) [] mask :=
  ⟨fun _ _ => rfl, h, ⟨rfl, rfl⟩, ⟨rfl, rfl, rfl, rfl, rfl, rfl, rfl, rfl⟩,
    OutsideSame.of_eq rfl, rfl, fun _ => rfl, rfl⟩

theorem valueResult_giveResult (s : State) (rd : Reg) (v n : Word) :
    ValueResult s ((s.result rd v (setZN s.flags v)).advance n) rd v :=
  ⟨reg_result_same s rd v (setZN s.flags v), ⟨flagZ_setZN _ _, flagN_setZN _ _⟩,
    onlyRegs_result rd v n (setZN_outside _ _)⟩

theorem fieldResult_giveResult (s : State) (rd : Reg) (v n : Word) :
    FieldResult s ((s.result rd v (putZN s.flags (v == 0#32) false)).advance n) rd v :=
  ⟨reg_result_same s rd v (putZN s.flags (v == 0#32) false), flagZ_putZN _ _ _, flagN_putZN _ _ _,
    onlyRegs_result rd v n (putZN_outside _ _ _)⟩

/-- An instruction that ends by writing Rd with Z and N of the value completes with that result. -/
theorem completes_value {i : Instr} {s : State} {rd : Reg} {v : Word}
    (h : exec i s = giveResult i rd v (setZN s.flags v) s) :
    Completes i s fun t => ValueResult s t rd v :=
  ⟨_, h, rfl, valueResult_giveResult s rd v _⟩

/-- An instruction that ends by reading a field into Rd completes with that result. -/
theorem completes_field {i : Instr} {s : State} {rd : Reg} {v : Word}
    (h : exec i s = giveResult i rd v (putZN s.flags (v == 0#32) false) s) :
    Completes i s fun t => FieldResult s t rd v :=
  ⟨_, h, rfl, fieldResult_giveResult s rd v _⟩

/-- An instruction that ends by writing FLAGS alone completes with that result. -/
theorem completes_flags {i : Instr} {s : State} {f mask : Word} {P : State → Prop}
    (h : exec i s = finish i (s.setFlags f)) (hm : f &&& ~~~mask = s.flags &&& ~~~mask)
    (hp : ∀ t, t.flags = f → OnlyRegs s t [] mask → P t) : Completes i s P :=
  ⟨_, h, rfl, hp _ rfl (onlyRegs_setFlags _ hm)⟩

/-- One field of FLAGS written. -/
theorem flagsResult_putField {s : State} (lo len : Nat) (v : BitVec len) (n x : Word)
    (h : lo + len ≤ 32)
    (hx : ∀ k : Nat, k < len → x.getLsbD (lo + k) = v.getLsbD k) (mask : Word)
    (hm : ∀ k : Nat, k < 32 → mask.getLsbD k = (decide (lo ≤ k) && decide (k < lo + len))) :
    FlagsResult s ((s.setFlags (putField s.flags lo len v)).advance n) mask x := by
  constructor
  · apply BitVec.eq_of_getLsbD_eq
    intro i hi
    show ((putField s.flags lo len v) &&& mask).getLsbD i = _
    rw [BitVec.getLsbD_and, BitVec.getLsbD_and, putField_bit _ _ _ _ _ h hi, hm i hi]
    by_cases hc : lo ≤ i ∧ i < lo + len
    · rw [if_pos hc]
      have := hx (i - lo) (by omega)
      rw [show lo + (i - lo) = i by omega] at this
      rw [this]
    · rw [if_neg hc]
      have : (decide (lo ≤ i) && decide (i < lo + len)) = false := by
        simp only [Bool.and_eq_false_iff, decide_eq_false_iff_not]; omega
      simp [this]
  · exact onlyRegs_setFlags n (putField_outside _ _ _ _ _ h fun i a b => by
      rw [hm i (by omega)]; simp [a, b])

end Sys2Proof.Machine
end

