-- ==== Sys2Proof/Tests/Slice0.lean ====
section
/-! SUPPORT. Tests: ill-formed terms are refused, the words of the spec's encodings decode to their
instructions, one step on small states against the numbers of the spec's examples, and for each
statement that has hypotheses a state and operands that meet them. -/

namespace Sys2Proof.Tests

open Sys2Proof Sys2Proof.Machine

/-! ### Ill-formed terms -/

/-- `#1` and all ones have no short store row (R196, R203). -/
theorem test_wf_short_store_of_one :
    (Instr.st8I .one (.shortReg .r2 0#6)).wf Params.default = false
      ∧ (Instr.stI .ones (.shortSp 0#6)).wf Params.default = false
      ∧ (Instr.stI .zero (.shortSp 0#6)).wf Params.default = true := by decide

/-- The constant rows of `mov.i` have no b = 0 (R242). -/
theorem test_wf_mov_constant :
    (Instr.movI (.pow2 .r1 3#3 0#2)).wf Params.default = false
      ∧ (Instr.movI (.pow2m1 .r1 3#3 0#2)).wf Params.default = false
      ∧ (Instr.movI (.pow2 .r1 3#3 1#2)).wf Params.default = true := by decide

/-- The 32-bit `push`, `pop` and `pop.ret` need their pattern, and it must be that of a 32-bit
instruction (R228). -/
theorem test_wf_lost_pattern :
    (Instr.push (.full 1#8 0#6)).wf Params.default = false
      ∧ (Instr.pop (.full 1#8 0#6)).wf Params.default = false
      ∧ (Instr.popRet (.full 1#8 0#6)).wf Params.default = false
      ∧ (Instr.push (.full 1#8 0#6)).wf { Params.default with push32 := some 0x1F#18 } = false
      ∧ (Instr.push (.full 1#8 0#6)).wf { Params.default with push32 := some 0x47#18 } = true := by
  decide

/-- A damaged row's form has an encoding where the parameter is a pattern of the row's size (R180,
R346). -/
theorem test_wf_damaged_pattern :
    (Instr.bnzR .r1 (.near 0#6)).wf { Params.default with bnz16 := 0x07#7 } = false
      ∧ (Instr.bnzR .r1 (.far 0#16)).wf { Params.default with bnz32 := 0x1F#13 } = false
      ∧ (Instr.shiftlCI .r1 .r2).wf { Params.default with shiftlc16Low7 := 0x07#7 } = false
      ∧ (Instr.bnzR .r1 (.near 0#6)).wf Params.default = true
      ∧ (Instr.bnzR .r1 (.far 0#16)).wf Params.default = true
      ∧ (Instr.shiftlCI .r1 .r2).wf Params.default = true := by decide

/-! ### Decoding: the words of the worked examples and of the encoding rows -/

/-- 40_branches.md. -/
theorem test_decode_branches :
    decodeTableWord 16 0x0085 = some (.braI (.pc16 8#9))
      ∧ decodeTableWord 16 0x010D = some (.bsrI (.pc16 16#9))
      ∧ decodeTableWord 16 0xCB6C = some (.braM (.reg .r2))
      ∧ decodeTableWord 32 0x0040E377 = some (.bsrM (.pc32 0x20#16))
      ∧ decodeTableWord 16 0x2085 = some (.beq (.near 8#8))
      ∧ decodeTableWord 16 0x2FCD = some (.bne (.near 0xFC#8))
      ∧ decodeTableWord 16 0x3045 = some (.bleS (.near 4#8))
      ∧ decodeTableWord 16 0x3FDD = some (.bgtS (.near 0xFD#8))
      ∧ decodeTableWord 32 0x00105027 = some (.bltS (.far 8#16))
      ∧ decodeTableWord 32 0x00105427 = some (.bgeS (.far 8#16))
      ∧ decodeTableWord 16 0x5045 = some (.bleU (.near 4#8))
      ∧ decodeTableWord 16 0x504D = some (.bgtU (.near 4#8))
      ∧ decodeTableWord 16 0x6045 = some (.bcs (.near 4#8))
      ∧ decodeTableWord 16 0x604D = some (.bcc (.near 4#8))
      ∧ decodeTableWord 32 0x001050A7 = some (.bmi 8#16)
      ∧ decodeTableWord 32 0x001054A7 = some (.bpl 8#16)
      ∧ decodeTableWord 32 0x010048A7 = some (.bvs 0x80#16)
      ∧ decodeTableWord 32 0x00104CA7 = some (.bvc 8#16)
      ∧ decodeTableWord 16 0x6484 = some (.bezR .r1 (.near 8#6))
      ∧ decodeTableWord 16 0x648C = some (.bnzR .r1 (.near 8#6)) := by decide

/-- 41_load_store.md. -/
theorem test_decode_load_store :
    decodeTableWord 16 0x2818 = some (.ld8zI .r1 (.shortReg .r2 3#6))
      ∧ decodeTableWord 16 0x2811 = some (.ld16zI .r1 (.shortReg .r2 1#6))
      ∧ decodeTableWord 16 0x2902 = some (.ldI .r1 (.shortReg .r2 8#6))
      ∧ decodeTableWord 16 0x2A18 = some (.st8I (.reg .r1) (.shortReg .r2 3#6))
      ∧ decodeTableWord 16 0x2819 = some (.st16I (.reg .r1) (.shortReg .r2 1#6))
      ∧ decodeTableWord 32 0x0010B337 = some (.st16I .one (.named .pc (.half 0x10#16)))
      ∧ decodeTableWord 16 0x280A = some (.stI (.reg .r1) (.shortReg .r2 0#6))
      ∧ decodeTableWord 16 0x2986 = some (.ld8zR .r1 .r3 (.reg .r2))
      ∧ decodeTableWord 32 0x01010587 = some (.ld16zR .r1 .r3 .sp)
      ∧ decodeTableWord 32 0x01020587 = some (.ldR .r1 .r3 .sp)
      ∧ decodeTableWord 32 0x01100987 = some (.st8R .ones .r3 (.reg .r2))
      ∧ decodeTableWord 32 0x02050187 = some (.st16R .one .r3 .sp)
      ∧ decodeTableWord 16 0x3D2E = some (.stR (.reg .r1) .r2 (.reg .r7))
      ∧ decodeTableWord 32 0x011B0087 = some (.swapI .r1 .r0) := by decide

/-- 42_push_pop.md, 43_move.md. -/
theorem test_decode_stack_and_move :
    decodeTableWord 16 0x700D = some (.push (.mask 0x01#8))
      ∧ decodeTableWord 16 0x7A4D = some (.pop (.mask 0x49#8))
      ∧ decodeTableWord 16 0x8015 = some (.popRet (.empty 0#5))
      ∧ decodeTableWord 16 0x944D = some (.popRet (.range 1#2 2#5))
      ∧ decodeTableWord 32 0x11110777 = some (.pushI (.half1 0x1111#16))
      ∧ decodeTableWord 32 0x74EB6777 = some (.pushI (.half4 0xB#4 0xE#4 4#4 7#4))
      ∧ decodeTableWord 16 0xC40B = some (.movI (.short .r1 1#8))
      ∧ decodeTableWord 16 0xE404 = some (.movR (.reg .r0 .r1))
      ∧ decodeTableWord 32 0x03000107 = some (.movR (.toSp .r2))
      ∧ decodeTableWord 32 0x09046427 = some (.movFR (.extract .r0 .r1 9#5 4#5)) := by decide

/-- 44_alu.md. -/
theorem test_decode_alu :
    decodeTableWord 16 0x83E3 = some (.addI (.short .r0 0x7C#7))
      ∧ decodeTableWord 32 0xFFFF2A57 = some (.addI (.imm .r1 .r2 (.half 0xFFFF#16)))
      ∧ decodeTableWord 16 0xE8A4 = some (.addCI (.zero .r1 .r2))
      ∧ decodeTableWord 32 0x12342BF7 = some (.addNI .r1 .r2 (.half 0x1234#16))
      ∧ decodeTableWord 16 0x29E6 = some (.addR .r1 .r2 .r3)
      ∧ decodeTableWord 16 0x29EE = some (.addCR .r1 .r2 .r3)
      ∧ decodeTableWord 32 0x000C2987 = some (.addNR .r1 .r2 .r3)
      ∧ decodeTableWord 16 0x29F6 = some (.subR .r1 .r2 .r3)
      ∧ decodeTableWord 16 0x29FE = some (.subCR .r1 .r2 .r3)
      ∧ decodeTableWord 16 0xE8CC = some (.subXI (.zero .r1 .r2))
      ∧ decodeTableWord 16 0xE4EC = some (.subXcI (.zero .r1 .r1))
      ∧ decodeTableWord 32 0xFEDC4457 = some (.andI (.imm .r2 .r1 (.half 0xFEDC#16)))
      ∧ decodeTableWord 16 0x29B6 = some (.andR .r1 .r2 .r3)
      ∧ decodeTableWord 32 0x800028D7 = some (.orI (.imm .r1 .r2 (.half 0x8000#16)))
      ∧ decodeTableWord 16 0x29BE = some (.orR .r1 .r2 .r3)
      ∧ decodeTableWord 16 0xE8F4 = some (.xorI (.minusOne .r1 .r2))
      ∧ decodeTableWord 16 0x24C6 = some (.xorR .r1 .r1 .r1) := by decide

/-- 44_alu.md, multiplication and division. -/
theorem test_decode_multiply_divide :
    decodeTableWord 32 0xFFFD29D7 = some (.multI .r1 .r2 (.half 0xFFFD#16))
      ∧ decodeTableWord 32 0x00022987 = some (.multR .r1 .r2 .r3)
      ∧ decodeTableWord 32 0x1234A8A7 = some (.mult16sI .r1 .r2 0x1234#16)
      ∧ decodeTableWord 32 0x00002987 = some (.mult16sR .r1 .r2 .r3)
      ∧ decodeTableWord 32 0x1234C8A7 = some (.mult16uI .r1 .r2 0x1234#16)
      ∧ decodeTableWord 32 0x00012987 = some (.mult16uR .r1 .r2 .r3)
      ∧ decodeTableWord 32 0x00048507 = some (.divSR .r4 .r1 .r2)
      ∧ decodeTableWord 32 0x00058507 = some (.divUR .r4 .r1 .r2)
      ∧ decodeTableWord 32 0x00068587 = some (.remSR .r4 .r1 .r3)
      ∧ decodeTableWord 32 0x00076507 = some (.remUR .r3 .r1 .r2)
      ∧ decodeTableWord 32 0x00088507 = some (.divremSR .r4 .r1 .r2)
      ∧ decodeTableWord 32 0x00092507 = some (.divremUR .r1 .r1 .r2) := by decide

/-- 45_compare.md. -/
theorem test_decode_compare :
    decodeTableWord 16 0x4604 = some (.cmpI (.short .r1 0x40#7))
      ∧ decodeTableWord 32 0x123406F7 = some (.cmpI (.imm .r1 (.half 0x1234#16)))
      ∧ decodeTableWord 32 0x123426F7 = some (.cmpXI .r1 (.half 0x1234#16))
      ∧ decodeTableWord 32 0x123446F7 = some (.cmpCI .r1 (.half 0x1234#16))
      ∧ decodeTableWord 32 0x123466F7 = some (.cmpXcI .r1 (.half 0x1234#16))
      ∧ decodeTableWord 16 0xC50C = some (.cmpR .r1 .r2)
      ∧ decodeTableWord 16 0xC52C = some (.cmpCR .r1 .r2)
      ∧ decodeTableWord 16 0x2494 = some (.cmp16I (.short .r1 0x12#7))
      ∧ decodeTableWord 32 0x001224A7 = some (.cmp16xI .r1 0x12#16)
      ∧ decodeTableWord 32 0x00122527 = some (.cmp16cI .r1 0x12#16)
      ∧ decodeTableWord 32 0x001225A7 = some (.cmp16xcI .r1 0x12#16)
      ∧ decodeTableWord 16 0xC544 = some (.cmp16R .r1 .r2)
      ∧ decodeTableWord 16 0xC564 = some (.cmp16cR .r1 .r2)
      ∧ decodeTableWord 32 0x08120407 = some (.cmp8I (.imm .r1 0x12#8))
      ∧ decodeTableWord 32 0x09120407 = some (.cmp8xI .r1 0x12#8)
      ∧ decodeTableWord 32 0x0A120407 = some (.cmp8cI .r1 0x12#8)
      ∧ decodeTableWord 32 0x0B120407 = some (.cmp8xcI .r1 0x12#8)
      ∧ decodeTableWord 16 0xC504 = some (.cmp8R .r1 .r2)
      ∧ decodeTableWord 16 0xC524 = some (.cmp8cR .r1 .r2) := by decide

/-- 46_shift_rotate.md, 47_block.md. -/
theorem test_decode_shift_and_block :
    decodeTableWord 16 0xE425 = some (.shiftrSI (.short .r1 4#5))
      ∧ decodeTableWord 32 0x043F0887 = some (.shiftrUI (.full .r1 .r2 31#5))
      ∧ decodeTableWord 32 0x04410887 = some (.shiftlI (.full .r1 .r2 1#5))
      ∧ decodeTableWord 16 0xE385 = some (.rotatelI (.short .r0 16#5))
      ∧ decodeTableWord 16 0x29CE = some (.shiftlR .r1 .r2 .r3)
      ∧ decodeTableWord 16 0x2ED6 = some (.shiftrSR .r1 .r3 .r5)
      ∧ decodeTableWord 16 0x29DE = some (.shiftrUR .r1 .r2 .r3)
      ∧ decodeTableWord 16 0x88DD = some (.shiftlCI .r1 .r2)
      ∧ decodeTableWord 16 0x889D = some (.shiftrCI .r1 .r2)
      ∧ decodeTableWord 32 0x00032987 = some (.rotatelR .r1 .r2 .r3)
      ∧ decodeTableWord 16 0xC89C = some (.b2swapR .r1 .r2)
      ∧ decodeTableWord 32 0x05080087 = some (.blkcpI .r1 .r0 8#8)
      ∧ decodeTableWord 32 0x000A2187 = some (.blkcpR .r1 .r0 .r3)
      ∧ decodeTableWord 32 0x06040887 = some (.blkst8I (.reg .r1) .r2 4#8)
      ∧ decodeTableWord 32 0x01140987 = some (.blkst8R .zero .r2 .r3) := by decide

/-- 48_dsp_clu.md. -/
theorem test_decode_dsp_and_clu :
    decodeTableWord 32 0x01160887 = some (.absR .r1 .r2)
      ∧ decodeTableWord 32 0x01170887 = some (.msbitR .r1 .r2)
      ∧ decodeTableWord 32 0x01180887 = some (.flip8R .r1 .r2)
      ∧ decodeTableWord 32 0x01190887 = some (.flip16R .r1 .r2)
      ∧ decodeTableWord 32 0x011A0887 = some (.flipR .r1 .r2)
      ∧ decodeTableWord 32 0x00814D27 = some (.clu 0x81#16)
      ∧ decodeTableWord 32 0x123433A7 = some (.cluD 0x1234#16 .r4)
      ∧ decodeTableWord 32 0x1234FE27 = some (.cluDs 0x1234#16 .r4 .r7)
      ∧ decodeTableWord 32 0x12349767 = some (.cluDst 0x1234#16 .r4 .r5 .r6)
      ∧ decodeTableWord 32 0x12343327 = some (.cluS 0x1234#16 .r4)
      ∧ decodeTableWord 32 0x123492A7 = some (.cluSt 0x1234#16 .r4 .r5) := by decide

/-- 49_system.md. -/
theorem test_decode_system :
    decodeTableWord 16 0xE894 = some (.sext8R .r1 .r2)
      ∧ decodeTableWord 16 0xE8B4 = some (.sext16R .r1 .r2)
      ∧ decodeTableWord 16 0xA105 = some .rtie ∧ decodeTableWord 16 0xA10D = some .brk
      ∧ decodeTableWord 16 0xA115 = some .halt ∧ decodeTableWord 16 0xA11D = some .softreset
      ∧ decodeTableWord 16 0xA125 = some .sleepnop ∧ decodeTableWord 16 0xA12D = some .sleepsif
      ∧ decodeTableWord 16 0xA135 = some .nop ∧ decodeTableWord 16 0xA13D = some .sif
      ∧ decodeTableWord 16 0xA005 = some .flush ∧ decodeTableWord 16 0xA00D = some .fill
      ∧ decodeTableWord 16 0xA14D = some (.mov1I 1#1)
      ∧ decodeTableWord 32 0x01200087 = some (.mov1R (.getBit .r1 0#2))
      ∧ decodeTableWord 16 0xA15D = some (.mov1R .iFromC)
      ∧ decodeTableWord 16 0xA17D = some (.mov2I 3#2)
      ∧ decodeTableWord 16 0xC514 = some (.mov2R (.get .r1))
      ∧ decodeTableWord 16 0xC614 = some (.fimode .r1)
      ∧ decodeTableWord 32 0x01231277 = some (.syscallI 0#2 (.half 0x123#16))
      ∧ decodeTableWord 32 0x01221987 = some (.syscallR 3#2 .r6) := by decide

/-- 49_system.md, the registers. -/
theorem test_decode_special_registers :
    decodeTableWord 32 0x011C0407 = some (.movs2r .r0 1#3)
      ∧ decodeTableWord 32 0x011D0087 = some (.movb2r .r1 0#3)
      ∧ decodeTableWord 32 0x011E0C87 = some (.mova2r .r1 3#3)
      ∧ decodeTableWord 32 0x011F0507 = some (.movr2a 2#3 .r1)
      ∧ decodeTableWord 32 0x00000427 = some (.movr2s 0#3 .r1)
      ∧ decodeTableWord 32 0x00010427 = some (.movr2b 0#3 .r1)
      ∧ decodeTableWord 32 0x020D0087 = some (.ver .r1)
      ∧ decodeTableWord 32 0x020E0087 = some (.lic .r1)
      ∧ decodeTableWord 32 0x020F0087 = some (.mov4R (.get .r1))
      ∧ decodeTableWord 32 0x02100087 = some (.mov8R (.get .r1))
      ∧ decodeTableWord 32 0x03008087 = some (.printR .r0 .r1)
      ∧ decodeTableWord 32 0x070D0107 = some (.mov4I 13#4)
      ∧ decodeTableWord 32 0x070D0187 = some (.mov8I 13#8) := by decide

/-- The fields of R265's `add.i %sp, %sp, #imm` are taken, 0x927F; what the rule prints, 0x913F, is by
its fields a load (Note 34). -/
theorem test_decode_sp_add :
    decode Params.default 0x927F#16 0x0004#16 0#16 = .ok (.addI (.spsp48 1#30))
      ∧ decode Params.default 0x913F#16 0x0004#16 0#16 = .ok (.ldI .r4 (.named .pc (.wide 4#32))) :=
  ⟨rfl, rfl⟩

/-- The damaged rows stand where the parameters put them (U14, U16). -/
theorem test_decode_by_pattern :
    decode { Params.default with shiftlc16Low7 := 0x7D#7 } 0x88FD#16 0#16 0#16
        = .ok (.shiftlCI .r1 .r2)
      ∧ decode { Params.default with addNIOp5 := 0x1D#5 } 0x2BB7#16 0x1234#16 0#16
        = .ok (.addNI .r1 .r2 (.half 0x1234#16)) := ⟨rfl, rfl⟩

/-- Words of rows 215 to 217 of 95_test_vectors.md match no row (R130). -/
theorem test_decode_free :
    decode Params.default 0x803D#16 0#16 0#16 = .error .free16
      ∧ decode Params.default 0x000F#16 0#16 0#16 = .error .free32
      ∧ decode Params.default 0x007F#16 0#16 0#16 = .error .free48 := ⟨rfl, rfl, rfl⟩

/-! ### One step: the numbers are those of 95_test_vectors.md section 2, by row -/

/-- The base state of 95_test_vectors.md, in Supervisor mode with both stacks enabled. -/
def base : State :=
  { State.reset with sp0 := 0x8000#32, sp1 := 0x6000#32, vp := 0x100#32, info := 3#32 }

/-- The base state with FLAGS and R0 to R3 given. -/
def given (f r0 r1 r2 r3 : Word) : State :=
  { base with flags := f, regs := { base.regs with r0 := r0, r1 := r1, r2 := r2, r3 := r3 } }

/-- What is seen of the next state. -/
def seen {α : Type} (f : State → α) (o : Host.Outcome State Fault Refusal) : Option α :=
  match o with
  | .next t => some (f t)
  | .fault _ => none
  | .refused _ => none

/-- R1, FLAGS and PC after an instruction. -/
def r1After (i : Instr) (s : State) : Option (Word × Word × Word) :=
  seen (fun t => (t.reg .r1, t.flags, t.pc)) (exec i s)

theorem test_add_overflows :
    r1After (.addR .r1 .r2 .r3) (given 0#32 0#32 0#32 0x7FFFFFFF#32 1#32)
      = some (0x80000000#32, 0xA#32, 0x1002#32) := by decide

theorem test_add_wraps :
    r1After (.addR .r1 .r2 .r3) (given 0#32 0#32 5#32 0xFFFFFFFF#32 1#32)
      = some (0#32, 5#32, 0x1002#32) := by decide

theorem test_add_carry_keeps_z_clear :
    r1After (.addCR .r1 .r2 .r3) (given 4#32 0#32 0#32 0xFFFFFFFF#32 0#32)
      = some (0#32, 4#32, 0x1002#32) := by decide

theorem test_sub_borrows :
    r1After (.subR .r1 .r2 .r3) (given 0#32 0#32 0#32 0x7FFFFFFF#32 0xFFFFFFFF#32)
      = some (0x80000000#32, 0xE#32, 0x1002#32) := by decide

theorem test_sub_x_negates :
    r1After (.subXI (.zero .r1 .r2)) (given 0#32 0#32 0#32 0x80000000#32 0#32)
      = some (0x80000000#32, 0xE#32, 0x1002#32) := by decide

theorem test_div_truncates :
    seen (fun t => (t.reg .r4, t.flags)) (exec (.divSR .r4 .r1 .r2)
      (given 0#32 0#32 0xFFFFFFFB#32 2#32 0#32)) = some (0xFFFFFFFE#32, 2#32) := by decide

theorem test_div_overflow :
    seen (fun t => (t.reg .r4, t.flags)) (exec (.divSR .r4 .r1 .r2)
      (given 0#32 0#32 0x80000000#32 0xFFFFFFFF#32 0#32)) = some (0#32, 9#32) := by decide

theorem test_divrem :
    seen (fun t => (t.reg .r1, t.reg .r4, t.flags)) (exec (.divremSR .r4 .r1 .r2)
      (given 0xB#32 0#32 0xFFFFFFFB#32 2#32 0#32))
      = some (0xFFFFFFFE#32, 0xFFFFFFFF#32, 3#32) := by decide

theorem test_div_by_zero_is_taken :
    seen (fun t => (t.reg .r0, t.reg .r4, t.flags, t.info, read32 t.mem 0x7FFC#32))
      (exec (.divSR .r4 .r1 .r2) (given 0#32 0#32 7#32 0#32 0#32))
      = some (0x1000#32, 0#32, 9#32, 0x23#32, 0x1004#32) := by decide

theorem test_mult_16s_takes_low_halves :
    r1After (.mult16sR .r1 .r2 .r3) (given 0#32 0#32 0#32 0x1234FFFF#32 0xFFFF#32)
      = some (1#32, 0#32, 0x1004#32) := by decide

theorem test_compare_overflows :
    r1After (.cmpR .r1 .r2) (given 0#32 0#32 0x80000000#32 1#32 0#32)
      = some (0x80000000#32, 8#32, 0x1002#32) := by decide

theorem test_rotate_by_zero_keeps_c :
    r1After (.rotatelR .r1 .r2 .r3) (given 4#32 0#32 0#32 0x12345678#32 0x40#32)
      = some (0x12345678#32, 4#32, 0x1004#32) := by decide

theorem test_b2swap :
    r1After (.b2swapR .r1 .r2) (given 0xC#32 0#32 0#32 0x11223380#32 0#32)
      = some (0x22118033#32, 0xC#32, 0x1002#32) := by decide

theorem test_abs_of_lowest :
    r1After (.absR .r1 .r2) (given 0#32 0#32 0#32 0x80000000#32 0#32)
      = some (0x80000000#32, 8#32, 0x1004#32) := by decide

theorem test_msbit :
    r1After (.msbitR .r1 .r2) (given 0#32 0#32 0#32 0x12345#32 0#32)
      = some (0x11#32, 0#32, 0x1004#32) := by decide

theorem test_flip_8 :
    r1After (.flip8R .r1 .r2) (given 0#32 0#32 0#32 0x01020380#32 0#32)
      = some (0x8040C001#32, 2#32, 0x1004#32) := by decide

theorem test_flip_16 :
    r1After (.flip16R .r1 .r2) (given 0#32 0#32 0#32 0x18000#32 0#32)
      = some (0x80000001#32, 2#32, 0x1004#32) := by decide

theorem test_load_half_clears_n :
    r1After (.ld16zI .r1 (.shortReg .r2 1#6)) { given 0xE#32 0#32 0#32 0x2000#32 0#32 with
      mem := write32 [] 0x2000#32 0x80C3B2A1#32 } = some (0x80C3#32, 0xC#32, 0x1002#32) := by decide

theorem test_load_wraps_round_the_top :
    r1After (.ldI .r1 (.shortReg .r2 0#6)) { given 0#32 0#32 0#32 0xFFFFFFFE#32 0#32 with
      mem := write32 [] 0xFFFFFFFE#32 0xDDCCBBAA#32 }
      = some (0xDDCCBBAA#32, 2#32, 0x1002#32) := by decide

theorem test_load_of_null_is_taken :
    seen (fun t => (t.reg .r0, t.info, read32 t.mem 0x7FFC#32, read32 t.mem 0x7FF8#32))
      (exec (.ldI .r1 (.shortReg .r2 0#6)) (given 0#32 0#32 7#32 0#32 0#32))
      = some (0x1000#32, 0x23#32, 0x1000#32, 7#32) := by decide

theorem test_swap :
    seen (fun t => (t.reg .r1, t.flags, read32 t.mem 0x2000#32)) (exec (.swapI .r1 .r2)
      { given 0#32 0#32 1#32 0x2000#32 0#32 with mem := write32 [] 0x2000#32 0#32 })
      = some (0#32, 1#32, 1#32) := by decide

theorem test_push_first_atom :
    seen (fun t => (t.sp0, flagS t.flags, t.pc, read32 t.mem 0x7FFC#32))
      (exec (.push (.mask 0x09#8)) (given 0xF#32 0xA0#32 0#32 0#32 0xA3#32))
      = some (0x7FFC#32, 1#8, 0x1000#32, 0xA3#32) := by decide

/-- Worked example (b) of R224. -/
theorem test_push_i_sign_extends :
    pushIAtoms false (.half4 0xB#4 0xE#4 4#4 7#4) = [.storeImm 0xFFFFFFFB#32, .storeImm 0xFFFFFFFE#32,
      .storeImm 4#32, .storeImm 7#32] := by decide

/-- A store at 0 after one atom is done: the saved FLAGS have S = 1, the return address is that of the
instruction, SP1 stays (R227). -/
theorem test_push_failing_atom :
    seen (fun t => (read32 t.mem 0x7FF0#32, read32 t.mem 0x7FFC#32, t.sp1, t.reg .r0))
      (exec (.push (.mask 0x09#8)) { given 0x01000030#32 7#32 0#32 0#32 0#32 with sp1 := 4#32 })
      = some (0x01000030#32, 0x1000#32, 4#32, 0x1000#32) := by decide

/-- The worked example of R245. -/
theorem test_mov_f_short :
    seen (fun t => t.reg .r2) (exec (.movFR (.short .r2 14#4)) (given 0#32 0#32 0#32 0x12345678#32 0#32))
      = some 0x56#32 := by decide

/-- A copy to 0 after one byte is done: S = 1 is saved, the registers stay (R363). -/
theorem test_blkcp_failing_byte :
    seen (fun t => (read32 t.mem 0x7FF0#32, read32 t.mem 0x7FFC#32, t.reg .r2, t.reg .r3))
      (exec (.blkcpI .r2 .r3 4#8) (given 0x01000030#32 0#32 0#32 0#32 0x2001#32))
      = some (0x01000030#32, 0x1000#32, 0#32, 0x2001#32) := by decide

theorem test_blkst_replicates :
    seen (fun t => (t.reg .r1, t.reg .r2, read8 t.mem 0x3000#32)) (exec (.blkst8I (.reg .r1) .r2 4#8)
      (given 0#32 0#32 0x123456AB#32 0x3000#32 0#32))
      = some (0xABABABAB#32, 0x3001#32, 0xAB#8) := by decide

theorem test_user_halt_is_taken :
    seen (fun t => (t.reg .r0, t.flags, t.exe, read32 t.mem 0x7FF0#32))
      (exec .halt (given 0x70#32 0#32 0#32 0#32 0#32))
      = some (0x1000#32, 4#32, .awake, 0x70#32) := by decide

/-- An error of `rtie` has ErrorPval 2, that of User mode too (R462). -/
theorem test_user_rtie_is_taken :
    seen (fun t => (t.reg .r0, t.flags)) (exec .rtie (given 0x70#32 0#32 0#32 0#32 0#32))
      = some (0x1000#32, 0x2004#32) := by decide

/-- The memory map of R8: RAM, a ROM at 0x4000 and a device at 0x5000 that counts its reads; nothing
above. -/
def mapped : State :=
  { given 0#32 0#32 0x55#32 0x4000#32 0x5000#32 with
    map := [⟨0x4000#32, 0x4FFF#32, .rom⟩, ⟨0x5000#32, 0x5003#32, .io⟩, ⟨0#32, 0xFFFF#32, .ram⟩]
    devices := [⟨0x5000#32, 0x5000#32, none, some false, none, some 0, 7#32, 1⟩] }

theorem test_rom_keeps_its_bytes :
    seen (fun t => (read32 t.mem 0x4000#32, t.pc)) (exec (.stR (.reg .r1) .r0 (.reg .r2)) mapped)
      = some (0x1000#32, 0x1002#32) := by decide

theorem test_device_read :
    seen (fun t => (t.reg .r1, t.devState, t.mem.length))
      (exec (.ldI .r1 (.shortReg .r3 0#6)) mapped) = some (7#32, 1, 0) := by decide

theorem test_unpopulated_is_refused :
    exec (.stI (.reg .r1) (.named .zero (.wide 0x10000#32))) mapped = .refused .unpopulated := rfl

/-- Two devices behind an unaligned access: the three bytes below the word boundary, then the one above
(R97). -/
theorem test_unaligned_device_access_is_two :
    let s := { given 0#32 0#32 0x55667788#32 0#32 0x5001#32 with
      map := [⟨0x5000#32, 0x5007#32, .io⟩]
      devices := [⟨0x5001#32, 0x5001#32, some 3, some false, none, some 0, 0xAA332211#32, 1⟩,
        ⟨0x5004#32, 0x5004#32, some 1, some false, none, some 1, 0x44#32, 2⟩,
        ⟨0x5001#32, 0x5001#32, some 3, some true, some 0x667788#32, some 0, 0#32, 3⟩,
        ⟨0x5004#32, 0x5004#32, some 1, some true, some 0x55#32, some 3, 0#32, 4⟩] }
    seen (fun t => (t.reg .r1, t.devState)) (exec (.ldI .r1 (.shortReg .r3 0#6)) s)
        = some (0x44332211#32, 2)
      ∧ seen (fun t => (t.mem, t.devState)) (exec (.stI (.reg .r1) (.shortReg .r3 0#6)) s)
        = some ([], 4) := by decide

/-- An access across a device's last byte and RAM: each byte goes where it stands (R97). -/
theorem test_access_across_device_and_ram :
    let s := { mapped with
      regs := { mapped.regs with r1 := 0xBBCC#32, r3 := 0x5003#32 }
      mem := write8 [] 0x5004#32 0x99#8
      devices := [⟨0x5003#32, 0x5003#32, some 1, some false, none, none, 0x66#32, 1⟩,
        ⟨0x5003#32, 0x5003#32, some 1, some true, some 0xCC#32, none, 0#32, 2⟩] }
    seen (fun t => (t.reg .r1, t.devState)) (exec (.ld16zI .r1 (.reg .r3 (.half 0#16))) s)
        = some (0x9966#32, 1)
      ∧ seen (fun t => (read8 t.mem 0x5003#32, read8 t.mem 0x5004#32, t.devState))
        (exec (.st16I (.reg .r1) (.reg .r3 (.half 0#16))) s) = some (0#8, 0xBB#8, 2) := by decide

/-- A store ahead leaves the old half-word in a buffer of two bytes, and the one behind it, which is
out of reach, does not stay; `flush` empties the buffer (R96). -/
theorem test_prefetch_keeps_the_old_half :
    let i : Instr := .stI (.reg .r1) (.named .pc (.half 4#16))
    seen (fun t => t.stale) (exec i (State.fetched { given 0#32 0#32 0x1111AAAA#32 0#32 0#32 with
          params := { Params.default with prefetchBytes := 2 } } i))
        = some [⟨0x1004#32, 0x1000#16⟩]
      ∧ seen (fun t => t.stale) (exec .flush { base with stale := [⟨0x1004#32, 0x1000#16⟩] })
        = some [] := by decide

theorem test_movr2a_sp1_without_k0 :
    seen (fun t => (t.sp1, t.info)) (exec (.movr2a 1#3 .r1)
      { given 0#32 0#32 0x5000#32 0#32 0#32 with info := 0#32 }) = some (0x5000#32, 0#32) := by decide

theorem test_movr2s_flags_keeps_s :
    seen (fun t => t.flags) (exec (.movr2s 0#3 .r1) (given 0#32 0#32 0xFF000070#32 0#32 0#32))
      = some 0x70#32 := by decide

theorem test_syscall_from_user :
    seen (fun t => (t.reg .r0, t.sp1, t.flags, read32 t.mem 0x5FFC#32))
      (exec (.syscallI 0#2 (.half 0x123#16)) (given 0x70#32 0xAA#32 0xBB#32 0#32 0#32))
      = some (0x123#32, 0x5FF0#32, 0x24#32, 0x1004#32) := by decide

theorem test_softreset_code :
    seen (fun t => (t.reg .r0, t.reg .r1, t.info, t.brk0)) (exec .softreset
      (given 0x1045#32 1#32 2#32 3#32 0#32)) = some (0x1045#32, 0x3002#32, 0x100#32, 0x1000#32) := by
  decide

theorem test_rtie_from_nmi :
    seen (fun t => (t.reg .r0, t.sp0, t.info, t.flags, t.pc)) (exec .rtie
      { base with sp0 := 0x7FF0#32, info := 0x13#32,
                  mem := frameMem [] 0x7FF0#32 0x2002#32 0xB#32 0xA#32 0x10#32 })
      = some (0xA#32, 0x8000#32, 3#32, 0x10#32, 0x2002#32) := by decide

/-- The interrupt request of rows 193 to 202. -/
def asked (num : BitVec 5) (prio : BitVec 4) : List EnvSample := [⟨false, false, some (num, prio), none⟩]

theorem test_interrupt_by_priority :
    acceptIrq (given 0x3050#32 0#32 0#32 0#32 0#32) 6#5 3#4 = false
      ∧ acceptIrq (given 0x3050#32 0#32 0#32 0#32 0#32) 6#5 2#4 = true := by decide

theorem test_interrupt_is_taken :
    seen (fun t => (t.flags, t.sp0, read32 t.mem 0x7FF0#32))
      (step { given 0x3050#32 0#32 0#32 0#32 0#32 with env := asked 6#5 2#4 })
      = some (0x2014#32, 0x7FF0#32, 0x3050#32) := by decide

/-! ### What meets the hypotheses of the statements -/

/-- Values for the three lost patterns that no row has. -/
def patterns : Params :=
  { Params.default with push32 := some 0x00047#18, pop32 := some 0x10047#18,
                        popRet32 := some 0x20047#18 }

/-- The base state with `add.r %r1, %r2, %r3` at PC. -/
def code : State := { base with mem := write16 [] 0x1000#32 0x29E6#16 }

/-- The same in User mode, B and T of P as given. -/
def userCode (f : Word) : State := { code with flags := f }

/-- A base state in User mode. -/
def user : State := { base with flags := 0x30#32 }

/-- The base state with an MMU that answers `x` to everything. -/
def guarded (x : MmuAnswer) : State := { base with mmu := [⟨0#32, 0xFFFFFFFF#32, none, none, none, x⟩] }

/-- Where the MMU answers ok and all is RAM, every fetch is of memory. -/
theorem fetch_open {s : State} (hm : s.mmu = []) (hp : s.map = State.reset.map) (a : Word) :
    fetchCheck s a = none ∧ s.place 2 a = .memory := by
  refine ⟨by unfold fetchCheck; rw [hm]; rfl, ?_⟩
  have hr : ∀ x, regionOf s.map x = some .ram := fun x => by
    rw [hp]; simp only [State.reset, regionOf]; rw [if_pos (by bv_omega)]
  unfold State.place; simp [hr]

/-- There every write to an address other than 0 succeeds. -/
theorem write_open {s : State} (hm : s.mmu = []) (hp : s.map = State.reset.map) (w : Width) {a : Word}
    (ha : a ≠ 0#32) : WriteOk s w a := by
  have hr : ∀ x, regionOf s.map x = some .ram := fun x => by
    rw [hp]; simp only [State.reset, regionOf]; rw [if_pos (by bv_omega)]
  refine ⟨by unfold dataCheck; rw [if_neg ha, hm]; rfl, ?_, ?_⟩
  · unfold State.place; simp [hr]
  · unfold State.allRam; simp [hr]

/-- There a frame can be written where none of its words is at 0. -/
theorem frame_ok {s : State} (m : Mode) (b : Word) (hm : s.mmu = []) (hp : s.map = State.reset.map)
    (hb : b ≠ 0#32 ∧ b + 4#32 ≠ 0#32 ∧ b + 8#32 ≠ 0#32 ∧ b + 12#32 ≠ 0#32) :
    FrameWritable s m b := by
  have w : ∀ {a : Word}, a ≠ 0#32 → WriteOkIn s m .word a := fun ha =>
    ⟨by unfold dataCheck; rw [if_neg ha, hm]; rfl, (write_open hm hp .word ha).2⟩
  exact ⟨w hb.1, w hb.2.1, w hb.2.2.1, w hb.2.2.2⟩

/-- The base state with an MMU that refuses the word at `a` and a frame below 0x8000. -/
def holed (a : Word) : State := { base with mmu := [⟨a, a, none, none, none, .dataError⟩] }

/-- Frames whose first, second, third and fourth word cannot be written. -/
theorem frames_fail (m : Mode) (ret r1 r0 f : Word) :
    (∀ b, b = 0x7FF0#32 ∨ b = 0x5FF0#32 →
      FrameFailsAt (holed (b + 12#32)) m (frameWords b ret r1 r0 f) 0 .mmuDataError
      ∧ FrameFailsAt (holed (b + 8#32)) m (frameWords b ret r1 r0 f) 1 .mmuDataError
      ∧ FrameFailsAt (holed (b + 4#32)) m (frameWords b ret r1 r0 f) 2 .mmuDataError
      ∧ FrameFailsAt (holed b) m (frameWords b ret r1 r0 f) 3 .mmuDataError) := by
  rintro b (rfl | rfl) <;> cases m <;> refine ⟨⟨?_, _, rfl, rfl⟩, ⟨?_, _, rfl, rfl⟩, ⟨?_, _, rfl, rfl⟩, ?_, _, rfl, rfl⟩ <;>
    (intro j x hj hx
     rcases j with _ | _ | _ | j
     all_goals first
       | omega
       | (cases hx; exact ⟨rfl, rfl, rfl⟩))

/-- The low bits of a concatenation are those of its right part. -/
theorem fld_append_low {n m : Nat} (x : BitVec n) (y : BitVec m) (lo k : Nat) (h : lo + k ≤ m) :
    fld (x ++ y) lo k = fld y lo k := by
  apply BitVec.eq_of_getLsbD_eq
  intro i hi
  simp only [fld, BitVec.getLsbD_extractLsb', BitVec.getLsbD_append, hi, decide_true, Bool.true_and]
  rw [if_pos (by omega)]

/-- A field of the low bits. -/
theorem fld_fld (l : Half) (b c k : Nat) (h : c + k ≤ b) : fld (fld l 0 b) c k = fld l c k := by
  apply BitVec.eq_of_getLsbD_eq
  intro i hi
  simp only [fld, BitVec.getLsbD_extractLsb', hi, decide_true, Bool.true_and, Nat.zero_add]
  simp [show c + i < b by omega]

/-- The high bits of a concatenation are its left part. -/
theorem fld_append_high {n m : Nat} (x : BitVec n) (y : BitVec m) : fld (x ++ y) m n = x := by
  apply BitVec.eq_of_getLsbD_eq
  intro i hi
  simp only [fld, BitVec.getLsbD_extractLsb', BitVec.getLsbD_append, hi, decide_true, Bool.true_and]
  rw [if_neg (by omega), show m + i - m = i by omega]

/-- The half-words of a damaged row are of no other row. -/
theorem bnz16_alone : ∀ x : BitVec 9,
    (claims16 patterns (0b011#3 ++ x ++ 0b1100#4)).count true ≤ 1 := by decide

theorem shiftlc_alone : ∀ x : BitVec 6,
    (claims16 patterns (0b100#3 ++ x ++ 0b1011101#7)).count true ≤ 1 := by decide

theorem mov1r_alone : ∀ x : BitVec 6,
    (claims16 patterns (0b110#3 ++ x ++ 0b0010100#7)).count true ≤ 1 := by decide

/-- No row of Format A has the op5 of `add.n.i`. -/
theorem addNI_free {l : Half} (h : fld l 5 5 = 0b11111#5) (v : Imm) : decodeATable l v = none := by
  unfold decodeATable; rw [h]; rfl

/-- No row of the 32-bit space has the pattern of `bnz.r`. -/
theorem bnz32_free {l : Half} (u : Half) (h : bnz32At patterns l = true) : decode32Table l u = none ∧ fld l 0 5 ≠ 0b10111#5 := by
  have h : fld l 13 3 ++ fld l 0 10 = 0b0011010100111#13 := beq_iff_eq.mp h
  have h7 : fld l 0 7 = 0b0100111#7 := by
    have := congrArg (fun x => fld x 0 7) h
    rw [fld_append_low _ _ _ _ (by omega), fld_fld _ _ _ _ (by omega)] at this
    rw [this]; rfl
  have h5 : fld l 0 5 = 0b00111#5 := by
    have := congrArg (fun x => fld x 0 5) h
    rw [fld_append_low _ _ _ _ (by omega), fld_fld _ _ _ _ (by omega)] at this
    rw [this]; rfl
  have h3 : fld l 7 3 = 0b101#3 := by
    have := congrArg (fun x => fld x 7 3) h
    rw [fld_append_low _ _ _ _ (by omega), fld_fld _ _ _ _ (by omega)] at this
    rw [this]; rfl
  have hg : fld l 13 3 = 0b001#3 := by
    have := congrArg (fun x => fld x 10 3) h
    rw [fld_append_high] at this
    rw [this]; rfl
  unfold decode32Table decodeB decodeBSub
  rw [h5, h7, hg, h3]
  exact ⟨rfl, by decide⟩

/-- A word with a lost pattern is known but for its free bits. -/
theorem lost_word {v : BitVec 18} {l u : Half} (h : lostAt (some v) l u = true) : l = fld v 0 16 ∧ fld u 0 2 = fld v 16 2 := by
  have h : v = fld u 0 2 ++ l := Option.some.inj (beq_iff_eq.mp h)
  subst h
  constructor
  · rw [fld_append_low _ _ _ _ (by omega)]
    apply BitVec.eq_of_getLsbD_eq; intro i hi; simp [fld, hi]
  · exact (fld_append_high _ _).symm

theorem witness_PatternsOk : PatternsOk patterns where
  size16 h := by
    have whole : ∀ (k j : Nat) (hk : k + j = 13) (t : BitVec 3) (v : BitVec k) , fld h 13 3 = t →
        fld h 0 k = v → ∃ x : BitVec j, h = (t ++ x ++ v).cast (by omega) := by
      intro k j hk t v ht hv
      subst ht hv
      refine ⟨fld h k j, ?_⟩
      apply BitVec.eq_of_getLsbD_eq
      intro i hi
      simp only [fld, BitVec.getLsbD_cast, BitVec.getLsbD_extractLsb', BitVec.getLsbD_append]
      by_cases h1 : i < k
      · simp [h1]
      · by_cases h2 : i < 13
        · simp [h1, show i - k < j by omega, show k + (i - k) = i by omega]
        · simp [h1, show ¬ i - k < j by omega, show i - k - j < 3 by omega,
            show 13 + (i - k - j) = i by omega]
    by_cases n1 : bnz16At patterns h = true
    · have hb : fld h 13 3 ++ fld h 0 4 = 0b0111100#7 := beq_iff_eq.mp n1
      obtain ⟨x, hx⟩ := whole 4 9 rfl 0b011#3 0b1100#4
        (by have := congrArg (fun x => fld x 4 3) hb
            rw [fld_append_high] at this; rw [this]; rfl)
        (by have := congrArg (fun x => fld x 0 4) hb
            rw [fld_append_low _ _ _ _ (by omega), fld_fld _ _ _ _ (by omega)] at this
            rw [this]; rfl)
      rw [hx]; exact bnz16_alone x
    · by_cases n2 : shiftlcAt patterns h = true
      · have hb := n2
        simp only [shiftlcAt, Bool.and_eq_true, beq_iff_eq] at hb
        obtain ⟨x, hx⟩ := whole 7 6 rfl _ _ hb.1 hb.2
        rw [hx]; exact shiftlc_alone x
      · by_cases n3 : fld h 13 3 = 0b110#3 ∧ fld h 0 7 = 0b0010100#7
        · obtain ⟨x, hx⟩ := whole 7 6 rfl _ _ n3.1 n3.2
          rw [hx]; exact mov1r_alone x
        · have n4 : mov1rRdIAt patterns h = false := by
            rw [Bool.eq_false_iff]; intro hb
            simp only [mov1rRdIAt, Bool.and_eq_true, beq_iff_eq] at hb
            exact n3 hb.1
          have n5 : mov1rIRsAt patterns h = false := by
            rw [Bool.eq_false_iff]; intro hb
            simp only [mov1rIRsAt, Bool.and_eq_true, beq_iff_eq] at hb
            exact n3 hb.1
          simp only [claims16, Bool.not_eq_true _ ▸ n1, Bool.not_eq_true _ ▸ n2, n4, n5]
          cases (decode16Table h).isSome <;> decide
  size32 l u := by
    by_cases h1 : addNI32At patterns l = true
    · have h1' := h1
      simp only [addNI32At, addNIAt, Bool.and_eq_true, beq_iff_eq] at h1'
      have ht : decode32Table l u = none := by unfold decode32Table; rw [if_pos h1'.1]; exact addNI_free h1'.2 _
      have h2 : bnz32At patterns l = false := by
        rw [Bool.eq_false_iff]; intro hb; exact (bnz32_free u hb).2 h1'.1
      have nl : ∀ v : BitVec 18, fld v 0 16 = 0x47#16 → lostAt (some v) l u = false := by
        intro v hv; rw [Bool.eq_false_iff]; intro hb
        have := (lost_word hb).1; rw [hv] at this; subst this; exact absurd h1'.1 (by decide)
      simp only [claims32, ht, h1, h2]
      rw [show lostAt patterns.push32 l u = false from nl _ (by decide), show lostAt patterns.pop32 l u = false from nl _ (by decide), show lostAt patterns.popRet32 l u = false from nl _ (by decide)]
      decide
    · have h1 : addNI32At patterns l = false := by simpa using h1
      by_cases h2 : bnz32At patterns l = true
      · have ht := (bnz32_free u h2).1
        have nl : ∀ v : BitVec 18, fld v 0 16 = 0x47#16 → lostAt (some v) l u = false := by
          intro v hv; rw [Bool.eq_false_iff]; intro hb
          have := (lost_word hb).1; rw [hv] at this; subst this; exact absurd h2 (by decide)
        simp only [claims32, ht, h1, h2]
        rw [show lostAt patterns.push32 l u = false from nl _ (by decide), show lostAt patterns.pop32 l u = false from nl _ (by decide), show lostAt patterns.popRet32 l u = false from nl _ (by decide)]
        decide
      · have h2 : bnz32At patterns l = false := by simpa using h2
        simp only [claims32, h1, h2]
        by_cases hl : l = 0x47#16
        · subst hl
          have ht : decode32Table 0x47#16 u = none := rfl
          have : ∀ x : BitVec 2, ([false, false, false, some 0x00047#18 == some (x ++ 0x47#16), some 0x10047#18 == some (x ++ 0x47#16), some 0x20047#18 == some (x ++ 0x47#16)].count true) ≤ 1 := by decide
          rw [ht]; exact this (fld u 0 2)
        · have nl : ∀ v : BitVec 18, fld v 0 16 = 0x47#16 → lostAt (some v) l u = false := by
            intro v hv; rw [Bool.eq_false_iff]; intro hb
            have := (lost_word hb).1; rw [hv] at this; exact hl this
          rw [show lostAt patterns.push32 l u = false from nl _ (by decide), show lostAt patterns.pop32 l u = false from nl _ (by decide), show lostAt patterns.popRet32 l u = false from nl _ (by decide)]
          cases (decode32Table l u).isSome <;> decide
  size48 l w := by
    cases h : addNIAt patterns l with
    | false => simp only [claims48, h]; cases (decodeATable l (.wide w)).isSome <;> decide
    | true =>
      have h' : fld l 5 5 = 0b11111#5 := beq_iff_eq.mp h
      simp only [claims48, h, addNI_free h']; decide

theorem witness_DecodeOfEncode :
    (Instr.push (.full 1#8 0#6)).wf patterns = true ∧ (Instr.pop (.full 1#8 63#6)).wf patterns = true
      ∧ (Instr.popRet (.full 0xFF#8 0#6)).wf patterns = true
      ∧ (Instr.addR .r1 .r2 .r3).wf patterns = true := by decide

theorem witness_EncodeOfDecode :
    decode patterns 0x29E6#16 0#16 0#16 = .ok (.addR .r1 .r2 .r3)
      ∧ decode patterns 0x2A5F#16 0x5678#16 0x1234#16
        = .ok (.addI (.imm .r1 .r2 (.wide 0x12345678#32)))
      ∧ decode patterns 0x0047#16 0x0100#16 0#16 = .ok (.push (.full 1#8 0#6)) := ⟨rfl, rfl, rfl⟩

theorem witness_LengthFromFirstHalf :
    (Instr.addR .r1 .r2 .r3).wf Params.default = true ∧ Instr.nop.wf Params.default = true
      ∧ (Instr.movI (.imm .r1 (.wide 0#32))).wf Params.default = true := by decide

theorem runs_code (s : State) (he : s.exe = .awake) (h : s.sample = EnvSample.quiet)
    (hb : s.execBreak = false) : RunsInstr s :=
  ⟨he, by rw [h]; rfl, fun _ _ e => (by rw [h] at e; exact nomatch e), Or.inl hb⟩

theorem witness_StepRunsDecodedInstruction :
    RunsInstr code ∧ FetchesInstr code (.addR .r1 .r2 .r3)
      ∧ ∃ t, exec (.addR .r1 .r2 .r3) (code.sampled.fetched (.addR .r1 .r2 .r3)) = .next t ∧ t.event = false ∧ t.breakHit = false
        ∧ (code.isUser = false ∨ (flagP code.flags).getLsbD 1 = false) :=
  ⟨runs_code _ rfl rfl rfl, ⟨rfl, rfl, fun _ _ => fetch_open rfl rfl _, rfl⟩, _, rfl, rfl, rfl, Or.inl rfl⟩

/-- A base state with a 48-bit instruction at PC, whose MMU refuses fetches at `a`. -/
def fenced (a : Word) : State :=
  { base with mem := write16 [] 0x1000#32 0x2A5F#16, mmu := [⟨a, a, none, none, none, .progError⟩] }

/-- Half-words refused first, second and third, one that matches no row, one where nothing stands. -/
theorem witness_StepRaisesFetchErrors :
    (RunsInstr (guarded .progError) ∧ (guarded .progError).pc.getLsbD 0 = false
      ∧ FetchFailsAt (guarded .progError) 0 .mmuProgError)
    ∧ (RunsInstr (fenced 0x1002#32) ∧ FetchFailsAt (fenced 0x1002#32) 1 .mmuProgError)
    ∧ (RunsInstr (fenced 0x1004#32) ∧ FetchFailsAt (fenced 0x1004#32) 2 .mmuProgError)
    ∧ (RunsInstr { base with mem := write16 [] 0x1000#32 0x803D#16 }
      ∧ FetchesUnknown { base with mem := write16 [] 0x1000#32 0x803D#16 })
    ∧ (RunsInstr { base with map := [] } ∧ fetchCheck { base with map := [] } 0x1000#32 = none
      ∧ State.place { base with map := [] } 2 0x1000#32 = .nowhere) := by
  refine ⟨⟨runs_code _ rfl rfl rfl, rfl, rfl, Or.inl rfl, fun _ h => absurd h (by omega), rfl⟩,
    ⟨runs_code _ rfl rfl rfl, rfl, Or.inr (by decide), fun x h => ?_, rfl⟩,
    ⟨runs_code _ rfl rfl rfl, rfl, Or.inr (by decide), fun x h => ?_, rfl⟩,
    ⟨runs_code _ rfl rfl rfl, rfl, fun _ _ => fetch_open rfl rfl _, _, rfl⟩,
    runs_code _ rfl rfl rfl, rfl, rfl⟩
  · obtain rfl : x = 0 := by omega
    exact ⟨rfl, rfl⟩
  · obtain rfl | rfl : x = 0 ∨ x = 1 := by omega
    · exact ⟨rfl, rfl⟩
    · exact ⟨rfl, rfl⟩

/-- A half-word that the buffer may still hold, and the memory a fetch and a store look at. -/
theorem witness_StepRaisesFetchErrors_buffer :
    let s := { base with params := { Params.default with prefetchBytes := 4 }, ahead := 0x1002#32 }
    (∃ h t, fetchHalf { base with stale := [⟨0x1000#32, 5#16⟩] } 0x1000#32 = .half h t)
      ∧ State.place base 2 0x1000#32 = .memory
      ∧ 2 * 1 + 1 < s.params.prefetchBytes
      ∧ read8 (write16 s.mem 0x1004#32 0x700#16) (s.ahead + BitVec.ofNat 32 (2 * 1 + 1))
        ≠ read8 s.mem (s.ahead + BitVec.ofNat 32 (2 * 1 + 1)) :=
  ⟨⟨_, _, rfl⟩, rfl, by decide, by decide⟩

theorem witness_StepTakesAcceptedInterrupt :
    (∃ s : State, s.exe = .awake ∧ s.sample.hardReset = false ∧ s.sample.irq = some (4#5, 2#4)
      ∧ acceptIrq s 4#5 2#4 = true)
    ∧ (∃ s : State, s.exe = .awake ∧ s.sample.hardReset = false ∧ s.sample.irq = some (3#5, 15#4)
      ∧ acceptIrq s 3#5 15#4 = true) :=
  ⟨⟨{ given 0x3050#32 0#32 0#32 0#32 0#32 with env := asked 4#5 2#4 }, rfl, rfl, rfl, rfl⟩,
    { base with env := asked 3#5 15#4 }, rfl, rfl, rfl, rfl⟩

/-- An NMI whose frame has its first word refused, a maskable interrupt with its last one at 0. -/
theorem witness_StepTakesAcceptedInterrupt_push_fails :
    let s := { given 0x40#32 0#32 0#32 0#32 0#32 with sp0 := 16#32 }
    (acceptIrq (holed 0x7FFC#32) 3#5 0#4 = true
      ∧ FrameFailsAt (holed 0x7FFC#32) .nmi
        (frameWords ((holed 0x7FFC#32).sp0 - 16#32) 0x1000#32 0#32 0#32 0#32) 0 .mmuDataError)
    ∧ acceptIrq s 4#5 0#4 = true
    ∧ FrameFailsAt s .interrupt (frameWords (s.sp0 - 16#32) 0x1000#32 0#32 0#32 0x40#32) 3
      .nullPointer := by
  refine ⟨⟨rfl, (frames_fail _ _ _ _ _ _ (Or.inl rfl)).1⟩, rfl, fun j x hj hx => ?_, _, rfl, rfl⟩
  rcases j with _ | _ | _ | j
  all_goals first
    | omega
    | (cases hx; exact ⟨rfl, rfl, rfl⟩)

theorem witness_StepOutsideAwake :
    State.sample { base with env := [⟨true, false, none, none⟩] } = ⟨true, false, none, none⟩
      ∧ (State.sample { base with exe := .halted }).hardReset = false
      ∧ State.sample { base with exe := .nopSleep, env := [⟨false, true, none, none⟩] }
        = ⟨false, true, none, none⟩ := ⟨rfl, rfl, rfl⟩

/-- The base state with an execute breakpoint at PC. -/
def broken (f : Word) (debugged : Bool) : State :=
  { base with flags := f, runToBreak := debugged, brke := 4#32, brk0 := 0x1000#32 }

theorem witness_StepExecuteBreakpoint :
    ((broken 0x1070#32 false).execBreak = true ∧ (broken 0x1070#32 false).isUser = true
      ∧ (flagP (broken 0x1070#32 false).flags).getLsbD 0 = true
      ∧ (broken 0x1070#32 false).sample = EnvSample.quiet)
    ∧ ((broken 0#32 true).execBreak = true ∧ (broken 0#32 true).isUser = false
      ∧ (broken 0#32 true).runToBreak = true)
    ∧ base.execBreak = false ∧ State.dataBreak { base with brke := 0x81#32 } .write .word 0x0#32 = true
    ∧ State.dataBreak { base with brke := 0x81#32 } .write .half 0x0#32 = false := by decide

/-- Row 211: a store into a watched word in User mode with B set. -/
def watched : State :=
  { given 0x1070#32 0#32 0xAB#32 0x3000#32 0#32 with
    brke := 0x210000#32, brk2 := 0x3000#32, mem := write16 [] 0x1000#32 0x2A08#16 }

theorem witness_StepAfterUserInstruction :
    (RunsInstr watched ∧ FetchesInstr watched (.st8I (.reg .r1) (.shortReg .r2 1#6))
      ∧ ∃ t, exec (.st8I (.reg .r1) (.shortReg .r2 1#6))
          (watched.sampled.fetched (.st8I (.reg .r1) (.shortReg .r2 1#6))) = .next t
        ∧ t.event = false ∧ t.exe = .awake ∧ watched.isUser = true ∧ t.isUser = true
        ∧ t.breakHit = true ∧ (flagP t.flags).getLsbD 0 = true)
    ∧ (RunsInstr (userCode 0x2070#32) ∧ FetchesInstr (userCode 0x2070#32) (.addR .r1 .r2 .r3)
      ∧ ∃ t, exec (.addR .r1 .r2 .r3) ((userCode 0x2070#32).sampled.fetched (.addR .r1 .r2 .r3)) = .next t
        ∧ t.event = false ∧ t.exe = .awake ∧ (userCode 0x2070#32).isUser = true ∧ t.isUser = true
        ∧ t.breakHit = false ∧ (flagP (userCode 0x2070#32).flags).getLsbD 1 = true) :=
  ⟨⟨runs_code _ rfl rfl rfl, ⟨rfl, rfl, fun _ _ => fetch_open rfl rfl _, rfl⟩, _, rfl, rfl, rfl, rfl, rfl, rfl, rfl⟩,
    runs_code _ rfl rfl rfl, ⟨rfl, rfl, fun _ _ => fetch_open rfl rfl _, rfl⟩, _, rfl, rfl, rfl, rfl, rfl, rfl, rfl⟩

/-- The same store in Supervisor mode, with RunToBreak on and off, and in User mode with B clear. -/
theorem witness_StepAfterUserInstruction_not_served :
    let i : Instr := .st8I (.reg .r1) (.shortReg .r2 1#6)
    ∀ f d, (f, d) = (0#32, true) ∨ (f, d) = (0#32, false) ∨ (f, d) = (0x70#32, true) →
      let s := { watched with flags := f, runToBreak := d }
      RunsInstr s ∧ FetchesInstr s i ∧ ∃ t, exec i (s.sampled.fetched i) = .next t ∧ t.event = false
        ∧ t.exe = .awake ∧ t.breakHit = true ∧ t.runToBreak = d
        ∧ ¬(t.isUser = true ∧ (flagP t.flags).getLsbD 0 = true) := by
  rintro i f d (h | h | h) <;> cases h <;>
    exact ⟨runs_code _ rfl rfl rfl, ⟨rfl, rfl, fun _ _ => fetch_open rfl rfl _, rfl⟩, _, rfl, rfl, rfl,
      by decide, rfl, by decide⟩

/-- A data breakpoint in Supervisor mode halts the core after its instruction, PC at the next (R492). -/
theorem test_data_breakpoint_halts :
    seen (fun t => (t.exe, t.pc, read8 t.mem 0x3001#32))
      (step { watched with flags := 0#32, runToBreak := true }) = some (.halted, 0x1002#32, 0xAB#8) := by
  decide

theorem witness_StepKeepsInvariant : code.Inv ∧ ∃ t, step code = .next t :=
  ⟨⟨⟨rfl, rfl, rfl, rfl, rfl, rfl, rfl, fun _ => rfl, fun _ => rfl⟩, rfl, rfl, rfl⟩, _, rfl⟩

theorem witness_StepStopsOnlyByName : user.Inv :=
  ⟨⟨rfl, rfl, rfl, rfl, rfl, rfl, rfl, fun _ => rfl, fun _ => rfl⟩, rfl, rfl, rfl⟩

theorem witness_ModeIsAFunctionOfTheBits :
    State.mode { base with info := 0x33#32 } = .nmi
      ∧ State.mode { user with info := 0x23#32 } = .recovery ∧ base.mode = .supervisor
      ∧ State.mode { base with flags := 0x10#32 } = .interrupt
      ∧ State.mode { base with flags := 0x20#32 } = .trusted ∧ user.mode = .user := by decide

theorem witness_UserModeKeepsPrivilegedState :
    user.isUser = true ∧ (∃ t, exec (.mov8I 13#8) user = .next t ∧ t.event = false)
      ∧ ∃ t, exec .brk { user with runToBreak := true } = .next t ∧ t.event = false
        ∧ t.exe = .halted := ⟨rfl, ⟨_, rfl, rfl⟩, _, rfl, rfl, rfl⟩

theorem witness_PrivilegedFormsTrapInUserMode : user.isUser = true := rfl

theorem witness_SoftResetMarkIsSticky :
    ((State.sample { code with info := 0x103#32 }).hardReset = false
      ∧ infoSR 0x103#32 = true ∧ ∃ t, step { code with info := 0x103#32 } = .next t)
    ∧ (∃ t, softReset 2#3 1#5 0#32 base = .next t) ∧ ∃ t, hardReset base = .next t :=
  ⟨⟨rfl, rfl, _, rfl⟩, ⟨_, rfl⟩, _, rfl⟩

theorem witness_MemoryIsLittleEndian : Memory.wf code.mem = true := rfl

theorem witness_DataAccessChecks :
    mmuAnswer (guarded .dataError).mmu .user 4 .read 8#32 = .dataError
      ∧ mmuAnswer (guarded .userDataError).mmu .user 4 .write 8#32 = .userDataError
      ∧ mmuAnswer (guarded .userDataError).mmu .trusted 1 .read 8#32 = .userDataError
      ∧ mmuAnswer base.mmu .user 2 .read 8#32 = .ok ∧ base.mmu = [] := by decide

/-- Addresses of RAM, of ROM, of a device and of nothing, the last byte of each included. -/
theorem witness_DataAccessChecks_map :
    mapped.place 4 0x3FFC#32 = .memory ∧ mapped.allRam 4 0x3FFC#32 = true
      ∧ mapped.place 4 0x4FFC#32 = .memory ∧ mapped.allRam 4 0x4FFC#32 = false
      ∧ mapped.place 4 0x5000#32 = .device ∧ mapped.place 2 0x5003#32 = .device
      ∧ mapped.place 2 0x5001#32 = .device ∧ mapped.kindIs 0x5003#32 1 .ram = true
      ∧ mapped.kindIs 0x5001#32 1 .io = true
      ∧ mapped.place 1 0xFFFF#32 = .memory ∧ mapped.place 2 0xFFFF#32 = .nowhere
      ∧ Memory.wf mapped.mem = true := by decide

theorem witness_JumpsComplete : TargetOk (base.jumpTarget (.pc16 8#9)) := ⟨rfl, by decide⟩

theorem witness_CallsComplete :
    Memory.wf base.mem = true ∧ base.spEnabled = true ∧ WriteOk base .word (base.sp - 4#32)
      ∧ TargetOk (base.jumpTarget (.pc16 8#9)) := ⟨rfl, rfl, ⟨rfl, rfl, rfl⟩, rfl, by decide⟩

theorem witness_TableBranchesComplete :
    ReadOk base .word (base.tableAddr (.zero32 0x800#16))
      ∧ fld (base.tableAddr (.zero32 0x800#16)) 0 2 = 0#2
      ∧ TargetOk (read32 base.mem (base.tableAddr (.zero32 0x800#16)))
      ∧ TargetOk (read32 (write32 base.mem (base.sp - 4#32)
          (base.pc + (Instr.bsrM (.zero32 0x800#16)).length)) (base.tableAddr (.zero32 0x800#16))) :=
  ⟨⟨rfl, rfl⟩, rfl, ⟨rfl, by decide⟩, rfl, by decide⟩

theorem witness_ConditionalBranchesComplete :
    flagZ (given 1#32 0#32 0#32 0#32 0#32).flags = true ∧ ¬flagZ base.flags = true
      ∧ TargetOk (base.condTarget (.near 8#8)) ∧ TargetOk (base.farTarget 8#16) :=
  ⟨rfl, by decide, ⟨rfl, by decide⟩, rfl, by decide⟩

theorem witness_RegisterTestBranchesComplete :
    TargetOk (base.testTarget (.near 8#6)) ∧ base.reg .r1 = 0#32
      ∧ (given 0#32 0#32 5#32 0#32 0#32).reg .r1 ≠ 0#32 :=
  ⟨⟨rfl, by decide⟩, rfl, by decide⟩

theorem witness_BranchTargetsTrap :
    let s := given 0#32 0#32 0x2001#32 0#32 0x3000#32
    let t := { s with mem := write32 [] 0x3000#32 0#32 }
    (s.jumpTarget (.reg .r1)).getLsbD 0 = true ∧ s.jumpTarget (.reg .r2) = 0#32
      ∧ s.spEnabled = true ∧ WriteOk s .word (s.sp - 4#32)
      ∧ ReadOk s .word (s.tableAddr (.reg .r1)) ∧ fld (s.tableAddr (.reg .r1)) 0 2 ≠ 0#2
      ∧ ReadOk t .word (t.tableAddr (.reg .r3)) ∧ fld (t.tableAddr (.reg .r3)) 0 2 = 0#2
      ∧ read32 t.mem (t.tableAddr (.reg .r3)) = 0#32
      ∧ dataCheck s s.mode .word .read (s.tableAddr (.reg .r2)) = some .nullPointer
      ∧ dataCheck { s with sp0 := 4#32 } .supervisor .word .write (4#32 - 4#32)
        = some .nullPointer :=
  ⟨rfl, rfl, rfl, ⟨rfl, rfl, rfl⟩, ⟨rfl, rfl⟩, by decide, ⟨rfl, rfl⟩, rfl, rfl, rfl, rfl⟩

/-- Taken branches to 0 and to an odd target, and a popped 0. -/
theorem witness_BranchTargetsTrap_taken :
    State.condTarget { given 1#32 0#32 0#32 0#32 0#32 with pc := 0xFFFFFFF0#32 } (.near 8#8) = 0#32
      ∧ (State.condTarget { base with pc := 1#32 } (.near 8#8)).getLsbD 0 = true
      ∧ State.farTarget { base with pc := 0xFFFFFFF0#32 } 8#16 = 0#32
      ∧ State.testTarget { base with pc := 0xFFFFFFF0#32 } (.near 8#6) = 0#32 ∧ base.reg .r1 = 0#32
      ∧ base.atomsDone = (popAtoms (popRetMask (.empty 0#5)) (popRetOffset (.empty 0#5))).length
      ∧ read32 (write32 [] base.sp 0#32) base.sp = 0#32 := by decide

theorem witness_LoadsComplete :
    GuardOk base (dispUsesSp (.shortSp 0#6)) ∧ ReadOk base .word (base.dispAddr .word (.shortSp 0#6))
      ∧ ReadOk base .half (base.dispAddr .half (.named .pc (.half 1#16)))
      ∧ ReadOk base .byte (base.dispAddr .byte (.named .zero (.half 0xFFFF#16)))
      ∧ GuardOk base (indexUsesSp .sp) ∧ ReadOk base .word (base.indexAddr .r1 .sp) :=
  ⟨fun _ => rfl, ⟨rfl, rfl⟩, ⟨rfl, rfl⟩, ⟨rfl, rfl⟩, fun _ => rfl, rfl, rfl⟩

theorem witness_StoresComplete :
    GuardOk base (dispUsesSp (.shortSp 0#6))
      ∧ WriteOk base .word (base.dispAddr .word (.shortSp 0#6))
      ∧ WriteOk base .half (base.dispAddr .half (.named .zero (.wide 0xFFFFFFFF#32)))
      ∧ WriteOk base .byte (base.dispAddr .byte (.named .zero (.half 0xFFFF#16)))
      ∧ GuardOk base (indexUsesSp .sp) ∧ WriteOk base .word (base.indexAddr .r1 .sp) :=
  ⟨fun _ => rfl, ⟨rfl, rfl, rfl⟩, ⟨rfl, rfl, rfl⟩, ⟨rfl, rfl, rfl⟩, fun _ => rfl, rfl, rfl, rfl⟩

/-- A device at the address of a load and of a store. -/
theorem witness_LoadsComplete_device :
    dataCheck mapped mapped.mode .word .read (mapped.dispAddr .word (.shortReg .r3 0#6)) = none
      ∧ dataCheck mapped mapped.mode .byte .write (mapped.dispAddr .byte (.shortReg .r3 3#6)) = none
      ∧ mapped.place 4 (mapped.dispAddr .word (.shortReg .r3 0#6)) = .device
      ∧ mapped.place 1 (mapped.dispAddr .byte (.shortReg .r3 3#6)) = .device := by decide

theorem witness_SwapCompletes :
    ReadOk (given 0#32 0#32 0#32 0x2001#32 0#32) .word 0x2001#32
      ∧ WriteOk (given 0#32 0#32 0#32 0x2001#32 0#32) .word 0x2001#32 := ⟨⟨rfl, rfl⟩, rfl, rfl, rfl⟩

theorem witness_AccessesTrap :
    GuardOk base (dispUsesSp (.shortReg .r1 0#6))
      ∧ dataCheck base base.mode .word .read (base.dispAddr .word (.shortReg .r1 0#6))
        = some .nullPointer
      ∧ dataCheck (guarded .dataError) .supervisor .half .write 0x2000#32 = some .mmuDataError
      ∧ dataCheck mapped .supervisor .word .write 0x10000#32 = none
      ∧ mapped.place (bytesOf .word) 0x10000#32 = .nowhere :=
  ⟨fun _ => rfl, rfl, rfl, rfl, rfl⟩

/-- An MMU that refuses writes only: the read of a swap passes, its write fails. -/
theorem witness_AccessesTrap_swap :
    let s := { given 0#32 0#32 1#32 0x2000#32 0#32 with
      mmu := [⟨0#32, 0xFFFFFFFF#32, none, some .write, none, .dataError⟩] }
    ReadOk s .word (s.reg .r2)
      ∧ dataCheck s s.mode .word .write (s.reg .r2) = some .mmuDataError := ⟨⟨rfl, rfl⟩, rfl⟩

theorem witness_StackGuardSoftResets :
    State.spEnabled { base with info := 0#32 } = false
      ∧ State.spEnabled { base with flags := 0x20#32, info := 1#32 } = false
      ∧ base.isUser = false ∧ fld (base.reg .r1) 0 2 = 0#2 := by decide

theorem witness_StackAtomsComplete :
    let l := pushAtoms (.mask 0x09#8)
    l[base.atomsDone]? = some (.store .r3) ∧ AtomOk base (.store .r3)
      ∧ l[(State.setS base 1).atomsDone]? = some (.store .r0)
      ∧ l.length = (State.setS base 1).atomsDone + 1
      ∧ (popAtoms (popRetMask (.range 0#2 0#5)) 0#32)[base.atomsDone]? = some (.load .r4)
      ∧ AtomOk base (.load .r4) := ⟨rfl, ⟨rfl, rfl, rfl⟩, rfl, rfl, rfl, rfl, rfl⟩

/-- The first and the second atom of a push, an immediate, and a load of `pop` and of `pop.ret` that
fail, and ones that go where nothing stands. -/
theorem witness_StackAtomsComplete_fails :
    let s := { State.setS (holed 0x7FF8#32) 1 with sp0 := 0x7FFC#32 }
    let at_ (v : Word) : State := { base with sp0 := v }
    let bare := { base with map := [] }
    let pop := popAtoms (popMask (.mask 0x01#8)) (popOffset (.mask 0x01#8))
    let popRet := popAtoms (popRetMask (.range 0#2 0#5)) (popRetOffset (.range 0#2 0#5))
    (s.spEnabled = true ∧ (pushAtoms (.mask 0x09#8))[s.atomsDone]? = some (.store .r0)
      ∧ AtomFails s (.store .r0) .mmuDataError)
    ∧ ((at_ 4#32).spEnabled = true
      ∧ (pushIAtoms false (.bits1 1#1))[(at_ 4#32).atomsDone]? = some (.storeImm 1#32)
      ∧ AtomFails (at_ 4#32) (.storeImm 1#32) .nullPointer)
    ∧ ((at_ 0#32).spEnabled = true ∧ pop[(at_ 0#32).atomsDone]? = some (.load .r0)
      ∧ AtomFails (at_ 0#32) (.load .r0) .nullPointer)
    ∧ ((holed 0x8000#32).spEnabled = true ∧ popRet[(holed 0x8000#32).atomsDone]? = some (.load .r4)
      ∧ AtomFails (holed 0x8000#32) (.load .r4) .mmuDataError)
    ∧ bare.spEnabled = true ∧ (pushAtoms (.mask 0x09#8))[bare.atomsDone]? = some (.store .r3)
    ∧ popRet[bare.atomsDone]? = some (.load .r4) ∧ AtomNowhere bare (.store .r3)
    ∧ AtomNowhere bare (.load .r4) :=
  ⟨⟨rfl, rfl, rfl⟩, ⟨rfl, rfl, rfl⟩, ⟨rfl, rfl, rfl⟩, ⟨rfl, rfl, rfl⟩, rfl, rfl, rfl, ⟨rfl, rfl⟩, rfl,
    rfl⟩

theorem witness_PopRetReturns :
    base.spEnabled = true
      ∧ base.atomsDone = (popAtoms (popRetMask (.empty 0#5)) (popRetOffset (.empty 0#5))).length
      ∧ ReadOk base .word base.sp ∧ TargetOk (read32 base.mem base.sp) :=
  ⟨rfl, rfl, ⟨rfl, rfl⟩, rfl, by decide⟩

theorem witness_PushEndState :
    Memory.wf base.mem = true ∧ base.spEnabled = true ∧ base.atomsDone = 0
      ∧ (maskRegs (pushMask (.mask 0x09#8))).length = 2
      ∧ WriteOk base .word (base.sp - 8#32) ∧ WriteOk base .word (base.sp - 4#32) :=
  ⟨rfl, rfl, rfl, rfl, ⟨rfl, rfl, rfl⟩, rfl, rfl, rfl⟩

theorem witness_PopUndoesPush :
    Memory.wf base.mem = true ∧ base.spEnabled = true ∧ base.atomsDone = 0
      ∧ (maskRegs 0x01#8).length = 1 ∧ WriteOk base .word (base.sp - 4#32)
      ∧ ReadOk base .word (base.sp - 4#32) := ⟨rfl, rfl, rfl, rfl, ⟨rfl, rfl, rfl⟩, rfl, rfl⟩

theorem witness_MovesComplete : base.spEnabled = true ∧ fld (base.reg .r1) 0 2 = 0#2 := by decide

/-- A whole-word field, the last bit alone, and one that leaves the word. -/
theorem witness_BitFieldsComplete :
    (0#5).toNat + 32 ≤ 32 ∧ (31#5).toNat + (1#5).toNat ≤ 32 ∧ 32 < (4#5).toNat + 32
      ∧ 32 < (31#5).toNat + (2#5).toNat := by decide

theorem witness_AddAndSubComplete : base.spEnabled = true := rfl

theorem witness_StackPointerAddsComplete :
    base.spEnabled = true ∧ BitVec.ofInt 32 (4 * (0xFC#8).toInt) = 0xFFFFFFF0#32 := by decide

theorem witness_DivisionsComplete :
    let s := given 0#32 0#32 0x80000000#32 0xFFFFFFFF#32 2#32
    s.reg .r2 ≠ 0#32 ∧ s.reg .r3 ≠ 0#32 ∧ Reg.r4 ≠ Reg.r1
      ∧ (s.reg .r1 == 0x80000000#32 && s.reg .r2 == 0xFFFFFFFF#32) = true
      ∧ (s.reg .r1 == 0x80000000#32 && s.reg .r3 == 0xFFFFFFFF#32) = false := by decide

theorem witness_DivisionsTrap : base.reg .r2 = 0#32 ∧ Reg.r4 ≠ Reg.r1 := by decide

theorem witness_BlockAtomsComplete :
    let s := given 0#32 0x2000#32 0x3000#32 0x4000#32 1#32
    (flagS s.flags).toNat < blkCount 0#8 ∧ (flagS s.flags).toNat + 1 < blkCount 2#8
      ∧ (flagS s.flags).toNat + 1 = blkCount 1#8
      ∧ blkCount 1#8 ≤ (flagS (s.setDone 1).flags).toNat
      ∧ s.overlaps .r1 .r0 = false ∧ s.reg .r3 = 1#32 ∧ s.reg .r4 = 0#32 := by decide

theorem witness_BlockAtoms_accesses :
    ReadOk (given 0#32 0x2000#32 0x3000#32 0#32 1#32) .byte 0x2000#32
      ∧ WriteOk (given 0#32 0x2000#32 0x3000#32 0#32 1#32) .byte 0x3000#32
      ∧ BlkSrc.reg .r1 ≠ .reg .r0 ∧ BlkSrc.ones ≠ .reg .r0 :=
  ⟨⟨rfl, rfl⟩, ⟨rfl, rfl, rfl⟩, by decide, by decide⟩

/-- A read that fails, a write that fails after its read from memory and from a device, and accesses
where nothing stands. -/
theorem witness_BlockAtoms_fail :
    let s := given 0#32 0x2000#32 0#32 0x10000#32 0x5000#32
    let t := { mapped with regs := s.regs }
    dataCheck s s.mode .byte .read (s.reg .r1) = some .nullPointer
      ∧ dataCheck s s.mode .byte .read (s.reg .r0) = none ∧ s.place 1 (s.reg .r0) = .memory
      ∧ dataCheck s s.mode .byte .write (s.reg .r1) = some .nullPointer
      ∧ dataCheck t t.mode .byte .read (t.reg .r3) = none ∧ t.place 1 (t.reg .r3) = .device
      ∧ dataCheck t t.mode .byte .write (t.reg .r1) = some .nullPointer
      ∧ dataCheck t t.mode .byte .read (t.reg .r2) = none ∧ t.place 1 (t.reg .r2) = .nowhere
      ∧ dataCheck t t.mode .byte .write (t.reg .r2) = none
      ∧ Reg.r1 ≠ Reg.r0 ∧ Reg.r1 ≠ Reg.r3 ∧ (flagS s.flags).toNat < blkCount 1#8
      ∧ s.reg .r3 ≠ 0#32 := by decide

theorem witness_BlockStoreFills :
    let s := given 0#32 0x2000#32 0#32 0#32 0#32
    flagS s.flags = 0#8 ∧ (∀ k : Nat, k < 256 → WriteOk s .byte (s.reg .r0 + BitVec.ofNat 32 k)) := by
  refine ⟨rfl, fun k h => write_open rfl rfl _ ?_⟩
  simp [given, base, State.reg, Regs.get]; bv_omega

/-- A CLU whose `clu.d` answers 5 and leaves the state 1, in which it knows nothing; the rest is an
error. -/
def fitted : State :=
  { base with
    cluFitted := true
    clu := [⟨some 2#4, none, none, none, some 0, .ok 5#32, 1⟩,
      ⟨some 2#4, none, none, none, some 1, .unknown, 1⟩, ⟨none, none, none, none, none, .error, 0⟩] }

theorem witness_DspAndCluComplete :
    fitted.cluReply ⟨2#4, 9#16, none, none⟩ = .ok 5#32
      ∧ (fitted.cluTaken ⟨2#4, 9#16, none, none⟩).cluReply ⟨2#4, 9#16, none, none⟩ = .unknown
      ∧ fitted.cluReply ⟨1#4, 9#16, none, none⟩ = .error
      ∧ base.cluReply ⟨1#4, 9#16, none, none⟩ = .unknown ∧ base.cluFitted = false := by decide

theorem witness_SystemInstructionsComplete :
    base.isUser = false ∧ base.runToBreak = false
      ∧ (user.isUser = true ∧ (flagP user.flags).getLsbD 0 = false)
      ∧ (broken 0#32 true).runToBreak = true := by decide

theorem witness_FlagFieldMovesComplete :
    base.isUser = false ∧ user.params.mov8iPrivileged = false ∧ user.isUser = true
      ∧ State.isUser { user with params := { Params.default with mov8iPrivileged := true } } = true := by
  decide

theorem witness_RegisterBankReadsComplete :
    base.isUser = false ∧ 4 ≤ (4#3).toNat ∧ 3 ≤ (3#3).toNat := by decide

theorem witness_RegisterBankWritesComplete :
    fld ((given 0#32 0#32 0x2080#32 0#32 0#32).reg .r1) 0 2 = 0#2
      ∧ fld ((given 0#32 0#32 0x2080#32 0#32 0#32).reg .r1) 0 8 ≠ 0#8
      ∧ fld ((given 0#32 0#32 0x2100#32 0#32 0#32).reg .r1) 0 8 = 0#8
      ∧ fld ((given 0#32 0#32 0x2002#32 0#32 0#32).reg .r1) 0 2 ≠ 0#2
      ∧ (given 0#32 0#32 0x2002#32 0#32 0#32).isUser = false
      ∧ (given 0x30#32 0#32 0x2002#32 0#32 0#32).isUser = true := by decide

theorem witness_ResetsComplete : ResetOk base 8#32 ∧ ResetOk base 4#32 ∧ base.isUser = false :=
  ⟨⟨by decide, rfl, rfl, by decide, rfl, rfl, by decide⟩,
    ⟨by decide, rfl, rfl, by decide, rfl, rfl, by decide⟩, rfl⟩

theorem witness_ErrorsAreTaken :
    (isLow user.mode = true ∧ isLocked user.mode = false ∧ infoK0 user.info = true
      ∧ FrameWritable user .supervisor (user.sp0 - 16#32)
      ∧ VectorOk user (frameMem user.mem (user.sp0 - 16#32) 0#32 0#32 0#32 user.flagsRead) .supervisor
        (exceptionVector user 3#5))
    ∧ (isLow base.mode = false ∧ isLocked base.mode = false
      ∧ FrameWritable base .recovery (base.sp0 - 16#32)
      ∧ VectorOk base (frameMem base.mem (base.sp0 - 16#32) 0#32 0#32 0#32 base.flagsRead) .recovery
        (exceptionVector base 19#5)) :=
  ⟨⟨rfl, rfl, rfl, frame_ok _ _ rfl rfl (by decide), by decide, rfl, rfl, by decide⟩, rfl, rfl,
    frame_ok _ _ rfl rfl (by decide), by decide, rfl, rfl, by decide⟩

theorem witness_ErrorsAreTaken_by_soft_reset :
    isLocked (State.mode { base with info := 0x23#32 }) = true
      ∧ infoK0 (State.info { base with info := 0#32 }) = false
      ∧ FrameFailsAt (holed 0x7FFC#32) .recovery (frameWords ((holed 0x7FFC#32).sp0 - 16#32) 0#32 0#32
          0#32 0#32) 0 .mmuDataError
      ∧ FrameFailsAt (holed 0x7FF0#32) .recovery (frameWords ((holed 0x7FF0#32).sp0 - 16#32) 0#32 0#32
          0#32 0#32) 3 .mmuDataError :=
  ⟨by decide, by decide, (frames_fail _ _ _ _ _ _ (Or.inl rfl)).1,
    (frames_fail _ _ _ _ _ _ (Or.inl rfl)).2.2.2⟩

theorem witness_ServicesAreTaken :
    ServiceOk1 user (user.pc + 4#32) 12#5 ∧ ServiceOk0 base (base.pc + 4#32) 31#5
      ∧ ServiceOk1 { user with flags := 0x1070#32 } 0x1002#32 17#5 :=
  ⟨⟨rfl, rfl, rfl, frame_ok _ _ rfl rfl (by decide), by decide, rfl, rfl, by decide⟩,
    ⟨rfl, rfl, rfl, frame_ok _ _ rfl rfl (by decide), by decide, rfl, rfl, by decide⟩,
    rfl, rfl, rfl, frame_ok _ _ rfl rfl (by decide), by decide, rfl, rfl, by decide⟩

theorem witness_ServicesAreTaken_by_soft_reset :
    isLocked (State.mode { base with info := 0x13#32 }) = true
      ∧ infoK1 (State.info { user with info := 1#32 }) = false
      ∧ isLow base.mode = false ∧ isLocked base.mode = false
      ∧ infoK0 (State.info { base with info := 0#32 }) = false := by decide

/-- A User mode frame on Stack1 and a Supervisor mode frame on Stack0 with a word refused. -/
theorem witness_ServicesAreTaken_push_fails :
    let s := { holed 0x5FF4#32 with flags := 0x1070#32 }
    (isLow s.mode = true ∧ infoK0 s.info = true ∧ infoK1 s.info = true ∧ s.isUser = true
      ∧ (flagP s.flags).getLsbD 0 = true
      ∧ FrameFailsAt s .trusted (frameWords (s.sp1 - 16#32) 0#32 0#32 0#32 0#32) 2 .mmuDataError)
    ∧ (isLow (holed 0x7FF8#32).mode = false ∧ isLocked (holed 0x7FF8#32).mode = false
      ∧ infoK0 (holed 0x7FF8#32).info = true
      ∧ FrameFailsAt (holed 0x7FF8#32) .supervisor
        (frameWords ((holed 0x7FF8#32).sp0 - 16#32) 0#32 0#32 0#32 0#32) 1 .mmuDataError) :=
  ⟨⟨rfl, rfl, rfl, rfl, rfl, (frames_fail .trusted 0#32 0#32 0#32 0#32 _ (Or.inr rfl)).2.2.1⟩, rfl,
    rfl, rfl, (frames_fail _ _ _ _ _ _ (Or.inl rfl)).2.1⟩

theorem witness_ReturnFromEventCompletes :
    base.isUser = false ∧ base.spEnabled = true ∧ FrameReadable base base.mode base.sp
      ∧ TargetOk (read32 base.mem (base.sp + 12#32))
      ∧ (read32 (write32 [] (base.sp + 12#32) 0x2003#32) (base.sp + 12#32)).getLsbD 0 = true
      ∧ read32 (write32 [] (base.sp + 12#32) 0#32) (base.sp + 12#32) = 0#32 :=
  ⟨rfl, rfl, ⟨⟨rfl, rfl⟩, ⟨rfl, rfl⟩, ⟨rfl, rfl⟩, rfl, rfl⟩, ⟨rfl, by decide⟩, rfl, rfl⟩

/-- The first read and the last one fail. -/
theorem witness_ReturnFromEvent_read_fails :
    dataCheck (holed 0x8000#32) .supervisor .word .read
        ((holed 0x8000#32).sp + BitVec.ofNat 32 (4 * 0)) = some .mmuDataError
    ∧ (∀ j : Nat, j < 3 →
        ReadOk (holed 0x800C#32) .word ((holed 0x800C#32).sp + BitVec.ofNat 32 (4 * j)))
    ∧ dataCheck (holed 0x800C#32) .supervisor .word .read
        ((holed 0x800C#32).sp + BitVec.ofNat 32 (4 * 3)) = some .mmuDataError := by
  refine ⟨rfl, fun j hj => ?_, rfl⟩
  obtain rfl | rfl | rfl : j = 0 ∨ j = 1 ∨ j = 2 := by omega
  · exact ⟨rfl, rfl⟩
  · exact ⟨rfl, rfl⟩
  · exact ⟨rfl, rfl⟩

theorem witness_InterruptThenReturn_maskable :
    let s := given 0x70#32 0#32 0#32 0#32 0#32
    let m := frameMem s.mem (s.sp0 - 16#32) s.pc s.regs.r1 s.regs.r0 s.flags
    Memory.wf s.mem = true ∧ acceptIrq s 4#5 0#4 = true ∧ s.flags &&& 0xF80#32 = 0#32
      ∧ TargetOk s.pc ∧ FrameWritable s .interrupt (s.sp0 - 16#32)
      ∧ FrameReadable s .interrupt (s.sp0 - 16#32)
      ∧ VectorOk s m .interrupt (s.vp + BitVec.ofNat 32 (0x80 + 4 * (4#5).toNat)) :=
  ⟨rfl, rfl, rfl, ⟨rfl, by decide⟩, frame_ok _ _ rfl rfl (by decide),
    ⟨⟨rfl, rfl⟩, ⟨rfl, rfl⟩, ⟨rfl, rfl⟩, rfl, rfl⟩, by decide, rfl, rfl, by decide⟩

theorem witness_InterruptThenReturn_nmi :
    let s := given 0xF030#32 0#32 0#32 0#32 0#32
    let m := frameMem s.mem (s.sp0 - 16#32) s.pc s.regs.r1 s.regs.r0 s.flags
    Memory.wf s.mem = true ∧ acceptIrq s 3#5 9#4 = true ∧ s.flags &&& 0xF80#32 = 0#32
      ∧ TargetOk s.pc ∧ FrameWritable s .nmi (s.sp0 - 16#32) ∧ FrameReadable s .nmi (s.sp0 - 16#32)
      ∧ VectorOk s m .nmi (s.vp + BitVec.ofNat 32 (0x80 + 4 * (3#5).toNat)) :=
  ⟨rfl, rfl, rfl, ⟨rfl, by decide⟩, frame_ok _ _ rfl rfl (by decide),
    ⟨⟨rfl, rfl⟩, ⟨rfl, rfl⟩, ⟨rfl, rfl⟩, rfl, rfl⟩, by decide, rfl, rfl, by decide⟩

end Sys2Proof.Tests
end

section
/-! PROOF of O19 (00_scope.md). First what the checks answer and where an access goes, byte by byte;
then the bytes that a read and a write with bytes of a device leave. -/

namespace Sys2Proof.Machine

/-! ### The checks of a data access -/

theorem dataCheck_null (s : State) (m : Mode) (w : Width) (kind : AccessKind) :
    dataCheck s m w kind 0#32 = some .nullPointer := rfl

/-- The error that an answer of the MMU is to a data access by mode `m` (R86, R502). -/
def dataErrorOf (m : Mode) (r : MmuAnswer) : Option ErrorKind :=
  match r with
  | .dataError => some .mmuDataError
  | .userDataError => if m = .user then some .mmuUserDataError else none
  | .ok | .progError | .userProgError => none

/-- Past the NullPointer check the MMU's answer decides (R88). -/
theorem dataCheck_nonzero (s : State) (m : Mode) (w : Width) (kind : AccessKind) {a : Word}
    (ha : a ≠ 0#32) :
    dataCheck s m w kind a = dataErrorOf m (mmuAnswer s.mmu m (bytesOf w) kind a) := by
  unfold dataCheck
  rw [if_neg ha]
  cases mmuAnswer s.mmu m (bytesOf w) kind a <;> rfl

theorem dataCheck_ne_alignError (s : State) (m : Mode) (w : Width) (kind : AccessKind) (a : Word) :
    dataCheck s m w kind a ≠ some .alignError := by
  by_cases ha : a = 0#32
  · subst ha; simp [dataCheck_null]
  · rw [dataCheck_nonzero s m w kind ha]
    cases mmuAnswer s.mmu m (bytesOf w) kind a
    case userDataError => cases m <;> simp [dataErrorOf]
    all_goals simp [dataErrorOf]

/-! ### Where an access goes, by the kinds of its bytes -/

section
variable {s : State} {n : Nat} {a : Word}

theorem kindIs_iff {j : Nat} {k : RegionKind} :
    s.kindIs a j k = true ↔ regionOf s.map (a + BitVec.ofNat 32 j) = some k := by
  simp [State.kindIs]

theorem place_nowhere (h : ∃ j, j < n ∧ regionOf s.map (a + BitVec.ofNat 32 j) = none) :
    s.place n a = .nowhere := by
  unfold State.place
  exact if_pos (by simpa using h)

theorem place_device (h : ∀ j, j < n → regionOf s.map (a + BitVec.ofNat 32 j) ≠ none)
    (hio : ∃ j, j < n ∧ regionOf s.map (a + BitVec.ofNat 32 j) = some .io) :
    s.place n a = .device := by
  unfold State.place
  refine (if_neg ?_).trans (if_pos ?_)
  · simpa using h
  · simpa using hio

theorem place_memory (h : ∀ j, j < n → regionOf s.map (a + BitVec.ofNat 32 j) = some .ram
      ∨ regionOf s.map (a + BitVec.ofNat 32 j) = some .rom) :
    s.place n a = .memory := by
  have other (k : Option RegionKind) (hram : some .ram ≠ k) (hrom : some .rom ≠ k) :
      ∀ j, j < n → regionOf s.map (a + BitVec.ofNat 32 j) ≠ k := by
    intro j hj
    rcases h j hj with hk | hk
    · rwa [hk]
    · rwa [hk]
  unfold State.place
  refine (if_neg ?_).trans (if_neg ?_)
  · simpa using other none (by decide) (by decide)
  · simpa using other (some .io) (by decide) (by decide)

theorem allRam_of (h : ∀ j, j < n → regionOf s.map (a + BitVec.ofNat 32 j) = some .ram) :
    s.allRam n a = true := by
  simpa [State.allRam] using h

/-- A write with no byte in RAM leaves memory as it is (Note 31). -/
theorem storeRam_of_no_ram (v : Word) (h : ∀ j, j < n → s.kindIs a j .ram = false) :
    s.storeRam n a v = s.mem := by
  induction n with
  | zero => rfl
  | succ n ih =>
    have rest : s.storeRam n a v = s.mem := ih fun j hj => h j (by omega)
    unfold State.storeRam at rest ⊢
    rw [List.range_succ, List.foldl_append, rest]
    simp [h n (by omega)]

end

/-- A write of memory stores the bytes that stand in RAM. -/
theorem store_memory {s : State} {w : Width} {a : Word} (v : Word)
    (h : s.place (bytesOf w) a = .memory) :
    s.store w a v = .ok (s.putMem (s.storeRam (bytesOf w) a v)) := by
  unfold State.store
  rw [h]

/-- Memory that has not changed leaves no old half-word in the prefetch buffer. -/
theorem putMem_mem_self (s : State) : s.putMem s.mem = s := by
  have same (k : Nat) : s.overwrites s.mem k = false := by simp [State.overwrites]
  have stale : s.staleAfter s.mem = s.stale := by simp [State.staleAfter, same]
  unfold State.putMem
  rw [stale]

/-! ### Bytes of a word -/

theorem bytesOf_pos (w : Width) : 0 < bytesOf w := by cases w <;> decide

theorem bytesOf_le (w : Width) : bytesOf w ≤ 4 := by cases w <;> decide

/-- A word is its four bytes. -/
theorem word_eq_of_bytes {x y : Word} (h : ∀ j, j < 4 → fld x (8 * j) 8 = fld y (8 * j) 8) :
    x = y := by
  apply BitVec.eq_of_getLsbD_eq
  intro i hi
  have hb := congrArg (fun z => z.getLsbD (i % 8)) (h (i / 8) (by omega))
  simpa [BitVec.getLsbD_extractLsb', Nat.div_add_mod, Nat.mod_lt i (show 0 < 8 by decide)] using hb

/-- A byte written is the byte at its own place, and no other byte changes. -/
theorem fld_putField_byte (x : Word) (b : Byte) {i j : Nat} (hi : i < 4) (hj : j < 4) :
    fld (putField x (8 * i) 8 b) (8 * j) 8 = if j = i then b else fld x (8 * j) 8 := by
  split
  · rename_i h; subst h; exact fld_putField_same x _ 8 b (by omega)
  · exact fld_putField_other x _ 8 b _ 8 (by omega) (by omega) (by omega)

/-- Above its width a field is 0. -/
theorem fld_above {w : Nat} (x : BitVec w) {lo : Nat} (len : Nat) (h : w ≤ lo) :
    fld x lo len = 0#len := by
  apply BitVec.eq_of_getLsbD_eq
  intro i hi
  simp [BitVec.getLsbD_of_ge x (lo + i) (by omega)]

theorem fld_read16 (m : List Host.Cell) (a : Word) {j : Nat} (hj : j < 2) :
    fld (read16 m a) (8 * j) 8 = read8 m (a + BitVec.ofNat 32 j) := by
  unfold read16
  obtain rfl | rfl : j = 0 ∨ j = 1 := by omega
  · rw [fld, BitVec.extractLsb'_append_eq_right, BitVec.add_zero]
  · exact BitVec.extractLsb'_append_eq_left

theorem fld_read32 (m : List Host.Cell) (a : Word) {j : Nat} (hj : j < 4) :
    fld (read32 m a) (8 * j) 8 = read8 m (a + BitVec.ofNat 32 j) := by
  unfold read32
  obtain rfl | rfl | rfl | rfl : j = 0 ∨ j = 1 ∨ j = 2 ∨ j = 3 := by omega
  · rw [fld, BitVec.extractLsb'_append_eq_right, BitVec.add_zero]
  · rw [fld, BitVec.extractLsb'_append_eq_of_le (by decide), BitVec.extractLsb'_append_eq_right]
  · rw [fld, BitVec.extractLsb'_append_eq_of_le (by decide),
      BitVec.extractLsb'_append_eq_of_le (by decide), BitVec.extractLsb'_append_eq_right]
  · rw [fld, BitVec.extractLsb'_append_eq_of_le (by decide),
      BitVec.extractLsb'_append_eq_of_le (by decide),
      BitVec.extractLsb'_append_eq_of_le (by decide)]
    exact BitVec.extractLsb'_eq_self

/-- What a read gives (R72): the bytes of its addresses, and above the width of the access 0. -/
theorem fld_loadMem (m : List Host.Cell) (w : Width) (a : Word) {j : Nat} (hj : j < 4) :
    fld (loadMem m w a) (8 * j) 8
      = if j < bytesOf w then read8 m (a + BitVec.ofNat 32 j) else 0#8 := by
  cases w with
  | byte =>
    rw [loadMem, fld, BitVec.extractLsb'_setWidth_of_le (by omega)]
    split
    · rename_i h
      obtain rfl : j = 0 := by simpa [bytesOf] using h
      simp
    · exact fld_above _ _ (by simp only [bytesOf] at *; omega)
  | half =>
    rw [loadMem, fld, BitVec.extractLsb'_setWidth_of_le (by omega)]
    split
    · exact fld_read16 m a ‹_›
    · exact fld_above _ _ (by simp only [bytesOf] at *; omega)
  | word => exact (fld_read32 m a hj).trans (if_pos hj).symm

/-- The value of an access is the field of its bytes. -/
theorem lowBytes_eq_setWidth (w : Width) (v : Word) :
    lowBytes w v = (fld v 0 (8 * bytesOf w)).setWidth 32 := by
  cases w with
  | byte => rfl
  | half => rfl
  | word => simp [lowBytes, bytesOf]

theorem lowBytes_zero (w : Width) : lowBytes w 0#32 = 0#32 := by cases w <;> rfl

/-- The bytes of the value of an access, and above its width 0. -/
theorem fld_lowBytes (w : Width) (v : Word) {j : Nat} (hj : j < 4) :
    fld (lowBytes w v) (8 * j) 8 = if j < bytesOf w then fld v (8 * j) 8 else 0#8 := by
  rw [lowBytes_eq_setWidth, fld, BitVec.extractLsb'_setWidth_of_le (by omega)]
  split
  · exact (fld_fld v 0 _ _ 8 (by omega)).trans (by rw [Nat.zero_add])
  · exact fld_above _ _ (by omega)

/-! ### Accesses of the bus -/

/-- `x` with the bytes of a bus access, of `n` bytes from the offset `off`, that are a device's taken
from the answer `r`. -/
def State.takeAnswer (s : State) (a : Word) (off n : Nat) (r x : Word) : Word :=
  (List.range n).foldl
    (fun x j =>
      if s.kindIs a (off + j) .io then putField x (8 * (off + j)) 8 (fld r (8 * j) 8) else x) x

theorem takeAnswer_succ (s : State) (a : Word) (off n : Nat) (r x : Word) :
    s.takeAnswer a off (n + 1) r x
      = if s.kindIs a (off + n) .io then
          putField (s.takeAnswer a off n r x) (8 * (off + n)) 8 (fld r (8 * n) 8)
        else s.takeAnswer a off n r x := by
  unfold State.takeAnswer
  rw [List.range_succ, List.foldl_append]
  rfl

/-- Byte by byte: a device's byte of the bus access is the answer's, every other stays. -/
theorem fld_takeAnswer (s : State) (a : Word) {off n : Nat} (r x : Word) (hn : off + n ≤ 4) {j : Nat}
    (hj : j < 4) :
    fld (s.takeAnswer a off n r x) (8 * j) 8
      = if (off ≤ j ∧ j < off + n) ∧ s.kindIs a j .io = true then fld r (8 * (j - off)) 8
        else fld x (8 * j) 8 := by
  induction n with
  | zero => rw [if_neg (by omega)]; rfl
  | succ n ih =>
    rw [takeAnswer_succ]
    by_cases hjn : j = off + n
    · subst hjn
      have before := ih (by omega)
      rw [if_neg (by omega)] at before
      by_cases hio : s.kindIs a (off + n) .io = true
      · rw [if_pos hio, fld_putField_byte _ _ hj hj, if_pos rfl, if_pos ⟨by omega, hio⟩,
          Nat.add_sub_cancel_left]
      · rw [if_neg hio, if_neg fun h => hio h.2, before]
    · have same : (off ≤ j ∧ j < off + (n + 1)) ↔ off ≤ j ∧ j < off + n := by omega
      simp only [same]
      rw [← ih (by omega)]
      split
      · rw [fld_putField_byte _ _ (by omega) hj, if_neg hjn]
      · rfl

/-- A bus access with a byte of a device: the devices answer it, and their bytes are taken. -/
theorem busAccess_seen {s : State} {a v : Word} {p : BusPart} {write : Bool} {acc r : Word × Nat}
    (h : ∃ j, j < p.bytes ∧ s.kindIs a (p.off + j) .io = true)
    (hr : deviceAccess s.devices acc.2 write p.bytes (a + BitVec.ofNat 32 p.off)
      ((fld v (8 * p.off) (8 * p.bytes)).setWidth 32) = r) :
    s.busAccess write a v acc p = (s.takeAnswer a p.off p.bytes r.1 acc.1, r.2) := by
  subst hr
  unfold State.busAccess
  exact if_pos (by simpa using h)

/-- A bus access changes no byte that is not a device's. -/
theorem fld_busAccess_other {s : State} {a : Word} {p : BusPart} (write : Bool) (v : Word)
    (acc : Word × Nat) (hp : p.off + p.bytes ≤ 4) {j : Nat} (hj : j < 4)
    (h : s.kindIs a j .io = false) :
    fld (s.busAccess write a v acc p).1 (8 * j) 8 = fld acc.1 (8 * j) 8 := by
  by_cases hs : ∃ i, i < p.bytes ∧ s.kindIs a (p.off + i) .io = true
  · rw [busAccess_seen hs rfl, fld_takeAnswer s a _ _ hp hj, if_neg (by simp [h])]
  · unfold State.busAccess
    rw [if_neg (by simpa using hs)]

theorem busParts_aligned {n : Nat} {a : Word} (h : a.toNat % n = 0) : busParts n a = [⟨0, n⟩] :=
  if_pos h

theorem busParts_unaligned {n : Nat} {a : Word} (h : a.toNat % n ≠ 0) :
    busParts n a = [⟨0, n - a.toNat % n⟩, ⟨n - a.toNat % n, n - (n - a.toNat % n)⟩] :=
  if_neg h

/-- No part of an access reaches past its end. -/
theorem busParts_le {n : Nat} {a : Word} {p : BusPart} (h : p ∈ busParts n a) :
    p.off + p.bytes ≤ n := by
  by_cases ha : a.toNat % n = 0
  · rw [busParts_aligned ha, List.mem_singleton] at h
    subst h
    exact (Nat.zero_add n).le
  · rw [busParts_unaligned ha, List.mem_pair] at h
    obtain rfl | rfl := h
    · exact (Nat.zero_add _).trans_le (Nat.sub_le _ _)
    · exact (Nat.add_sub_of_le (Nat.sub_le _ _)).le

/-! ### Reads and writes with bytes of a device -/

/-- Of a read that is partly a device's the other bytes are memory's (R97). -/
theorem fld_deviceLoad_other {s : State} {w : Width} {a : Word} {j : Nat} (hj : j < bytesOf w)
    (h : s.kindIs a j .io = false) :
    fld (s.deviceLoad w a).1 (8 * j) 8 = read8 s.mem (a + BitVec.ofNat 32 j) := by
  have hn := bytesOf_le w
  have parts (l : List BusPart) (acc : Word × Nat) (hl : ∀ p ∈ l, p.off + p.bytes ≤ bytesOf w) :
      fld (l.foldl (s.busAccess false a 0#32) acc).1 (8 * j) 8 = fld acc.1 (8 * j) 8 := by
    induction l generalizing acc with
    | nil => rfl
    | cons p l ih =>
      rw [List.foldl_cons, ih _ fun q hq => hl q (List.mem_cons_of_mem p hq)]
      exact fld_busAccess_other false _ acc ((hl p List.mem_cons_self).trans hn) (by omega) h
  unfold State.deviceLoad
  rw [parts _ _ fun p hp => busParts_le hp, fld_loadMem _ _ _ (by omega), if_pos hj]

section
variable {s : State} {w : Width} {a v : Word} (hio : ∀ j, j < bytesOf w → s.kindIs a j .io = true)
include hio

theorem place_io : s.place (bytesOf w) a = .device :=
  place_device (fun j hj => by rw [kindIs_iff.mp (hio j hj)]; exact Option.some_ne_none _)
    ⟨0, bytesOf_pos w, kindIs_iff.mp (hio 0 (bytesOf_pos w))⟩

/-- A write of devices alone leaves all but their state. -/
theorem store_io : s.store w a v = .ok { s with devState := s.deviceStore w a v } := by
  have keeps : s.storeRam (bytesOf w) a v = s.mem :=
    storeRam_of_no_ram v fun j hj => by simp [State.kindIs, kindIs_iff.mp (hio j hj)]
  rw [store_device v (place_io hio), keeps, putMem_mem_self]

/-- An aligned access of a device is one of the bus. -/
theorem busFold_aligned {write : Bool} {acc r : Word × Nat} (ha : a.toNat % bytesOf w = 0)
    (hr : deviceAccess s.devices acc.2 write (bytesOf w) a (lowBytes w v) = r) :
    (busParts (bytesOf w) a).foldl (s.busAccess write a v) acc
      = (s.takeAnswer a 0 (bytesOf w) r.1 acc.1, r.2) := by
  rw [busParts_aligned ha]
  refine busAccess_seen (p := ⟨0, bytesOf w⟩) ⟨0, bytesOf_pos w, hio 0 (bytesOf_pos w)⟩ ?_
  rw [← hr, lowBytes_eq_setWidth, BitVec.add_zero]
  rfl

/-- An unaligned access of a device is two of the bus, the lower one first (Note 33). -/
theorem busFold_unaligned {write : Bool} {acc r q : Word × Nat} {k : Nat}
    (ha : a.toNat % bytesOf w ≠ 0) (hk : k = bytesOf w - a.toNat % bytesOf w)
    (hr : deviceAccess s.devices acc.2 write k a ((fld v 0 (8 * k)).setWidth 32) = r)
    (hq : deviceAccess s.devices r.2 write (bytesOf w - k) (a + BitVec.ofNat 32 k)
      ((fld v (8 * k) (8 * (bytesOf w - k))).setWidth 32) = q) :
    (busParts (bytesOf w) a).foldl (s.busAccess write a v) acc
      = (s.takeAnswer a k (bytesOf w - k) q.1 (s.takeAnswer a 0 k r.1 acc.1), q.2) := by
  have hlt := Nat.mod_lt a.toNat (bytesOf_pos w)
  have first : s.busAccess write a v acc ⟨0, k⟩ = (s.takeAnswer a 0 k r.1 acc.1, r.2) :=
    busAccess_seen ⟨0, by simp only; omega, hio 0 (bytesOf_pos w)⟩
      (by rw [← hr, BitVec.add_zero]; rfl)
  rw [busParts_unaligned ha, ← hk, List.foldl_cons, first]
  exact busAccess_seen (p := ⟨k, bytesOf w - k⟩)
    ⟨0, by simp only; omega, hio (k + 0) (by omega)⟩ hq

/-- An aligned read of a device gives its one answer (R97). -/
theorem deviceLoad_aligned {r : Word × Nat} (ha : a.toNat % bytesOf w = 0)
    (hr : deviceAccess s.devices s.devState false (bytesOf w) a 0#32 = r) :
    s.deviceLoad w a = (lowBytes w r.1, r.2) := by
  have hn := bytesOf_le w
  unfold State.deviceLoad
  rw [busFold_aligned hio ha (r := r) (by rw [lowBytes_zero]; exact hr)]
  refine Prod.ext (word_eq_of_bytes fun j hj => ?_) rfl
  rw [fld_takeAnswer s a _ _ (by omega) hj, fld_lowBytes w _ hj, fld_loadMem _ _ _ hj]
  by_cases h : j < bytesOf w
  · rw [if_pos ⟨by omega, hio j h⟩, if_pos h, Nat.sub_zero]
  · rw [if_neg (by omega), if_neg h, if_neg h]

/-- An unaligned read of a device takes from each of the two answers the bytes of its part (R97). -/
theorem deviceLoad_unaligned {r q : Word × Nat} {k : Nat} (ha : a.toNat % bytesOf w ≠ 0)
    (hk : k = bytesOf w - a.toNat % bytesOf w)
    (hr : deviceAccess s.devices s.devState false k a 0#32 = r)
    (hq : deviceAccess s.devices r.2 false (bytesOf w - k) (a + BitVec.ofNat 32 k) 0#32 = q) :
    ∃ x, s.deviceLoad w a = (x, q.2) ∧ ∀ j, j < bytesOf w →
      fld x (8 * j) 8 = if j < k then fld r.1 (8 * j) 8 else fld q.1 (8 * (j - k)) 8 := by
  have hn := bytesOf_le w
  refine ⟨_, busFold_unaligned hio ha hk (by simpa using hr) (by simpa using hq), fun j hj => ?_⟩
  rw [fld_takeAnswer s a _ _ (by omega) (by omega), fld_takeAnswer s a _ _ (by omega) (by omega)]
  by_cases h : j < k
  · rw [if_neg (by omega), if_pos ⟨by omega, hio j hj⟩, if_pos h, Nat.sub_zero]
  · rw [if_pos ⟨by omega, hio j hj⟩, if_neg h]

end

/-! ### O19 -/

/-- The checks of O19: NullPointer first, then the MMU's answer. -/
theorem dataCheck_order (s : State) (m : Mode) (w : Width) (kind : AccessKind) (a : Word) :
    (a = 0#32 → dataCheck s m w kind a = some .nullPointer)
    ∧ (a ≠ 0#32 →
        (mmuAnswer s.mmu m (bytesOf w) kind a = .dataError →
          dataCheck s m w kind a = some .mmuDataError)
        ∧ (mmuAnswer s.mmu m (bytesOf w) kind a = .userDataError →
          dataCheck s m w kind a = if m = .user then some .mmuUserDataError else none)
        ∧ (mmuAnswer s.mmu m (bytesOf w) kind a = .ok → dataCheck s m w kind a = none))
    ∧ dataCheck s m w kind a ≠ some .alignError
    ∧ (s.mmu = [] → a ≠ 0#32 → dataCheck s m w kind a = none) := by
  refine ⟨?_, fun ha => ⟨?_, ?_, ?_⟩, dataCheck_ne_alignError s m w kind a, fun hm ha => ?_⟩
  · rintro rfl
    exact dataCheck_null s m w kind
  · intro h; rw [dataCheck_nonzero s m w kind ha, h]; rfl
  · intro h; rw [dataCheck_nonzero s m w kind ha, h]; rfl
  · intro h; rw [dataCheck_nonzero s m w kind ha, h]; rfl
  · rw [dataCheck_nonzero s m w kind ha, hm]; rfl

/-- Settles O19: where an access goes is decided by the kinds of its bytes; a read or write of devices
is its one or two bus accesses, and one that is only partly theirs is followed byte by byte. -/
theorem dataAccessChecks : Obligations.DataAccessChecks := by
  unfold Obligations.DataAccessChecks
  refine ⟨dataCheck_order, fun s w a v =>
    ⟨?nowhere, ?memory, ?ram, ?rom, ?aligned, ?unaligned, ?mixed⟩⟩
  case nowhere =>
    intro h
    exact ⟨load_nowhere (place_nowhere h), store_nowhere v (place_nowhere h)⟩
  case memory =>
    intro h
    exact load_memory (place_memory h)
  case ram =>
    intro h
    exact store_ram v (place_memory fun j hj => .inl (h j hj)) (allRam_of h)
  case rom =>
    intro h _
    have keeps : s.storeRam (bytesOf w) a v = s.mem :=
      storeRam_of_no_ram v fun j hj => by simp [State.kindIs, h j hj]
    have stored : s.store w a v = .ok s := by
      rw [store_memory v (place_memory fun j hj => .inr (h j hj)), keeps, putMem_mem_self]
    exact ⟨s, stored, fun _ => rfl⟩
  case aligned =>
    intro h ha
    have hio : ∀ j, j < bytesOf w → s.kindIs a j .io = true := fun j hj => kindIs_iff.mpr (h j hj)
    refine ⟨?_, ?_⟩
    · rw [load_device (place_io hio), deviceLoad_aligned hio ha rfl]
    · rw [store_io hio, State.deviceStore, busFold_aligned hio ha rfl]
  case unaligned =>
    intro h ha
    have hio : ∀ j, j < bytesOf w → s.kindIs a j .io = true := fun j hj => kindIs_iff.mpr (h j hj)
    refine ⟨?_, ?_⟩
    · obtain ⟨x, hx, bytes⟩ := deviceLoad_unaligned hio ha rfl rfl rfl
      exact ⟨x, by rw [load_device (place_io hio), hx], bytes⟩
    · rw [store_io hio, State.deviceStore, busFold_unaligned hio ha rfl rfl rfl]
  case mixed =>
    intro h hdev hwf
    have hp := place_device h hdev
    obtain ⟨written, kept⟩ := read8_storeRam a v hwf (bytesOf_le w)
    refine ⟨⟨_, load_device hp, fun j hj hne => ?_⟩, _, store_device v hp, rfl, fun j hj hr => ?_,
      fun b hb => ?_⟩
    · exact fld_deviceLoad_other hj (by simpa [State.kindIs] using hne)
    · exact (written j hj).trans (if_pos (kindIs_iff.mpr hr))
    · exact kept b fun j hj hr => hb j hj (kindIs_iff.mp hr)

end Sys2Proof.Machine
end

section
/-! PROOF of O11 and O17 (10_state.md), first part: what the shared operations keep of the
invariant and of the SR mark. `Keeps` relates two states, `SoundWork` a state and an attempt,
`Sound` a state and an outcome; a part of a step that stops does so for one of five named reasons.
-/

namespace Sys2Proof.Machine

/-! ### What a part of a step keeps -/

/-- What no part of a step undoes: the architectural invariant, and the mark of a soft reset (R51).
-/
structure Keeps (s t : State) : Prop where
  arch : s.Arch → t.Arch
  mark : infoSR s.info = true → infoSR t.info = true

namespace Keeps

variable {s t u : State}

theorem refl (s : State) : Keeps s s := ⟨id, id⟩

theorem trans (h : Keeps s t) (g : Keeps t u) : Keeps s u := ⟨g.arch ∘ h.arch, g.mark ∘ h.mark⟩

/-- The normal registers, FLAGS, the breakpoint registers and the bookkeeping do not matter. -/
theorem of_eq (e : (t.mem, t.pc, t.sp0, t.sp1, t.gp, t.vp, t.info, t.params, t.stale)
    = (s.mem, s.pc, s.sp0, s.sp1, s.gp, s.vp, s.info, s.params, s.stale)) : Keeps s t := by
  refine ⟨fun h => Arch_congr h e, fun h => ?_⟩
  simp only [Prod.mk.injEq] at e
  obtain ⟨-, -, -, -, -, -, hi, -, -⟩ := e
  rwa [hi]

theorem memory (g : MemoryOnly s t) : Keeps s t := by
  refine ⟨fun h => Arch_memoryOnly h g, fun h => ?_⟩
  obtain ⟨m, l, d, rfl, -, -⟩ := g
  exact h

theorem setPc (h : Keeps s t) {v : Word} (hv : v.getLsbD 0 = false) :
    Keeps s { t with pc := v } :=
  ⟨fun a => Arch_setPc (h.arch a) hv, h.mark⟩

theorem advance (h : Keeps s t) (i : Instr) : Keeps s (t.advance i.length) :=
  ⟨fun a => Arch_advance (h.arch a) i, h.mark⟩

/-- The stack pointer takes a value that is aligned where the invariant held at the start. -/
theorem setSp (h : Keeps s t) {v : Word} (hv : s.Arch → fld v 0 2 = 0#2) : Keeps s (t.setSp v) :=
  ⟨fun a => Arch_setSp (h.arch a) (hv a), fun m => by rw [setSp_info]; exact h.mark m⟩

theorem setReg (h : Keeps s t) (r : Reg) (v : Word) : Keeps s (t.setReg r v) := h.trans (of_eq rfl)

theorem setFlags (h : Keeps s t) (f : Word) : Keeps s (t.setFlags f) := h.trans (of_eq rfl)

theorem result (h : Keeps s t) (r : Reg) (v f : Word) : Keeps s (t.result r v f) :=
  h.trans (of_eq rfl)

theorem drawReg (h : Keeps s t) (r : Reg) : Keeps s (t.drawReg r) := h.trans (of_eq rfl)

theorem scrambled (h : Keeps s t) : Keeps s t.scrambled := h.trans (of_eq rfl)

theorem blkRun (h : Keeps s t) (n : Nat) : Keeps s { t with blkRun := n } := h.trans (of_eq rfl)

theorem cluTaken (s : State) (q : CluRequest) : Keeps s (s.cluTaken q) := of_eq rfl

theorem flagsUsed (s : State) : Keeps s s.flagsUsed := of_eq (by simp)

theorem brkeUsed (s : State) : Keeps s s.brkeUsed := of_eq (by simp)

/-- A write of one bit of INFO other than SR keeps the mark. -/
theorem mark_putBit {x : Word} {k : Nat} (b : Bool) (hk : k < 8) (h : infoSR x = true) :
    infoSR (putBit x k b) = true :=
  (putBit_other x k 8 b (by omega) (by decide) (by omega)).trans h

/-- NL or R is written. -/
theorem setLock (h : Keeps s t) (k : Nat) (b : Bool) (hk : k = 4 ∨ k = 5) :
    Keeps s { t with info := putBit t.info k b } :=
  ⟨fun a => Arch_setLock (h.arch a) k b hk, fun m => mark_putBit b (by omega) (h.mark m)⟩

/-- K0 is set. -/
theorem setK0 (s : State) : Keeps s { s with info := putBit s.info 0 true } := by
  refine ⟨fun a => ⟨a.memory, a.pcEven, a.sp0Aligned, a.sp1Aligned, a.gpAligned, a.vpAligned, ?_,
    fun _ => ?_, a.noBuffer⟩, mark_putBit true (by decide)⟩
  · exact infoFree_putBit true (by decide) (by decide) a.infoFree
  · exact putBit_same s.info 0 true (by decide)

/-- K1 is set where K0 is (R48). -/
theorem setK1 (s : State) :
    Keeps s { s with info := if infoK0 s.info then putBit s.info 1 true else s.info } := by
  split
  · rename_i h0
    refine ⟨fun a => ⟨a.memory, a.pcEven, a.sp0Aligned, a.sp1Aligned, a.gpAligned, a.vpAligned, ?_,
      fun _ => ?_, a.noBuffer⟩, mark_putBit true (by decide)⟩
    · exact infoFree_putBit true (by decide) (by decide) a.infoFree
    · exact (infoK0_putBit_other s.info 1 true (by decide) (by decide)).trans h0
  · exact refl s

theorem putSp0 (h : Keeps s t) {v : Word} (hv : s.Arch → fld v 0 2 = 0#2) :
    Keeps s { t with sp0 := v } :=
  ⟨fun a => let b := h.arch a
    ⟨b.memory, b.pcEven, hv a, b.sp1Aligned, b.gpAligned, b.vpAligned, b.infoFree, b.stack1Later,
      b.noBuffer⟩, h.mark⟩

theorem putSp1 (h : Keeps s t) {v : Word} (hv : s.Arch → fld v 0 2 = 0#2) :
    Keeps s { t with sp1 := v } :=
  ⟨fun a => let b := h.arch a
    ⟨b.memory, b.pcEven, b.sp0Aligned, hv a, b.gpAligned, b.vpAligned, b.infoFree, b.stack1Later,
      b.noBuffer⟩, h.mark⟩

theorem putGp (h : Keeps s t) {v : Word} (hv : s.Arch → fld v 0 2 = 0#2) :
    Keeps s { t with gp := v } :=
  ⟨fun a => let b := h.arch a
    ⟨b.memory, b.pcEven, b.sp0Aligned, b.sp1Aligned, hv a, b.vpAligned, b.infoFree, b.stack1Later,
      b.noBuffer⟩, h.mark⟩

theorem putVp (h : Keeps s t) {v : Word} (hv : fld v 0 8 = 0#8) : Keeps s { t with vp := v } :=
  ⟨fun a => let b := h.arch a
    ⟨b.memory, b.pcEven, b.sp0Aligned, b.sp1Aligned, b.gpAligned, hv, b.infoFree, b.stack1Later,
      b.noBuffer⟩, h.mark⟩

/-- The prefetch buffer is emptied (R96). -/
theorem noStale (h : Keeps s t) : Keeps s { t with stale := [] } :=
  ⟨fun a => let b := h.arch a
    ⟨b.memory, b.pcEven, b.sp0Aligned, b.sp1Aligned, b.gpAligned, b.vpAligned, b.infoFree,
      b.stack1Later, fun _ => rfl⟩, h.mark⟩

theorem softCleared (h : Keeps s t) (ty : BitVec 3) (n : BitVec 5) (p : Word) :
    Keeps s (t.softCleared ty n p) := by
  have drawn : Keeps s t.flagsUsed.brkeUsed := (h.trans (flagsUsed t)).trans (brkeUsed _)
  refine ⟨fun a => ?_, fun _ => (by decide : infoSR 0x100#32 = true)⟩
  have b := drawn.arch a
  exact ⟨b.memory, b.pcEven, b.sp0Aligned, b.sp1Aligned, (by decide : fld (0#32 : Word) 0 2 = 0#2),
    b.vpAligned, (by decide : (0x100#32 : Word) &&& 0xFFFFFECC#32 = 0#32),
    fun k => absurd (show infoK1 0x100#32 = true from k) (by decide), fun _ => rfl⟩

theorem errorEntered (h : Keeps s t) (low : Bool) (p : BitVec 4) (v : Word) :
    Keeps s (t.errorEntered low p v) := by
  cases low
  · exact (h.setLock 5 true (.inr rfl)).trans (of_eq rfl)
  · exact h.trans (of_eq rfl)

theorem interruptEntered (h : Keeps s t) (nmi : Bool) (p : BitVec 4) :
    Keeps s (t.interruptEntered nmi p) := by
  cases nmi
  · exact h.trans (of_eq rfl)
  · exact (h.setLock 4 true (.inl rfl)).trans (of_eq rfl)

/-- `rtie` clears NL, R or neither, and moves the stack pointer by 16 (R411). -/
theorem returned (h : Keeps s t) (f r0 r1 : Word) : Keeps s (t.returned f r0 r1) := by
  have moved : Keeps t (t.setSp (t.sp + 16#32)) :=
    (refl t).setSp fun a => aligned_add (Arch_sp a) (by decide)
  have unlocked : Keeps t { t.setSp (t.sp + 16#32) with
      info := if infoNL t.info then putBit t.info 4 false
        else if infoR t.info then putBit t.info 5 false else t.info } := by
    rw [← setSp_info t (t.sp + 16#32)]
    split
    · exact moved.setLock 4 false (.inl rfl)
    · split
      · exact moved.setLock 5 false (.inr rfl)
      · exact moved
  exact (h.trans unlocked).trans (of_eq rfl)

end Keeps

/-! ### Outcomes and attempts -/

/-- The reasons for which the model gives no meaning: U7, U8, U22, U23 and U11. -/
def namedRefusals : List Refusal :=
  [.badVector, .badVectorBase, .mmuOnHardwareRead, .unpopulated, .resumedPastEnd]

/-- What a part of a step that begins in `s` comes to: a state that keeps what `s` has, or a named
refusal; a fault only where the invariant did not hold. -/
def Sound (s : State) (o : Host.Outcome State Fault Refusal) : Prop :=
  match o with
  | .next t => Keeps s t
  | .fault _ => ¬s.Arch
  | .refused r => r ∈ namedRefusals

theorem Sound.of_keeps {s t : State} {o : Host.Outcome State Fault Refusal} (h : Keeps s t)
    (g : Sound t o) : Sound s o := by
  cases o with
  | next u => exact h.trans g
  | fault r => exact fun a => g (h.arch a)
  | refused r => exact g

/-- An instruction's work that is done or traps keeps what `s` has; the only refusal that it stops
with by itself is that of an access where nothing stands (U23). -/
def SoundWork {α : Type} (s : State) (r : Attempt α) : Prop :=
  match r with
  | .done _ t => Keeps s t
  | .trap x t => Keeps s t ∧ ∀ y, x = .refuse y → y = .unpopulated

section
variable {s t : State}

theorem soundWork_andThen {α β : Type} {r : Attempt α} {k : α → State → Attempt β}
    (h : SoundWork s r) (hk : ∀ a t, Keeps s t → SoundWork s (k a t)) :
    SoundWork s (andThen r k) := by
  cases r with
  | done a t => exact hk a t h
  | trap x t => exact h

theorem soundWork_error (h : Keeps s t) {α : Type} (k : ErrorKind) (p : BitVec 4) (v : Word) :
    SoundWork s (.trap (.error k p v) t : Attempt α) := ⟨h, nofun⟩

theorem soundWork_spGuard (h : Keeps s t) (u : Bool) : SoundWork s (spGuard u t) := by
  rcases spGuard_cases u t with e | ⟨e, -, -⟩ <;> rw [e]
  · exact h
  · exact ⟨h, nofun⟩

/-! ### The memory system -/

theorem load_error {w : Width} {a : Word} {r : Refusal} (h : s.load w a = .error r) :
    r = .unpopulated := by
  unfold State.load at h
  split at h <;> cases h
  rfl

theorem store_error {w : Width} {a v : Word} {r : Refusal} (h : s.store w a v = .error r) :
    r = .unpopulated := by
  unfold State.store at h
  split at h <;> cases h
  rfl

theorem soundWork_readDataP (h : Keeps s t) (p : BitVec 4) (w : Width) (a : Word) :
    SoundWork s (readDataP p w a t) := by
  unfold readDataP
  split
  · exact soundWork_error h _ _ _
  · split
    · rename_i hr
      exact ⟨h, fun y e => by cases e; exact load_error hr⟩
    · rename_i hl
      exact (h.trans (.memory (load_memoryOnly hl))).trans (.of_eq rfl)

theorem soundWork_readData (h : Keeps s t) (w : Width) (a : Word) :
    SoundWork s (readData w a t) := soundWork_readDataP h 0#4 w a

theorem soundWork_writeData (h : Keeps s t) (w : Width) (a v : Word) :
    SoundWork s (writeData w a v t) := by
  unfold writeData
  split
  · exact soundWork_error h _ _ _
  · split
    · rename_i hr
      exact ⟨h, fun y e => by cases e; exact store_error hr⟩
    · rename_i hl
      exact (h.trans (.memory (store_memoryOnly hl))).trans (.of_eq rfl)

theorem soundWork_pushWord (h : Keeps s t) (v : Word) : SoundWork s (pushWord v t) :=
  soundWork_andThen (soundWork_writeData h _ _ _) fun _ _ h1 =>
    h1.setSp fun a => aligned_sub (Arch_sp (h.arch a)) (by decide)

theorem soundWork_popWord (h : Keeps s t) : SoundWork s (popWord t) :=
  soundWork_andThen (soundWork_readData h _ _) fun _ _ h1 =>
    h1.setSp fun a => aligned_add (Arch_sp (h.arch a)) (by decide)

theorem soundWork_branchTo (h : Keeps s t) (p : BitVec 4) (v : Word) :
    SoundWork s (branchTo p v t) := by
  unfold branchTo
  split
  · exact soundWork_error h _ _ _
  · split
    · exact soundWork_error h _ _ _
    · rename_i even _
      exact h.setPc (by simpa using even)

/-! ### Resets and entries -/

theorem hardwareRead_error {m : Mode} {a : Word} {r : Refusal} (h : hardwareRead s m a = .error r) :
    r ∈ namedRefusals := by
  unfold hardwareRead at h
  split at h
  · cases h; decide
  · cases load_error h; decide

theorem vectorAt_error {m : Mode} {a : Word} {r : Refusal} (h : vectorAt s m a = .error r) :
    r ∈ namedRefusals := by
  unfold vectorAt at h
  split at h
  · rename_i hr; cases h; exact hardwareRead_error hr
  · split at h <;> cases h
    decide

theorem resetVp_error {r : Refusal} (h : resetVp s = .error r) : r ∈ namedRefusals := by
  unfold resetVp at h
  split at h
  · rename_i hr; cases h; exact hardwareRead_error hr
  · split at h <;> cases h
    decide

theorem sound_resetInto (h : Keeps s t) (off : Word) : Sound s (resetInto t off) := by
  unfold resetInto
  split
  · rename_i e; exact resetVp_error e
  · rename_i vp t1 hvp
    obtain ⟨hl, h8⟩ := resetVp_done hvp
    have h1 := h.trans (.memory (load_memoryOnly hl))
    split
    · rename_i e; exact vectorAt_error e
    · rename_i v t2 hv
      obtain ⟨hl2, ok⟩ := vectorAt_done hv
      exact ((h1.trans (.memory (load_memoryOnly hl2))).putVp h8).setPc ok.1

theorem sound_softReset (h : Keeps s t) (ty : BitVec 3) (n : BitVec 5) (p : Word) :
    Sound s (softReset ty n p t) := sound_resetInto (h.softCleared ty n p) _

theorem sound_enterVector (h : Keeps s t) (m : Mode) (a : Word) : Sound s (enterVector m a t) := by
  unfold enterVector
  split
  · rename_i e; exact vectorAt_error e
  · rename_i v t1 hv
    obtain ⟨hl, ok⟩ := vectorAt_done hv
    exact ((h.trans (.memory (load_memoryOnly hl))).setPc ok.1).trans (.of_eq rfl)

/-- What a context push keeps: a refusal of it is that of a write where nothing stands. -/
def SoundPush (s : State) (p : Pushed) : Prop :=
  match p with
  | .ok t => Keeps s t
  | .failed _ t => Keeps s t
  | .refused r => r ∈ namedRefusals

theorem soundPush_word {p : Pushed} (h : SoundPush s p) (m : Mode) (a v : Word) :
    SoundPush s (pushFrameWord m a v p) := by
  cases p with
  | failed k t => exact h
  | refused r => exact h
  | ok t =>
    unfold pushFrameWord
    simp only
    split
    · exact h
    · split
      · rename_i e; cases store_error e; exact (by decide : Refusal.unpopulated ∈ namedRefusals)
      · rename_i e; exact Keeps.trans h (.memory (store_memoryOnly e))

theorem soundPush_contextPush {z : Bool} {m : Mode} {ret r1 r0 f : Word} {p : Pushed}
    (h : Keeps s t) (e : contextPush z m ret r1 r0 f t = p) : SoundPush s p := by
  have words (b : Word) := soundPush_word (soundPush_word (soundPush_word (soundPush_word
    (show SoundPush s (.ok t) from h) m (b + 12#32) ret) m (b + 8#32) r1) m (b + 4#32) r0) m b f
  subst e
  unfold contextPush
  simp only
  split <;> rename_i e <;> have pushed := words ((if z then t.sp0 else t.sp1) - 16#32) <;>
    rw [e] at pushed
  · exact pushed
  · exact pushed
  · cases z
    · exact pushed.putSp1 fun a => aligned_sub (h.arch a).sp1Aligned (by decide)
    · exact pushed.putSp0 fun a => aligned_sub (h.arch a).sp0Aligned (by decide)

theorem sound_raiseError (h : Keeps s t) (k : ErrorKind) (p : BitVec 4) (ret tp ep : Word) :
    Sound s (raiseError k p ret tp ep t) := by
  have drawn := h.trans (.flagsUsed t)
  unfold raiseError
  split
  · exact sound_softReset h _ _ _
  · split
    · exact sound_softReset h _ _ _
    · simp only
      split <;> rename_i e <;> have pushed := soundPush_contextPush drawn e
      · exact sound_softReset pushed _ _ _
      · exact pushed
      · exact sound_enterVector (Keeps.errorEntered pushed _ _ _) _ _

theorem sound_raiseService (h : Keeps s t) (nt ns : BitVec 5) (arg ret er tp ep : Word) :
    Sound s (raiseService nt ns arg ret er tp ep t) := by
  have drawn := h.trans (.flagsUsed t)
  have entered {u : State} (g : Keeps s u) : Keeps s (u.serviceEntered arg) := g.trans (.of_eq rfl)
  unfold raiseService
  split
  · exact sound_softReset h _ _ _
  · split
    · split
      · exact sound_softReset h _ _ _
      · split <;> rename_i e <;> have pushed := soundPush_contextPush drawn e
        · exact sound_raiseError pushed _ _ _ _ _
        · exact pushed
        · exact sound_enterVector (entered pushed) _ _
    · split
      · exact sound_softReset h _ _ _
      · split <;> rename_i e <;> have pushed := soundPush_contextPush drawn e
        · exact sound_softReset pushed _ _ _
        · exact pushed
        · exact sound_enterVector (entered pushed) _ _

theorem sound_interruptEntry (s : State) (n : BitVec 5) (p : BitVec 4) :
    Sound s (interruptEntry n p s) := by
  unfold interruptEntry
  simp only
  split <;> rename_i e <;> have pushed := soundPush_contextPush (.flagsUsed s) e
  · exact sound_softReset pushed _ _ _
  · exact pushed
  · exact sound_enterVector (Keeps.interruptEntered pushed _ _) _ _

/-! ### The ends of instructions -/

theorem sound_takeTrap {x : Trap} (h : SoundWork s (.trap x t : Attempt Unit)) :
    Sound s (takeTrap x t) := by
  obtain ⟨h, named⟩ := h
  cases x with
  | error k p r => exact sound_raiseError h _ _ _ _ _
  | stackGuard => exact sound_softReset h _ _ _
  | refuse r => cases named r rfl; exact (by decide : Refusal.unpopulated ∈ namedRefusals)

theorem sound_settle {r : Attempt Unit} (h : SoundWork s r) : Sound s (settle r) := by
  cases r with
  | done u t => exact h
  | trap x t => exact sound_takeTrap h

theorem sound_errorHere (h : Keeps s t) (k : ErrorKind) (p : BitVec 4) :
    Sound s (errorHere k p t) := sound_raiseError h _ _ _ _ _

theorem sound_finish (h : Keeps s t) (i : Instr) : Sound s (finish i t) := h.advance i

/-- An instruction that ends with registers and FLAGS written. -/
theorem sound_written (i : Instr)
    (e : (t.mem, t.pc, t.sp0, t.sp1, t.gp, t.vp, t.info, t.params, t.stale)
      = (s.mem, s.pc, s.sp0, s.sp1, s.gp, s.vp, s.info, s.params, s.stale)) :
    Sound s (finish i t) := sound_finish (.of_eq e) i

theorem sound_privilegedP {o : Host.Outcome State Fault Refusal} (h : Sound s o) (p : BitVec 4) :
    Sound s (privilegedP p s o) := by
  unfold privilegedP
  split
  · exact sound_errorHere (.refl s) _ _
  · exact h

theorem sound_privileged {o : Host.Outcome State Fault Refusal} (h : Sound s o) :
    Sound s (privileged s o) := sound_privilegedP h 0#4

end

end Sys2Proof.Machine
end

section
/-! PROOF of O11 and O17 (10_state.md), second part: every instruction is sound, family by family.
-/

namespace Sys2Proof.Machine

section
variable {s t : State}

/-! ### Families of instructions -/

theorem sound_branchIf (h : Keeps s t) (c : Bool) (v : Word) (i : Instr) :
    Sound s (branchIf c v i t) := by
  unfold branchIf
  split
  · exact sound_settle (soundWork_branchTo h _ _)
  · exact sound_finish h i

theorem soundWork_tableJump (h : Keeps s t) (a v : Word) : SoundWork s (tableJump a v t) := by
  unfold tableJump
  split
  · exact soundWork_error h _ _ _
  · exact soundWork_branchTo h _ _

theorem sound_bsrI (f : JumpForm) (s : State) : Sound s (execBsrI f s) :=
  sound_settle <| soundWork_andThen (soundWork_spGuard (.refl s) true) fun _ _ h =>
    soundWork_andThen (soundWork_pushWord h _) fun _ _ h => soundWork_branchTo h _ _

theorem sound_braM (f : TableForm) (s : State) : Sound s (execBraM f s) :=
  sound_settle <| soundWork_andThen (soundWork_readData (.refl s) _ _) fun _ _ h =>
    soundWork_tableJump h _ _

/-- A table read that fails puts the stack pointer back (D6). -/
theorem sound_bsrM (f : TableForm) (s : State) : Sound s (execBsrM f s) := by
  refine sound_settle <| soundWork_andThen (soundWork_spGuard (.refl s) true) fun _ _ h =>
    soundWork_andThen (soundWork_pushWord h _) fun _ t h => ?_
  have read := soundWork_readData h .word (s.tableAddr f)
  split <;> rename_i e <;> rw [e] at read
  · exact ⟨read.1.setSp Arch_sp, read.2⟩
  · exact soundWork_tableJump read _ _

theorem sound_loadInto (i : Instr) (w : Width) (u : Bool) (a : Word) (rd : Reg) (s : State) :
    Sound s (loadInto i w u a rd s) :=
  sound_settle <| soundWork_andThen (soundWork_spGuard (.refl s) u) fun _ _ h =>
    soundWork_andThen (soundWork_readData h _ _) fun _ _ h =>
      (h.result _ _ _).advance i

theorem sound_storeFrom (i : Instr) (w : Width) (u : Bool) (a v : Word) (s : State) :
    Sound s (storeFrom i w u a v s) :=
  sound_settle <| soundWork_andThen (soundWork_spGuard (.refl s) u) fun _ _ h =>
    soundWork_andThen (soundWork_writeData h _ _ _) fun _ _ h => h.advance i

theorem sound_swapI (rd ra : Reg) (s : State) : Sound s (execSwapI rd ra s) :=
  sound_settle <| soundWork_andThen (soundWork_readData (.refl s) _ _) fun _ _ h =>
    soundWork_andThen (soundWork_writeData h _ _ _) fun _ _ h =>
      (h.result _ _ _).advance _

theorem sound_checkSeq (size lsb : BitVec 5) {o : Host.Outcome State Fault Refusal}
    (h : Sound s o) : Sound s (checkSeq size lsb s o) := by
  unfold checkSeq
  split
  · exact h
  · exact sound_errorHere (.refl s) _ _

theorem sound_andSeq (i : Instr) (rd rs : Reg) (size lsb : BitVec 5) (mask : Word) (s : State) :
    Sound s (andSeq i rd rs size lsb mask s) := sound_checkSeq size lsb (sound_written i rfl)

theorem sound_andI (f : AndIForm) (s : State) : Sound s (execAndI f s) := by
  cases f with
  | setBits rd rs size lsb => exact sound_andSeq _ rd rs size lsb _ s
  | clearBits rd rs size lsb => exact sound_andSeq _ rd rs size lsb _ s
  | imm | short | one | ff | ffff => exact sound_written _ rfl

theorem sound_movFR (f : MovFForm) (s : State) : Sound s (execMovFR f s) := by
  cases f with
  | extract rd rs size lsb => exact sound_checkSeq size lsb (sound_written _ rfl)
  | insert rd rs size lsb => exact sound_checkSeq size lsb (sound_written _ rfl)
  | short rd n => exact sound_written _ rfl

theorem sound_addFromSp (i : Instr) (rd : Reg) (v : Word) (s : State) :
    Sound s (addFromSp i rd v s) :=
  sound_settle <| soundWork_andThen (soundWork_spGuard (.refl s) true) fun _ _ h =>
    (h.result _ _ _).advance i

theorem sound_addToSp (i : Instr) {v : Word} (hv : fld v 0 2 = 0#2) (s : State) :
    Sound s (addToSp i v s) :=
  sound_settle <| soundWork_andThen (soundWork_spGuard (.refl s) true) fun _ _ h =>
    (h.setSp fun a => aligned_add (Arch_sp a) hv).advance i

theorem sound_divideEnd (h : Keeps s t) (i : Instr) (z : Bool) : Sound s (divideEnd i z t) := by
  unfold divideEnd
  split
  · exact sound_takeTrap (soundWork_error h _ _ _)
  · exact sound_finish h i

theorem sound_divremSR (rdr rdq rt : Reg) (s : State) : Sound s (execDivremSR rdr rdq rt s) := by
  unfold execDivremSR
  split
  · exact sound_errorHere (.refl s) _ _
  · exact sound_divideEnd ((((Keeps.refl s).setReg _ _).setReg _ _).setFlags _) _ _

theorem sound_divremUR (rdr rdq rt : Reg) (s : State) : Sound s (execDivremUR rdr rdq rt s) := by
  unfold execDivremUR
  split
  · exact sound_errorHere (.refl s) _ _
  · exact sound_divideEnd ((((Keeps.refl s).setReg _ _).setReg _ _).setFlags _) _ _

theorem sound_cluTo (i : Instr) (q : CluRequest) (rd : Reg) (s : State) :
    Sound s (cluTo i q rd s) := by
  unfold cluTo
  split
  · exact sound_written i rfl
  · exact sound_errorHere (.cluTaken s q) _ _
  · exact sound_errorHere (.cluTaken s q) _ _

theorem sound_cluOnly (i : Instr) (q : CluRequest) (s : State) : Sound s (cluOnly i q s) := by
  unfold cluOnly
  split
  · exact sound_written i rfl
  · exact sound_errorHere (.cluTaken s q) _ _
  · exact sound_errorHere (.cluTaken s q) _ _

/-! ### Stack instructions -/

/-- The step of an atom that moves SP is a multiple of 4. -/
def AtomAligned (a : StackAtom) : Prop :=
  match a with
  | .adjust d => fld d 0 2 = 0#2
  | .store _ => True
  | .storeImm _ => True
  | .load _ => True

theorem soundWork_runAtom (h : Keeps s t) {a : StackAtom} (ha : AtomAligned a) :
    SoundWork s (runAtom a t) := by
  cases a with
  | store r => exact soundWork_pushWord h _
  | storeImm v => exact soundWork_pushWord h _
  | load r => exact soundWork_andThen (soundWork_popWord h) fun _ _ h => h.setReg r _
  | adjust d => exact h.setSp fun a => aligned_add (Arch_sp (h.arch a)) ha

theorem soundWork_stackStep {l : List StackAtom} (hl : ∀ a ∈ l, AtomAligned a) (i : Instr)
    (s : State) : SoundWork s (stackStep l i s) := by
  refine soundWork_andThen (soundWork_spGuard (.refl s) true) fun _ _ h => ?_
  split
  · exact (h.setFlags _).advance i
  · rename_i a ha
    refine soundWork_andThen (soundWork_runAtom h (hl a (List.mem_of_getElem? ha))) fun _ _ h => ?_
    split
    · exact h.setFlags _
    · exact (h.setFlags _).advance i

theorem soundWork_returnAtom (h : Keeps s t) : SoundWork s (returnAtom t) :=
  soundWork_andThen (soundWork_popWord h) fun _ _ h =>
    soundWork_branchTo ((h.setFlags _).setFlags _) _ _

theorem sound_popRetStep {l : List StackAtom} (hl : ∀ a ∈ l, AtomAligned a) (s : State) :
    Sound s (popRetStep l s) := by
  have guard := soundWork_spGuard (.refl s) true
  unfold popRetStep
  split
  · refine sound_settle <| soundWork_andThen guard fun _ _ h => ?_
    split
    · exact h
    · rename_i a ha
      exact soundWork_andThen (soundWork_runAtom h (hl a (List.mem_of_getElem? ha))) fun _ _ h =>
        h.setFlags _
  · split
    · exact sound_settle <| soundWork_andThen guard fun _ _ h => soundWork_returnAtom h
    · split <;> rename_i e <;> rw [e] at guard
      · exact sound_takeTrap guard
      · exact (by decide : Refusal.resumedPastEnd ∈ namedRefusals)

theorem aligned_append {n : Nat} (v : BitVec n) :
    fld ((v ++ 0#2).setWidth 32) 0 2 = 0#2 := by
  rw [aligned_iff, BitVec.toNat_setWidth, BitVec.toNat_append]
  simp [Nat.shiftLeft_eq]

theorem aligned_signExtend {n : Nat} (v : BitVec n) (h : n + 2 ≤ 32) :
    fld ((v ++ 0#2).signExtend 32) 0 2 = 0#2 := by
  apply BitVec.eq_of_getLsbD_eq
  intro i hi
  simp [hi, BitVec.getLsbD_signExtend, BitVec.getLsbD_append]
  omega

theorem frameAtoms_aligned {d : Word} (hd : fld d 0 2 = 0#2) :
    ∀ a ∈ frameAtoms d, AtomAligned a := by
  intro a ha
  unfold frameAtoms at ha
  split at ha
  · cases ha
  · rw [List.mem_singleton] at ha
    subst ha
    exact hd

theorem pushOffset_aligned (f : PushForm) : fld (pushOffset f) 0 2 = 0#2 := by
  cases f with
  | mask m => rfl
  | range nn o => exact aligned_append o
  | full m o => exact aligned_append o

theorem popOffset_aligned (f : PopForm) : fld (popOffset f) 0 2 = 0#2 := by
  cases f with
  | mask m => rfl
  | full m o => exact aligned_append o

theorem popRetOffset_aligned (f : PopRetForm) : fld (popRetOffset f) 0 2 = 0#2 := by
  cases f with
  | range nn o => exact aligned_append o
  | empty o => exact aligned_append o
  | full m o => exact aligned_append o

theorem pushAtoms_aligned (f : PushForm) : ∀ a ∈ pushAtoms f, AtomAligned a := by
  intro a ha
  rcases List.mem_append.mp ha with ha | ha
  · obtain ⟨r, -, rfl⟩ := List.mem_map.mp ha
    trivial
  · exact frameAtoms_aligned (aligned_sub (by decide) (pushOffset_aligned f)) a ha

theorem pushIAtoms_aligned (b : Bool) (f : PushIForm) : ∀ a ∈ pushIAtoms b f, AtomAligned a := by
  intro a ha
  obtain ⟨v, -, rfl⟩ := List.mem_map.mp ha
  trivial

theorem popAtoms_aligned (m : BitVec 8) {d : Word} (hd : fld d 0 2 = 0#2) :
    ∀ a ∈ popAtoms m d, AtomAligned a := by
  intro a ha
  rcases List.mem_append.mp ha with ha | ha
  · exact frameAtoms_aligned hd a ha
  · obtain ⟨r, -, rfl⟩ := List.mem_map.mp ha
    trivial

/-! ### Block instructions -/

theorem Keeps.blkRegsEnd (h : Keeps s t) (ends : List Reg) : Keeps s (t.blkRegsEnd ends) := by
  unfold State.blkRegsEnd
  split
  · clear * - h
    induction ends generalizing t with
    | nil => exact h
    | cons r ends ih => exact ih (h.drawReg r)
  · exact h

theorem Keeps.blkEnd (h : Keeps s t) (i : Instr) (ends : List Reg) :
    Keeps s (Machine.blkEnd i ends t) :=
  (((h.setFlags _).blkRegsEnd ends).blkRun 0).advance i

theorem soundWork_blkImmStep {atom : State → Attempt Unit} (h : Keeps s t)
    (ha : SoundWork s (atom t)) (i : Instr) (num : BitVec 8) (ends : List Reg) :
    SoundWork s (blkImmStep i num ends atom t) := by
  unfold blkImmStep
  simp only
  split
  · refine soundWork_andThen ha fun _ _ h => ?_
    split
    · exact (h.setFlags _).blkRun _
    · exact h.blkEnd i ends
  · exact h.blkEnd i ends

theorem soundWork_blkRegStep {atom : State → Attempt Unit} (h : Keeps s t)
    (ha : SoundWork s (atom t)) (i : Instr) (rn : Reg) (ends : List Reg) :
    SoundWork s (blkRegStep i rn ends atom t) := by
  unfold blkRegStep
  simp only
  split
  · exact h.blkEnd i ends
  · refine soundWork_andThen ha fun _ _ h => ?_
    split
    · exact (h.setReg rn _).blkEnd i ends
    · exact (h.setReg rn _).blkRun _

theorem soundWork_blkRead (h : Keeps s t) (a : Word) : SoundWork s (blkRead a t) :=
  soundWork_andThen (soundWork_readData h _ _) fun _ _ h => by
    split
    · exact h.scrambled
    · exact h

theorem soundWork_blkWrite (h : Keeps s t) (a v : Word) : SoundWork s (blkWrite a v t) :=
  soundWork_andThen (soundWork_writeData h _ _ _) fun _ u h => by
    show Keeps s (if t.place 1 a = .device then u.scrambled else u)
    split
    · exact h.scrambled
    · exact h

theorem soundWork_copyAtom (rad ras : Reg) (s : State) : SoundWork s (copyAtom rad ras s) :=
  soundWork_andThen (soundWork_blkRead (.refl s) _) fun _ _ h =>
    soundWork_andThen (soundWork_blkWrite (h.trans (.of_eq (by simp))) _ _) fun _ _ h =>
      (h.setReg ras _).setReg rad _

theorem soundWork_storeAtom (h : Keeps s t) (ra : Reg) (v : Word) :
    SoundWork s (storeAtom ra v t) :=
  soundWork_andThen (soundWork_blkWrite h _ _) fun _ _ h => h.setReg ra _

theorem sound_checkRegs {r : Attempt Unit} (h : SoundWork s r) (clash : Bool) :
    Sound s (checkRegs clash s r) := by
  unfold checkRegs
  split
  · exact sound_errorHere (.refl s) _ _
  · exact sound_settle h

theorem Keeps.sourced (s : State) (src : BlkSrc) : Keeps s (s.sourced src) := .of_eq (by simp)

/-! ### System instructions -/

theorem soundWork_returnFromEvent (h : Keeps s t) : SoundWork s (returnFromEvent t) := by
  have read {u : State} (h : Keeps s u) (a : Word) := soundWork_readDataP h 2#4 .word a
  have r0 := read h t.sp
  unfold returnFromEvent
  split <;> rename_i e0 <;> rw [e0] at r0
  · exact r0
  · have r1 := read r0 (t.sp + 4#32)
    split <;> rename_i e1 <;> rw [e1] at r1
    · exact r1
    · have r2 := read r1 (t.sp + 8#32)
      split <;> rename_i e2 <;> rw [e2] at r2
      · exact r2
      · have r3 := read r2 (t.sp + 12#32)
        split <;> rename_i e3 <;> rw [e3] at r3
        · exact r3
        · exact soundWork_branchTo (Keeps.returned r3 _ _ _) _ _

theorem sound_rtie (s : State) : Sound s (execRtie s) :=
  sound_privilegedP (sound_settle <| soundWork_andThen (soundWork_spGuard (.refl s) true)
    fun _ _ h => soundWork_returnFromEvent h) 2#4

theorem sound_brk (s : State) : Sound s (execBrk s) := by
  unfold execBrk
  split
  · exact sound_raiseService (.refl s) _ _ _ _ _ _ _
  · split
    · exact sound_written .brk rfl
    · exact sound_written .brk rfl

theorem sound_movR (f : MovRForm) (s : State) : Sound s (execMovR f s) := by
  have guard := soundWork_spGuard (.refl s) true
  cases f with
  | reg rd rs => exact sound_written _ rfl
  | fromSp rd =>
    exact sound_settle <| soundWork_andThen guard fun _ _ h =>
      (h.result _ _ _).advance _
  | toSp rs =>
    unfold execMovR
    simp only
    split
    · rename_i ok
      exact sound_settle <| soundWork_andThen guard fun _ _ h => (h.setSp fun _ => ok).advance _
    · exact sound_takeTrap (soundWork_error (.refl s) _ _ _)

theorem sound_addI (f : AddIForm) (s : State) : Sound s (execAddI f s) := by
  cases f with
  | imm rd rs v => exact sound_written _ rfl
  | sp rd v => exact sound_addFromSp _ _ _ s
  | spsp48 v => exact sound_addToSp _ (by simpa using aligned_append v) s
  | spsp32 v => exact sound_addToSp _ (aligned_signExtend v (by decide)) s
  | short rd v => exact sound_written _ rfl
  | spShort rd v => exact sound_addFromSp _ _ _ s
  | spspShort v => exact sound_addToSp _ (aligned_signExtend v (by decide)) s
  | rowA rd rs => exact sound_written _ rfl
  | rowB rd rs => exact sound_written _ rfl

theorem sound_alignPast (i : Instr) (s : State) : Sound s (alignPast i s) :=
  sound_takeTrap (soundWork_error (.refl s) _ _ _)

theorem sound_movr2a (ad : BitVec 3) (rs : Reg) (s : State) : Sound s (execMovr2a ad rs s) := by
  refine sound_privileged ?_
  split
  · split
    · rename_i ok
      exact sound_finish (((Keeps.setK0 s).putSp0 fun _ => ok)) _
    · exact sound_alignPast _ s
  · split
    · rename_i ok
      exact sound_finish (((Keeps.setK1 s).putSp1 fun _ => ok)) _
    · exact sound_alignPast _ s
  · split
    · rename_i ok
      exact sound_finish ((Keeps.refl s).putVp ok) _
    · exact sound_alignPast _ s
  · split
    · rename_i ok
      exact sound_finish ((Keeps.refl s).putGp fun _ => ok) _
    · exact sound_alignPast _ s
  · exact sound_errorHere (.refl s) _ _

theorem sound_mova2r (rd : Reg) (c : BitVec 3) (s : State) : Sound s (execMova2r rd c s) := by
  refine sound_privileged ?_
  split
  case h_5 => exact sound_errorHere (.refl s) _ _
  all_goals exact sound_written _ rfl

theorem sound_movb2r (rd : Reg) (c : BitVec 3) (s : State) : Sound s (execMovb2r rd c s) := by
  refine sound_privileged ?_
  split
  case h_5 => exact sound_errorHere (.refl s) _ _
  all_goals exact sound_written _ rfl

theorem sound_movr2b (c : BitVec 3) (rs : Reg) (s : State) : Sound s (execMovr2b c rs s) := by
  refine sound_privileged ?_
  split
  case h_5 => exact sound_errorHere (.refl s) _ _
  all_goals exact sound_written _ rfl

theorem sound_movr2s (c : BitVec 3) (rs : Reg) (s : State) : Sound s (execMovr2s c rs s) := by
  refine sound_privileged ?_
  split
  case h_4 => exact sound_errorHere (.refl s) _ _
  all_goals exact sound_written _ rfl

theorem sound_movs2r (rd : Reg) (c : BitVec 3) (s : State) : Sound s (execMovs2r rd c s) := by
  unfold execMovs2r
  split
  · exact sound_finish ((Keeps.flagsUsed s).result _ _ _) _
  · exact sound_privileged (sound_written _ rfl)
  · exact sound_privileged (sound_finish ((Keeps.brkeUsed s).result _ _ _) _)
  · exact sound_privileged (sound_errorHere (.refl s) _ _)

theorem sound_mov8I (v : BitVec 8) (s : State) : Sound s (execMov8I v s) := by
  unfold execMov8I
  split
  · exact sound_errorHere (.refl s) _ _
  · exact sound_written _ rfl

theorem sound_mov1R (f : Mov1Form) (s : State) : Sound s (execMov1R f s) := by
  cases f with
  | getBit rd bit => exact sound_written _ rfl
  | getI rd => exact sound_written _ rfl
  | setBit bit rs => exact sound_written _ rfl
  | setI rs => exact sound_privileged (sound_written _ rfl)
  | iFromC => exact sound_privileged (sound_written _ rfl)
  | cFromI => exact sound_written _ rfl

end

/-! ### Every instruction -/

/-- What an instruction comes to. The ones that end with registers and FLAGS written come first;
then the families with an end of their own. -/
theorem sound_exec (i : Instr) (s : State) : Sound s (exec i s) := by
  cases i with
  | addNI | addR | addCR | addNR | subR | subCR | andR | orR | xorR | multI | multR | mult16sI
  | mult16sR | mult16uI | mult16uR | cmpXI | cmpCI | cmpXcI | cmpR | cmpCR | cmp16xI | cmp16cI
  | cmp16xcI | cmp16R | cmp16cR | cmp8xI | cmp8cI | cmp8xcI | cmp8R | cmp8cR | shiftlR | shiftrSR
  | shiftrUR | shiftlCI | shiftrCI | rotatelR | b2swapR | absR | msbitR | flip8R | flip16R | flipR
  | sext8R | sext16R | nop | fill | fimode | ver | lic | printR => exact sound_written _ rfl
  | movI f | addCI f | subXI f | subXcI f | orI f | xorI f | cmpI f | cmp16I f | cmp8I f
  | shiftrSI f | shiftrUI f | shiftlI f | rotatelI f => cases f <;> exact sound_written _ rfl
  | halt | sleepnop | sleepsif | sif | mov1I | mov2I | mov4I =>
    exact sound_privileged (sound_written _ rfl)
  | beq | bne | bleS | bgtS | bltS | bgeS | bleU | bgtU | bcs | bcc | bmi | bpl | bvs | bvc =>
    exact sound_branchIf (.refl s) _ _ _
  | bezR | bnzR => exact sound_branchIf ((Keeps.refl s).setFlags _) _ _ _
  | ld8zI | ld16zI | ldI | ld8zR | ld16zR | ldR => exact sound_loadInto _ _ _ _ _ s
  | st8I | st16I | stI | st8R | st16R | stR => exact sound_storeFrom _ _ _ _ _ s
  | divSR | divUR | remSR | remUR => exact sound_divideEnd ((Keeps.refl s).result _ _ _) _ _
  | clu | cluS | cluSt => exact sound_cluOnly _ _ s
  | cluD | cluDs | cluDst => exact sound_cluTo _ _ _ s
  | syscallI | syscallR => exact sound_raiseService (.refl s) _ _ _ _ _ _ _
  | braI => exact sound_settle (soundWork_branchTo (.refl s) _ _)
  | bsrI f => exact sound_bsrI f s
  | braM f => exact sound_braM f s
  | bsrM f => exact sound_bsrM f s
  | swapI rd ra => exact sound_swapI rd ra s
  | push f => exact sound_settle (soundWork_stackStep (pushAtoms_aligned f) _ s)
  | pop f => exact sound_settle (soundWork_stackStep (popAtoms_aligned _ (popOffset_aligned f)) _ s)
  | popRet f => exact sound_popRetStep (popAtoms_aligned _ (popRetOffset_aligned f)) s
  | pushI f => exact sound_settle (soundWork_stackStep (pushIAtoms_aligned _ f) _ s)
  | movR f => exact sound_movR f s
  | movFR f => exact sound_movFR f s
  | addI f => exact sound_addI f s
  | andI f => exact sound_andI f s
  | divremSR rdr rdq rt => exact sound_divremSR rdr rdq rt s
  | divremUR rdr rdq rt => exact sound_divremUR rdr rdq rt s
  | blkcpI =>
    exact sound_checkRegs (soundWork_blkImmStep (.refl s) (soundWork_copyAtom _ _ s) _ _ _) _
  | blkcpR =>
    exact sound_checkRegs (soundWork_blkRegStep (.refl s) (soundWork_copyAtom _ _ s) _ _ _) _
  | blkst8I src =>
    exact sound_checkRegs (soundWork_blkImmStep (.sourced s src)
      (soundWork_storeAtom (.sourced s src) _ _) _ _ _) _
  | blkst8R src =>
    exact sound_checkRegs (soundWork_blkRegStep (.sourced s src)
      (soundWork_storeAtom (.sourced s src) _ _) _ _ _) _
  | rtie => exact sound_rtie s
  | brk => exact sound_brk s
  | softreset => exact sound_privileged (sound_softReset (.refl s) _ _ _)
  | flush => exact sound_finish (Keeps.refl s).noStale _
  | mov1R f => exact sound_mov1R f s
  | mov2R f | mov4R f =>
    cases f with
    | get rd => exact sound_written _ rfl
    | set rs => exact sound_privileged (sound_written _ rfl)
  | mov8R f => cases f <;> exact sound_written _ rfl
  | mov8I v => exact sound_mov8I v s
  | movs2r rd c => exact sound_movs2r rd c s
  | movb2r rd c => exact sound_movb2r rd c s
  | mova2r rd c => exact sound_mova2r rd c s
  | movr2a c rs => exact sound_movr2a c rs s
  | movr2s c rs => exact sound_movr2s c rs s
  | movr2b c rs => exact sound_movr2b c rs s

end Sys2Proof.Machine
end

section
/-! PROOF of O11 and O17 (10_state.md), third part: the fetch and the cycle around an instruction;
with it O12 and O14, on the state after reset and on the mode. -/

namespace Sys2Proof.Machine

section
variable {s t : State}

/-! ### The cycle -/

theorem Keeps.drawn (h : Keeps s t) (n : Nat) : Keeps s { t with freeNext := n } :=
  h.trans (of_eq rfl)

/-- The fetch of a half-word changes nothing but a device and the number of the draws. -/
def SoundHalf (s : State) (r : FetchedHalf) : Prop :=
  match r with
  | .half _ t => Keeps s t
  | .failed _ t => Keeps s t
  | .refused x => x ∈ namedRefusals

/-- What the fetch of an instruction keeps. -/
def SoundFetch (s : State) (r : Fetched) : Prop :=
  match r with
  | .instr _ t => Keeps s t
  | .unknown t => Keeps s t
  | .failed _ t => Keeps s t
  | .refused x => x ∈ namedRefusals

theorem soundHalf_fetchHalf (h : Keeps s t) (a : Word) : SoundHalf s (fetchHalf t a) := by
  unfold fetchHalf
  split
  · exact h
  · split
    · rename_i e; cases load_error e; exact (by decide : Refusal.unpopulated ∈ namedRefusals)
    · rename_i e; exact (h.trans (.memory (load_memoryOnly e))).drawn _

theorem soundFetch_withHalf {r : FetchedHalf} {k : Half → State → Fetched} (h : SoundHalf s r)
    (hk : ∀ x t, Keeps s t → SoundFetch s (k x t)) : SoundFetch s (withHalf r k) := by
  cases r with
  | half x t => exact hk x t h
  | failed e t => exact h
  | refused x => exact h

theorem soundFetch_fetchDecode (h : Keeps s t) (h0 h1 h2 : Half) :
    SoundFetch s (fetchDecode h0 h1 h2 t) := by
  unfold fetchDecode
  split
  · exact h.trans (.of_eq rfl)
  · exact h

theorem soundFetch_fetch (s : State) : SoundFetch s (fetch s) := by
  refine soundFetch_withHalf (soundHalf_fetchHalf (.refl s) _) fun h0 s0 k0 => ?_
  split
  · exact soundFetch_fetchDecode k0 _ _ _
  · exact soundFetch_withHalf (soundHalf_fetchHalf k0 _) fun h1 s1 k1 =>
      soundFetch_fetchDecode k1 _ _ _
  · exact soundFetch_withHalf (soundHalf_fetchHalf k0 _) fun h1 s1 k1 =>
      soundFetch_withHalf (soundHalf_fetchHalf k1 _) fun h2 s2 k2 => soundFetch_fetchDecode k2 _ _ _

theorem sound_runFetched (s : State) : Sound s (runFetched s) := by
  have fetched := soundFetch_fetch s
  unfold runFetched
  split
  · rename_i odd
    exact fun a => absurd odd (by rw [a.pcEven]; decide)
  · split <;> rename_i e <;> rw [e] at fetched
    · exact (sound_exec _ _).of_keeps fetched
    · exact sound_errorHere fetched _ _
    · exact sound_errorHere fetched _ _
    · exact fetched

theorem sound_singleStep (before s : State) : Sound s (singleStep before s) := by
  unfold singleStep
  split
  · exact sound_raiseService (.refl s) _ _ _ _ _ _ _
  · exact Keeps.refl s

theorem sound_afterInstr (before s : State) : Sound s (afterInstr before s) := by
  unfold afterInstr
  split
  · exact Keeps.refl s
  · split
    · split
      · exact sound_raiseService (.refl s) _ _ _ _ _ _ _
      · split
        · exact Keeps.of_eq rfl
        · exact sound_singleStep before s
    · exact sound_singleStep before s

theorem sound_runInstr (s : State) : Sound s (runInstr s) := by
  have ran := sound_runFetched s
  unfold runInstr afterOutcome
  split <;> rename_i e <;> rw [e] at ran
  · exact (sound_afterInstr s _).of_keeps ran
  · exact ran
  · exact ran

theorem sound_runBroken (s : State) : Sound s (runBroken s) := by
  unfold runBroken
  split
  · split
    · exact sound_raiseService (.refl s) _ _ _ _ _ _ _
    · split
      · exact Keeps.of_eq rfl
      · exact sound_runInstr s
  · exact sound_runInstr s

theorem sound_runAwake (irq : Option (BitVec 5 × BitVec 4)) (s : State) :
    Sound s (runAwake irq s) := by
  unfold runAwake
  split
  · split
    · exact sound_interruptEntry s _ _
    · exact sound_runBroken s
  · exact sound_runBroken s

/-- Without the reset input a step keeps what it begins with. -/
theorem sound_cycleOn {e : EnvSample} (he : e.hardReset = false) (s : State) :
    Sound s (cycleOn e s) := by
  have woken : Keeps s (if e.wakeUp then { s with exe := .awake } else s) := by
    split
    · exact .of_eq rfl
    · exact .refl s
  unfold cycleOn
  rw [he, if_neg Bool.false_ne_true]
  split
  · exact sound_runAwake e.irq s
  · exact Keeps.refl s
  · exact woken
  · exact woken

/-- A step that answers a state: its work did, and its bookkeeping was cleared. -/
theorem step_next (h : step s = .next t) :
    ∃ u, cycleOn s.sample s.sampled = .next u ∧ t = u.settled := by
  unfold step cycle endStep at h
  split at h
  · rename_i u e
    cases h
    exact ⟨u, e, rfl⟩
  · cases h
  · cases h

/-- Without the reset input a step keeps the invariant and the SR mark. -/
theorem step_keeps (hr : s.sample.hardReset = false) (h : step s = .next t) : Keeps s t := by
  obtain ⟨u, e, rfl⟩ := step_next h
  have ran : Sound s.sampled (.next u) := e ▸ sound_cycleOn hr s.sampled
  exact ((Keeps.of_eq rfl : Keeps s s.sampled).trans ran).trans (.of_eq rfl)

end

/-! ### O11, O17 -/

/-- A step keeps the architectural invariant; a hard reset needs memory in canonical form only. -/
theorem step_keeps_arch {s t : State} (a : s.Arch) (h : step s = .next t) : t.Arch := by
  cases hr : s.sample.hardReset with
  | false => exact (step_keeps hr h).arch a
  | true =>
    obtain ⟨u, e, rfl⟩ := step_next h
    rw [cycleOn, hr, if_pos rfl] at e
    exact Arch_congr (Arch_hardReset (s := s.sampled) a.memory e) rfl

/-- Settles O11: the architectural invariant by `step_keeps_arch`; the bookkeeping is cleared at the
end of every step. -/
theorem stepKeepsInvariant : Obligations.StepKeepsInvariant := by
  intro s t inv h
  obtain ⟨u, -, hu⟩ := step_next h
  have arch := step_keeps_arch inv.arch h
  subst hu
  exact ⟨arch, rfl, rfl, rfl⟩

/-- A reset that answers a state leaves INFO as it was cleared before. -/
theorem resetInto_info {s t : State} {off : Word} (h : resetInto s off = .next t) :
    t.info = s.info := by
  obtain ⟨u, vp, pc, ⟨m, l, d, rfl, -, -⟩, rfl, -, -⟩ := resetInto_next h
  rfl

/-- Settles O17. -/
theorem softResetMarkIsSticky : Obligations.SoftResetMarkIsSticky := by
  refine ⟨fun s t hr mark h => (step_keeps hr h).mark mark, fun s t ty n p h => ?soft,
    fun s t h => ?hard⟩
  case soft =>
    rw [resetInto_info h]
    exact (by decide : infoSR 0x100#32 = true)
  case hard =>
    rw [resetInto_info h]
    exact (by decide : infoSR 0#32 = false)

/-! ### O12, O14 -/

/-- Settles O12. -/
theorem resetHasInvariant : Obligations.ResetHasInvariant :=
  ⟨⟨rfl, rfl, rfl, rfl, rfl, rfl, rfl, fun h => absurd h (by decide), fun _ => rfl⟩, rfl, rfl, rfl⟩

theorem isUser_iff (s : State) : s.isUser = true ↔ s.mode = .user := by
  unfold State.isUser
  exact beq_iff_eq

/-- Settles O14. -/
theorem modeIsAFunctionOfTheBits : Obligations.ModeIsAFunctionOfTheBits := by
  intro s
  refine ⟨fun hn => ?nmi, fun hn hr => ?recovery, fun hn hr => ?table, isUser_iff s, ?stack⟩
  case nmi => unfold State.mode; rw [hn, if_pos rfl]
  case recovery => unfold State.mode; rw [hn, hr, if_neg Bool.false_ne_true, if_pos rfl]
  case table =>
    refine ⟨?_, ?_, ?_, ?_⟩ <;> (intro m; unfold State.mode; rw [hn, hr, m]; rfl)
  case stack =>
    unfold State.sp State.spIsSp0
    cases s.mode <;> rfl

end Sys2Proof.Machine
end

section
/-! PROOF of O5, O9 and O10 (10_state.md): what a step runs, and the breakpoints around it. First
the fetch of an instruction that is in memory, then the normal form of a step, what follows an
instruction, and which breakpoints match. -/

namespace Sys2Proof.Machine

section
variable {s t : State} {i : Instr}

/-! ### The fetch -/

theorem fetchDecode_ok {h0 h1 h2 : Half} (h : decode s.params h0 h1 h2 = .ok i) :
    fetchDecode h0 h1 h2 s = .instr i (s.fetched i) := by
  unfold fetchDecode
  rw [h]

/-- The decoder does not look past the half-words that the length rule gives (R101). -/
theorem decode_two (p : Params) {h0 : Half} (h : sizeOf h0 = .two) (h1 h2 : Half) :
    decode p h0 0#16 0#16 = decode p h0 h1 h2 := by
  simp only [decode, h]

theorem decode_four (p : Params) {h0 : Half} (h : sizeOf h0 = .four) (h1 h2 : Half) :
    decode p h0 h1 0#16 = decode p h0 h1 h2 := by
  simp only [decode, h]

/-- An instruction in memory is fetched, and the fetch changes nothing but where the stream goes
on. -/
theorem fetch_ok (h : FetchesInstr s i) : fetch s = .instr i (s.fetched i) := by
  obtain ⟨-, stale, halves, decoded⟩ := h
  have half (k : Nat) (hk : k < halfCount (read16 s.mem s.pc)) :
      fetchHalf s (s.pc + BitVec.ofNat 32 (2 * k))
        = .half (read16 s.mem (s.pc + BitVec.ofNat 32 (2 * k))) s :=
    fetchHalf_ok stale (halves k hk).1 (halves k hk).2
  have first : fetchHalf s s.pc = .half (read16 s.mem s.pc) s := by
    have count : 0 < halfCount (read16 s.mem s.pc) := by unfold halfCount; split <;> decide
    simpa using half 0 count
  unfold fetch
  rw [first]
  simp only [withHalf]
  split <;> rename_i size
  · exact fetchDecode_ok ((decode_two _ size _ _).trans decoded)
  · rw [show fetchHalf s (s.pc + 2#32) = _ from half 1 (by simp [halfCount, size])]
    exact fetchDecode_ok ((decode_four _ size _ _).trans decoded)
  · rw [show fetchHalf s (s.pc + 2#32) = _ from half 1 (by simp [halfCount, size])]
    simp only
    rw [show fetchHalf s (s.pc + 4#32) = _ from half 2 (by simp [halfCount, size])]
    exact fetchDecode_ok decoded

/-! ### The normal form of a step -/

/-- An Awake core to which no reset is presented (R471). -/
theorem step_awake (he : s.exe = .awake) (hr : s.sample.hardReset = false) :
    step s = endStep (runAwake s.sample.irq s.sampled) := by
  unfold step cycle cycleOn
  rw [hr, if_neg Bool.false_ne_true, sampled_exe, he]

theorem runAwake_no_irq {irq : Option (BitVec 5 × BitVec 4)}
    (h : ∀ num prio, irq = some (num, prio) → acceptIrq s num prio = false) :
    runAwake irq s = runBroken s := by
  unfold runAwake
  split
  · rename_i num prio
    rw [h num prio rfl, if_neg Bool.false_ne_true]
  · rfl

theorem runBroken_no_break
    (h : s.execBreak = false ∨ (breakServed s = false ∧ s.runToBreak = false)) :
    runBroken s = runInstr s := by
  unfold runBroken
  rcases h with off | ⟨served, run⟩
  · rw [off, if_neg Bool.false_ne_true]
  · rw [served, run]
    simp

theorem runInstr_ok (h : FetchesInstr s i) :
    runInstr s = afterOutcome s (exec i (s.fetched i)) := by
  unfold runInstr runFetched
  rw [h.1, if_neg Bool.false_ne_true, fetch_ok h]

theorem step_runs (h : RunsInstr s) (hf : FetchesInstr s i) :
    step s = endStep (afterOutcome s.sampled (exec i (s.sampled.fetched i))) := by
  obtain ⟨awake, noReset, noIrq, noBreak⟩ := h
  rw [step_awake awake noReset, runAwake_no_irq (s := s.sampled) noIrq,
    runBroken_no_break (s := s.sampled) noBreak, runInstr_ok (s := s.sampled) hf]

/-! ### After an instruction -/

/-- SingleStep is taken after the instruction: User mode with T set before it (R491). -/
def Stepped (s : State) : Prop := s.isUser = true ∧ (flagP s.flags).getLsbD 1 = true

/-- Break_T is taken: User mode with B set (R492). -/
def Served (s : State) : Prop := s.isUser = true ∧ (flagP s.flags).getLsbD 0 = true

theorem breakServed_iff (s : State) : breakServed s = true ↔ Served s := Bool.and_eq_true_iff

theorem breakServed_of_not (h : ¬Served s) : breakServed s = false :=
  Bool.eq_false_iff.mpr (mt (breakServed_iff s).mp h)

theorem singleStep_taken (h : Stepped s) : singleStep s t = takeSingleStep s.pc t :=
  if_pos (Bool.and_eq_true_iff.mpr h)

theorem singleStep_off (h : ¬Stepped s) : singleStep s t = .next t :=
  if_neg (mt Bool.and_eq_true_iff.mp h)

theorem afterInstr_awake (he : t.event = false) (ha : t.exe = .awake) :
    afterInstr s t = if t.breakHit then
        if breakServed t then takeBreak t.pc t.pc s.pc t.pc t
        else if t.runToBreak then .next { t with exe := .halted }
        else singleStep s t
      else singleStep s t := by
  unfold afterInstr
  rw [he, ha]
  rfl

theorem afterInstr_served (he : t.event = false) (ha : t.exe = .awake) (hb : t.breakHit = true)
    (h : Served t) : afterInstr s t = takeBreak t.pc t.pc s.pc t.pc t :=
  (afterInstr_awake he ha).trans ((if_pos hb).trans (if_pos ((breakServed_iff t).mpr h)))

theorem afterInstr_halted (he : t.event = false) (ha : t.exe = .awake) (hb : t.breakHit = true)
    (h : ¬Served t) (hr : t.runToBreak = true) :
    afterInstr s t = .next { t with exe := .halted } :=
  (afterInstr_awake he ha).trans
    ((if_pos hb).trans ((if_neg (mt (breakServed_iff t).mp h)).trans (if_pos hr)))

/-- A data breakpoint that did not match or is ignored leaves the SingleStep. -/
theorem afterInstr_no_break (he : t.event = false) (ha : t.exe = .awake)
    (h : t.breakHit = false ∨ (¬Served t ∧ t.runToBreak = false)) :
    afterInstr s t = singleStep s t := by
  rw [afterInstr_awake he ha]
  rcases h with off | ⟨served, run⟩
  · rw [off, if_neg Bool.false_ne_true]
  · rw [breakServed_of_not served, run]
    simp

theorem afterInstr_quiet (hb : t.breakHit = false) (hs : ¬Stepped s) :
    afterInstr s t = .next t := by
  unfold afterInstr
  rw [hb, singleStep_off hs]
  simp

end

/-! ### O5, O10 -/

/-- Settles O5. -/
theorem stepRunsDecodedInstruction : Obligations.StepRunsDecodedInstruction := by
  intro s i runs fetches
  have ran := step_runs runs fetches
  refine ⟨ran, fun t ht _ hb off => ?_⟩
  have notStepped : ¬Stepped s.sampled := by
    rintro ⟨user, trace⟩
    rcases off with h | h
    · exact absurd user (by rw [show s.sampled.isUser = s.isUser from rfl, h]; decide)
    · exact absurd trace (by rw [sampled_flags, h]; decide)
  rw [ran, ht]
  simp only [afterOutcome]
  rw [afterInstr_quiet hb notStepped]
  rfl

/-- Settles O10. -/
theorem stepAfterUserInstruction : Obligations.StepAfterUserInstruction := by
  intro s t i runs fetches ht event awake
  have ran : step s = endStep (afterInstr s.sampled t) := by
    rw [step_runs runs fetches, ht]
    rfl
  refine ⟨fun hit served => ?served, fun hit ignored run => ?halted, fun ignored =>
    ⟨fun stepped => ?stepped, fun off => ?nothing⟩⟩
  case served => rw [ran, afterInstr_served event awake hit served]; rfl
  case halted => rw [ran, afterInstr_halted event awake hit ignored run]; rfl
  case stepped =>
    rw [ran, afterInstr_no_break event awake ignored, singleStep_taken (s := s.sampled) stepped]
    rfl
  case nothing =>
    rw [ran, afterInstr_no_break event awake ignored, singleStep_off (s := s.sampled) off]
    rfl

/-! ### Which breakpoints match (R55) -/

theorem exists_lt_four (p : Nat → Prop) : (∃ k, k < 4 ∧ p k) ↔ p 0 ∨ p 1 ∨ p 2 ∨ p 3 := by
  simp only [Nat.exists_lt_succ_right, Nat.not_lt_zero, false_and, exists_const, false_or, or_assoc]

/-- The byte of a word that an address selects. -/
theorem fld_low_two (a : Word) : (fld a 0 2).toNat = a.toNat % 4 := by
  rw [BitVec.extractLsb'_toNat]
  rfl

/-- An access of `n` bytes at `a` has a byte in the word of breakpoint `k` whose select bit is set.
-/
def Hits (brke brk : Word) (k n : Nat) (a : Word) : Prop :=
  ∃ j : Nat, j < n ∧ fld (a + BitVec.ofNat 32 j) 2 30 = fld brk 2 30
    ∧ brke.getLsbD (8 * k + 4 + (a + BitVec.ofNat 32 j).toNat % 4) = true

theorem dataBreakAt_write (brke brk : Word) (k n : Nat) (a : Word) :
    dataBreakAt brke brk k .write n a = true
      ↔ brke.getLsbD (8 * k) = true ∧ Hits brke brk k n a := by
  simp [dataBreakAt, Hits, -BitVec.extractLsb'_toNat, fld_low_two]

theorem dataBreakAt_read (brke brk : Word) (k n : Nat) (a : Word) :
    dataBreakAt brke brk k .read n a = true
      ↔ brke.getLsbD (8 * k + 1) = true ∧ Hits brke brk k n a := by
  simp [dataBreakAt, Hits, -BitVec.extractLsb'_toNat, fld_low_two]

/-- Settles O9. -/
theorem stepExecuteBreakpoint : Obligations.StepExecuteBreakpoint := by
  refine ⟨fun s awake noReset noIrq hit => ?effect, fun s => ⟨?execute, fun w a => ⟨?write, ?read⟩⟩⟩
  case effect =>
    have broken : step s = endStep (if breakServed s then takeBreak s.pc s.pc s.pc s.pc s.sampled
        else if s.runToBreak then .next { s.sampled with exe := .halted }
        else runInstr s.sampled) := by
      rw [step_awake awake noReset, noIrq]
      unfold runAwake runBroken
      rw [show s.sampled.execBreak = true from hit, if_pos rfl]
      rfl
    refine ⟨fun user b => ?_, fun off run => ?_⟩
    · rw [broken, (breakServed_iff s).mpr ⟨user, b⟩, if_pos rfl]
      rfl
    · have unserved : ¬Served s := fun ⟨user, b⟩ => by
        rcases off with h | h
        · rw [h] at user; cases user
        · rw [h] at b; cases b
      rw [broken, breakServed_of_not unserved, if_neg Bool.false_ne_true, run, if_pos rfl]
      rfl
  case execute =>
    rw [exists_lt_four]
    simp [State.execBreak, or_assoc]
  case write =>
    rw [exists_lt_four]
    simp only [State.dataBreak, Bool.or_eq_true, dataBreakAt_write, or_assoc]
    rfl
  case read =>
    rw [exists_lt_four]
    simp only [State.dataBreak, Bool.or_eq_true, dataBreakAt_read, or_assoc]
    rfl

end Sys2Proof.Machine
end

section
/-! PROOF of O39, O31, O54 and O55 (10_state.md): the guard of the stack pointer, `add.i %sp, %sp`,
and the reads and writes of the register banks. -/

namespace Sys2Proof.Machine

section
variable {s t : State} {i : Instr}

/-! ### `add.i %sp, %sp, #imm` -/

/-- A scaled signed immediate is four times its value. -/
theorem signExtend_append_zero {n : Nat} (v : BitVec n) (hn : 0 < n) :
    (v ++ 0#2).signExtend 32 = BitVec.ofInt 32 (4 * v.toInt) := by
  rw [BitVec.signExtend, BitVec.toInt_append, if_neg (by simp; omega)]
  simp

theorem append_zero (v : BitVec 30) : v ++ 0#2 = BitVec.ofNat 32 (4 * v.toNat) := by
  apply BitVec.eq_of_toNat_eq
  rw [BitVec.toNat_append, BitVec.toNat_ofNat]
  have := v.isLt
  simp [Nat.shiftLeft_eq]
  omega

theorem addToSp_ok (h : s.spEnabled = true) (i : Instr) (v : Word) :
    addToSp i v s = .next ((s.setSp (s.sp + v)).advance i.length) := by
  unfold addToSp
  rw [spGuard_ok fun _ => h]
  rfl

theorem otherStackSame_setSp (s : State) (v : Word) : OtherStackSame s (s.setSp v) := by
  unfold OtherStackSame
  split <;> rename_i h
  · rw [setSp_sp1, if_pos h]
  · rw [setSp_sp0, if_neg h]

theorem specialsSame_setSp (s : State) (v : Word) : SpecialsSame s (s.setSp v) := by
  simp [SpecialsSame]

/-! ### The guard -/

/-- The soft reset that the K guard makes (R526). -/
def guardReset (s : State) : Host.Outcome State Fault Refusal :=
  softReset (if s.spIsSp0 then 2#3 else 3#3) 2#5 s.pc s

theorem settle_guard_off (h : s.spEnabled = false) (k : Unit → State → Attempt Unit) :
    settle (andThen (spGuard true s) k) = guardReset s := by
  rw [spGuard_off h]
  rfl

theorem loadInto_guard_off (h : s.spEnabled = false) {u : Bool} (hu : u = true) (i : Instr)
    (w : Width) (a : Word) (rd : Reg) : loadInto i w u a rd s = guardReset s := by
  subst hu
  exact settle_guard_off h _

theorem storeFrom_guard_off (h : s.spEnabled = false) {u : Bool} (hu : u = true) (i : Instr)
    (w : Width) (a v : Word) : storeFrom i w u a v s = guardReset s := by
  subst hu
  exact settle_guard_off h _

theorem popRetStep_guard_off (h : s.spEnabled = false) (l : List StackAtom) :
    popRetStep l s = guardReset s := by
  unfold popRetStep
  split
  · exact settle_guard_off h _
  · split
    · exact settle_guard_off h _
    · rw [spGuard_off h]
      rfl

theorem movToSp_guard_off (h : s.spEnabled = false) {rs : Reg} (ok : fld (s.reg rs) 0 2 = 0#2) :
    exec (.movR (.toSp rs)) s = guardReset s :=
  (if_pos ok).trans (settle_guard_off h _)

theorem rtie_guard_off (h : s.spEnabled = false) (hu : s.isUser = false) :
    exec .rtie s = guardReset s :=
  (privilegedP_ok 2#4 hu _).trans (settle_guard_off h _)

/-! ### Reads of the banks -/

/-- A privileged form that ends with a value in Rd completes with it. -/
theorem completes_privileged {r : Reg} {v : Word} (hu : s.isUser = false)
    (h : exec i s = privileged s (readSpecial i r v s)) :
    Completes i s fun t => ValueResult s t r v :=
  completes_value (h.trans (privileged_ok hu _))

/-! A reserved register code is an InstructionError in a privileged mode (R35, R56). -/

theorem mova2r_reserved (hu : s.isUser = false) (r : Reg) {c : BitVec 3} (hc : 4 ≤ c.toNat) :
    exec (.mova2r r c) s = raiseError .instructionError 0#4 s.pc s.pc s.pc s := by
  refine (privileged_ok hu _).trans ?_
  split
  case h_5 => rfl
  all_goals exact absurd hc (by decide)

theorem movb2r_reserved (hu : s.isUser = false) (r : Reg) {c : BitVec 3} (hc : 4 ≤ c.toNat) :
    exec (.movb2r r c) s = raiseError .instructionError 0#4 s.pc s.pc s.pc s := by
  refine (privileged_ok hu _).trans ?_
  split
  case h_5 => rfl
  all_goals exact absurd hc (by decide)

theorem movs2r_reserved (hu : s.isUser = false) (r : Reg) {c : BitVec 3} (hc : 3 ≤ c.toNat) :
    exec (.movs2r r c) s = raiseError .instructionError 0#4 s.pc s.pc s.pc s := by
  show execMovs2r r c s = _
  unfold execMovs2r
  split
  case h_4 => exact privileged_ok hu _
  all_goals exact absurd hc (by decide)

theorem movr2a_reserved (hu : s.isUser = false) (r : Reg) {c : BitVec 3} (hc : 4 ≤ c.toNat) :
    exec (.movr2a c r) s = raiseError .instructionError 0#4 s.pc s.pc s.pc s := by
  refine (privileged_ok hu _).trans ?_
  split
  case h_5 => rfl
  all_goals exact absurd hc (by decide)

theorem movr2b_reserved (hu : s.isUser = false) (r : Reg) {c : BitVec 3} (hc : 4 ≤ c.toNat) :
    exec (.movr2b c r) s = raiseError .instructionError 0#4 s.pc s.pc s.pc s := by
  refine (privileged_ok hu _).trans ?_
  split
  case h_5 => rfl
  all_goals exact absurd hc (by decide)

theorem movr2s_reserved (hu : s.isUser = false) (r : Reg) {c : BitVec 3} (hc : 3 ≤ c.toNat) :
    exec (.movr2s c r) s = raiseError .instructionError 0#4 s.pc s.pc s.pc s := by
  refine (privileged_ok hu _).trans ?_
  split
  case h_4 => rfl
  all_goals exact absurd hc (by decide)

/-- The bits that are not FREE read as they were written (R40, R53). -/
theorem freeRead_fixed (mask x : Word) (s : State) :
    freeRead mask x s &&& ~~~mask = x &&& ~~~mask := by
  unfold freeRead
  split
  · rfl
  · apply BitVec.eq_of_getLsbD_eq
    intro k hk
    simp only [BitVec.getLsbD_and, BitVec.getLsbD_or, BitVec.getLsbD_not, hk, decide_true,
      Bool.true_and]
    cases mask.getLsbD k <;> simp

/-- A bit that was written 0 reads as 0. -/
theorem freeRead_zero (mask x : Word) (s : State) : freeRead mask x s &&& ~~~x = 0#32 := by
  unfold freeRead
  apply BitVec.eq_of_getLsbD_eq
  intro k hk
  split
  · simp
  · simp only [BitVec.getLsbD_and, BitVec.getLsbD_or, BitVec.getLsbD_not, hk, decide_true,
      Bool.true_and, BitVec.getLsbD_zero]
    cases x.getLsbD k <;> simp

theorem freeUsed_eq (mask x : Word) (s : State) :
    ∃ n, freeUsed mask x s = { s with freeNext := n } := by
  unfold freeUsed
  split
  · exact ⟨s.freeNext, rfl⟩
  · exact ⟨s.freeNext + 1, rfl⟩

/-- A register that holds `x` and has the FREE bits `free` is read into `r` (R40, R53): the other
bits are as written, none that was written 0 reads as 1, and nothing else changes but the number of
the draws. -/
def LooseRead (s : State) (r : Reg) (x free : Word) (t : State) : Prop :=
  t.reg r &&& ~~~free = x &&& ~~~free ∧ t.reg r &&& ~~~x = 0#32 ∧ ZNOf t (t.reg r)
    ∧ RegsBut s t [r] ∧ FlagsBut s t maskZN ∧ StacksSame s t ∧ SpecialsSame s t
    ∧ OutsideButDraws s t ∧ FetchSame s t

theorem looseRead_result (s : State) (r : Reg) (mask x n : Word) (d : Nat) :
    LooseRead s r x mask ((State.result { s with freeNext := d } r (freeRead mask x s)
      (setZN s.flags (freeRead mask x s))).advance n) := by
  unfold LooseRead
  rw [reg_advance, reg_result_same]
  exact ⟨freeRead_fixed mask x s, freeRead_zero mask x s, ⟨flagZ_setZN _ _, flagN_setZN _ _⟩,
    regsBut_result { s with freeNext := d } r _ _ n, setZN_outside _ _, ⟨rfl, rfl⟩,
    ⟨rfl, rfl, rfl, rfl, rfl, rfl, rfl, rfl⟩,
    ⟨rfl, ⟨rfl, rfl, rfl, rfl, rfl, rfl, rfl, rfl⟩, rfl, rfl, rfl, rfl, rfl⟩, fun _ => rfl, rfl⟩

theorem completes_freeRead {r : Reg} {mask x : Word}
    (h : exec i s = readSpecial i r (freeRead mask x s) (freeUsed mask x s)) :
    Completes i s (LooseRead s r x mask) := by
  obtain ⟨d, used⟩ := freeUsed_eq mask x s
  rw [used] at h
  exact ⟨_, h, rfl, looseRead_result s r mask x i.length d⟩

/-! ### Writes of the banks -/

theorem putBit_true (x : Word) {k : Nat} (hk : k < 32) : putBit x k true = x ||| (1#32 <<< k) := by
  apply BitVec.eq_of_getLsbD_eq
  intro j hj
  rw [putBit_bit x k j true hk hj]
  by_cases h : j = k
  · subst h; simp [hj]
  · rw [if_neg h]; simp [hj]; omega

/-- FLAGS is written but for S (R426). -/
theorem flagS_append (f x : Word) :
    flagS f ++ fld x 0 24 = (f &&& 0xFF000000#32) ||| (x &&& 0x00FFFFFF#32) := by
  apply BitVec.eq_of_getLsbD_eq
  intro k hk
  have low : (0xFF000000#32).getLsbD k = decide (24 ≤ k) := by interval_cases k <;> rfl
  have high : (0x00FFFFFF#32).getLsbD k = decide (k < 24) := by interval_cases k <;> rfl
  rw [BitVec.getLsbD_append, BitVec.getLsbD_or, BitVec.getLsbD_and, BitVec.getLsbD_and, low, high,
    flagS, BitVec.getLsbD_extractLsb', BitVec.getLsbD_extractLsb']
  by_cases h : k < 24
  · simp [h]
  · simp [h, show 24 + (k - 24) = k by omega, show k - 24 < 8 by omega, show 24 ≤ k by omega]

theorem mov_sp_misaligned {r : Reg} (h : fld (s.reg r) 0 2 ≠ 0#2) :
    exec (.movR (.toSp r)) s
      = raiseError .alignError 0#4 (s.pc + (Instr.movR (.toSp r)).length) s.pc s.pc s :=
  if_neg h

/-- A write of an address register in a privileged mode: the word must be aligned, else it is an
AlignError that returns past the instruction (R422, D18). -/
theorem movr2a_aligned_or_error {c : BitVec 3} {r : Reg} {ok : Prop} [Decidable ok] {u : State}
    (hu : s.isUser = false)
    (h : exec (.movr2a c r) s = privileged s
      (if ok then finish (.movr2a c r) u else alignPast (.movr2a c r) s)) :
    (ok → exec (.movr2a c r) s = .next (u.advance (Instr.movr2a c r).length))
      ∧ (¬ok → exec (.movr2a c r) s
        = raiseError .alignError 0#4 (s.pc + (Instr.movr2a c r).length) s.pc s.pc s) := by
  rw [h, privileged_ok hu]
  exact ⟨fun hok => if_pos hok, fun hok => if_neg hok⟩

/-- `movr2a` of SP1 sets K1 where K0 is set, and leaves K0 (R48). -/
theorem infoK0_setK1 (x : Word) : infoK0 (if infoK0 x then putBit x 1 true else x) = infoK0 x := by
  split
  · exact infoK0_putBit_other x 1 true (by decide) (by decide)
  · rfl

theorem infoK1_setK1 (x : Word) :
    infoK1 (if infoK0 x then putBit x 1 true else x) = true
      ↔ infoK1 x = true ∨ infoK0 x = true := by
  split <;> rename_i h
  · simp [h, show infoK1 (putBit x 1 true) = true from putBit_same x 1 true (by decide)]
  · simp [h]

end

/-! ### O39, O31, O54, O55 -/

/-- Settles O39. -/
theorem stackPointerAddsComplete : Obligations.StackPointerAddsComplete := by
  intro s i d on form
  have added : exec i s = addToSp i d s := by
    rcases form with ⟨v, rfl, rfl⟩ | ⟨v, rfl, rfl⟩ | ⟨v, rfl, rfl⟩
    · rw [← append_zero]; rfl
    · rw [← signExtend_append_zero v (by decide)]; rfl
    · rw [← signExtend_append_zero v (by decide)]; rfl
  refine ⟨_, added.trans (addToSp_ok on i d), by simp, sp_setSp s _, otherStackSame_setSp s _, ?_⟩
  exact ⟨setSp_regs s _, setSp_flags s _, setSp_mem s _, setSp_stale s _, specialsSame_setSp s _,
    .of_eq (by simp)⟩

/-- Settles O31: every form runs the guard before anything else, but for `mov.r %sp, Rs`, which
comes to it with an aligned word, and `rtie`, which comes to it outside User mode. -/
theorem stackGuardSoftResets : Obligations.StackGuardSoftResets := by
  refine ⟨fun s i off form => ?guard, fun s r hu => ⟨?sp0, ?sp1, fun ok => ⟨?toSp0, ?toSp1⟩⟩⟩
  case guard =>
    show exec i s = guardReset s
    rcases form with ⟨rd, d, hd, h⟩ | ⟨src, d, hd, h⟩ | ⟨rd, rx, h⟩ | ⟨src, rx, h⟩ | ⟨f, rfl⟩
      | ⟨f, rfl⟩ | ⟨f, rfl⟩ | ⟨f, rfl⟩ | ⟨f, rfl⟩ | ⟨f, rfl⟩ | ⟨rd, rfl⟩ | ⟨rs, ok, rfl⟩
      | ⟨rd, v, rfl⟩ | ⟨rd, v, rfl⟩ | ⟨v, rfl⟩ | ⟨v, rfl⟩ | ⟨v, rfl⟩ | ⟨rfl, hu⟩
    · rcases h with rfl | rfl | rfl <;> exact loadInto_guard_off off hd _ _ _ _
    · rcases h with rfl | rfl | rfl <;> exact storeFrom_guard_off off hd _ _ _ _
    · rcases h with rfl | rfl | rfl <;> exact loadInto_guard_off off rfl _ _ _ _
    · rcases h with rfl | rfl | rfl <;> exact storeFrom_guard_off off rfl _ _ _ _
    · exact settle_guard_off off _
    · exact settle_guard_off off _
    · exact popRetStep_guard_off off _
    · exact settle_guard_off off _
    · exact settle_guard_off off _
    · exact settle_guard_off off _
    · exact settle_guard_off off _
    · exact movToSp_guard_off off ok
    · exact settle_guard_off off _
    · exact settle_guard_off off _
    · exact settle_guard_off off _
    · exact settle_guard_off off _
    · exact settle_guard_off off _
    · exact rtie_guard_off off hu
  case sp0 => exact completes_privileged hu rfl
  case sp1 => exact completes_privileged hu rfl
  case toSp0 =>
    exact ⟨_, (movr2a_aligned_or_error (c := 0#3) hu rfl).1 ok, rfl, rfl,
      putBit_same _ 0 _ (by decide), infoK1_putBit_other _ 0 _ (by decide) (by decide), rfl⟩
  case toSp1 =>
    refine ⟨_, (movr2a_aligned_or_error (c := 1#3) hu rfl).1 ok, rfl, rfl, ?_, ?_, rfl⟩
    · exact infoK0_setK1 s.info
    · exact infoK1_setK1 s.info

/-- Settles O54. -/
theorem registerBankReadsComplete : Obligations.RegisterBankReadsComplete := by
  intro s r
  refine ⟨completes_freeRead rfl, fun hu => ?_⟩
  refine ⟨completes_privileged hu rfl, completes_privileged hu rfl, completes_privileged hu rfl,
    completes_privileged hu rfl, completes_privileged hu rfl, completes_privileged hu rfl,
    completes_privileged hu rfl, completes_privileged hu rfl, completes_privileged hu rfl,
    completes_freeRead (privileged_ok hu _), fun c => ⟨fun hc => ⟨?_, ?_⟩, fun hc => ?_⟩⟩
  · exact mova2r_reserved hu r hc
  · exact movb2r_reserved hu r hc
  · exact movs2r_reserved hu r hc

/-- Settles O55. -/
theorem registerBankWritesComplete : Obligations.RegisterBankWritesComplete := by
  intro s r
  refine ⟨mov_sp_misaligned, fun hu => ?_⟩
  obtain ⟨sp0, sp0Bad⟩ := movr2a_aligned_or_error (s := s) (c := 0#3) (r := r) hu rfl
  obtain ⟨sp1, sp1Bad⟩ := movr2a_aligned_or_error (s := s) (c := 1#3) (r := r) hu rfl
  obtain ⟨vp, vpBad⟩ := movr2a_aligned_or_error (s := s) (c := 2#3) (r := r) hu rfl
  obtain ⟨gp, gpBad⟩ := movr2a_aligned_or_error (s := s) (c := 3#3) (r := r) hu rfl
  refine ⟨fun ok => ⟨?sp0, ?sp1, gp ok⟩, vp, fun bad => ⟨sp0Bad bad, sp1Bad bad, gpBad bad⟩, vpBad,
    privileged_ok hu _, privileged_ok hu _, privileged_ok hu _,
    privileged_ok hu _, ?flags, privileged_ok hu _, privileged_ok hu _,
    fun c => ⟨fun hc => ⟨?_, ?_⟩, fun hc => ?_⟩⟩
  case sp0 =>
    rw [sp0 ok, putBit_true s.info (by decide)]
    rfl
  case sp1 =>
    rw [sp1 ok, putBit_true s.info (by decide)]
    rfl
  case flags =>
    rw [← flagS_append]
    exact privileged_ok hu _
  · exact movr2a_reserved hu r hc
  · exact movr2b_reserved hu r hc
  · exact movr2s_reserved hu r hc

end Sys2Proof.Machine
end

section
/-! PROOF of O56 (10_state.md): what a soft and a hard reset leave, and the code of a soft reset. -/

namespace Sys2Proof.Machine

section
variable {s t : State}

/-! ### Where a reset goes -/

/-- Whether the two words a reset reads are legal depends on memory, the memory map and the MMU
only. -/
theorem ResetOk_congr (hm : t.mem = s.mem) (hu : t.mmu = s.mmu) (hp : t.map = s.map) {off : Word}
    (h : ResetOk s off) : ResetOk t off := by
  obtain ⟨vpMmu, vpPlace, vpWord, pcMmu, pcPlace, pcWord⟩ := h
  unfold ResetOk VectorOk
  rw [hm, hu, place_congr hp, place_congr hp]
  exact ⟨vpMmu, vpPlace, vpWord, pcMmu, pcPlace, pcWord⟩

/-! ### The soft reset -/

section
variable (s : State) (type : BitVec 3) (num : BitVec 5) (errpc : Word)

@[simp] theorem softCleared_mem : (s.softCleared type num errpc).mem = s.mem :=
  (brkeUsed_mem _).trans (flagsUsed_mem s)

@[simp] theorem softCleared_mmu : (s.softCleared type num errpc).mmu = s.mmu :=
  (brkeUsed_mmu _).trans (flagsUsed_mmu s)

@[simp] theorem softCleared_map : (s.softCleared type num errpc).map = s.map :=
  (brkeUsed_map _).trans (flagsUsed_map s)

/-- What a soft reset saves, clears and leaves, wherever it goes (R524). -/
theorem softCleared_saves :
    let u := s.softCleared type num errpc
    u.reg .r0 = s.flagsRead ∧ u.reg .r1 = softCode type num s.info
      ∧ u.reg .r2 = s.flagsUsed.brkeRead ∧ RegsBut s u [.r0, .r1, .r2]
      ∧ u.brk0 = errpc ∧ u.brk1 = s.vp ∧ u.brk2 = s.gp ∧ u.brk3 = s.brk3 := by
  refine ⟨rfl, rfl, rfl, fun r hr => ?_, rfl, rfl, rfl, ?_⟩
  · cases r with
    | r0 | r1 | r2 => simp at hr
    | r3 | r4 | r5 | r6 | r7 => rfl
  · exact (brkeUsed_brk3 _).trans (flagsUsed_brk3 s)

end

theorem softCleared_systemSame (s : State) (type : BitVec 3) (num : BitVec 5) (errpc : Word) :
    SystemSame s (s.softCleared type num errpc) := by
  have drawn : SystemSame s s.flagsUsed.brkeUsed := by simp [SystemSame]
  exact drawn

theorem mode_supervisor (hn : infoNL s.info = false) (hr : infoR s.info = false)
    (hm : flagM s.flags = 0#2) : s.mode = .supervisor := by
  obtain ⟨-, -, table, -⟩ := modeIsAFunctionOfTheBits s
  exact (table hn hr).1 hm

theorem softReset_ok (type : BitVec 3) (num : BitVec 5) (errpc : Word) (h : ResetOk s 8#32) :
    ∃ t, softReset type num errpc s = .next t
      ∧ SoftResetDone s t (softCode type num s.info) errpc ∧ t.mode = .supervisor := by
  have cleared : ResetOk (s.softCleared type num errpc) 8#32 :=
    ResetOk_congr (softCleared_mem _ _ _ _) (softCleared_mmu _ _ _ _) (softCleared_map _ _ _ _) h
  obtain ⟨r0, r1, r2, regs, brk0, brk1, brk2, brk3⟩ := softCleared_saves s type num errpc
  refine ⟨_, resetInto_ok cleared,
    ⟨r0, r1, r2, regs, brk0, brk1, brk2, brk3, rfl, rfl, rfl, rfl, ?_⟩,
    mode_supervisor (by decide : infoNL 0x100#32 = false) (by decide : infoR 0x100#32 = false)
      (by decide : flagM 0#32 = 0#2)⟩
  rw [softCleared_mem]
  refine ⟨rfl, rfl, rfl, ?_, ?_, rfl, softCleared_systemSame s type num errpc, ?_, ?_, ?_, rfl⟩
  · exact (brkeUsed_sp0 _).trans (flagsUsed_sp0 s)
  · exact (brkeUsed_sp1 _).trans (flagsUsed_sp1 s)
  · exact (brkeUsed_devState _).trans (flagsUsed_devState s)
  · exact (brkeUsed_cluState _).trans (flagsUsed_cluState s)
  · exact (brkeUsed_cluSent _).trans (flagsUsed_cluSent s)

/-! ### The code of a soft reset -/

/-- The bits of the error code, lowest first: what the concatenation of R525 says of each. -/
theorem softCode_bit (type : BitVec 3) (num : BitVec 5) (x : Word) {i : Nat} (hi : i < 32) :
    (softCode type num x).getLsbD i =
      if i < 5 then num.getLsbD i else if i < 8 then false else if i < 11 then type.getLsbD (i - 8)
      else if i = 11 then infoSR x else if i = 12 then infoK0 x else if i = 13 then infoK1 x
      else if i = 14 then infoNL x else if i = 15 then infoR x else false := by
  simp only [softCode, BitVec.getLsbD_setWidth, BitVec.getLsbD_append]
  interval_cases i <;> simp

/-- The fields of the error code of a soft reset (R525). -/
theorem softCode_fields (type : BitVec 3) (num : BitVec 5) (x : Word) :
    let c := softCode type num x
    fld c 0 5 = num ∧ fld c 5 3 = 0#3 ∧ fld c 8 3 = type ∧ c.getLsbD 11 = infoSR x
      ∧ c.getLsbD 12 = infoK0 x ∧ c.getLsbD 13 = infoK1 x ∧ c.getLsbD 14 = infoNL x
      ∧ c.getLsbD 15 = infoR x ∧ fld c 16 16 = 0#16 := by
  have bit := @softCode_bit type num x
  have field {lo len : Nat} {v : BitVec len} (hlen : lo + len ≤ 32)
      (h : ∀ k, k < len → (softCode type num x).getLsbD (lo + k) = v.getLsbD k) :
      fld (softCode type num x) lo len = v :=
    BitVec.eq_of_getLsbD_eq fun k hk => by
      rw [BitVec.getLsbD_extractLsb', h k hk, decide_eq_true hk, Bool.true_and]
  refine ⟨field (by decide) fun k hk => ?_, field (by decide) fun k hk => ?_,
    field (by decide) fun k hk => ?_, bit (by decide), bit (by decide), bit (by decide),
    bit (by decide), bit (by decide), field (by decide) fun k hk => ?_⟩
  · rw [bit (by omega), if_pos (by omega), Nat.zero_add]
  · rw [bit (by omega), if_neg (by omega), if_pos (by omega)]; simp
  · rw [bit (by omega), if_neg (by omega), if_neg (by omega), if_pos (by omega),
      Nat.add_sub_cancel_left]
  · rw [bit (by omega), if_neg (by omega), if_neg (by omega), if_neg (by omega), if_neg (by omega),
      if_neg (by omega), if_neg (by omega), if_neg (by omega), if_neg (by omega)]
    simp

/-! ### The hard reset -/

theorem hardReset_ok (h : ResetOk s 4#32) :
    hardReset s = .next { s.hardCleared with
      vp := read32 s.mem 0xFFFFFFFC#32
      pc := read32 s.mem (read32 s.mem 0xFFFFFFFC#32 + 4#32) } :=
  resetInto_ok (ResetOk_congr rfl rfl rfl h)

/-- Memory in which nothing is listed has a legal VP word and vector (Note 1). -/
theorem resetOk_reset : ResetOk State.reset 4#32 := by
  refine ⟨?_, ?_, ?_, ?_, ?_, ?_, ?_⟩ <;> decide

end

/-! ### O56 -/

/-- Settles O56. -/
theorem resetsComplete : Obligations.ResetsComplete := by
  refine ⟨fun s type num errpc h => softReset_ok type num errpc h, fun s hu h => ?instr,
    softCode_fields, fun s h => hardReset_ok h, ?reset⟩
  case instr =>
    obtain ⟨t, next, done, -⟩ := softReset_ok 0#3 2#5 s.pc h
    exact ⟨t, (privileged_ok hu _).trans next, done⟩
  case reset =>
    rw [hardReset_ok resetOk_reset]
    rfl

end Sys2Proof.Machine
end

section
/-! PROOF of O13, O18 and O6 (20_memory.md): the named stops of a step; bytes, half-words and words
of memory; and what a fetch finds, fails with, or leaves in the prefetch buffer. -/

namespace Sys2Proof.Machine

/-! ### O13 -/

/-- Where the invariant holds a sound part of a step answers a state or stops by name. -/
theorem Sound.stops {s : State} {o : Host.Outcome State Fault Refusal} (h : Sound s o)
    (a : s.Arch) : (∃ t, o = .next t) ∨ ∃ r ∈ namedRefusals, o = .refused r := by
  cases o with
  | next t => exact .inl ⟨t, rfl⟩
  | fault r => exact absurd a h
  | refused r => exact .inr ⟨r, h, rfl⟩

/-- Memory in canonical form is all that a hard reset needs for the invariant. -/
theorem hardCleared_arch {s : State} (h : Memory.wf s.mem = true) : s.hardCleared.Arch := by
  have aligned : fld (0#32 : Word) 0 2 = 0#2 := by decide
  exact ⟨h, (by decide : (0#32 : Word).getLsbD 0 = false), aligned, aligned, aligned,
    (by decide : fld (0#32 : Word) 0 8 = 0#8), (by decide : (0#32 : Word) &&& 0xFFFFFECC#32 = 0#32),
    fun k1 => absurd k1 (by decide : infoK1 0#32 ≠ true), fun _ => rfl⟩

/-- The work of a step answers a state or stops by name, with a reset presented or without. -/
theorem cycleOn_stops (e : EnvSample) {s : State} (a : s.Arch) :
    (∃ t, cycleOn e s = .next t) ∨ ∃ r ∈ namedRefusals, cycleOn e s = .refused r := by
  cases hr : e.hardReset with
  | false => exact (sound_cycleOn hr s).stops a
  | true =>
    have reset : cycleOn e s = hardReset s := if_pos hr
    rw [reset]
    exact (sound_resetInto (.refl s.hardCleared) 4#32).stops (hardCleared_arch a.memory)

/-- Settles O13. -/
theorem stepStopsOnlyByName : Obligations.StepStopsOnlyByName := by
  intro s inv
  have arch : s.sampled.Arch := Arch_congr inv.arch rfl
  rcases cycleOn_stops s.sample arch with ⟨t, e⟩ | ⟨r, named, e⟩
  · exact .inl ⟨t.settled, by rw [step, cycle, e, endStep]⟩
  · have stopped : step s = .refused r := by rw [step, cycle, e, endStep]
    rw [stopped]
    simpa [namedRefusals] using named

/-! ### O18 -/

/-- The bytes of a stored word, by their numbers. -/
theorem read8_write32_byte {m : List Host.Cell} (a v : Word) (h : Memory.wf m = true) {k : Nat}
    (hk : k < 4) : read8 (write32 m a v) (a + BitVec.ofNat 32 k) = fld v (8 * k) 8 := by
  obtain ⟨b0, b1, b2, b3⟩ := read8_write32 a v h
  obtain rfl | rfl | rfl | rfl : k = 0 ∨ k = 1 ∨ k = 2 ∨ k = 3 := by omega
  · simpa using b0
  · exact b1
  · exact b2
  · exact b3

theorem read8_write16_byte {m : List Host.Cell} (a : Word) (v : Half) (h : Memory.wf m = true)
    {k : Nat} (hk : k < 2) :
    read8 (write16 m a v) (a + BitVec.ofNat 32 k) = fld v (8 * k) 8 := by
  obtain ⟨b0, b1⟩ := read8_write16 a v h
  obtain rfl | rfl : k = 0 ∨ k = 1 := by omega
  · simpa using b0
  · exact b1

/-- A stored word reads back. -/
theorem read32_write32_same {m : List Host.Cell} (a v : Word) (h : Memory.wf m = true) :
    read32 (write32 m a v) a = v :=
  word_eq_of_bytes fun _ hj => (fld_read32 _ a hj).trans (read8_write32_byte a v h hj)

/-- A stored half-word reads back. -/
theorem read16_write16_same {m : List Host.Cell} (a : Word) (v : Half) (h : Memory.wf m = true) :
    read16 (write16 m a v) a = v := by
  obtain ⟨b0, b1⟩ := read8_write16 a v h
  rw [read16, b0, b1]
  exact (BitVec.extractLsb'_append_extractLsb'_eq_extractLsb' rfl).trans BitVec.extractLsb'_eq_self

/-- Settles O18. -/
theorem memoryIsLittleEndian : Obligations.MemoryIsLittleEndian := by
  intro m a v wf
  refine ⟨fun k hk => read8_write32_byte a v wf hk, read32_write32_same a v wf, wf_write32 a v wf,
    fun b apart => read8_storeMem_other m .word v apart, fun h => ?half, fun c => ?byte⟩
  case half =>
    exact ⟨fun k hk => read8_write16_byte a h wf hk, read16_write16_same a h wf, wf_write16 a h wf,
      fun b h0 h1 => read8_write16_other m h h0 h1⟩
  case byte =>
    exact ⟨read8_write8_same a c wf, wf_write8 a c wf, fun b h => read8_write8_other m c h⟩

/-! ### O6: the errors of a fetch -/

section
variable {s : State}

/-- The half-word numbered `k` at PC can be fetched, and stands in memory (R74). -/
def HalfThere (s : State) (k : Nat) : Prop :=
  fetchCheck s (s.pc + BitVec.ofNat 32 (2 * k)) = none
    ∧ s.place 2 (s.pc + BitVec.ofNat 32 (2 * k)) = .memory

theorem fetchHalf_there (stale : s.stale = []) {k : Nat} (h : HalfThere s k) :
    fetchHalf s (s.pc + BitVec.ofNat 32 (2 * k))
      = .half (read16 s.mem (s.pc + BitVec.ofNat 32 (2 * k))) s :=
  fetchHalf_ok stale h.1 h.2

theorem fetchHalf_first (stale : s.stale = []) (h : HalfThere s 0) :
    fetchHalf s s.pc = .half (read16 s.mem s.pc) s := by
  simpa using fetchHalf_there stale h

theorem fetchHalf_nowhere {a : Word} (hc : fetchCheck s a = none) (hp : s.place 2 a = .nowhere) :
    fetchHalf s a = .refused .unpopulated := by
  unfold fetchHalf
  rw [hc]
  simp only
  rw [load_nowhere (w := .half) hp]

theorem halfCount_pos (h : Half) : 0 < halfCount h := by
  unfold halfCount
  split <;> decide

/-- The decoder sees of its second and third half-word only what the length rule gives. -/
theorem fetchDecode_two {h0 : Half} (h : sizeOf h0 = .two) (h1 h2 : Half) (s : State) :
    fetchDecode h0 0#16 0#16 s = fetchDecode h0 h1 h2 s := by
  unfold fetchDecode
  rw [decode_two _ h h1 h2]

theorem fetchDecode_four {h0 : Half} (h : sizeOf h0 = .four) (h1 h2 : Half) (s : State) :
    fetchDecode h0 h1 0#16 s = fetchDecode h0 h1 h2 s := by
  unfold fetchDecode
  rw [decode_four _ h h1 h2]

/-- Half-words that are all there are decoded as they stand in memory. -/
theorem fetch_there (stale : s.stale = [])
    (there : ∀ k, k < halfCount (read16 s.mem s.pc) → HalfThere s k) :
    fetch s = fetchDecode (read16 s.mem s.pc) (read16 s.mem (s.pc + 2#32))
      (read16 s.mem (s.pc + 4#32)) s := by
  unfold fetch
  rw [fetchHalf_first stale (there 0 (halfCount_pos _))]
  simp only [withHalf]
  split <;> rename_i size
  · exact fetchDecode_two size _ _ s
  · rw [show fetchHalf s (s.pc + 2#32) = _ from
      fetchHalf_there stale (there 1 (by simp [halfCount, size]))]
    exact fetchDecode_four size _ _ s
  · rw [show fetchHalf s (s.pc + 2#32) = _ from
      fetchHalf_there stale (there 1 (by simp [halfCount, size]))]
    simp only
    rw [show fetchHalf s (s.pc + 4#32) = _ from
      fetchHalf_there stale (there 2 (by simp [halfCount, size]))]

/-- The first half-word that the MMU refuses ends the fetch with its error. -/
theorem fetch_fails {j : Nat} {k : ErrorKind} (h : FetchFailsAt s j k) : fetch s = .failed k s := by
  obtain ⟨stale, inside, there, refused⟩ := h
  have fails : fetchHalf s (s.pc + BitVec.ofNat 32 (2 * j)) = .failed k s :=
    fetchHalf_failed refused
  have first (hj : 0 < j) := fetchHalf_first stale (there 0 hj)
  have count : halfCount (read16 s.mem s.pc) ≤ 3 := by unfold halfCount; split <;> decide
  unfold fetch
  obtain rfl | rfl | rfl : j = 0 ∨ j = 1 ∨ j = 2 := by omega
  · rw [show fetchHalf s s.pc = .failed k s by simpa using fails]
    rfl
  · rw [first (by decide)]
    simp only [withHalf]
    split <;> rename_i size
    · simp [halfCount, size] at inside
    · rw [show fetchHalf s (s.pc + 2#32) = _ from fails]
    · rw [show fetchHalf s (s.pc + 2#32) = _ from fails]
  · rw [first (by decide)]
    simp only [withHalf]
    split <;> rename_i size
    · simp [halfCount, size] at inside
    · simp [halfCount, size] at inside
    · rw [show fetchHalf s (s.pc + 2#32) = _ from fetchHalf_there stale (there 1 (by decide))]
      simp only
      rw [show fetchHalf s (s.pc + 4#32) = _ from fails]

theorem fetch_unknown (h : FetchesUnknown s) : fetch s = .unknown s := by
  obtain ⟨stale, there, u, undecoded⟩ := h
  rw [fetch_there stale there]
  unfold fetchDecode
  rw [undecoded]

/-- A step in which nothing intervenes is what its fetch and what that comes to give. -/
theorem step_runFetched (h : RunsInstr s) :
    step s = endStep (afterOutcome s.sampled (runFetched s.sampled)) := by
  obtain ⟨awake, noReset, noIrq, noBreak⟩ := h
  rw [step_awake awake noReset, runAwake_no_irq (s := s.sampled) noIrq,
    runBroken_no_break (s := s.sampled) noBreak]
  rfl

theorem runFetched_failed (even : s.pc.getLsbD 0 = false) {k : ErrorKind}
    (h : fetch s = .failed k s) :
    runFetched s = raiseError k 0#4 s.pc s.pc s.pc s := by
  unfold runFetched
  rw [even, if_neg Bool.false_ne_true, h]
  rfl

theorem runFetched_unknown (even : s.pc.getLsbD 0 = false) (h : fetch s = .unknown s) :
    runFetched s = raiseError .unknownInstruction 0#4 s.pc s.pc s.pc s := by
  unfold runFetched
  rw [even, if_neg Bool.false_ne_true, h]
  rfl

theorem runFetched_nowhere (even : s.pc.getLsbD 0 = false) (hc : fetchCheck s s.pc = none)
    (hp : s.place 2 s.pc = .nowhere) : runFetched s = .refused .unpopulated := by
  unfold runFetched fetch
  rw [even, if_neg Bool.false_ne_true, fetchHalf_nowhere hc hp]
  rfl

/-! ### O6: the prefetch buffer -/

/-- The half-word found is the new one or an old one of the same address. -/
theorem staleHalf_mem (l : List StaleHalf) (a : Word) (n : Nat) (new : Half) :
    staleHalf l a n new = new ∨ ⟨a, staleHalf l a n new⟩ ∈ l := by
  induction l generalizing n with
  | nil => exact .inl rfl
  | cons e t ih =>
    unfold staleHalf
    split
    · rename_i h
      obtain ⟨rfl, -⟩ := h
      exact .inr List.mem_cons_self
    · exact (ih (n + 1)).imp_right (List.mem_cons_of_mem e)

/-- What the fetch of a half-word in memory finds, and that without leftovers it changes nothing. -/
theorem fetchHalf_memory {t : State} {a : Word} {h : Half} (hp : s.place 2 a = .memory)
    (e : fetchHalf s a = .half h t) :
    (h = read16 s.mem a ∨ ⟨a, h⟩ ∈ s.stale) ∧ (s.stale = [] → t = s) := by
  have low : fld (loadMem s.mem .half a) 0 16 = read16 s.mem a :=
    (BitVec.extractLsb'_setWidth_of_le (by decide)).trans BitVec.extractLsb'_eq_self
  cases hc : fetchCheck s a with
  | some k => rw [fetchHalf_failed hc] at e; cases e
  | none =>
    refine ⟨?_, fun stale => ?_⟩
    · unfold fetchHalf at e
      rw [hc] at e
      simp only [load_memory (w := .half) hp, low] at e
      cases e
      exact staleHalf_mem _ _ _ _
    · rw [fetchHalf_ok stale hc hp] at e
      cases e
      rfl

/-- In the `k`-th half-word ahead a byte within the depth of the buffer has changed. -/
theorem overwrites_iff (m : List Host.Cell) (k : Nat) :
    s.overwrites m k = true ↔ ∃ j : Nat, j < 2 ∧ 2 * k + j < s.params.prefetchBytes
      ∧ read8 m (s.ahead + BitVec.ofNat 32 (2 * k + j))
        ≠ read8 s.mem (s.ahead + BitVec.ofNat 32 (2 * k + j)) := by
  simp only [State.overwrites, List.any_eq_true, List.mem_range, Bool.and_eq_true,
    decide_eq_true_eq, bne_iff_ne]

/-- What the buffer keeps after memory has become `m` (R96). -/
theorem mem_staleAfter (m : List Host.Cell) (e : StaleHalf) :
    e ∈ s.staleAfter m ↔ e ∈ s.stale
      ∨ ∃ k j : Nat, j < 2 ∧ 2 * k + j < s.params.prefetchBytes
        ∧ e = ⟨s.ahead + BitVec.ofNat 32 (2 * k), read16 s.mem (s.ahead + BitVec.ofNat 32 (2 * k))⟩
        ∧ read8 m (s.ahead + BitVec.ofNat 32 (2 * k + j))
          ≠ read8 s.mem (s.ahead + BitVec.ofNat 32 (2 * k + j)) := by
  simp only [State.staleAfter, List.mem_append, List.mem_filterMap, List.mem_range,
    Option.ite_none_right_eq_some, Option.some.injEq]
  refine or_congr_right ⟨?_, ?_⟩
  · rintro ⟨k, -, changed, rfl⟩
    obtain ⟨j, hj, depth, differs⟩ := (overwrites_iff m k).mp changed
    exact ⟨k, j, hj, depth, rfl, differs⟩
  · rintro ⟨k, j, hj, depth, rfl, differs⟩
    exact ⟨k, by omega, (overwrites_iff m k).mpr ⟨j, hj, depth, differs⟩, rfl⟩

end

/-- Settles O6. -/
theorem stepRaisesFetchErrors : Obligations.StepRaisesFetchErrors := by
  refine ⟨fun s runs even =>
      ⟨fun j k fails => ?fails, fun unknown => ?unknown, fun hc hp => ?nowhere⟩,
    fun s t a h hp e => fetchHalf_memory hp e,
    fun s m => ⟨staleAfter_none, fun _ => rfl, mem_staleAfter m⟩⟩
  case fails =>
    rw [step_runFetched runs, runFetched_failed (s := s.sampled) even (fetch_fails (j := j) fails)]
    rfl
  case unknown =>
    rw [step_runFetched runs, runFetched_unknown (s := s.sampled) even (fetch_unknown unknown)]
    rfl
  case nowhere =>
    rw [step_runFetched runs, runFetched_nowhere (s := s.sampled) even hc hp]
    rfl

end Sys2Proof.Machine
end

section
/-! PROOF of O27, O28, O29 and O30 (20_memory.md): loads, stores and `swap.i`, done, failed or
refused. First the accesses the checks let through, of memory and of a device, and those that trap;
then what a load, a store and a swap leave. -/

namespace Sys2Proof.Machine

section
variable {s : State} {i : Instr} {w : Width} {a v : Word} {rd : Reg} {uses : Bool}

/-! ### Accesses -/

theorem readData_error {k : ErrorKind} (h : dataCheck s s.mode w .read a = some k) :
    readData w a s = .trap (.error k 0#4 s.pc) s := readDataP_error 0#4 h

theorem readData_nowhere (h : dataCheck s s.mode w .read a = none)
    (hp : s.place (bytesOf w) a = .nowhere) :
    readData w a s = .trap (.refuse .unpopulated) s := by
  unfold readData readDataP
  rw [h, load_nowhere hp]

theorem writeData_nowhere (v : Word) (h : dataCheck s s.mode w .write a = none)
    (hp : s.place (bytesOf w) a = .nowhere) :
    writeData w a v s = .trap (.refuse .unpopulated) s := by
  unfold writeData
  rw [h, store_nowhere v hp]

/-- A read that a device answers leaves it in its next state (R97). -/
theorem readData_device (h : dataCheck s s.mode w .read a = none)
    (hp : s.place (bytesOf w) a = .device) :
    readData w a s = .done (s.deviceLoad w a).1
      ({ s with devState := (s.deviceLoad w a).2 }.accessed .read w a) := by
  unfold readData readDataP
  rw [h, load_device hp]

theorem writeData_device (v : Word) (h : dataCheck s s.mode w .write a = none)
    (hp : s.place (bytesOf w) a = .device) :
    writeData w a v s = .done () (State.accessed
      { s.putMem (s.storeRam (bytesOf w) a v) with devState := s.deviceStore w a v }
      .write w a) := by
  unfold writeData
  rw [h, store_device v hp]

/-! ### The forms of loads and stores -/

theorem exec_dispLoad {d : Disp} (h : (i = .ld8zI rd d ∧ w = .byte) ∨ (i = .ld16zI rd d ∧ w = .half)
      ∨ (i = .ldI rd d ∧ w = .word)) (s : State) :
    exec i s = loadInto i w (dispUsesSp d) (s.dispAddr w d) rd s := by
  rcases h with ⟨rfl, rfl⟩ | ⟨rfl, rfl⟩ | ⟨rfl, rfl⟩ <;> rfl

theorem exec_indexLoad {rx : Reg} {b : IndexBase} (h : (i = .ld8zR rd rx b ∧ w = .byte)
      ∨ (i = .ld16zR rd rx b ∧ w = .half) ∨ (i = .ldR rd rx b ∧ w = .word)) (s : State) :
    exec i s = loadInto i w (indexUsesSp b) (s.indexAddr rx b) rd s := by
  rcases h with ⟨rfl, rfl⟩ | ⟨rfl, rfl⟩ | ⟨rfl, rfl⟩ <;> rfl

theorem exec_dispStore {src : StoreSrc} {d : Disp} (h : (i = .st8I src d ∧ w = .byte)
      ∨ (i = .st16I src d ∧ w = .half) ∨ (i = .stI src d ∧ w = .word)) (s : State) :
    exec i s = storeFrom i w (dispUsesSp d) (s.dispAddr w d) (s.storeValue src) s := by
  rcases h with ⟨rfl, rfl⟩ | ⟨rfl, rfl⟩ | ⟨rfl, rfl⟩ <;> rfl

theorem exec_indexStore {src : StoreSrc} {rx : Reg} {b : IndexBase}
    (h : (i = .st8R src rx b ∧ w = .byte) ∨ (i = .st16R src rx b ∧ w = .half)
      ∨ (i = .stR src rx b ∧ w = .word)) (s : State) :
    exec i s = storeFrom i w (indexUsesSp b) (s.indexAddr rx b) (s.storeValue src) s := by
  rcases h with ⟨rfl, rfl⟩ | ⟨rfl, rfl⟩ | ⟨rfl, rfl⟩ <;> rfl

/-! ### Loads -/

/-- A load whose read answers `v` and leaves the devices in the state `x`; of memory, `x` is the
state they are in. -/
theorem completes_read {x : Nat} (he : exec i s = loadInto i w uses a rd s) (guard : GuardOk s uses)
    (read : readData w a s = .done v ({ s with devState := x }.accessed .read w a)) :
    Completes i s fun t => t.reg rd = v ∧ ZNOf t v
      ∧ OnlyRegsRead { s with devState := x } t [rd] maskZN
      ∧ t.breakHit = (s.breakHit || s.dataBreak .read w a) := by
  have next : exec i s = .next (((({ s with devState := x } : State).accessed .read w a).result rd v
      (setZN s.flags v)).advance i.length) := by
    rw [he, loadInto, spGuard_ok guard, andThen_done, read]
    rfl
  refine ⟨_, next, rfl, reg_result_same s rd v (setZN s.flags v),
    ⟨flagZ_setZN _ _, flagN_setZN _ _⟩, ?_, rfl⟩
  exact ⟨regsBut_result s rd v (setZN s.flags v) i.length, setZN_outside _ _,
    ⟨rfl, rfl⟩, ⟨rfl, rfl, rfl, rfl, rfl, rfl, rfl, rfl⟩, .of_eq rfl, fun _ => rfl, rfl⟩

theorem completes_load (he : exec i s = loadInto i w uses a rd s) (guard : GuardOk s uses)
    (h : ReadOk s w a) : Completes i s fun t => LoadResult s t rd w a (loadMem s.mem w a) :=
  completes_read he guard (readData_ok h)

theorem completes_load_byte (he : exec i s = loadInto i .byte uses a rd s) (guard : GuardOk s uses)
    (h : ReadOk s .byte a) :
    Completes i s fun t => LoadResult s t rd .byte a (BitVec.ofNat 32 (read8 s.mem a).toNat) := by
  rw [BitVec.ofNat_toNat]
  exact completes_load he guard h

theorem completes_load_half (he : exec i s = loadInto i .half uses a rd s) (guard : GuardOk s uses)
    (h : ReadOk s .half a) :
    Completes i s fun t => LoadResult s t rd .half a (BitVec.ofNat 32 (read16 s.mem a).toNat) := by
  rw [BitVec.ofNat_toNat]
  exact completes_load he guard h

/-! ### Stores -/

/-- A store whose write leaves the memory `m`, where only bytes of the access differ, and the
devices in the state `x`; of RAM, `x` is the state they are in. -/
theorem completes_write {x : Nat} {m : List Host.Cell} (he : exec i s = storeFrom i w uses a v s)
    (guard : GuardOk s uses)
    (write : writeData w a v s
      = .done () (State.accessed { s.putMem m with devState := x } .write w a))
    (kept : ∀ b : Word, (∀ k : Nat, k < bytesOf w → b ≠ a + BitVec.ofNat 32 k) →
      read8 m b = read8 s.mem b) :
    Completes i s fun t => t.mem = m
      ∧ OnlyRegsStored { s with devState := x } t [] 0#32 a (bytesOf w)
      ∧ t.breakHit = (s.breakHit || s.dataBreak .write w a) := by
  have next : exec i s = .next
      ((State.accessed { s.putMem m with devState := x } .write w a).advance i.length) := by
    rw [he, storeFrom, spGuard_ok guard, andThen_done, write]
    rfl
  exact ⟨_, next, rfl, rfl, ⟨fun _ _ => rfl, rfl, ⟨rfl, rfl⟩,
    ⟨rfl, rfl, rfl, rfl, rfl, rfl, rfl, rfl⟩, .of_eq rfl, kept, rfl⟩, rfl⟩

/-- What is read where a value was stored: its low bytes. -/
theorem storeMem_reads {m : List Host.Cell} (w : Width) (a v : Word) (wf : Memory.wf m = true) :
    match w with
    | .byte => read8 (storeMem m w a v) a = fld v 0 8
    | .half => read16 (storeMem m w a v) a = fld v 0 16
    | .word => read32 (storeMem m w a v) a = v := by
  cases w with
  | byte => exact read8_write8_same a _ wf
  | half => exact read16_write16_same a _ wf
  | word => exact read32_write32_same a v wf

theorem completes_store (wf : Memory.wf s.mem = true) (he : exec i s = storeFrom i w uses a v s)
    (guard : GuardOk s uses) (h : WriteOk s w a) :
    Completes i s fun t => StoreResult s t w a v := by
  obtain ⟨t, next, pc, mem, frame, hit⟩ := completes_write (x := s.devState) he guard
    (writeData_ok h) fun b apart => read8_storeMem_other s.mem w v apart
  refine ⟨t, next, pc, ?_, frame, hit⟩
  rw [mem]
  exact storeMem_reads w a v wf

/-- A store with bytes of a device: those of its bytes that stand in RAM are stored (R97). -/
theorem completes_store_device (wf : Memory.wf s.mem = true)
    (he : exec i s = storeFrom i w uses a v s) (guard : GuardOk s uses)
    (h : dataCheck s s.mode w .write a = none) (hp : s.place (bytesOf w) a = .device) :
    Completes i s fun t =>
      OnlyRegsStored { s with devState := s.deviceStore w a v } t [] 0#32 a (bytesOf w)
      ∧ (∀ j : Nat, j < bytesOf w → read8 t.mem (a + BitVec.ofNat 32 j)
        = if regionOf s.map (a + BitVec.ofNat 32 j) = some .ram then fld v (8 * j) 8
          else read8 s.mem (a + BitVec.ofNat 32 j))
      ∧ t.breakHit = (s.breakHit || s.dataBreak .write w a) := by
  obtain ⟨written, kept⟩ := read8_storeRam a v wf (bytesOf_le w)
  obtain ⟨t, next, pc, mem, frame, hit⟩ := completes_write he guard (writeData_device v h hp)
    fun b apart => kept b fun j hj _ => apart j hj
  refine ⟨t, next, pc, frame, fun j hj => ?_, hit⟩
  rw [mem, written j hj]
  exact if_congr kindIs_iff rfl rfl

/-! ### Swap -/

theorem swapI_ok {ra : Reg} (hr : ReadOk s .word (s.reg ra)) (hw : WriteOk s .word (s.reg ra)) :
    exec (.swapI rd ra) s = .next (((((s.accessed .read .word (s.reg ra)).putMem
      (write32 s.mem (s.reg ra) (s.reg rd))).accessed .write .word (s.reg ra)).result rd
        (read32 s.mem (s.reg ra)) (setZN s.flags (read32 s.mem (s.reg ra)))).advance
          (Instr.swapI rd ra).length) := by
  have write := writeData_ok (s := s.accessed .read .word (s.reg ra)) (v := s.reg rd)
    (WriteOkIn_congr (s := s) rfl rfl hw)
  show execSwapI rd ra s = _
  rw [execSwapI, readData_ok hr, andThen_done, write]
  rfl

/-! ### Accesses that trap -/

/-- A load whose read fails its check, or goes where nothing stands (U23). -/
theorem loadInto_traps (i : Instr) (rd : Reg) (guard : GuardOk s uses) :
    (∀ k, dataCheck s s.mode w .read a = some k →
      loadInto i w uses a rd s = raiseError k 0#4 s.pc s.pc s.pc s)
    ∧ (dataCheck s s.mode w .read a = none → s.place (bytesOf w) a = .nowhere →
      loadInto i w uses a rd s = .refused .unpopulated) := by
  unfold loadInto
  rw [spGuard_ok guard, andThen_done]
  refine ⟨fun k h => ?_, fun h hp => ?_⟩
  · rw [readData_error h]; rfl
  · rw [readData_nowhere h hp]; rfl

theorem storeFrom_traps (i : Instr) (v : Word) (guard : GuardOk s uses) :
    (∀ k, dataCheck s s.mode w .write a = some k →
      storeFrom i w uses a v s = raiseError k 0#4 s.pc s.pc s.pc s)
    ∧ (dataCheck s s.mode w .write a = none → s.place (bytesOf w) a = .nowhere →
      storeFrom i w uses a v s = .refused .unpopulated) := by
  unfold storeFrom
  rw [spGuard_ok guard, andThen_done]
  refine ⟨fun k h => ?_, fun h hp => ?_⟩
  · rw [writeData_error h]; rfl
  · rw [writeData_nowhere v h hp]; rfl

theorem swapI_read_traps (rd ra : Reg) :
    (∀ k, dataCheck s s.mode .word .read (s.reg ra) = some k →
      exec (.swapI rd ra) s = raiseError k 0#4 s.pc s.pc s.pc s)
    ∧ (dataCheck s s.mode .word .read (s.reg ra) = none → s.place 4 (s.reg ra) = .nowhere →
      exec (.swapI rd ra) s = .refused .unpopulated) := by
  show (∀ k, _ → execSwapI rd ra s = _) ∧ (_ → _ → execSwapI rd ra s = _)
  unfold execSwapI
  refine ⟨fun k h => ?_, fun h hp => ?_⟩
  · rw [readData_error h]; rfl
  · rw [readData_nowhere h hp]; rfl

theorem swapI_write_traps {ra : Reg} {k : ErrorKind} (rd : Reg) (hr : ReadOk s .word (s.reg ra))
    (h : dataCheck s s.mode .word .write (s.reg ra) = some k) :
    exec (.swapI rd ra) s
      = raiseError k 0#4 s.pc s.pc s.pc (s.accessed .read .word (s.reg ra)) := by
  have fails := writeData_error (s := s.accessed .read .word (s.reg ra)) (v := s.reg rd)
    ((dataCheck_congr (s := s) rfl _ _ _ _).trans h)
  show execSwapI rd ra s = _
  rw [execSwapI, readData_ok hr, andThen_done, fails]
  rfl

end

/-! ### O27, O28, O29, O30 -/

/-- Settles O27. -/
theorem loadsComplete : Obligations.LoadsComplete := by
  intro s rd rx d b
  refine ⟨completes_load_byte rfl, completes_load_half rfl, completes_load rfl,
    completes_load_byte rfl, completes_load_half rfl, completes_load rfl,
    fun i w a form check device => ?_⟩
  have read := readData_device check device
  rcases form with ⟨guard, rfl, form⟩ | ⟨guard, rfl, form⟩
  · exact completes_read (exec_dispLoad form s) guard read
  · exact completes_read (exec_indexLoad form s) guard read

/-- Settles O28. -/
theorem storesComplete : Obligations.StoresComplete := by
  intro s src rx d b wf v
  have value : v = s.storeValue src := by cases src <;> rfl
  rw [value]
  refine ⟨completes_store wf rfl, completes_store wf rfl, completes_store wf rfl,
    completes_store wf rfl, completes_store wf rfl, completes_store wf rfl,
    fun i w a form check device => ?_⟩
  rcases form with ⟨guard, rfl, form⟩ | ⟨guard, rfl, form⟩
  · exact completes_store_device wf (exec_dispStore form s) guard check device
  · exact completes_store_device wf (exec_indexStore form s) guard check device

/-- Settles O29. -/
theorem swapCompletes : Obligations.SwapCompletes := by
  intro s rd ra wf hr hw
  refine ⟨_, swapI_ok hr hw, rfl, ?value, ?stored, ⟨flagZ_setZN _ _, flagN_setZN _ _⟩, ?regs,
    setZN_outside _ _, ⟨rfl, rfl⟩, ⟨rfl, rfl, rfl, rfl, rfl, rfl, rfl, rfl⟩, .of_eq rfl,
    fun b apart => ?kept, rfl⟩
  case value => exact get_set_same s.regs rd _
  case stored => exact read32_write32_same (s.reg ra) (s.reg rd) wf
  case regs => exact fun r hr => get_set_other s.regs rd r _ (by simpa using hr)
  case kept => exact read8_storeMem_other s.mem .word (s.reg rd) apart

/-- Settles O30. -/
theorem accessesTrap : Obligations.AccessesTrap := by
  refine ⟨fun s i w a kind form => ?access, fun s rd ra k hr h => swapI_write_traps rd hr h⟩
  rcases form with ⟨rd, d, guard, rfl, rfl, form⟩ | ⟨rd, rx, b, guard, rfl, rfl, form⟩
    | ⟨src, d, guard, rfl, rfl, form⟩ | ⟨src, rx, b, guard, rfl, rfl, form⟩
    | ⟨rd, ra, rfl, rfl, rfl, rfl⟩
  · rw [exec_dispLoad form]
    exact loadInto_traps i rd guard
  · rw [exec_indexLoad form]
    exact loadInto_traps i rd guard
  · rw [exec_dispStore form]
    exact storeFrom_traps i _ guard
  · rw [exec_indexStore form]
    exact storeFrom_traps i _ guard
  · exact swapI_read_traps rd ra

end Sys2Proof.Machine
end

section
/-! PROOF of O26 (20_memory.md): branches to odd targets, to 0, and through tables. First the words
pushed on and popped from the stack, on which calls, returns and the stack instructions rest; then
the flags that a test leaves, and where each branch traps. -/

namespace Sys2Proof.Machine

section
variable {s t u : State} {i : Instr} {a v : Word}

/-! ### Words on the stack -/

/-- The state after a word is pushed on the stack in use (R154). -/
def State.pushed (s : State) (v : Word) : State :=
  ((s.putMem (write32 s.mem (s.sp - 4#32) v)).accessed .write .word (s.sp - 4#32)).setSp
    (s.sp - 4#32)

/-- The state after a word is popped from the stack in use. -/
def State.popped (s : State) : State := (s.accessed .read .word s.sp).setSp (s.sp + 4#32)

theorem pushWord_pushed (h : WriteOk s .word (s.sp - 4#32)) :
    pushWord v s = .done () (s.pushed v) := pushWord_ok h

theorem popWord_popped (h : ReadOk s .word s.sp) :
    popWord s = .done (read32 s.mem s.sp) s.popped := popWord_ok h

theorem pushWord_error {k : ErrorKind} (v : Word)
    (h : dataCheck s s.mode .word .write (s.sp - 4#32) = some k) :
    pushWord v s = .trap (.error k 0#4 s.pc) s := by
  rw [pushWord, writeData_error h, andThen_trap]

theorem popWord_error {k : ErrorKind} (h : dataCheck s s.mode .word .read s.sp = some k) :
    popWord s = .trap (.error k 0#4 s.pc) s := by
  rw [popWord, readData_error h, andThen_trap]

theorem pushWord_nowhere (v : Word) (h : dataCheck s s.mode .word .write (s.sp - 4#32) = none)
    (hp : s.place 4 (s.sp - 4#32) = .nowhere) :
    pushWord v s = .trap (.refuse .unpopulated) s := by
  rw [pushWord, writeData_nowhere v h hp, andThen_trap]

theorem popWord_nowhere (h : dataCheck s s.mode .word .read s.sp = none)
    (hp : s.place 4 s.sp = .nowhere) : popWord s = .trap (.refuse .unpopulated) s := by
  rw [popWord, readData_nowhere h hp, andThen_trap]

@[simp] theorem pushed_pc (s : State) (v : Word) : (s.pushed v).pc = s.pc := setSp_pc _ _

@[simp] theorem pushed_mem (s : State) (v : Word) :
    (s.pushed v).mem = write32 s.mem (s.sp - 4#32) v := setSp_mem _ _

@[simp] theorem pushed_mode (s : State) (v : Word) : (s.pushed v).mode = s.mode := mode_setSp _ _

@[simp] theorem pushed_mmu (s : State) (v : Word) : (s.pushed v).mmu = s.mmu := setSp_mmu _ _

@[simp] theorem pushed_map (s : State) (v : Word) : (s.pushed v).map = s.map := setSp_map _ _

@[simp] theorem popped_pc (s : State) : s.popped.pc = s.pc := setSp_pc _ _

@[simp] theorem popped_flags (s : State) : s.popped.flags = s.flags := setSp_flags _ _

@[simp] theorem popped_regs (s : State) : s.popped.regs = s.regs := setSp_regs _ _

@[simp] theorem popped_sp (s : State) : s.popped.sp = s.sp + 4#32 := sp_setSp _ _

theorem ReadOk_congr {w : Width} (hm : t.mode = s.mode) (hu : t.mmu = s.mmu) (hp : t.map = s.map)
    (h : ReadOk s w a) : ReadOk t w a := by
  unfold ReadOk
  rw [hm]
  exact ReadOkIn_congr hu hp h

theorem sp_congr (hm : t.mode = s.mode) (h0 : t.sp0 = s.sp0) (h1 : t.sp1 = s.sp1) :
    t.sp = s.sp := by
  unfold State.sp
  rw [spIsSp0_congr s t hm, h0, h1]

/-! ### Flags -/

/-- A compare with 0 has no borrow and no overflow (R226, R311). -/
theorem cmpFlags_zero (f v : Word) : cmpFlags f v 0#32 = testFlags f v := by
  have value : (subC v 0#32 false).r = v := by simp [subC]
  have carry : (subC v 0#32 false).c = false := by simp [subC]
  have overflow : (subC v 0#32 false).v = false := by
    have low := v.le_toInt
    have high := v.toInt_lt
    simp only [subC, outsideSigned, BitVec.toInt_zero, Bool.toNat_false, Bool.or_eq_false_iff,
      decide_eq_false_iff_not] at low high ⊢
    omega
  simp only [cmpFlags, value, carry, overflow]
  rfl

/-- A write of S leaves the bits below it. -/
theorem getLsbD_setS (s : State) (k : Nat) {j : Nat} (h : j < 24) :
    (s.setS k).flags.getLsbD j = s.flags.getLsbD j := by
  rw [setS_flags, putField_bit _ _ _ _ _ (by decide) (by omega), if_neg (by omega)]

theorem flagsBut_setS (s : State) (k : Nat) : FlagsBut s (s.setS k) maskS :=
  putField_outside s.flags 24 8 _ maskS (by decide) fun j h1 h2 => by interval_cases j <;> rfl

/-- What a count in S and a test change of FLAGS. -/
theorem flagsBut_testFlags_setS (s : State) (v : Word) (k : Nat) :
    FlagsBut s ((s.setFlags (testFlags s.flags v)).setS k) maskSZNCV := by
  refine (putField_outside _ 24 8 _ maskSZNCV (by decide) fun j h1 h2 => ?_).trans
    (putField_outside _ 0 4 _ maskSZNCV (by decide) fun j h1 h2 => ?_)
  · interval_cases j <;> rfl
  · interval_cases j <;> rfl

theorem mode_testFlags (s : State) (v : Word) : (s.setFlags (testFlags s.flags v)).mode = s.mode :=
  mode_setFlags s _ (flagM_putField _ 0 4 _ (by decide) (.inr (by decide)))

theorem atomsDone_setS (s : State) {k : Nat} (h : k < 256) : (s.setS k).atomsDone = k := by
  rw [State.atomsDone, flagS_setS, BitVec.toNat_ofNat, Nat.mod_eq_of_lt h]

/-! ### A branch that traps -/

/-- An instruction that ends with a branch from `u` traps where that does. -/
theorem branchTraps_of {c : Prop} (hpc : u.pc = s.pc)
    (h : c → exec i s = settle (branchTo 0#4 a u)) : BranchTraps i s u c a := by
  refine ⟨fun hc odd => ?_, fun hc zero => ?_⟩
  · rw [h hc, branchTo_odd _ odd, ← hpc]
    rfl
  · rw [h hc, zero, branchTo_zero, ← hpc]
    rfl

/-- A conditional branch traps where its condition, as the flags give it, holds. -/
theorem branchTraps_if {c : Prop} {b : Bool} (hpc : u.pc = s.pc) (hb : c → b = true)
    (h : exec i s = branchIf b a i u) : BranchTraps i s u c a :=
  branchTraps_of hpc fun hc => h.trans (if_pos (hb hc))

/-- Through an aligned table address the word decides where the jump goes or traps (R158). -/
theorem tableJump_aligned (h : fld a 0 2 = 0#2) (v : Word) (s : State) :
    tableJump a v s = branchTo 0#4 v s := by
  unfold tableJump
  split
  · rename_i odd
    exact (branchTo_odd 0#4 (by simpa [h] using odd) s).symm
  · rfl

theorem tableJump_misaligned (h : fld a 0 2 ≠ 0#2) (v : Word) (s : State) :
    tableJump a v s = .trap (.error .alignError 0#4 (v &&& 0xFFFFFFFE#32)) s := by
  unfold tableJump
  exact if_pos (by simp [h])

/-- An instruction that ends with the jump through the table at `a` to the word `v`. -/
theorem tableTraps (hpc : u.pc = s.pc) (h : exec i s = settle (tableJump a v u)) :
    (fld a 0 2 ≠ 0#2 →
      exec i s = raiseError .alignError 0#4 (v &&& 0xFFFFFFFE#32) s.pc s.pc u)
    ∧ BranchTraps i s u (fld a 0 2 = 0#2) v := by
  refine ⟨fun bad => ?_, branchTraps_of hpc fun ok => ?_⟩
  · rw [h, tableJump_misaligned bad, ← hpc]
    rfl
  · rw [h, tableJump_aligned ok]

/-! ### Calls -/

theorem execBsrI_pushed (f : JumpForm) (on : s.spEnabled = true)
    (h : WriteOk s .word (s.sp - 4#32)) :
    exec (.bsrI f) s
      = settle (branchTo 0#4 (s.jumpTarget f) (s.pushed (s.pc + (Instr.bsrI f).length))) := by
  show execBsrI f s = _
  rw [execBsrI, spGuard_ok fun _ => on, andThen_done, pushWord_pushed h, andThen_done]

/-- The state in which `bsr.m` reads its table: its return address is pushed (R159). -/
def State.called (s : State) (f : TableForm) : State := s.pushed (s.pc + (Instr.bsrM f).length)

theorem execBsrM_called (f : TableForm) (on : s.spEnabled = true)
    (h : WriteOk s .word (s.sp - 4#32)) (hr : ReadOk s .word (s.tableAddr f)) :
    exec (.bsrM f) s = settle (tableJump (s.tableAddr f)
      (read32 (s.called f).mem (s.tableAddr f))
      ((s.called f).accessed .read .word (s.tableAddr f))) := by
  have read : ReadOk (s.called f) .word (s.tableAddr f) :=
    ReadOk_congr (pushed_mode _ _) (pushed_mmu _ _) (pushed_map _ _) hr
  show execBsrM f s = _
  rw [execBsrM, spGuard_ok fun _ => on, andThen_done, pushWord_pushed h, andThen_done,
    show s.pushed _ = s.called f from rfl, readData_ok read]
  rfl

/-- A table read that fails leaves SP as before the call, and the word pushed in memory (D6). -/
theorem execBsrM_unread (f : TableForm) (on : s.spEnabled = true)
    (h : WriteOk s .word (s.sp - 4#32)) {k : ErrorKind}
    (hr : dataCheck s s.mode .word .read (s.tableAddr f) = some k) :
    exec (.bsrM f) s = raiseError k 0#4 s.pc s.pc s.pc ((s.called f).setSp s.sp) := by
  have fails : dataCheck (s.called f) (s.called f).mode .word .read (s.tableAddr f) = some k := by
    rw [State.called, pushed_mode, dataCheck_congr (pushed_mmu s _)]
    exact hr
  have pc : ((s.called f).setSp s.sp).pc = s.pc := (setSp_pc _ _).trans (pushed_pc s _)
  show execBsrM f s = _
  rw [execBsrM, spGuard_ok fun _ => on, andThen_done, pushWord_pushed h, andThen_done,
    show s.pushed _ = s.called f from rfl, readData_error fails, State.called, pushed_pc]
  show raiseError k 0#4 s.pc ((s.called f).setSp s.sp).pc ((s.called f).setSp s.sp).pc _ = _
  rw [pc]

/-- A call whose push fails has done nothing. -/
theorem call_unpushed (on : s.spEnabled = true) {k : ErrorKind}
    (h : dataCheck s s.mode .word .write (s.sp - 4#32) = some k)
    (form : (∃ f, i = .bsrI f) ∨ ∃ f, i = .bsrM f) :
    exec i s = raiseError k 0#4 s.pc s.pc s.pc s := by
  rcases form with ⟨f, rfl⟩ | ⟨f, rfl⟩
  · show execBsrI f s = _
    rw [execBsrI, spGuard_ok fun _ => on, andThen_done, pushWord_error _ h]
    rfl
  · show execBsrM f s = _
    rw [execBsrM, spGuard_ok fun _ => on, andThen_done, pushWord_error _ h]
    rfl

/-! ### The last atom of `pop.ret` -/

/-- The state in which `pop.ret` jumps to the word popped (R226). -/
def State.returning (s : State) : State :=
  (s.popped.setFlags (testFlags s.popped.flags (s.reg .r0))).setS 0

theorem returning_popped (s : State) : ReturnPopped s s.returning := by
  have flag {j : Nat} (h : j < 24) : s.returning.flags.getLsbD j
      = (testFlags s.popped.flags (s.reg .r0)).getLsbD j := getLsbD_setS _ 0 h
  refine ⟨?sp, (flag (by decide)).trans (flagZ_putZNCV _ _ _ _ _),
    (flag (by decide)).trans (flagN_putZNCV _ _ _ _ _),
    (flag (by decide)).trans (flagC_putZNCV _ _ _ _ _),
    (flag (by decide)).trans (flagV_putZNCV _ _ _ _ _), atomsDone_setS _ (by decide),
    setSp_regs _ _, setSp_mem _ _, setSp_stale _ _, ?flags, ?other, ?specials, ?outside⟩
  case sp =>
    rw [← popped_sp]
    exact sp_congr ((mode_setS _ 0).trans (mode_testFlags s.popped _)) rfl rfl
  case flags =>
    exact (flagsBut_testFlags_setS s.popped (s.reg .r0) 0).trans
      (congrArg (· &&& ~~~maskSZNCV) (popped_flags s))
  case other => exact otherStackSame_setSp (s.accessed .read .word s.sp) _
  case specials => exact specialsSame_setSp (s.accessed .read .word s.sp) _
  case outside => exact .of_eq (by simp [State.returning, State.popped])

theorem returning_pc (s : State) : s.returning.pc = s.pc := popped_pc s

theorem execPopRet_last (f : PopRetForm) (on : s.spEnabled = true)
    (last : s.atomsDone = (popAtoms (popRetMask f) (popRetOffset f)).length) :
    exec (.popRet f) s = settle (returnAtom s) := by
  show execPopRet f s = _
  rw [execPopRet, popRetStep, if_neg (by omega), if_pos last, spGuard_ok fun _ => on, andThen_done]

theorem returnAtom_popped (h : ReadOk s .word s.sp) :
    returnAtom s = branchTo 0#4 (read32 s.mem s.sp) s.returning := by
  have r0 : s.popped.reg .r0 = s.reg .r0 := congrArg (·.get .r0) (popped_regs s)
  rw [returnAtom, popWord_popped h, andThen_done, cmpFlags_zero, r0]
  rfl

theorem returnAtom_error {k : ErrorKind} (h : dataCheck s s.mode .word .read s.sp = some k) :
    returnAtom s = .trap (.error k 0#4 s.pc) s := by
  rw [returnAtom, popWord_error h, andThen_trap]

/-! ### Conditions -/

theorem bne_of_not_iff {x y : Bool} (h : ¬(x = true ↔ y = true)) : (x != y) = true :=
  bne_iff_ne.mpr fun e => h (Bool.eq_iff_iff.mp e)

theorem beq_of_iff {x y : Bool} (h : x = true ↔ y = true) : (x == y) = true :=
  beq_iff_eq.mpr (Bool.eq_iff_iff.mpr h)

theorem not_of_not {x : Bool} (h : ¬x = true) : (!x) = true := by simpa using h

end

/-! ### O26 -/

/-- The fourteen conditional branches of O26. -/
theorem condBranchesTrap (s : State) (f : CondForm) (o : BitVec 16) :
    let near := s.condTarget f
    let far := s.farTarget o
    let z := flagZ s.flags = true
    let n := flagN s.flags = true
    let c := flagC s.flags = true
    let v := flagV s.flags = true
    BranchTraps (.beq f) s s z near ∧ BranchTraps (.bne f) s s (¬z) near
    ∧ BranchTraps (.bcs f) s s c near ∧ BranchTraps (.bcc f) s s (¬c) near
    ∧ BranchTraps (.bleS f) s s (¬(n ↔ v) ∨ z) near
    ∧ BranchTraps (.bgtS f) s s ((n ↔ v) ∧ ¬z) near
    ∧ BranchTraps (.bltS f) s s (¬(n ↔ v)) near ∧ BranchTraps (.bgeS f) s s (n ↔ v) near
    ∧ BranchTraps (.bleU f) s s (c ∨ z) near ∧ BranchTraps (.bgtU f) s s (¬c ∧ ¬z) near
    ∧ BranchTraps (.bmi o) s s n far ∧ BranchTraps (.bpl o) s s (¬n) far
    ∧ BranchTraps (.bvs o) s s v far ∧ BranchTraps (.bvc o) s s (¬v) far := by
  refine ⟨branchTraps_if rfl id rfl, branchTraps_if rfl not_of_not rfl, branchTraps_if rfl id rfl,
    branchTraps_if rfl not_of_not rfl, branchTraps_if rfl ?le rfl, branchTraps_if rfl ?gt rfl,
    branchTraps_if rfl bne_of_not_iff rfl, branchTraps_if rfl beq_of_iff rfl,
    branchTraps_if rfl Bool.or_eq_true_iff.mpr rfl, branchTraps_if rfl ?gtU rfl,
    branchTraps_if rfl id rfl, branchTraps_if rfl not_of_not rfl, branchTraps_if rfl id rfl,
    branchTraps_if rfl not_of_not rfl⟩
  case le => exact fun h => Bool.or_eq_true_iff.mpr (h.imp_left bne_of_not_iff)
  case gt => exact fun h => Bool.and_eq_true_iff.mpr ⟨beq_of_iff h.1, not_of_not h.2⟩
  case gtU => exact fun h => Bool.and_eq_true_iff.mpr ⟨not_of_not h.1, not_of_not h.2⟩

/-- Settles O26. -/
theorem branchTargetsTrap : Obligations.BranchTargetsTrap := by
  refine ⟨fun s f => branchTraps_of rfl fun _ => rfl,
    fun s f => ⟨fun hr => tableTraps rfl ?table, fun k h => ?tableRead⟩,
    fun s on =>
      ⟨fun hw => ⟨fun f => ?callTo, fun f => ⟨fun hr => ?callThrough, fun k h => ?callRead⟩⟩,
      fun k h i form => call_unpushed on h form⟩,
    condBranchesTrap, fun s r f => ?test,
    fun s f on last => ⟨fun hr => ⟨s.returning, returning_pc s, returning_popped s, ?ret⟩,
      fun k h => ?retRead⟩⟩
  case table =>
    show execBraM f s = _
    rw [execBraM, readData_ok hr, andThen_done]
    rfl
  case tableRead =>
    show execBraM f s = _
    rw [execBraM, readData_error h]
    rfl
  case callTo => exact branchTraps_of (pushed_pc s _) fun _ => execBsrI_pushed f on hw
  case callThrough => exact tableTraps (pushed_pc s _) (execBsrM_called f on hw hr)
  case callRead => exact execBsrM_unread f on hw h
  case test =>
    refine ⟨s.setFlags (testFlags s.flags (s.reg r)), ⟨flagZ_putZNCV _ _ _ _ _,
      flagN_putZNCV _ _ _ _ _⟩, flagC_putZNCV _ _ _ _ _, flagV_putZNCV _ _ _ _ _, rfl,
      ⟨fun _ _ => rfl, putZNCV_outside _ _ _ _ _, ⟨rfl, rfl⟩,
        ⟨rfl, rfl, rfl, rfl, rfl, rfl, rfl, rfl⟩, .of_eq rfl, rfl, fun _ => rfl, rfl⟩,
      branchTraps_if rfl beq_iff_eq.mpr rfl, branchTraps_if rfl bne_iff_ne.mpr rfl⟩
  case ret =>
    exact branchTraps_of (returning_pc s) fun _ =>
      (execPopRet_last f on last).trans (congrArg settle (returnAtom_popped hr))
  case retRead => exact (execPopRet_last f on last).trans (congrArg settle (returnAtom_error h))

end Sys2Proof.Machine
end

section
/-! PROOF of O32 (20_memory.md): the atoms of the stack instructions. First what one atom does, or
how it traps; then the step that runs it and counts it in FLAGS.S; then which atoms an instruction
has. -/

namespace Sys2Proof.Machine

section
variable {s t u : State} {i : Instr} {a : StackAtom} {l : List StackAtom}

/-! ### One atom -/

/-- An atom is done from `s` to `u`: but for what it does nothing has changed, and it is not counted
yet. -/
structure AtomRan (s u : State) (a : StackAtom) : Prop where
  atom : AtomDone s u a
  flags : u.flags = s.flags
  pc : u.pc = s.pc
  other : OtherStackSame s u
  specials : SpecialsSame s u
  outside : OutsideSame s u

/-- Of the state after an atom only the stack pointer, the registers, memory and the prefetch buffer
are the atom's. -/
theorem AtomDone_congr (hsp : t.sp = u.sp) (e : (t.regs, t.mem, t.stale) = (u.regs, u.mem, u.stale))
    (h : AtomDone s u a) : AtomDone s t a := by
  simp only [Prod.mk.injEq] at e
  obtain ⟨hr, hm, hs⟩ := e
  cases a with
  | store | storeImm => simpa only [AtomDone, FetchSameBut, MemSameBut, hsp, hr, hm, hs] using h
  | load => simpa only [AtomDone, RegsBut, State.reg, hsp, hr, hm, hs] using h
  | adjust => simpa only [AtomDone, hsp, hr, hm, hs] using h

/-- What an atom leaves alone is left alone when it is counted. -/
theorem AtomRan.counted (h : AtomRan s u a) (k : Nat) :
    AtomDone s (u.setS k) a ∧ StackFrame s (u.setS k) maskS := by
  refine ⟨AtomDone_congr (sp_congr (mode_setS u k) rfl rfl) rfl h.atom, ?_, h.other, h.specials,
    h.outside⟩
  exact (flagsBut_setS u k).trans (by rw [h.flags])

/-- The same where the instruction ends with the atom. -/
theorem AtomRan.ended (h : AtomRan s u a) (n : Word) :
    AtomDone s ((u.setS 0).advance n) a ∧ StackFrame s ((u.setS 0).advance n) maskS := by
  obtain ⟨atom, frame⟩ := h.counted 0
  exact ⟨AtomDone_congr rfl rfl atom, frame⟩

/-- A push: the word stands below the old stack pointer. -/
theorem pushed_ran (wf : Memory.wf s.mem = true) (v : Word) :
    AtomRan s (s.pushed v) (.storeImm v) := by
  let stored := s.putMem (write32 s.mem (s.sp - 4#32) v)
  refine ⟨⟨sp_setSp _ _, ?read, ⟨?kept, ?stale⟩, setSp_regs _ _⟩, setSp_flags _ _, setSp_pc _ _,
    otherStackSame_setSp (stored.accessed .write .word (s.sp - 4#32)) _,
    specialsSame_setSp (stored.accessed .write .word (s.sp - 4#32)) _,
    .of_eq (by simp [State.pushed])⟩
  case read => rw [pushed_mem, read32_write32_same _ _ wf]
  case kept =>
    intro b apart
    rw [pushed_mem]
    exact read8_storeMem_other s.mem .word v apart
  case stale => rw [pushed_mem]; exact setSp_stale _ _

/-- A pop: the word at the stack pointer goes to the register. -/
theorem popped_ran (s : State) (r : Reg) :
    AtomRan s (s.popped.setReg r (read32 s.mem s.sp)) (.load r) := by
  refine ⟨⟨popped_sp s, reg_setReg_same _ _ _, fun q hq => ?regs, setSp_mem _ _, setSp_stale _ _⟩,
    setSp_flags _ _, setSp_pc _ _, otherStackSame_setSp (s.accessed .read .word s.sp) _,
    specialsSame_setSp (s.accessed .read .word s.sp) _, .of_eq (by simp [State.popped])⟩
  case regs =>
    rw [reg_setReg_other _ _ _ _ (by simpa using hq)]
    exact reg_setSp _ _ _

theorem adjusted_ran (s : State) (d : Word) : AtomRan s (s.setSp (s.sp + d)) (.adjust d) :=
  ⟨⟨sp_setSp _ _, setSp_regs _ _, setSp_mem _ _, setSp_stale _ _⟩, setSp_flags _ _, setSp_pc _ _,
    otherStackSame_setSp s _, specialsSame_setSp s _, .of_eq (by simp)⟩

/-- An atom whose access succeeds is done; only the pushes rest on the form of memory. -/
theorem runAtom_ok (ok : AtomOk s a)
    (wf : Memory.wf s.mem = true ∨ (∃ r, a = .load r) ∨ ∃ d, a = .adjust d) :
    ∃ u, runAtom a s = .done () u ∧ AtomRan s u a := by
  cases a with
  | store r =>
    have ran := pushed_ran (wf.resolve_right (by simp)) (s.reg r)
    exact ⟨_, pushWord_pushed ok, ran.atom, ran.flags, ran.pc, ran.other, ran.specials, ran.outside⟩
  | storeImm v => exact ⟨_, pushWord_pushed ok, pushed_ran (wf.resolve_right (by simp)) v⟩
  | load r => exact ⟨_, by rw [runAtom, popWord_popped ok, andThen_done], popped_ran s r⟩
  | adjust d => exact ⟨_, rfl, adjusted_ran s d⟩

/-- An atom whose access fails its check has done nothing. -/
theorem runAtom_error {k : ErrorKind} (h : AtomFails s a k) :
    runAtom a s = .trap (.error k 0#4 s.pc) s := by
  cases a with
  | store r => exact pushWord_error _ h
  | storeImm v => exact pushWord_error _ h
  | load r => rw [runAtom, popWord_error h, andThen_trap]
  | adjust d => cases h

theorem runAtom_nowhere (h : AtomNowhere s a) :
    runAtom a s = .trap (.refuse .unpopulated) s := by
  cases a with
  | store r => exact pushWord_nowhere _ h.1 h.2
  | storeImm v => exact pushWord_nowhere _ h.1 h.2
  | load r => rw [runAtom, popWord_nowhere h.1 h.2, andThen_trap]
  | adjust d => cases h

/-! ### The step of an atom -/

section
variable (on : s.spEnabled = true) (ha : l[s.atomsDone]? = some a)
include on ha

/-- The step of a stack instruction runs its next atom. -/
theorem stackStep_atom (i : Instr) :
    stackStep l i s = andThen (runAtom a s) fun _ u =>
      if s.atomsDone + 1 < l.length then .done () (u.setS (s.atomsDone + 1))
      else .done () ((u.setS 0).advance i.length) := by
  rw [stackStep, spGuard_ok fun _ => on, andThen_done]
  simp only [ha]

theorem popRetStep_atom :
    popRetStep l s = settle (andThen (runAtom a s) fun _ u =>
      .done () (u.setS (s.atomsDone + 1))) := by
  obtain ⟨inside, -⟩ := List.getElem?_eq_some_iff.mp ha
  rw [popRetStep, if_pos inside, spGuard_ok fun _ => on, andThen_done]
  simp only [ha]

/-- The step of an atom that is done counts it, or ends the instruction with the last one. -/
theorem stackStep_completes (he : exec i s = settle (stackStep l i s)) (short : l.length ≤ 256)
    (wf : Memory.wf s.mem = true) (ok : AtomOk s a) :
    ∃ t, exec i s = .next t ∧ AtomDone s t a ∧ StackFrame s t maskS
      ∧ (s.atomsDone + 1 < l.length → t.pc = s.pc ∧ t.atomsDone = s.atomsDone + 1)
      ∧ (l.length ≤ s.atomsDone + 1 → t.pc = s.pc + i.length ∧ t.atomsDone = 0) := by
  obtain ⟨u, run, ran⟩ := runAtom_ok ok (.inl wf)
  rw [he, stackStep_atom on ha, run, andThen_done]
  by_cases more : s.atomsDone + 1 < l.length
  · obtain ⟨atom, frame⟩ := ran.counted (s.atomsDone + 1)
    exact ⟨_, by rw [if_pos more, settle_done], atom, frame,
      fun _ => ⟨ran.pc, atomsDone_setS u (by omega)⟩, fun last => by omega⟩
  · obtain ⟨atom, frame⟩ := ran.ended i.length
    exact ⟨_, by rw [if_neg more, settle_done], atom, frame, fun h => absurd h more,
      fun _ => ⟨by rw [advance_pc, setS_pc, ran.pc], atomsDone_setS u (by decide)⟩⟩

/-- An atom that fails its check, or goes where nothing stands, traps with nothing done. -/
theorem stackStep_traps (he : exec i s = settle (stackStep l i s)) :
    (∀ k, AtomFails s a k → exec i s = raiseError k 0#4 s.pc s.pc s.pc s)
    ∧ (AtomNowhere s a → exec i s = .refused .unpopulated) := by
  rw [he, stackStep_atom on ha]
  exact ⟨fun k h => by rw [runAtom_error h]; rfl, fun h => by rw [runAtom_nowhere h]; rfl⟩

theorem popRetStep_traps :
    (∀ k, AtomFails s a k → popRetStep l s = raiseError k 0#4 s.pc s.pc s.pc s)
    ∧ (AtomNowhere s a → popRetStep l s = .refused .unpopulated) := by
  rw [popRetStep_atom on ha]
  exact ⟨fun k h => by rw [runAtom_error h]; rfl, fun h => by rw [runAtom_nowhere h]; rfl⟩

/-- The step of a load of `pop.ret`; its last atom is the return. -/
theorem popRetStep_completes (short : l.length < 256) (ok : AtomOk s a)
    (pops : (∃ r, a = .load r) ∨ ∃ d, a = .adjust d) :
    ∃ t, popRetStep l s = .next t ∧ AtomDone s t a ∧ StackFrame s t maskS ∧ t.pc = s.pc
      ∧ t.atomsDone = s.atomsDone + 1 := by
  obtain ⟨inside, -⟩ := List.getElem?_eq_some_iff.mp ha
  obtain ⟨u, run, ran⟩ := runAtom_ok ok (.inr pops)
  obtain ⟨atom, frame⟩ := ran.counted (s.atomsDone + 1)
  exact ⟨_, by rw [popRetStep_atom on ha, run, andThen_done, settle_done], atom, frame, ran.pc,
    atomsDone_setS u (by omega)⟩

end

end

/-! ### The lists of atoms -/

theorem maskRegs_length (m : BitVec 8) : (maskRegs m).length ≤ 8 := List.length_filter_le _ _

theorem frameAtoms_length (d : Word) : (frameAtoms d).length ≤ 1 := by
  unfold frameAtoms
  split <;> simp

theorem pushAtoms_length (f : PushForm) : (pushAtoms f).length ≤ 9 := by
  have regs := maskRegs_length (pushMask f)
  have frame := frameAtoms_length (0#32 - pushOffset f)
  simp only [pushAtoms, List.length_append, List.length_map, List.length_reverse]
  omega

theorem popAtoms_length (m : BitVec 8) (d : Word) : (popAtoms m d).length ≤ 9 := by
  have regs := maskRegs_length m
  have frame := frameAtoms_length d
  simp only [popAtoms, List.length_append, List.length_map]
  omega

theorem pushIAtoms_length (g : Bool) (f : PushIForm) : (pushIAtoms g f).length ≤ 4 := by
  cases f <;> simp [pushIAtoms, pushImms]

/-- The atoms of a pop make no write. -/
theorem mem_popAtoms {m : BitVec 8} {d : Word} {a : StackAtom} (h : a ∈ popAtoms m d) :
    (∃ r, a = .load r) ∨ ∃ d, a = .adjust d := by
  rcases List.mem_append.mp h with h | h
  · unfold frameAtoms at h
    split at h
    · cases h
    · exact .inr ⟨d, List.mem_singleton.mp h⟩
  · obtain ⟨r, -, rfl⟩ := List.mem_map.mp h
    exact .inl ⟨r, rfl⟩

/-- The registers of a mask are those whose bits are set, lowest first (R222, D15). -/
theorem maskRegs_eq (m : BitVec 8) : maskRegs m = regsWhere fun r => m.getLsbD r := by
  have keep (p : Reg → Bool) (r : Reg) (l : List Reg) :
      (r :: l).filter p = (if p r then [r] else []) ++ l.filter p := by
    rw [List.filter_cons]
    split <;> rfl
  simp only [maskRegs, allRegs, keep, List.filter_nil, List.append_nil, regsWhere,
    List.append_assoc]
  rfl

theorem maskRegs_range (nn : BitVec 2) :
    maskRegs (rangeMask nn) = regsWhere fun r => decide (4 ≤ r ∧ r ≤ 4 + nn.toNat) := by
  revert nn
  decide

theorem frameAtoms_ofInt {d : Int} (low : -2 ^ 32 < d) (high : d < 2 ^ 32) :
    frameAtoms (BitVec.ofInt 32 d) = moveSp d := by
  have zero : BitVec.ofInt 32 d = 0#32 ↔ d = 0 := by
    rw [← BitVec.toNat_inj, BitVec.toNat_ofInt]
    simp only [BitVec.toNat_ofNat]
    omega
  exact if_congr zero rfl rfl

/-- A frame offset is four times its field (R223, R225). -/
theorem append_zero_eq_ofInt {n : Nat} (o : BitVec n) (hn : n ≤ 30) :
    (o ++ 0#2).setWidth 32 = BitVec.ofInt 32 (4 * o.toNat) := by
  have small : o.toNat < 2 ^ 30 := o.isLt.trans_le (Nat.pow_le_pow_right (by decide) hn)
  apply BitVec.eq_of_toNat_eq
  rw [BitVec.toNat_setWidth, BitVec.toNat_append, BitVec.toNat_ofInt]
  simp only [BitVec.toNat_ofNat, Nat.shiftLeft_eq, Nat.zero_mod, Nat.or_zero]
  omega

theorem frameAtoms_up {n : Nat} (o : BitVec n) (hn : n ≤ 30) :
    frameAtoms ((o ++ 0#2).setWidth 32) = moveSp (4 * o.toNat) := by
  have small : o.toNat < 2 ^ 30 := o.isLt.trans_le (Nat.pow_le_pow_right (by decide) hn)
  rw [append_zero_eq_ofInt o hn, frameAtoms_ofInt (by omega) (by omega)]

theorem frameAtoms_down {n : Nat} (o : BitVec n) (hn : n ≤ 30) :
    frameAtoms (0#32 - (o ++ 0#2).setWidth 32) = moveSp (-4 * o.toNat) := by
  have small : o.toNat < 2 ^ 30 := o.isLt.trans_le (Nat.pow_le_pow_right (by decide) hn)
  rw [append_zero_eq_ofInt o hn, BitVec.zero_sub, ← BitVec.ofInt_neg, ← Int.neg_mul,
    frameAtoms_ofInt (by omega) (by omega)]

/-- A one-bit immediate is 0 and 1, or 0 and -1 (U3). -/
theorem storeImm_bitImm (g : Bool) (b : BitVec 1) : .storeImm (bitImm g b) = pushBit g b := by
  revert g b
  decide

/-! ### O32 -/

/-- The atoms of `push`, `pop` and `pop.ret` that O32 lists. -/
theorem stackAtoms_listed (m : BitVec 8) (nn : BitVec 2) (o5 : BitVec 5) (o6 : BitVec 6) :
    let listed := regsWhere fun r => m.getLsbD r
    let range := regsWhere fun r => decide (4 ≤ r ∧ r ≤ 4 + nn.toNat)
    pushAtoms (.mask m) = listed.reverse.map .store
    ∧ pushAtoms (.range nn o5) = range.reverse.map .store ++ moveSp (-4 * o5.toNat)
    ∧ pushAtoms (.full m o6) = listed.reverse.map .store ++ moveSp (-4 * o6.toNat)
    ∧ (let pops (f : PopForm) := popAtoms (popMask f) (popOffset f)
      pops (.mask m) = listed.map .load
      ∧ pops (.full m o6) = moveSp (4 * o6.toNat) ++ listed.map .load)
    ∧ (let pops (f : PopRetForm) := popAtoms (popRetMask f) (popRetOffset f)
      pops (.range nn o5) = moveSp (4 * o5.toNat) ++ range.map .load
      ∧ pops (.empty o5) = moveSp (4 * o5.toNat)
      ∧ pops (.full m o6) = moveSp (4 * o6.toNat) ++ listed.map .load) := by
  intro listed range
  have hl : listed = maskRegs m := (maskRegs_eq m).symm
  have hr : range = maskRegs (rangeMask nn) := (maskRegs_range nn).symm
  rw [hl, hr, ← frameAtoms_down o5 (by decide), ← frameAtoms_down o6 (by decide),
    ← frameAtoms_up o5 (by decide), ← frameAtoms_up o6 (by decide)]
  refine ⟨?pushMask, rfl, rfl, ⟨rfl, rfl⟩, rfl, ?popEmpty, rfl⟩
  case pushMask =>
    show (maskRegs m).reverse.map .store ++ frameAtoms (0#32 - 0#32) = _
    rw [show frameAtoms (0#32 - 0#32) = [] by decide, List.append_nil]
  case popEmpty =>
    show frameAtoms ((o5 ++ 0#2).setWidth 32) ++ (maskRegs 0#8).map .load = _
    rw [show maskRegs 0#8 = [] by decide, List.map_nil, List.append_nil]

/-- Settles O32. -/
theorem stackAtomsComplete : Obligations.StackAtomsComplete := by
  refine ⟨fun s i l a form on ha => ?step, fun s f a on ha => ?popRet, stackAtoms_listed,
    fun g w a b c d e f x y z u => ⟨rfl, rfl, rfl, rfl, rfl, rfl, rfl, rfl⟩, fun g a b c d => ?bits⟩
  case step =>
    have run : exec i s = settle (stackStep l i s) ∧ l.length ≤ 256 := by
      rcases form with ⟨f, rfl, rfl⟩ | ⟨f, rfl, rfl⟩ | ⟨f, rfl, rfl⟩
      · exact ⟨rfl, (pushAtoms_length f).trans (by decide)⟩
      · exact ⟨rfl, (popAtoms_length _ _).trans (by decide)⟩
      · exact ⟨rfl, (pushIAtoms_length _ f).trans (by decide)⟩
    obtain ⟨he, short⟩ := run
    exact ⟨stackStep_completes on ha he short, stackStep_traps on ha he⟩
  case popRet =>
    refine ⟨fun ok => popRetStep_completes on ha ?_ ok (mem_popAtoms (List.mem_of_getElem? ha)),
      popRetStep_traps on ha⟩
    exact (popAtoms_length _ _).trans_lt (by decide)
  case bits => simp [pushIAtoms, pushImms, storeImm_bitImm]

end Sys2Proof.Machine
end

section
/-! PROOF of O49 (20_memory.md): one step of the block instructions. First what the bookkeeping of a
block instruction leaves alone; then the atom of a copy and of a fill, done or trapped; then the
step that counts the atom or ends the instruction. -/

namespace Sys2Proof.Machine

section
variable {s t u : State} {i : Instr} {ds addrs ends : List Reg} {m : List Host.Cell} {a : Word}

/-! ### What a block instruction changes beside memory -/

/-- Nothing has changed but PC, the normal registers, FLAGS, the mark of a data breakpoint and the
numbers of the draws and of the bytes copied. -/
def BlkOnly (s t : State) : Prop :=
  ∃ p g f h n k,
    t = { s with pc := p, regs := g, flags := f, breakHit := h, freeNext := n, blkRun := k }

theorem BlkOnly.refl (s : State) : BlkOnly s s := ⟨_, _, _, _, _, _, rfl⟩

theorem BlkOnly.trans (h : BlkOnly s t) (g : BlkOnly t u) : BlkOnly s u := by
  obtain ⟨_, _, _, _, _, _, rfl⟩ := h
  obtain ⟨_, _, _, _, _, _, rfl⟩ := g
  exact ⟨_, _, _, _, _, _, rfl⟩

theorem BlkOnly.setReg (h : BlkOnly s t) (r : Reg) (v : Word) : BlkOnly s (t.setReg r v) :=
  h.trans ⟨_, _, _, _, _, _, rfl⟩

theorem BlkOnly.sourced (s : State) (src : BlkSrc) : BlkOnly s (s.sourced src) := by
  cases src <;> exact ⟨_, _, _, _, _, _, rfl⟩

theorem BlkOnly.putMem (h : BlkOnly s t) (m : List Host.Cell) :
    BlkOnly (s.putMem m) (t.putMem m) := by
  obtain ⟨_, _, _, _, _, _, rfl⟩ := h
  exact ⟨_, _, _, _, _, _, rfl⟩

theorem BlkOnly.mem (h : BlkOnly (s.putMem m) t) : t.mem = m := by
  obtain ⟨_, _, _, _, _, _, rfl⟩ := h
  rfl

theorem BlkOnly.params (h : BlkOnly s t) : t.params = s.params := by
  obtain ⟨_, _, _, _, _, _, rfl⟩ := h
  rfl

/-- A part of a block instruction that leaves memory as `m`: of FLAGS only S, and of the registers
only the listed ones, have changed. -/
structure BlkDone (s t : State) (ds : List Reg) (m : List Host.Cell) : Prop where
  only : BlkOnly (s.putMem m) t
  regs : RegsBut s t ds
  flags : FlagsBut s t maskS

/-- Where only the byte at `a` differs, that is the frame of the statements. -/
theorem BlkDone.frame (h : BlkDone s t ds m)
    (kept : ∀ b : Word, b ≠ a → read8 m b = read8 s.mem b) :
    BlockFrame s t ds a := by
  obtain ⟨only, regs, flags⟩ := h
  have mem := only.mem
  obtain ⟨_, _, _, _, _, _, rfl⟩ := only
  refine ⟨regs, flags, ⟨rfl, rfl⟩, ⟨rfl, rfl, rfl, rfl, rfl, rfl, rfl, rfl⟩,
    ⟨rfl, ⟨rfl, rfl, rfl, rfl, rfl, rfl, rfl, rfl⟩, rfl, rfl, rfl, rfl, rfl⟩, fun b apart => ?_, rfl⟩
  exact kept b (by simpa using apart 0 (by decide))

/-! ### The end of a block instruction -/

theorem drawRegs_only (l : List Reg) (s : State) :
    BlkOnly s (l.foldl State.drawReg s) ∧ (l.foldl State.drawReg s).pc = s.pc
      ∧ (l.foldl State.drawReg s).flags = s.flags ∧ RegsBut s (l.foldl State.drawReg s) l := by
  induction l generalizing s with
  | nil => exact ⟨.refl s, rfl, rfl, fun _ _ => rfl⟩
  | cons r l ih =>
    obtain ⟨only, pc, flags, regs⟩ := ih (s.drawReg r)
    refine ⟨BlkOnly.trans ⟨_, _, _, _, _, _, rfl⟩ only, pc, flags, fun q hq => ?_⟩
    obtain ⟨other, rest⟩ := not_or.mp (mt List.mem_cons.mpr hq)
    exact (regs q rest).trans (get_set_other s.regs r q _ other)

/-- What the end of a block instruction writes: PC, S, and the registers `ends` where the manual
leaves their values undefined (R364). -/
structure BlkEnded (i : Instr) (s t : State) (ends : List Reg) : Prop where
  only : BlkOnly s t
  pc : t.pc = s.pc + i.length
  flags : t.flags = putField s.flags 24 8 0#8
  regs : RegsBut s t ends
  kept : s.params.blkEndAny = false → ∀ r, t.reg r = s.reg r

theorem blkEnd_ended (i : Instr) (ends : List Reg) (s : State) :
    BlkEnded i s (blkEnd i ends s) ends := by
  unfold blkEnd State.blkRegsEnd
  split
  · rename_i any
    obtain ⟨only, pc, flags, regs⟩ := drawRegs_only ends (s.setDone 0)
    refine ⟨(BlkOnly.trans ⟨_, _, _, _, _, _, rfl⟩ only).trans ⟨_, _, _, _, _, _, rfl⟩,
      congrArg (· + i.length) pc, flags, regs, fun off => ?_⟩
    rw [setDone_params, off] at any
    cases any
  · exact ⟨⟨_, _, _, _, _, _, rfl⟩, rfl, rfl, fun _ _ => rfl, fun _ _ => rfl⟩

theorem flagsBut_putS (f : Word) (v : BitVec 8) :
    putField f 24 8 v &&& ~~~maskS = f &&& ~~~maskS :=
  putField_outside f 24 8 v maskS (by decide) fun j h1 h2 => by interval_cases j <;> rfl

/-- A count that is used up ends the instruction with nothing moved. -/
theorem BlkEnded.idle (h : BlkEnded i s t ends) :
    BlkDone s t ends s.mem ∧ BlockEnds i s t ends 0#32 := by
  refine ⟨⟨?_, h.regs, ?_⟩, h.pc, ?_, fun off r _ => by rw [h.kept off, BitVec.add_zero]⟩
  · rw [putMem_mem_self]; exact h.only
  · exact (congrArg (· &&& ~~~maskS) h.flags).trans (flagsBut_putS _ _)
  · rw [h.flags]; exact fld_putField_same _ 24 8 _ (by decide)

/-! ### Atoms -/

/-- An atom is done from `s` to `u`: memory is `m`, the addresses have moved by one byte, and it is
not counted yet. -/
structure BlkRan (s u : State) (addrs : List Reg) (m : List Host.Cell) : Prop where
  only : BlkOnly (s.putMem m) u
  pc : u.pc = s.pc
  flags : u.flags = s.flags
  regs : RegsBut s u addrs
  moved : ∀ r ∈ addrs, u.reg r = s.reg r + 1#32

theorem blkRead_ok (h : ReadOk s .byte a) :
    blkRead a s = .done ((read8 s.mem a).setWidth 32) (s.accessed .read .byte a) := by
  have memory : s.place 1 a = .memory := h.2
  rw [blkRead, readData_ok h, andThen_done, memory, if_neg (by decide)]
  rfl

/-- The state after the byte `b` is stored at `a`. -/
def State.byteStored (s : State) (a : Word) (b : Byte) : State :=
  (s.putMem (write8 s.mem a b)).accessed .write .byte a

theorem blkWrite_ok (v : Word) (h : WriteOk s .byte a) :
    blkWrite a v s = .done () (s.byteStored a (fld v 0 8)) := by
  have memory : s.place 1 a = .memory := h.2.1
  rw [blkWrite, writeData_ok h, andThen_done, memory, if_neg (by decide)]
  rfl

/-- The state in which a copy writes, its byte read from memory. -/
def State.copyRead (s : State) (rad ras : Reg) : State :=
  (s.accessed .read .byte (s.reg ras)).copyDrawn (s.overlaps rad ras)

theorem copyDrawn_eq (s : State) (d : Bool) : ∃ n, s.copyDrawn d = { s with freeNext := n } := by
  cases d
  · exact ⟨s.freeNext, rfl⟩
  · exact ⟨s.freeNext + 1, rfl⟩

/-- The byte a copy stores. -/
def State.copiedByte (s : State) (rad ras : Reg) : Byte :=
  fld (s.copied rad ras ((read8 s.mem (s.reg ras)).setWidth 32)) 0 8

/-- Outside the overlap of U17 it is the byte read. -/
theorem copiedByte_clear {rad ras : Reg} (h : s.overlaps rad ras = false) :
    s.copiedByte rad ras = read8 s.mem (s.reg ras) := by
  rw [State.copiedByte, State.copied, h, if_neg Bool.false_ne_true]
  exact (BitVec.extractLsb'_setWidth_of_le (by decide)).trans BitVec.extractLsb'_eq_self

/-- The atom of a copy. -/
theorem copyAtom_ok {rad ras : Reg} (apart : rad ≠ ras) (hr : ReadOk s .byte (s.reg ras))
    (hw : WriteOk s .byte (s.reg rad)) :
    ∃ u, copyAtom rad ras s = .done () u
      ∧ BlkRan s u [rad, ras] (write8 s.mem (s.reg rad) (s.copiedByte rad ras)) := by
  obtain ⟨n, read⟩ : ∃ n, s.copyRead rad ras
      = { s.accessed .read .byte (s.reg ras) with freeNext := n } := copyDrawn_eq _ _
  have write : WriteOk (s.copyRead rad ras) .byte (s.reg rad) := by
    rw [read]
    exact WriteOkIn_congr (s := s) rfl rfl hw
  have run : copyAtom rad ras s = .done () ((((s.copyRead rad ras).byteStored (s.reg rad)
      (s.copiedByte rad ras)).setReg ras (s.reg ras + 1#32)).setReg rad (s.reg rad + 1#32)) := by
    rw [copyAtom, blkRead_ok hr, andThen_done]
    exact congrArg (andThen · _) (blkWrite_ok _ write)
  rw [read] at run
  refine ⟨_, run, ⟨_, _, _, _, _, _, rfl⟩, rfl, rfl, fun r hr => ?regs, fun r hr => ?moved⟩
  case regs =>
    simp only [List.mem_cons, List.not_mem_nil, or_false, not_or] at hr
    obtain ⟨hd, hs⟩ := hr
    exact (get_set_other _ rad r _ hd).trans (get_set_other s.regs ras r _ hs)
  case moved =>
    rcases List.mem_pair.mp hr with rfl | rfl
    · exact get_set_same _ r _
    · exact (get_set_other _ rad r _ apart.symm).trans (get_set_same s.regs r _)

/-- The atom of a fill. -/
theorem storeAtom_ok {ra : Reg} (v : Word) (hw : WriteOk s .byte (s.reg ra)) :
    ∃ u, storeAtom ra v s = .done () u
      ∧ BlkRan s u [ra] (write8 s.mem (s.reg ra) (fld v 0 8)) := by
  have run : storeAtom ra v s = .done ()
      ((s.byteStored (s.reg ra) (fld v 0 8)).setReg ra (s.reg ra + 1#32)) := by
    rw [storeAtom, blkWrite_ok v hw, andThen_done]
  refine ⟨_, run, ⟨_, _, _, _, _, _, rfl⟩, rfl, rfl, fun r hr => ?_, fun r hr => ?_⟩
  · exact get_set_other s.regs ra r _ (by simpa using hr)
  · rw [List.mem_singleton.mp hr]
    exact get_set_same s.regs ra _

/-! ### The step that counts an atom -/

section
variable {num : BitVec 8} {rn : Reg} {atom : State → Attempt Unit}

theorem blkImmStep_trap {x : Trap} (left : (flagS s.flags).toNat < blkCount num)
    (run : atom s = .trap x u) : blkImmStep i num ends atom s = .trap x u := by
  unfold blkImmStep
  simp only
  rw [if_pos left, run, andThen_trap]

theorem blkRegStep_trap {x : Trap} (left : s.reg rn ≠ 0#32) (run : atom s = .trap x u) :
    blkRegStep i rn ends atom s = .trap x u := by
  unfold blkRegStep
  simp only
  rw [if_neg left, run, andThen_trap]

/-- With the count used up a step of an immediate-count instruction only ends it. -/
theorem blkImmStep_idle (i : Instr) (ends : List Reg) (atom : State → Attempt Unit)
    (none : blkCount num ≤ (flagS s.flags).toNat) :
    ∃ t, blkImmStep i num ends atom s = .done () t ∧ BlkDone s t ends s.mem
      ∧ BlockEnds i s t ends 0#32 :=
  ⟨_, if_neg (by omega), (blkEnd_ended i ends s).idle⟩

theorem blkRegStep_idle (i : Instr) (ends : List Reg) (atom : State → Attempt Unit)
    (none : s.reg rn = 0#32) :
    ∃ t, blkRegStep i rn ends atom s = .done () t ∧ BlkDone s t ends s.mem
      ∧ BlockEnds i s t ends 0#32 :=
  ⟨_, if_pos none, (blkEnd_ended i ends s).idle⟩

/-- A byte of an immediate-count instruction is counted in S, or is the last. -/
theorem blkImmStep_atom (i : Instr) (left : (flagS s.flags).toNat < blkCount num)
    (run : atom s = .done () u) (ran : BlkRan s u addrs m) :
    ∃ t, blkImmStep i num addrs atom s = .done () t ∧ BlkDone s t addrs m
      ∧ ((flagS s.flags).toNat + 1 < blkCount num → BlockGoesOnS s t addrs)
      ∧ ((flagS s.flags).toNat + 1 = blkCount num → BlockEnds i s t addrs 1#32) := by
  unfold blkImmStep
  simp only
  rw [if_pos left, run, andThen_done]
  by_cases more : (flagS s.flags).toNat + 1 < blkCount num
  · refine ⟨_, if_pos more, ⟨ran.only.trans ⟨_, _, _, _, _, _, rfl⟩, ran.regs, ?_⟩,
      fun _ => ⟨ran.pc, ?_, ran.moved⟩, fun last => by omega⟩
    · exact (flagsBut_putS u.flags _).trans (by rw [ran.flags])
    · rw [blkMore_flags, flagS_setDone, BitVec.ofNat_add, BitVec.ofNat_toNat, BitVec.setWidth_eq]
  · have ended := blkEnd_ended i addrs u
    refine ⟨_, if_neg more, ⟨ran.only.trans ended.only, fun r hr => ?_, ?_⟩, fun h => absurd h more,
      fun _ => ⟨by rw [ended.pc, ran.pc], ?_, fun off r hr => ?_⟩⟩
    · rw [ended.regs r hr, ran.regs r hr]
    · unfold FlagsBut
      rw [ended.flags, flagsBut_putS, ran.flags]
    · rw [ended.flags]; exact fld_putField_same _ 24 8 _ (by decide)
    · rw [ended.kept (by rw [ran.only.params]; exact off), ran.moved r hr]

/-- A byte of a register-count instruction counts Rn down, or is the last. -/
theorem blkRegStep_atom (i : Instr) (left : s.reg rn ≠ 0#32) (apart : rn ∉ addrs)
    (run : atom s = .done () u) (ran : BlkRan s u addrs m) :
    ∃ t, blkRegStep i rn (addrs ++ [rn]) atom s = .done () t ∧ BlkDone s t (addrs ++ [rn]) m
      ∧ (s.reg rn ≠ 1#32 → BlockGoesOnR s t addrs rn)
      ∧ (s.reg rn = 1#32 → BlockEnds i s t addrs 1#32) := by
  have other {r : Reg} (hr : r ∈ addrs) : r ≠ rn := fun e => apart (e ▸ hr)
  have counted (v : Word) : RegsBut s (u.setReg rn v) (addrs ++ [rn]) := fun r hr => by
    rw [List.mem_append, List.mem_singleton, not_or] at hr
    rw [reg_setReg_other u rn r v hr.2, ran.regs r hr.1]
  unfold blkRegStep
  simp only
  rw [if_neg left, run, andThen_done]
  by_cases last : s.reg rn = 1#32
  · have ended := blkEnd_ended i (addrs ++ [rn]) (u.setReg rn 0#32)
    refine ⟨_, if_pos last,
      ⟨(ran.only.setReg rn _).trans ended.only, fun r hr => ?_, ?_⟩, fun h => absurd last h,
      fun _ => ⟨by rw [ended.pc, setReg_pc, ran.pc], ?_, fun off r hr => ?_⟩⟩
    · rw [ended.regs r hr, counted _ r hr]
    · unfold FlagsBut
      rw [ended.flags, flagsBut_putS, setReg_flags, ran.flags]
    · rw [ended.flags]; exact fld_putField_same _ 24 8 _ (by decide)
    · rw [ended.kept (by rw [setReg_params, ran.only.params]; exact off),
        reg_setReg_other u rn r _ (other hr), ran.moved r hr]
  · refine ⟨_, if_neg last, ⟨(ran.only.setReg rn _).trans ⟨_, _, _, _, _, _, rfl⟩, counted _, ?_⟩,
      fun _ => ⟨ran.pc, ran.flags, reg_setReg_same u rn _, fun r hr => ?_⟩, fun h => absurd h last⟩
    · exact congrArg (· &&& ~~~maskS) ran.flags
    · exact (reg_setReg_other u rn r _ (other hr)).trans (ran.moved r hr)

end

/-! ### Atoms that trap -/

/-- The state after the byte at `a` is read: the mark of its breakpoint, the draws, and what the
read did to a device. -/
def State.byteRead (s : State) (a : Word) (n d : Nat) : State :=
  { s.accessed .read .byte a with freeNext := n, devState := d }

/-- A read of a block instruction that passes its check and goes somewhere. -/
theorem blkRead_somewhere (h : dataCheck s s.mode .byte .read a = none)
    (hp : s.place 1 a ≠ .nowhere) :
    ∃ b n d, (s.place 1 a = .memory → d = s.devState)
      ∧ blkRead a s = .done b (s.byteRead a n d) := by
  cases place : s.place 1 a with
  | memory => exact ⟨_, s.freeNext, s.devState, fun _ => rfl, blkRead_ok ⟨h, place⟩⟩
  | device =>
    refine ⟨(Config.freeByte s.freeNext).setWidth 32, s.freeNext + 1, Config.freeNat s.freeNext,
      nofun, ?_⟩
    rw [blkRead, readData_device h place, andThen_done, place, if_pos rfl]
    rfl
  | nowhere => exact absurd place hp

theorem blkWrite_error (v : Word) {k : ErrorKind} (h : dataCheck s s.mode .byte .write a = some k) :
    blkWrite a v s = .trap (.error k 0#4 s.pc) s := by
  rw [blkWrite, writeData_error h, andThen_trap]

theorem blkWrite_nowhere (v : Word) (h : dataCheck s s.mode .byte .write a = none)
    (hp : s.place 1 a = .nowhere) : blkWrite a v s = .trap (.refuse .unpopulated) s := by
  rw [blkWrite, writeData_nowhere v h hp, andThen_trap]

/-- After a read that is done, the copy traps as its write does. -/
theorem copyAtom_write {rad ras : Reg} {b : Word} {x : Trap} {n d : Nat}
    (hr : blkRead (s.reg ras) s = .done b (s.byteRead (s.reg ras) n d))
    (hw : ∀ v n, blkWrite (s.reg rad) v (s.byteRead (s.reg ras) n d)
      = .trap x (s.byteRead (s.reg ras) n d)) :
    ∃ n, copyAtom rad ras s = .trap x (s.byteRead (s.reg ras) n d) := by
  obtain ⟨n', drawn⟩ : ∃ n', (s.byteRead (s.reg ras) n d).copyDrawn
      ((s.byteRead (s.reg ras) n d).overlaps rad ras) = s.byteRead (s.reg ras) n' d :=
    copyDrawn_eq _ _
  exact ⟨n', by rw [copyAtom, hr, andThen_done, drawn, hw, andThen_trap]⟩

/-- A copy that ends with the trap of its atom traps as O49 says. -/
theorem copyTraps_of {rad ras : Reg}
    (h : ∀ x u, copyAtom rad ras s = .trap x u → exec i s = takeTrap x u) :
    CopyTraps i s rad ras := by
  refine ⟨fun k hr => ?read, fun hr hp => ?nowhere, fun hr hp => ⟨fun k hw => ?write,
    fun hw hq => ?nowhereToWrite⟩⟩
  case read =>
    refine h (.error k 0#4 s.pc) s ?_
    rw [copyAtom, blkRead, readData_error hr, andThen_trap, andThen_trap]
  case nowhere =>
    refine h (.refuse .unpopulated) s ?_
    rw [copyAtom, blkRead, readData_nowhere hr hp, andThen_trap, andThen_trap]
  case write =>
    obtain ⟨b, n, d, kept, read⟩ := blkRead_somewhere hr hp
    obtain ⟨n, trap⟩ := copyAtom_write (rad := rad) (x := .error k 0#4 s.pc) read fun v n =>
      blkWrite_error (s := s.byteRead (s.reg ras) n d) v
        ((dataCheck_congr (s := s) rfl _ _ _ _).trans hw)
    exact ⟨n, d, kept, h _ _ trap⟩
  case nowhereToWrite =>
    obtain ⟨b, n, d, -, read⟩ := blkRead_somewhere hr hp
    obtain ⟨n, trap⟩ := copyAtom_write (rad := rad) read fun v n =>
      blkWrite_nowhere (s := s.byteRead (s.reg ras) n d) v
        ((dataCheck_congr (s := s) rfl _ _ _ _).trans hw) ((place_congr (s := s) rfl _ _).trans hq)
    exact h _ _ trap

/-! ### The source of a fill -/

theorem sourced_eq (s : State) (src : BlkSrc) :
    s.sourced src = { s with regs := (s.sourced src).regs } := by
  cases src <;> rfl

theorem sourced_mode (s : State) (src : BlkSrc) : (s.sourced src).mode = s.mode :=
  mode_congr s _ (sourced_flags s src) (sourced_info s src)

theorem regsBut_sourced (s : State) (src : BlkSrc) : RegsBut s (s.sourced src) (srcRegs src) := by
  cases src with
  | reg rs => exact fun r hr => reg_setReg_other s rs r _ (by simpa [srcRegs] using hr)
  | zero => exact fun _ _ => rfl
  | ones => exact fun _ _ => rfl

/-- A register that is not the source is as before. -/
theorem reg_sourced {src : BlkSrc} {r : Reg} (h : src ≠ .reg r) :
    (s.sourced src).reg r = s.reg r :=
  regsBut_sourced s src r <| by
    cases src with
    | reg rs => simpa [srcRegs, eq_comm] using h
    | zero => exact List.not_mem_nil
    | ones => exact List.not_mem_nil

/-- Each byte of a replicated word is its low byte (R366). -/
theorem fld_replicate (v : Word) {k : Nat} (hk : k < 4) :
    fld (replicate v) (8 * k) 8 = fld v 0 8 := by
  unfold replicate
  obtain rfl | rfl | rfl | rfl : k = 0 ∨ k = 1 ∨ k = 2 ∨ k = 3 := by omega
  · rw [fld, BitVec.extractLsb'_append_eq_right]
  · rw [fld, BitVec.extractLsb'_append_eq_of_le (by decide), BitVec.extractLsb'_append_eq_right]
  · rw [fld, BitVec.extractLsb'_append_eq_of_le (by decide),
      BitVec.extractLsb'_append_eq_of_le (by decide), BitVec.extractLsb'_append_eq_right]
  · rw [fld, BitVec.extractLsb'_append_eq_of_le (by decide),
      BitVec.extractLsb'_append_eq_of_le (by decide),
      BitVec.extractLsb'_append_eq_of_le (by decide)]
    exact BitVec.extractLsb'_eq_self

/-- The source holds its low byte four times as long as only other registers are written. -/
theorem replicated_of {src : BlkSrc} (h : RegsBut (s.sourced src) t ds)
    (apart : ∀ r ∈ ds, src ≠ .reg r) : Replicated src s t := by
  rintro rs rfl k hk
  rw [h rs fun hr => apart rs hr rfl]
  exact (congrArg (fld · (8 * k) 8) (reg_setReg_same s rs _)).trans (fld_replicate _ hk)

theorem fld_blkByte (s : State) (src : BlkSrc) : fld (s.blkByte src) 0 8 = blkStored src s := by
  cases src <;> rfl

theorem srcIs_iff {src : BlkSrc} {r : Reg} : srcIs src r = true ↔ src = .reg r := by
  cases src <;> simp [srcIs]

/-- What is done after the source is replicated, seen from before. -/
theorem BlkDone.of_sourced {src : BlkSrc} (h : BlkDone (s.sourced src) t ds m) :
    BlkDone s t (ds ++ srcRegs src) m := by
  refine ⟨((BlkOnly.sourced s src).putMem m).trans h.only, fun r hr => ?_, ?_⟩
  · rw [List.mem_append, not_or] at hr
    rw [h.regs r hr.1, regsBut_sourced s src r hr.2]
  · exact h.flags.trans (by rw [sourced_flags])

theorem blockGoesOnS_sourced {src : BlkSrc} (apart : ∀ r ∈ addrs, src ≠ .reg r)
    (h : BlockGoesOnS (s.sourced src) t addrs) : BlockGoesOnS s t addrs := by
  obtain ⟨pc, count, moved⟩ := h
  rw [sourced_pc] at pc
  rw [sourced_flags] at count
  exact ⟨pc, count, fun r hr => by rw [moved r hr, reg_sourced (apart r hr)]⟩

theorem blockGoesOnR_sourced {src : BlkSrc} {rn : Reg}
    (apart : ∀ r ∈ addrs ++ [rn], src ≠ .reg r)
    (h : BlockGoesOnR (s.sourced src) t addrs rn) : BlockGoesOnR s t addrs rn := by
  obtain ⟨pc, flags, count, moved⟩ := h
  rw [sourced_pc] at pc
  rw [sourced_flags] at flags
  rw [reg_sourced (apart rn (by simp))] at count
  exact ⟨pc, flags, count, fun r hr => by
    rw [moved r hr, reg_sourced (apart r (List.mem_append_left _ hr))]⟩

theorem blockEnds_sourced {src : BlkSrc} {d : Word} (apart : ∀ r ∈ addrs, src ≠ .reg r)
    (h : BlockEnds i (s.sourced src) t addrs d) : BlockEnds i s t addrs d := by
  obtain ⟨pc, count, moved⟩ := h
  rw [sourced_pc] at pc
  rw [sourced_params] at moved
  exact ⟨pc, count, fun off r hr => by rw [moved off r hr, reg_sourced (apart r hr)]⟩

/-- The atom of a fill, with the source replicated before it. -/
theorem storeAtom_sourced {src : BlkSrc} {ra : Reg} (apart : src ≠ .reg ra)
    (hw : WriteOk s .byte (s.reg ra)) :
    ∃ u, storeAtom ra (s.blkByte src) (s.sourced src) = .done () u
      ∧ BlkRan (s.sourced src) u [ra] (write8 s.mem (s.reg ra) (blkStored src s)) := by
  have write : WriteOk (s.sourced src) .byte ((s.sourced src).reg ra) := by
    unfold WriteOk
    rw [reg_sourced apart, sourced_mode]
    exact WriteOkIn_congr (sourced_mmu s src) (sourced_map s src) hw
  have ran := storeAtom_ok (s.blkByte src) write
  rwa [fld_blkByte, reg_sourced apart, sourced_mem] at ran

/-- A fill that ends with the trap of its atom traps as O49 says. -/
theorem fillTraps_of {src : BlkSrc} {ra : Reg} (apart : src ≠ .reg ra)
    (h : ∀ x u, storeAtom ra (s.blkByte src) (s.sourced src) = .trap x u →
      exec i s = takeTrap x u) :
    FillTraps i s src ra := by
  have check (e : Option ErrorKind) (hw : dataCheck s s.mode .byte .write (s.reg ra) = e) :
      dataCheck (s.sourced src) (s.sourced src).mode .byte .write ((s.sourced src).reg ra) = e := by
    rw [reg_sourced apart, sourced_mode, dataCheck_congr (sourced_mmu s src)]
    exact hw
  refine ⟨fun k hw => ⟨(s.sourced src).regs, ?_⟩, fun hw hp => ?_⟩
  · rw [← sourced_eq]
    refine ⟨replicated_of (ds := []) (fun _ _ => rfl) nofun, regsBut_sourced s src, ?_⟩
    refine (h (.error k 0#4 (s.sourced src).pc) (s.sourced src) ?_).trans ?_
    · rw [storeAtom, blkWrite_error _ (check _ hw), andThen_trap]
    · show raiseError k 0#4 (s.sourced src).pc (s.sourced src).pc (s.sourced src).pc _ = _
      rw [sourced_pc]
  · refine h (.refuse .unpopulated) (s.sourced src) ?_
    rw [storeAtom, blkWrite_nowhere _ (check _ hw), andThen_trap]
    rw [reg_sourced apart, place_congr (sourced_map s src)]
    exact hp

/-! ### The four instructions -/

/-- A register named twice. -/
theorem checkRegs_clash {clash : Bool} (h : clash = true) (r : Attempt Unit) :
    checkRegs clash s r = raiseError .instructionError 0#4 s.pc s.pc s.pc s := by
  rw [h]
  rfl

theorem checkRegs_apart {clash : Bool} (h : clash = false) (r : Attempt Unit) :
    checkRegs clash s r = settle r := by
  rw [h]
  rfl

/-- `blkcp.i` (R365). -/
theorem blkcpI_atom (rad ras : Reg) (num : BitVec 8) (s : State) (wf : Memory.wf s.mem = true) :
    let i : Instr := .blkcpI rad ras num
    let done := (flagS s.flags).toNat
    (rad ≠ ras → done < blkCount num → ReadOk s .byte (s.reg ras) → WriteOk s .byte (s.reg rad) →
      ∃ t, exec i s = .next t ∧ BlockFrame s t [rad, ras] (s.reg rad)
        ∧ (s.overlaps rad ras = false → read8 t.mem (s.reg rad) = read8 s.mem (s.reg ras))
        ∧ (done + 1 < blkCount num → BlockGoesOnS s t [rad, ras])
        ∧ (done + 1 = blkCount num → BlockEnds i s t [rad, ras] 1#32))
    ∧ (rad ≠ ras → blkCount num ≤ done → ∃ t, exec i s = .next t
        ∧ BlockFrame s t [rad, ras] (s.reg rad) ∧ t.mem = s.mem ∧ BlockEnds i s t [rad, ras] 0#32)
    ∧ (rad ≠ ras → done < blkCount num → CopyTraps i s rad ras)
    ∧ (rad = ras → exec i s = raiseError .instructionError 0#4 s.pc s.pc s.pc s) := by
  intro i done
  have run (apart : rad ≠ ras) :
      exec i s = settle (blkImmStep i num [rad, ras] (copyAtom rad ras) s) :=
    checkRegs_apart (beq_eq_false_iff_ne.mpr apart) _
  refine ⟨fun apart left hr hw => ?atom, fun apart none => ?idle, fun apart left => ?traps,
    fun same => checkRegs_clash (beq_iff_eq.mpr same) _⟩
  case atom =>
    obtain ⟨u, atom, ran⟩ := copyAtom_ok apart hr hw
    obtain ⟨t, next, work, more, last⟩ := blkImmStep_atom i left atom ran
    refine ⟨t, by rw [run apart, next, settle_done], work.frame fun b => read8_write8_other _ _,
      fun clear => ?_, more, last⟩
    rw [work.only.mem, read8_write8_same _ _ wf, copiedByte_clear clear]
  case idle =>
    obtain ⟨t, next, work, ends⟩ := blkImmStep_idle i [rad, ras] (copyAtom rad ras) none
    exact ⟨t, by rw [run apart, next, settle_done], work.frame fun _ _ => rfl, work.only.mem, ends⟩
  case traps =>
    exact copyTraps_of fun x u trap => by rw [run apart, blkImmStep_trap left trap, settle_trap]

/-- `blkcp.r` (R366). -/
theorem blkcpR_atom (rad ras rn : Reg) (s : State) (wf : Memory.wf s.mem = true) :
    let i : Instr := .blkcpR rad ras rn
    let apart := rad ≠ ras ∧ rad ≠ rn ∧ ras ≠ rn
    (apart → s.reg rn ≠ 0#32 → ReadOk s .byte (s.reg ras) → WriteOk s .byte (s.reg rad) →
      ∃ t, exec i s = .next t ∧ BlockFrame s t [rad, ras, rn] (s.reg rad)
        ∧ (s.overlaps rad ras = false → read8 t.mem (s.reg rad) = read8 s.mem (s.reg ras))
        ∧ (s.reg rn ≠ 1#32 → BlockGoesOnR s t [rad, ras] rn)
        ∧ (s.reg rn = 1#32 → BlockEnds i s t [rad, ras] 1#32))
    ∧ (apart → s.reg rn = 0#32 → ∃ t, exec i s = .next t
        ∧ BlockFrame s t [rad, ras, rn] (s.reg rad) ∧ t.mem = s.mem
        ∧ BlockEnds i s t [rad, ras, rn] 0#32)
    ∧ (apart → s.reg rn ≠ 0#32 → CopyTraps i s rad ras)
    ∧ (¬apart → exec i s = raiseError .instructionError 0#4 s.pc s.pc s.pc s) := by
  intro i apart
  have clash : (rad == ras || rad == rn || ras == rn) = true ↔ ¬apart := by
    simp only [Bool.or_eq_true, beq_iff_eq, apart]
    tauto
  have run (h : apart) :
      exec i s = settle (blkRegStep i rn ([rad, ras] ++ [rn]) (copyAtom rad ras) s) :=
    checkRegs_apart (Bool.eq_false_iff.mpr fun e => clash.mp e h) _
  refine ⟨fun h left hr hw => ?atom, fun h none => ?idle, fun h left => ?traps,
    fun h => checkRegs_clash (clash.mpr h) _⟩
  case atom =>
    obtain ⟨apart, apartD, apartS⟩ := h
    obtain ⟨u, atom, ran⟩ := copyAtom_ok apart hr hw
    obtain ⟨t, next, work, more, last⟩ := blkRegStep_atom i left
      (by simpa [eq_comm] using And.intro apartD apartS) atom ran
    refine ⟨t, by rw [run ⟨apart, apartD, apartS⟩, next, settle_done],
      work.frame fun b => read8_write8_other _ _, fun clear => ?_, more, last⟩
    rw [work.only.mem, read8_write8_same _ _ wf, copiedByte_clear clear]
  case idle =>
    obtain ⟨t, next, work, ends⟩ := blkRegStep_idle i ([rad, ras] ++ [rn]) (copyAtom rad ras) none
    exact ⟨t, by rw [run h, next, settle_done], work.frame fun _ _ => rfl, work.only.mem, ends⟩
  case traps =>
    exact copyTraps_of fun x u trap => by rw [run h, blkRegStep_trap left trap, settle_trap]

/-- `blkst.8.i` (R367). -/
theorem blkst8I_atom (src : BlkSrc) (ra : Reg) (num : BitVec 8) (s : State)
    (wf : Memory.wf s.mem = true) :
    let i : Instr := .blkst8I src ra num
    let done := (flagS s.flags).toNat
    (src ≠ .reg ra → done < blkCount num → WriteOk s .byte (s.reg ra) →
      ∃ t, exec i s = .next t ∧ BlockFrame s t (ra :: srcRegs src) (s.reg ra)
        ∧ read8 t.mem (s.reg ra) = blkStored src s ∧ Replicated src s t
        ∧ (done + 1 < blkCount num → BlockGoesOnS s t [ra])
        ∧ (done + 1 = blkCount num → BlockEnds i s t [ra] 1#32))
    ∧ (src ≠ .reg ra → blkCount num ≤ done → ∃ t, exec i s = .next t
        ∧ BlockFrame s t (ra :: srcRegs src) (s.reg ra) ∧ t.mem = s.mem ∧ Replicated src s t
        ∧ BlockEnds i s t [ra] 0#32)
    ∧ (src ≠ .reg ra → done < blkCount num → FillTraps i s src ra)
    ∧ (src = .reg ra → exec i s = raiseError .instructionError 0#4 s.pc s.pc s.pc s) := by
  intro i done
  have count : (flagS (s.sourced src).flags).toNat = done := by rw [sourced_flags]
  have run (apart : src ≠ .reg ra) : exec i s
      = settle (blkImmStep i num [ra] (storeAtom ra (s.blkByte src)) (s.sourced src)) :=
    checkRegs_apart (Bool.eq_false_iff.mpr (mt srcIs_iff.mp apart)) _
  have only (apart : src ≠ .reg ra) : ∀ r ∈ [ra], src ≠ .reg r := fun r hr =>
    List.mem_singleton.mp hr ▸ apart
  refine ⟨fun apart left hw => ?atom, fun apart none => ?idle, fun apart left => ?traps,
    fun same => checkRegs_clash (srcIs_iff.mpr same) _⟩
  case atom =>
    obtain ⟨u, atom, ran⟩ := storeAtom_sourced apart hw
    obtain ⟨t, next, work, more, last⟩ := blkImmStep_atom (num := num) i (count ▸ left) atom ran
    rw [count] at more last
    refine ⟨t, by rw [run apart, next, settle_done],
      work.of_sourced.frame fun b => read8_write8_other _ _, ?_, replicated_of work.regs (only apart),
      fun h => blockGoesOnS_sourced (only apart) (more h),
      fun h => blockEnds_sourced (only apart) (last h)⟩
    rw [work.only.mem, read8_write8_same _ _ wf]
  case idle =>
    obtain ⟨t, next, work, ends⟩ := blkImmStep_idle (num := num) i [ra]
      (storeAtom ra (s.blkByte src)) (count.symm ▸ none)
    rw [sourced_mem] at work
    exact ⟨t, by rw [run apart, next, settle_done], work.of_sourced.frame fun _ _ => rfl,
      work.only.mem, replicated_of work.regs (only apart), blockEnds_sourced (only apart) ends⟩
  case traps =>
    exact fillTraps_of apart fun x u trap => by
      rw [run apart, blkImmStep_trap (count ▸ left) trap, settle_trap]

/-- `blkst.8.r` (R368). -/
theorem blkst8R_atom (src : BlkSrc) (ra rn : Reg) (s : State) (wf : Memory.wf s.mem = true) :
    let i : Instr := .blkst8R src ra rn
    let apart := src ≠ .reg ra ∧ src ≠ .reg rn ∧ ra ≠ rn
    (apart → s.reg rn ≠ 0#32 → WriteOk s .byte (s.reg ra) →
      ∃ t, exec i s = .next t ∧ BlockFrame s t (ra :: rn :: srcRegs src) (s.reg ra)
        ∧ read8 t.mem (s.reg ra) = blkStored src s ∧ Replicated src s t
        ∧ (s.reg rn ≠ 1#32 → BlockGoesOnR s t [ra] rn)
        ∧ (s.reg rn = 1#32 → BlockEnds i s t [ra] 1#32))
    ∧ (apart → s.reg rn = 0#32 → ∃ t, exec i s = .next t
        ∧ BlockFrame s t (ra :: rn :: srcRegs src) (s.reg ra) ∧ t.mem = s.mem
        ∧ Replicated src s t ∧ BlockEnds i s t [ra, rn] 0#32)
    ∧ (apart → s.reg rn ≠ 0#32 → FillTraps i s src ra)
    ∧ (¬apart → exec i s = raiseError .instructionError 0#4 s.pc s.pc s.pc s) := by
  intro i apart
  have clash : (srcIs src ra || srcIs src rn || ra == rn) = true ↔ ¬apart := by
    simp only [Bool.or_eq_true, beq_iff_eq, srcIs_iff, apart]
    tauto
  have run (h : apart) : exec i s = settle (blkRegStep i rn ([ra] ++ [rn])
      (storeAtom ra (s.blkByte src)) (s.sourced src)) :=
    checkRegs_apart (Bool.eq_false_iff.mpr fun e => clash.mp e h) _
  have only (h : apart) : ∀ r ∈ [ra] ++ [rn], src ≠ .reg r := by
    obtain ⟨apartA, apartN, -⟩ := h
    intro r hr
    rcases List.mem_pair.mp hr with rfl | rfl
    · exact apartA
    · exact apartN
  have count (h : apart) : (s.sourced src).reg rn = s.reg rn := reg_sourced h.2.1
  refine ⟨fun h left hw => ?atom, fun h none => ?idle, fun h left => ?traps,
    fun h => checkRegs_clash (clash.mpr h) _⟩
  case atom =>
    obtain ⟨apartA, apartN, other⟩ := id h
    obtain ⟨u, atom, ran⟩ := storeAtom_sourced apartA hw
    obtain ⟨t, next, work, more, last⟩ := blkRegStep_atom i (by rwa [count h])
      (by simpa using other.symm) atom ran
    rw [count h] at more last
    refine ⟨t, by rw [run h, next, settle_done],
      work.of_sourced.frame fun b => read8_write8_other _ _, ?_, replicated_of work.regs (only h),
      fun g => blockGoesOnR_sourced (only h) (more g),
      fun g => blockEnds_sourced (fun r hr => only h r (List.mem_append_left _ hr)) (last g)⟩
    rw [work.only.mem, read8_write8_same _ _ wf]
  case idle =>
    obtain ⟨t, next, work, ends⟩ := blkRegStep_idle i ([ra] ++ [rn])
      (storeAtom ra (s.blkByte src)) ((count h).trans none)
    rw [sourced_mem] at work
    exact ⟨t, by rw [run h, next, settle_done], work.of_sourced.frame fun _ _ => rfl,
      work.only.mem, replicated_of work.regs (only h), blockEnds_sourced (only h) ends⟩
  case traps =>
    exact fillTraps_of h.1 fun x u trap => by
      rw [run h, blkRegStep_trap (by rwa [count h]) trap, settle_trap]

end

/-! ### O49 -/

/-- Settles O49. -/
theorem blockAtomsComplete : Obligations.BlockAtomsComplete :=
  ⟨fun s rad ras num wf => blkcpI_atom rad ras num s wf,
    fun s rad ras rn wf => blkcpR_atom rad ras rn s wf,
    fun s src ra num wf => blkst8I_atom src ra num s wf,
    fun s src ra rn wf => blkst8R_atom src ra rn s wf⟩

end Sys2Proof.Machine
end

section
/-! PROOF of O21, O22, O23, O24 and O25 (40_branches.md): branches that reach their targets. First
how an offset is scaled; then where a conditional branch goes; then what a call leaves. -/

namespace Sys2Proof.Machine

section
variable {s u : State} {i : Instr} {a t : Word}

/-! ### Targets -/

/-- An unsigned offset followed by `k` zero bits is the offset times `2 ^ k` (R156, R158). -/
theorem setWidth_append_zeros {n : Nat} (o : BitVec n) (k : Nat) :
    (o ++ 0#k).setWidth 32 = BitVec.ofNat 32 (2 ^ k * o.toNat) := by
  apply BitVec.eq_of_toNat_eq
  rw [BitVec.toNat_setWidth, BitVec.toNat_append, BitVec.toNat_ofNat, BitVec.toNat_ofNat,
    Nat.zero_mod, Nat.or_zero, Nat.shiftLeft_eq, Nat.mul_comm]

/-- The same for an offset that fills the word. -/
theorem append_bit (o : BitVec 31) : o ++ 0#1 = BitVec.ofNat 32 (2 * o.toNat) :=
  (BitVec.setWidth_eq _).symm.trans (setWidth_append_zeros o 1)

/-- A signed offset followed by a zero bit is twice the offset (R156, R161). -/
theorem signExtend_append_bit {n : Nat} (o : BitVec n) (h : 0 < n) :
    (o ++ 0#1).signExtend 32 = BitVec.ofInt 32 (2 * o.toInt) := by
  rw [BitVec.signExtend, BitVec.toInt_append, if_neg (by simp; omega)]
  simp

theorem pc_add_signExtend_append_bit (s : State) {n : Nat} (o : BitVec n) (h : 0 < n) :
    s.pc + (o ++ 0#1).signExtend 32 = s.pc + BitVec.ofInt 32 (2 * o.toInt) :=
  congrArg (s.pc + ·) (signExtend_append_bit o h)

theorem farTarget_eq (s : State) (o : BitVec 16) :
    s.farTarget o = s.pc + BitVec.ofInt 32 (2 * o.toInt) :=
  pc_add_signExtend_append_bit s o (by decide)

theorem condTarget_near (s : State) (o : BitVec 8) :
    s.condTarget (.near o) = s.pc + BitVec.ofInt 32 (2 * o.toInt) :=
  pc_add_signExtend_append_bit s o (by decide)

theorem testTarget_near (s : State) (o : BitVec 6) :
    s.testTarget (.near o) = s.pc + BitVec.ofInt 32 (2 * o.toInt) :=
  pc_add_signExtend_append_bit s o (by decide)

/-! ### Conditional branches -/

/-- A conditional branch whose target is legal where it is taken has a next state (R161). -/
theorem branchIf_next {b : Bool} (ok : b = true → TargetOk t) :
    branchIf b t i u = .next { u with pc := if b then t else u.pc + i.length } := by
  cases b with
  | true => rw [branchIf, if_pos rfl, branchTo_ok 0#4 (ok rfl), settle_done, if_pos rfl]
  | false => rfl

/-- A conditional branch that ends as its bit `b` says goes by the condition `b` stands for. -/
theorem branches_of {c : Prop} {b : Bool} {target : Word} (ht : target = t) (hb : b = true ↔ c)
    (h : exec i s = branchIf b target i s) : Branches i s c t := by
  subst ht
  refine ⟨fun hc ok => ?taken, fun hc => ?passed⟩
  case taken => rw [h, branchIf_next fun _ => ok, if_pos (hb.mpr hc)]
  case passed =>
    have clear : ¬b = true := mt hb.mp hc
    rw [h, branchIf_next fun set => absurd set clear, if_neg clear]

theorem bne_iff_not_iff {x y : Bool} : (x != y) = true ↔ ¬(x = true ↔ y = true) :=
  bne_iff_ne.trans (not_congr Bool.eq_iff_iff)

theorem beq_iff_iff {x y : Bool} : (x == y) = true ↔ (x = true ↔ y = true) :=
  beq_iff_eq.trans Bool.eq_iff_iff

theorem or_set_iff {x y : Bool} {p q : Prop} (hx : x = true ↔ p) (hy : y = true ↔ q) :
    (x || y) = true ↔ p ∨ q := Bool.or_eq_true_iff.trans (or_congr hx hy)

theorem and_set_iff {x y : Bool} {p q : Prop} (hx : x = true ↔ p) (hy : y = true ↔ q) :
    (x && y) = true ↔ p ∧ q := Bool.and_eq_true_iff.trans (and_congr hx hy)

/-! ### Register-test branches -/

/-- A register-test branch branches where the register is 0, or else where it is not, from the state
with the flags of the test (R179, R180). -/
theorem exec_test {r : Reg} {f : TestForm} {zero : Bool}
    (h : (i = .bezR r f ∧ zero = true) ∨ (i = .bnzR r f ∧ zero = false)) (s : State) :
    exec i s = branchIf ((s.reg r == 0#32) == zero) (s.testTarget f) i
      (s.setFlags (testFlags s.flags (s.reg r))) := by
  rcases h with ⟨rfl, rfl⟩ | ⟨rfl, rfl⟩
  · rw [beq_true]
    rfl
  · rw [beq_false]
    rfl

/-- Flags of a test and a jump are all that such a branch changes. -/
theorem onlyRegs_tested (s : State) (v pc : Word) :
    OnlyRegs s { s.setFlags (testFlags s.flags v) with pc := pc } [] maskZNCV :=
  ⟨fun _ _ => rfl, putZNCV_outside _ _ _ _ _, ⟨rfl, rfl⟩,
    ⟨rfl, rfl, rfl, rfl, rfl, rfl, rfl, rfl⟩, .of_eq rfl, rfl, fun _ => rfl, rfl⟩

/-! ### Calls and tables -/

/-- What a call leaves but for PC: its return address is pushed, and nothing else but the mark of a
data breakpoint has changed (R154). -/
structure CallDone (s t : State) (ret : Word) : Prop where
  sp : t.sp = s.sp - 4#32
  top : read32 t.mem (s.sp - 4#32) = ret
  fetch : FetchSameBut s t (s.sp - 4#32) 4
  regs : t.regs = s.regs
  flags : t.flags = s.flags
  other : OtherStackSame s t
  specials : SpecialsSame s t
  outside : OutsideSame s t

/-- A jump after the push leaves what the push did. -/
theorem callDone_jump (wf : Memory.wf s.mem = true) (ret pc : Word) (hit : Bool) :
    CallDone s { s.pushed ret with pc := pc, breakHit := hit } ret := by
  obtain ⟨⟨sp, top, fetch, regs⟩, flags, -, other, specials, outside⟩ := pushed_ran wf ret
  exact ⟨(sp_congr rfl rfl rfl).trans sp, top, fetch, regs, flags, other, specials, outside⟩

theorem tableJump_ok (h : fld a 0 2 = 0#2) (ok : TargetOk t) (s : State) :
    tableJump a t s = .done () { s with pc := t } := by
  rw [tableJump_aligned h, branchTo_ok 0#4 ok]

theorem execBraM_read (f : TableForm) (hr : ReadOk s .word (s.tableAddr f)) :
    exec (.braM f) s = settle (tableJump (s.tableAddr f) (read32 s.mem (s.tableAddr f))
      (s.accessed .read .word (s.tableAddr f))) := by
  show execBraM f s = _
  rw [execBraM, readData_ok hr, andThen_done]
  rfl

end

/-! ### O21 -/

/-- Settles O21. -/
theorem jumpsComplete : Obligations.JumpsComplete := by
  refine ⟨fun s f ok => ?next, fun s r w h l n => ⟨append_bit w, ?pc48, setWidth_append_zeros h 1,
    ?far32, ?pc32, ?pc16, rfl⟩⟩
  case next =>
    show execBraI f s = _
    rw [execBraI, branchTo_ok 0#4 ok, settle_done]
  case pc48 => exact congrArg (s.pc + ·) (append_bit w)
  case far32 => exact pc_add_signExtend_append_bit s l (by decide)
  case pc32 => exact pc_add_signExtend_append_bit s h (by decide)
  case pc16 => exact pc_add_signExtend_append_bit s n (by decide)

/-! ### O22 -/

/-- Settles O22. -/
theorem callsComplete : Obligations.CallsComplete := by
  intro s f wf on push ok
  obtain ⟨sp, top, fetch, regs, flags, other, specials, outside⟩ :=
    callDone_jump wf (s.pc + (Instr.bsrI f).length) (s.jumpTarget f) (s.pushed _).breakHit
  have next : exec (.bsrI f) s
      = .next { s.pushed (s.pc + (Instr.bsrI f).length) with pc := s.jumpTarget f } := by
    rw [execBsrI_pushed f on push, branchTo_ok 0#4 ok, settle_done]
  exact ⟨_, next, rfl, sp, top, fetch, regs, flags, other, specials, outside⟩

/-! ### O23 -/

/-- Settles O23. -/
theorem tableBranchesComplete : Obligations.TableBranchesComplete := by
  refine ⟨fun s f read aligned ok => ?bra, fun s f wf on push read aligned ok => ?bsr,
    fun s r z w h => ⟨append_zero z, ?pc48, setWidth_append_zeros h 2, ?pc32, rfl⟩⟩
  case bra =>
    have next : exec (.braM f) s = .next { s.accessed .read .word (s.tableAddr f) with
        pc := read32 s.mem (s.tableAddr f) } := by
      rw [execBraM_read f read, tableJump_ok aligned ok, settle_done]
    exact ⟨_, next, rfl, rfl, fun _ _ => rfl, rfl, ⟨rfl, rfl⟩,
      ⟨rfl, rfl, rfl, rfl, rfl, rfl, rfl, rfl⟩, .of_eq rfl, fun _ => rfl, rfl⟩
  case bsr =>
    obtain ⟨sp, top, fetch, regs, flags, other, specials, outside⟩ :=
      callDone_jump wf (s.pc + (Instr.bsrM f).length) (read32 (s.called f).mem (s.tableAddr f))
        ((s.called f).accessed .read .word (s.tableAddr f)).breakHit
    have target : TargetOk (read32 (s.called f).mem (s.tableAddr f)) := by
      rw [State.called, pushed_mem]
      exact ok
    have next : exec (.bsrM f) s = .next { (s.called f).accessed .read .word (s.tableAddr f) with
        pc := read32 (s.called f).mem (s.tableAddr f) } := by
      rw [execBsrM_called f on push read, tableJump_ok aligned target, settle_done]
    exact ⟨_, next, rfl, sp, top, fetch, regs, flags, other, specials, outside⟩
  case pc48 => exact congrArg (s.pc + ·) (append_bit w)
  case pc32 => exact pc_add_signExtend_append_bit s h (by decide)

/-! ### O24 -/

/-- Settles O24. -/
theorem conditionalBranchesComplete : Obligations.ConditionalBranchesComplete := by
  intro s f o near far z n c v
  have toFar : s.farTarget o = far := farTarget_eq s o
  have toNear : s.condTarget f = near := by
    cases f with
    | far a => exact farTarget_eq s a
    | near a => exact condTarget_near s a
  exact ⟨branches_of toNear .rfl rfl, branches_of toNear Bool.not_iff_not rfl,
    branches_of toNear .rfl rfl, branches_of toNear Bool.not_iff_not rfl,
    branches_of toNear (or_set_iff bne_iff_not_iff .rfl) rfl,
    branches_of toNear (and_set_iff beq_iff_iff Bool.not_iff_not) rfl,
    branches_of toNear bne_iff_not_iff rfl, branches_of toNear beq_iff_iff rfl,
    branches_of toNear (or_set_iff .rfl .rfl) rfl,
    branches_of toNear (and_set_iff Bool.not_iff_not Bool.not_iff_not) rfl,
    branches_of toFar .rfl rfl, branches_of toFar Bool.not_iff_not rfl,
    branches_of toFar .rfl rfl, branches_of toFar Bool.not_iff_not rfl⟩

/-! ### O25 -/

/-- Settles O25. -/
theorem registerTestBranchesComplete : Obligations.RegisterTestBranchesComplete := by
  intro s r f t i zero form legal
  have target : s.testTarget f = t := by
    cases f with
    | far a => exact farTarget_eq s a
    | near a => exact testTarget_near s a
  have taken : ((s.reg r == 0#32) == zero) = true ↔ (s.reg r = 0#32 ↔ zero = true) :=
    beq_iff_iff.trans (iff_congr beq_iff_eq .rfl)
  have next := (exec_test form s).trans (branchIf_next fun b => target ▸ legal (taken.mp b))
  refine ⟨_, next, ?_, ⟨flagZ_putZNCV _ _ _ _ _, flagN_putZNCV _ _ _ _ _⟩,
    flagC_putZNCV _ _ _ _ _, flagV_putZNCV _ _ _ _ _, onlyRegs_tested s _ _⟩
  exact if_congr taken target rfl

end Sys2Proof.Machine
end

section
/-! PROOF of O33, O34 and O35 (42_push_pop.md): whole runs of the stack instructions. First the
frame from one atom to the next; then what a list of atoms comes to, atom by atom, and that an
instruction which has these atoms comes to the same; then the stores of `push` and the loads of
`pop`. -/

namespace Sys2Proof.Machine

section
variable {s t u v : State} {i : Instr} {l m : List StackAtom} {rs : List Reg}

/-! ### The frame of several atoms -/

/-- A count in S does not change the mode. -/
theorem StackFrame.mode (h : StackFrame s t maskS) : t.mode = s.mode := by
  obtain ⟨flags, -, ⟨-, -, info, -⟩, -⟩ := h
  have field (x : Word) : flagM (x &&& ~~~maskS) = flagM x := by
    rw [flagM, flagM, fld, fld, BitVec.extractLsb'_and,
      show BitVec.extractLsb' 4 2 (~~~maskS) = BitVec.allOnes 2 by decide, BitVec.and_allOnes]
  have same : flagM t.flags = flagM s.flags := by
    rw [← field t.flags, ← field s.flags]
    exact congrArg flagM flags
  unfold State.mode
  rw [info, same]

theorem StackFrame.spEnabled (h : StackFrame s t maskS) : t.spEnabled = s.spEnabled := by
  have mode := h.mode
  obtain ⟨-, -, ⟨-, -, info, -⟩, -⟩ := h
  unfold State.spEnabled
  rw [spIsSp0_congr s t mode, info]

theorem StackFrame.params (h : StackFrame s t maskS) : t.params = s.params := by
  obtain ⟨-, -, -, -, ⟨-, params, -⟩, -⟩ := h
  exact params

theorem SpecialsSame.trans (h : SpecialsSame s t) (g : SpecialsSame t u) : SpecialsSame s u := by
  obtain ⟨gp, vp, info, brke, brk0, brk1, brk2, brk3⟩ := h
  obtain ⟨gp', vp', info', brke', brk0', brk1', brk2', brk3'⟩ := g
  exact ⟨gp'.trans gp, vp'.trans vp, info'.trans info, brke'.trans brke, brk0'.trans brk0,
    brk1'.trans brk1, brk2'.trans brk2, brk3'.trans brk3⟩

theorem SystemSame.trans (h : SystemSame s t) (g : SystemSame t u) : SystemSame s u := by
  obtain ⟨run, params, env, mmu, map, devices, fitted, clu⟩ := h
  obtain ⟨run', params', env', mmu', map', devices', fitted', clu'⟩ := g
  exact ⟨run'.trans run, params'.trans params, env'.trans env, mmu'.trans mmu, map'.trans map,
    devices'.trans devices, fitted'.trans fitted, clu'.trans clu⟩

theorem OutsideSame.trans (h : OutsideSame s t) (g : OutsideSame t u) : OutsideSame s u := by
  obtain ⟨exe, system, dev, clu, sent, free, blk, ahead, event⟩ := h
  obtain ⟨exe', system', dev', clu', sent', free', blk', ahead', event'⟩ := g
  exact ⟨exe'.trans exe, system.trans system', dev'.trans dev, clu'.trans clu, sent'.trans sent,
    free'.trans free, blk'.trans blk, ahead'.trans ahead, event'.trans event⟩

/-- While the mode does not change the stack pointer in use stays the same one. -/
theorem OtherStackSame.trans (mode : t.mode = s.mode) (h : OtherStackSame s t)
    (g : OtherStackSame t u) : OtherStackSame s u := by
  unfold OtherStackSame at h g ⊢
  rw [spIsSp0_congr s t mode] at g
  split
  · rw [if_pos ‹_›] at h g
    exact g.trans h
  · rw [if_neg ‹_›] at h g
    exact g.trans h

theorem StackFrame.refl (s : State) : StackFrame s s maskS := by
  refine ⟨rfl, ?other, ⟨rfl, rfl, rfl, rfl, rfl, rfl, rfl, rfl⟩, .of_eq rfl⟩
  case other =>
    unfold OtherStackSame
    split <;> rfl

theorem StackFrame.trans (h : StackFrame s t maskS) (g : StackFrame t u maskS) :
    StackFrame s u maskS := by
  have mode := h.mode
  obtain ⟨flags, other, specials, outside⟩ := h
  obtain ⟨flags', other', specials', outside'⟩ := g
  exact ⟨flags'.trans flags, other.trans mode other', specials.trans specials',
    outside.trans outside'⟩

/-- An access that succeeds before an atom succeeds after it. -/
theorem StackFrame.writeOk {w : Width} {a : Word} (h : StackFrame s t maskS)
    (ok : WriteOk s w a) : WriteOk t w a := by
  have mode := h.mode
  obtain ⟨-, -, -, -, ⟨-, -, -, mmu, map, -⟩, -⟩ := h
  unfold WriteOk
  rw [mode]
  exact WriteOkIn_congr mmu map ok

theorem StackFrame.readOk {w : Width} {a : Word} (h : StackFrame s t maskS)
    (ok : ReadOk s w a) : ReadOk t w a := by
  have mode := h.mode
  obtain ⟨-, -, -, -, ⟨-, -, -, mmu, map, -⟩, -⟩ := h
  exact ReadOk_congr mode mmu map ok

/-! ### What a list of atoms comes to -/

/-- From `u` the atoms `l` all succeed, and every state that they and their count in S leave
satisfies `Q`; the frame is that of the instruction, which began in `s`. With no atom left nothing
moves. -/
def AtomsReach (s : State) (Q : State → Prop) (l : List StackAtom) (u : State) : Prop :=
  match l with
  | [] => ∀ v, AtomDone u v (.adjust 0#32) → StackFrame s v maskS → Q v
  | a :: l => AtomOk u a ∧ ∀ v, AtomDone u v a → StackFrame s v maskS → AtomsReach s Q l v

theorem atomDone_none (s : State) : AtomDone s s (.adjust 0#32) :=
  ⟨(BitVec.add_zero _).symm, rfl, rfl, rfl⟩

/-- After an atom nothing more is left to do but to count it. -/
theorem AtomDone.idle {a : StackAtom} (h : AtomDone s u a) (g : AtomDone u v (.adjust 0#32)) :
    AtomDone s v a := by
  obtain ⟨sp, regs, mem, stale⟩ := g
  exact AtomDone_congr (sp.trans (BitVec.add_zero _)) (by rw [regs, mem, stale]) h

theorem atomsReach_append {Q : State → Prop} (frame : StackFrame s u maskS)
    (h : AtomsReach s (AtomsReach s Q m) l u) : AtomsReach s Q (l ++ m) u := by
  induction l generalizing u with
  | nil => exact h u (atomDone_none u) frame
  | cons a l ih =>
    obtain ⟨ok, next⟩ := h
    exact ⟨ok, fun v done frame => ih frame (next v done frame)⟩

theorem AtomsReach.mono {Q R : State → Prop} (h : AtomsReach s Q l u)
    (imp : ∀ v, StackFrame s v maskS → Q v → R v) : AtomsReach s R l u := by
  induction l generalizing u with
  | nil => exact fun v done frame => imp v frame (h v done frame)
  | cons a l ih =>
    obtain ⟨ok, next⟩ := h
    exact ⟨ok, fun v done frame => ih (next v done frame)⟩

/-- The move over the frame, also where it is by 0 and no atom. -/
theorem atomsReach_frameAtoms {Q : State → Prop} (d : Word)
    (h : ∀ v, AtomDone u v (.adjust d) → StackFrame s v maskS → Q v) :
    AtomsReach s Q (frameAtoms d) u := by
  unfold frameAtoms
  split
  · rename_i zero
    subst zero
    exact h
  · exact ⟨trivial, fun v done _ w idle frame => h w (done.idle idle) frame⟩

/-! ### A whole run -/

/-- Between two atoms of the instruction that began in `s`, `k` of them done. -/
structure AtomsRunning (s u : State) (k : Nat) : Prop where
  frame : StackFrame s u maskS
  pc : u.pc = s.pc
  count : u.atomsDone = k
  memory : Memory.wf u.mem = true

/-- The instruction `i` that began in `s` is over. -/
structure AtomsEnded (s t : State) (i : Instr) : Prop where
  frame : StackFrame s t maskS
  pc : t.pc = s.pc + i.length
  count : t.atomsDone = 0
  memory : Memory.wf t.mem = true

theorem execTimes_next (h : exec i s = .next t) (n : Nat) :
    execTimes i (n + 1) s = execTimes i n t := by rw [execTimes, h]

/-- Every atom keeps memory canonical. -/
theorem wf_runAtom {a : StackAtom} (ok : AtomOk s a) (wf : Memory.wf s.mem = true)
    (h : runAtom a s = .done () u) : Memory.wf u.mem = true := by
  cases a with
  | store r =>
    cases (pushWord_pushed ok).symm.trans h
    rw [pushed_mem]
    exact wf_write32 _ _ wf
  | storeImm v =>
    cases (pushWord_pushed ok).symm.trans h
    rw [pushed_mem]
    exact wf_write32 _ _ wf
  | load r =>
    rw [runAtom, popWord_popped ok, andThen_done] at h
    cases h
    rw [setReg_mem, State.popped, setSp_mem]
    exact wf
  | adjust d =>
    cases h
    rw [setSp_mem]
    exact wf

theorem wf_stackStep {a : StackAtom} (on : s.spEnabled = true) (ha : l[s.atomsDone]? = some a)
    (ok : AtomOk s a) (wf : Memory.wf s.mem = true) (h : settle (stackStep l i s) = .next t) :
    Memory.wf t.mem = true := by
  obtain ⟨u, run, -⟩ := runAtom_ok ok (.inl wf)
  rw [stackStep_atom on ha, run, andThen_done] at h
  have wf' : Memory.wf u.mem = true := wf_runAtom ok wf run
  split at h
  · cases h
    exact wf'
  · cases h
    exact wf'

/-- With no atom at all one execution ends the instruction (Note 11). -/
theorem stackStep_empty (on : s.spEnabled = true) (wf : Memory.wf s.mem = true) :
    ∃ t, settle (stackStep [] i s) = .next t ∧ AtomDone s t (.adjust 0#32) ∧ AtomsEnded s t i := by
  have still : AtomRan s s (.adjust 0#32) := by
    obtain ⟨-, other, specials, outside⟩ := StackFrame.refl s
    exact ⟨atomDone_none s, rfl, rfl, other, specials, outside⟩
  obtain ⟨atom, frame⟩ := still.ended i.length
  refine ⟨(s.setS 0).advance i.length, ?run, atom, frame, rfl, atomsDone_setS s (by decide), wf⟩
  case run => rw [stackStep, spGuard_ok fun _ => on, andThen_done]; rfl

section
variable (he : ∀ u, exec i u = settle (stackStep l i u)) (short : l.length ≤ 256)
include he short

/-- One execution does the next atom, and ends the instruction where that was the last one. -/
theorem exec_next_atom {a : StackAtom} {k : Nat} (ha : l[k]? = some a) (on : s.spEnabled = true)
    (running : AtomsRunning s u k) (ok : AtomOk u a) :
    ∃ t, exec i u = .next t ∧ AtomDone u t a ∧ StackFrame s t maskS
      ∧ (k + 1 < l.length → AtomsRunning s t (k + 1))
      ∧ (l.length ≤ k + 1 → AtomsEnded s t i) := by
  obtain ⟨frame, pc, rfl, wf⟩ := running
  have on' := frame.spEnabled.trans on
  obtain ⟨t, run, atom, more, inside, last⟩ := stackStep_completes on' ha (he u) short wf ok
  have frame' := frame.trans more
  have wf' := wf_stackStep on' ha ok wf ((he u).symm.trans run)
  refine ⟨t, run, atom, frame', fun h => ?running, fun h => ?ended⟩
  case running =>
    obtain ⟨pc', count⟩ := inside h
    exact ⟨frame', pc'.trans pc, count, wf'⟩
  case ended =>
    obtain ⟨pc', count⟩ := last h
    exact ⟨frame', by rw [pc', pc], count, wf'⟩

/-- From the next atom on, as many executions as atoms are left end the instruction. -/
theorem execTimes_from_atom {Q : State → Prop} {done rest : List StackAtom} {a : StackAtom}
    (hl : l = done ++ a :: rest) (on : s.spEnabled = true)
    (running : AtomsRunning s u done.length) (h : AtomsReach s Q (a :: rest) u) :
    ∃ t, execTimes i (rest.length + 1) u = .next t ∧ AtomsEnded s t i ∧ Q t := by
  induction rest generalizing done a u with
  | nil =>
    obtain ⟨ok, next⟩ := h
    obtain ⟨t, run, atom, frame, -, last⟩ :=
      exec_next_atom he short (by rw [hl]; simp) on running ok
    exact ⟨t, execTimes_next run 0, last (by rw [hl]; simp),
      next t atom frame t (atomDone_none t) frame⟩
  | cons b rest ih =>
    obtain ⟨ok, next⟩ := h
    obtain ⟨t, run, atom, frame, inside, -⟩ :=
      exec_next_atom he short (by rw [hl]; simp) on running ok
    have running' : AtomsRunning s t (done ++ [a]).length := by
      rw [List.length_append]
      exact inside (by rw [hl]; simp)
    rw [execTimes_next run]
    exact ih (by rw [hl]; simp) running' (next t atom frame)

/-- A whole stack instruction comes to what its atoms come to. -/
theorem execTimes_atoms {Q : State → Prop} (on : s.spEnabled = true)
    (wf : Memory.wf s.mem = true) (start : s.atomsDone = 0) (h : AtomsReach s Q l s) :
    ∃ t, execTimes i (max 1 l.length) s = .next t ∧ AtomsEnded s t i ∧ Q t := by
  cases l with
  | nil =>
    obtain ⟨t, ht, atom, ended⟩ := stackStep_empty (i := i) on wf
    exact ⟨t, execTimes_next ((he s).trans ht) 0, ended, h t atom ended.frame⟩
  | cons a rest =>
    rw [max_eq_right (by simp)]
    exact execTimes_from_atom he short (done := []) rfl on ⟨.refl s, rfl, start, wf⟩ h

end

/-! ### Registers in memory -/

/-- The words at `a` are the registers `rs` of `g`, the first of the list lowest. -/
def WordsAre (m : List Host.Cell) (a : Word) (rs : List Reg) (g : Regs) : Prop :=
  ∀ j r, rs[j]? = some r → read32 m (a + BitVec.ofNat 32 (4 * j)) = g.get r

theorem add_ofNat_four_succ (a : Word) (j : Nat) :
    a + BitVec.ofNat 32 (4 * (j + 1)) = a + 4#32 + BitVec.ofNat 32 (4 * j) := by
  rw [BitVec.add_assoc, ← BitVec.ofNat_add, Nat.mul_succ, Nat.add_comm]

theorem wordsAre_cons {c : List Host.Cell} {a : Word} {r : Reg} {g : Regs} :
    WordsAre c a (r :: rs) g ↔ read32 c a = g.get r ∧ WordsAre c (a + 4#32) rs g := by
  constructor
  · intro h
    refine ⟨by simpa using h 0 r rfl, fun j q hq => ?_⟩
    rw [← add_ofNat_four_succ]
    exact h (j + 1) q hq
  · rintro ⟨first, others⟩ j q hq
    cases j with
    | zero =>
      obtain rfl : r = q := by simpa using hq
      simpa using first
    | succ j =>
      rw [add_ofNat_four_succ]
      exact others j q hq

theorem read32_eq_of_bytes {c c' : List Host.Cell} {a : Word}
    (h : ∀ k : Nat, k < 4 → read8 c' (a + BitVec.ofNat 32 k) = read8 c (a + BitVec.ofNat 32 k)) :
    read32 c' a = read32 c a :=
  word_eq_of_bytes fun k hk => by rw [fld_read32 c' a hk, fld_read32 c a hk, h k hk]

/-- The words stay where their bytes do. -/
theorem WordsAre.kept {c c' : List Host.Cell} {a : Word} {g : Regs} (h : WordsAre c a rs g)
    (bytes : ∀ k : Nat, k < 4 * rs.length →
      read8 c' (a + BitVec.ofNat 32 k) = read8 c (a + BitVec.ofNat 32 k)) :
    WordsAre c' a rs g := by
  intro j r hr
  obtain ⟨inside, -⟩ := List.getElem?_eq_some_iff.mp hr
  refine (read32_eq_of_bytes fun k hk => ?_).trans (h j r hr)
  rw [BitVec.add_assoc, ← BitVec.ofNat_add]
  exact bytes _ (by omega)

/-! ### The stores of `push` -/

/-- The stack pointer with room for `n` words below it. -/
def State.below (s : State) (n : Nat) : Word := s.sp - BitVec.ofNat 32 (4 * n)

theorem below_succ_add (s : State) (n : Nat) : s.below (n + 1) + 4#32 = s.below n := by
  unfold State.below
  bv_omega

/-- The registers `rs` are pushed, the first of the list last, and SP has moved by `d` since. -/
structure RegsPushed (s t : State) (rs : List Reg) (d : Word) : Prop where
  sp : t.sp = s.below rs.length + d
  words : WordsAre t.mem (s.below rs.length) rs s.regs
  memory : MemSameBut s t (s.below rs.length) (4 * rs.length)
  regs : t.regs = s.regs
  stale : s.params.prefetchBytes = 0 → t.stale = s.stale

theorem regsPushed_none (h : AtomDone s t (.adjust 0#32)) : RegsPushed s t [] 0#32 := by
  obtain ⟨sp, regs, mem, stale⟩ := h
  exact ⟨by simpa [State.below] using sp, fun _ _ none => by simp at none, fun _ _ => by rw [mem],
    regs, fun _ => stale⟩

/-- Where the next store goes. -/
theorem RegsPushed.sp_sub (h : RegsPushed s u rs 0#32) : u.sp - 4#32 = s.below (rs.length + 1) := by
  rw [h.sp, ← below_succ_add, BitVec.add_zero, BitVec.add_sub_cancel]

/-- A move of SP leaves what is pushed. -/
theorem RegsPushed.adjust {d : Word} (h : RegsPushed s u rs 0#32)
    (done : AtomDone u t (.adjust d)) : RegsPushed s t rs d := by
  obtain ⟨sp, words, memory, regs, stale⟩ := h
  obtain ⟨sp', regs', mem, stale'⟩ := done
  rw [← mem] at words
  exact ⟨by rw [sp', sp, BitVec.add_zero], words, fun b apart => by rw [mem]; exact memory b apart,
    regs'.trans regs, fun none => stale'.trans (stale none)⟩

/-- One more register is stored below the others. -/
theorem RegsPushed.store {r : Reg} (h : RegsPushed s u rs 0#32) (frame : StackFrame s u maskS)
    (few : rs.length < 8) (done : AtomDone u t (.store r)) : RegsPushed s t (r :: rs) 0#32 := by
  have low := h.sp_sub
  obtain ⟨-, words, memory, regs, stale⟩ := h
  obtain ⟨sp, top, ⟨kept, stale'⟩, regs'⟩ := done
  rw [low] at sp top kept
  rw [← below_succ_add] at words memory
  refine ⟨sp.trans (BitVec.add_zero _).symm,
    wordsAre_cons.mpr ⟨?top, words.kept fun k hk => ?others⟩, fun b apart => ?memory,
    regs'.trans regs, fun none => ?stale⟩
  case top => exact top.trans (congrArg (·.get r) regs)
  case others => exact kept _ fun j hj => by bv_omega
  case memory =>
    rw [List.length_cons] at apart
    refine (kept b fun k hk => apart k (by omega)).trans (memory b fun k hk => ?_)
    have next := apart (4 + k) (by omega)
    rwa [BitVec.ofNat_add, ← BitVec.add_assoc] at next
  case stale =>
    rw [stale', staleAfter_none (by rw [frame.params]; exact none)]
    exact stale none

/-- The stores of `push`, the highest register first (R223). -/
theorem atomsReach_stores (few : rs.length ≤ 8)
    (ok : ∀ j : Nat, j < rs.length →
      WriteOk s .word (s.below rs.length + BitVec.ofNat 32 (4 * j))) :
    AtomsReach s (RegsPushed s · rs 0#32) (rs.reverse.map .store) s := by
  induction rs with
  | nil => exact fun v done _ => regsPushed_none done
  | cons r rs ih =>
    rw [List.length_cons] at few ok
    have others := ih (by omega) fun j hj => by
      rw [← below_succ_add, ← add_ofNat_four_succ]
      exact ok (j + 1) (by omega)
    rw [List.reverse_cons, List.map_append]
    refine atomsReach_append (.refl s)
      (others.mono fun u frame pushed => ⟨?ok, fun v done _ => ?next⟩)
    case ok =>
      have lowest := ok 0 (by omega)
      rw [Nat.mul_zero, BitVec.add_zero, ← pushed.sp_sub] at lowest
      exact frame.writeOk lowest
    case next => exact fun w idle _ => pushed.store frame (by omega) (done.idle idle)

theorem atomsReach_push (f : PushForm)
    (ok : ∀ j : Nat, j < (maskRegs (pushMask f)).length →
      WriteOk s .word (s.below (maskRegs (pushMask f)).length + BitVec.ofNat 32 (4 * j))) :
    AtomsReach s (RegsPushed s · (maskRegs (pushMask f)) (0#32 - pushOffset f)) (pushAtoms f) s :=
  atomsReach_append (.refl s) ((atomsReach_stores (maskRegs_length _) ok).mono fun _ _ pushed =>
    atomsReach_frameAtoms _ fun _ done _ => pushed.adjust done)

/-- A whole `push` (R223). -/
theorem execTimes_push (f : PushForm) (on : s.spEnabled = true) (wf : Memory.wf s.mem = true)
    (start : s.atomsDone = 0) (ok : ∀ j : Nat, j < (maskRegs (pushMask f)).length →
      WriteOk s .word (s.below (maskRegs (pushMask f)).length + BitVec.ofNat 32 (4 * j))) :
    ∃ t, execTimes (.push f) (max 1 (pushAtoms f).length) s = .next t ∧ AtomsEnded s t (.push f)
      ∧ RegsPushed s t (maskRegs (pushMask f)) (0#32 - pushOffset f) :=
  execTimes_atoms (fun _ => rfl) ((pushAtoms_length f).trans (by decide)) on wf start
    (atomsReach_push f ok)

/-! ### The loads of `pop` -/

/-- The registers `rs` are loaded with those of `g` from the words at `a`, after which SP stands;
the other registers and memory are as before. -/
structure RegsLoaded (s t : State) (a : Word) (rs : List Reg) (g : Regs) : Prop where
  sp : t.sp = a + BitVec.ofNat 32 (4 * rs.length)
  loaded : ∀ r ∈ rs, t.reg r = g.get r
  others : RegsBut s t rs
  mem : t.mem = s.mem

theorem regsLoaded_none (g : Regs) (h : AtomDone s t (.adjust 0#32)) :
    RegsLoaded s t s.sp [] g := by
  obtain ⟨sp, regs, mem, -⟩ := h
  exact ⟨sp, fun _ none => by simp at none, fun r _ => congrArg (·.get r) regs, mem⟩

/-- The load of one register, and then of those above it. -/
theorem RegsLoaded.cons {r : Reg} {g : Regs} (word : read32 s.mem s.sp = g.get r)
    (done : AtomDone s u (.load r)) (h : RegsLoaded u t u.sp rs g) :
    RegsLoaded s t s.sp (r :: rs) g := by
  obtain ⟨sp, first, others, mem, -⟩ := done
  obtain ⟨sp', loaded', others', mem'⟩ := h
  refine ⟨?sp, fun q hq => ?loaded, fun q hq => ?others, mem'.trans mem⟩
  case sp => rw [sp', sp, List.length_cons, add_ofNat_four_succ]
  case loaded =>
    by_cases later : q ∈ rs
    · exact loaded' q later
    · obtain rfl : q = r := (List.mem_cons.mp hq).resolve_right later
      exact (others' q later).trans (first.trans word)
  case others =>
    rw [List.mem_cons, not_or] at hq
    obtain ⟨ne, later⟩ := hq
    exact (others' q later).trans (others q (by simpa using ne))

/-- The loads of `pop`, the lowest register first (R225). -/
theorem atomsReach_loads {g : Regs} (frame : StackFrame s u maskS)
    (ok : ∀ j : Nat, j < rs.length → ReadOk s .word (u.sp + BitVec.ofNat 32 (4 * j)))
    (words : WordsAre u.mem u.sp rs g) :
    AtomsReach s (RegsLoaded u · u.sp rs g) (rs.map .load) u := by
  induction rs generalizing u with
  | nil => exact fun v done _ => regsLoaded_none g done
  | cons r rs ih =>
    obtain ⟨first, others⟩ := wordsAre_cons.mp words
    refine ⟨frame.readOk (by simpa using ok 0 (by simp)), fun v done frame' => ?_⟩
    have ⟨sp, _, _, mem, _⟩ := done
    refine (ih frame' (fun j hj => ?ok) (by rwa [sp, mem])).mono fun w _ loaded =>
      loaded.cons first done
    case ok =>
      rw [sp, ← add_ofNat_four_succ]
      exact ok (j + 1) (by simpa using hj)

/-- The atoms of `pop`: the move over the frame, and then the loads. -/
theorem atomsReach_pop (m : BitVec 8) (d : Word) {g : Regs}
    (ok : ∀ j : Nat, j < (maskRegs m).length →
      ReadOk s .word (s.sp + d + BitVec.ofNat 32 (4 * j)))
    (words : WordsAre s.mem (s.sp + d) (maskRegs m) g) :
    AtomsReach s (RegsLoaded s · (s.sp + d) (maskRegs m) g) (popAtoms m d) s := by
  refine atomsReach_append (.refl s) (atomsReach_frameAtoms _ fun u moved frame => ?_)
  obtain ⟨sp, regs, mem, -⟩ := moved
  rw [← sp] at ok words ⊢
  rw [← mem] at words
  refine (atomsReach_loads frame ok words).mono fun t _ ⟨after, loaded, others, kept⟩ => ?_
  exact ⟨after, loaded, fun r hr => (others r hr).trans (congrArg (·.get r) regs), kept.trans mem⟩

/-- A whole `pop` (R225). -/
theorem execTimes_pop (f : PopForm) {g : Regs} (on : s.spEnabled = true)
    (wf : Memory.wf s.mem = true) (start : s.atomsDone = 0)
    (ok : ∀ j : Nat, j < (maskRegs (popMask f)).length →
      ReadOk s .word (s.sp + popOffset f + BitVec.ofNat 32 (4 * j)))
    (words : WordsAre s.mem (s.sp + popOffset f) (maskRegs (popMask f)) g) :
    ∃ t, execTimes (.pop f) (max 1 (popAtoms (popMask f) (popOffset f)).length) s = .next t
      ∧ AtomsEnded s t (.pop f)
      ∧ RegsLoaded s t (s.sp + popOffset f) (maskRegs (popMask f)) g :=
  execTimes_atoms (fun _ => rfl) ((popAtoms_length _ _).trans (by decide)) on wf start
    (atomsReach_pop _ _ ok words)

/-- A full `push` and the `pop` of the same operands have as many atoms. -/
theorem popAtoms_length_eq (m : BitVec 8) (o : BitVec 6) :
    (popAtoms (popMask (.full m o)) (popOffset (.full m o))).length
      = (pushAtoms (.full m o)).length := by
  have frame (d : Word) : (frameAtoms (0#32 - d)).length = (frameAtoms d).length := by
    unfold frameAtoms
    rw [if_congr (BitVec.zero_sub d ▸ BitVec.neg_eq_zero_iff) rfl rfl]
    split <;> rfl
  show (frameAtoms _ ++ _).length = (_ ++ frameAtoms (0#32 - _)).length
  rw [List.length_append, List.length_append, frame, List.length_map, List.length_map,
    List.length_reverse, Nat.add_comm]
  rfl

end

/-! ### O33, O34, O35 -/

/-- Settles O33. -/
theorem popRetReturns : Obligations.PopRetReturns := by
  intro s f on last ok legal
  have next : exec (.popRet f) s = .next { s.returning with pc := read32 s.mem s.sp } := by
    rw [execPopRet_last f on last, returnAtom_popped ok, branchTo_ok 0#4 legal, settle_done]
  exact ⟨_, next, rfl, returning_popped s⟩

/-- Settles O34. -/
theorem pushEndState : Obligations.PushEndState := by
  intro s f wf on start l low ok
  obtain ⟨t, run, ⟨frame, pc, count, -⟩, sp, words, memory, regs, stale⟩ :=
    execTimes_push f on wf start ok
  refine ⟨t, run, pc, ?sp, words, memory, regs, frame, count, stale⟩
  case sp => rw [sp, BitVec.zero_sub, ← BitVec.sub_eq_add_neg]; rfl

/-- Settles O35: the words that `push` leaves are those that `pop` loads, whatever the registers
hold by then. -/
theorem popUndoesPush : Obligations.PopUndoesPush := by
  intro s m o g wf on start ok n
  obtain ⟨t, push, ⟨pushed, -, count, wf'⟩, sp, words, -, -, -⟩ :=
    execTimes_push (.full m o) on wf start fun j hj => (ok j hj).1
  have frame : StackFrame s { t with regs := g } maskS := pushed
  have low : t.sp + popOffset (.full m o) = s.below (maskRegs m).length := by
    rw [sp, BitVec.add_assoc]
    exact (congrArg _ (BitVec.sub_add_cancel _ _)).trans (BitVec.add_zero _)
  have words : WordsAre t.mem (t.sp + popOffset (.full m o)) (maskRegs m) s.regs := by
    rw [low]
    exact words
  obtain ⟨u, pop, ⟨popped, -⟩, sp', loaded, others, mem⟩ :=
    execTimes_pop (s := { t with regs := g }) (.full m o) (frame.spEnabled.trans on) wf' count
      (fun j hj => low ▸ frame.readOk (ok j hj).2) words
  rw [popAtoms_length_eq] at pop
  obtain ⟨-, other, specials, outside⟩ := frame.trans popped
  refine ⟨t, u, push, pop, ?sp, loaded, others, mem, other, specials, outside⟩
  case sp => exact sp'.trans ((congrArg (· + _) low).trans (BitVec.sub_add_cancel _ _))

end Sys2Proof.Machine
end

section
/-! PROOF of O36 (43_move.md): `mov.i`, `mov.r` and the short `mov.f.r`. First the constants of
`mov.i` as powers of 2, and an extracted bit sequence bit by bit; then `mov.r` from and to the stack
pointer. -/

namespace Sys2Proof.Machine

section
variable {s : State} {i : Instr}

/-! ### The constants of `mov.i` (R242) -/

theorem constPow2_eq_ofNat (k : BitVec 3) (b : BitVec 2) :
    constPow2 k b = BitVec.ofNat 32 (2 ^ (8 * b.toNat + k.toNat)) := by
  apply BitVec.eq_of_toNat_eq
  simp [constPow2, constExp, Nat.shiftLeft_eq]

theorem constPow2m1_eq_ofNat (k : BitVec 3) (b : BitVec 2) :
    constPow2m1 k b = if k = 0#3 ∧ b = 1#2 then 0xFFFFFFFF#32
      else BitVec.ofNat 32 (2 ^ (8 * b.toNat + k.toNat) - 1) := by
  rw [constPow2m1, constPow2_eq_ofNat,
    BitVec.ofNat_sub_ofNat_of_le _ _ (by decide) Nat.one_le_two_pow]

/-! ### Bit sequences (R244, R245) -/

theorem lowOnes_bit (n : Nat) {k : Nat} (hk : k < 32) : (lowOnes n).getLsbD k = decide (k < n) := by
  rw [lowOnes, BitVec.getLsbD_setWidth, BitVec.getLsbD_allOnes, decide_eq_true hk, Bool.true_and]

theorem seqExtract_bit (v : Word) (size lsb : BitVec 5) {k : Nat} (hk : k < 32) :
    (seqExtract v size lsb).getLsbD k
      = (decide (k < seqSize size) && v.getLsbD (k + lsb.toNat)) := by
  rw [seqExtract, BitVec.getLsbD_and, BitVec.getLsbD_ushiftRight, lowOnes_bit _ hk, Bool.and_comm,
    Nat.add_comm]

/-! ### `mov.r` from and to SP (R243) -/

theorem movFromSp_ok (on : s.spEnabled = true) (rd : Reg) :
    exec (.movR (.fromSp rd)) s
      = giveResult (.movR (.fromSp rd)) rd s.sp (setZN s.flags s.sp) s := by
  show settle (andThen (spGuard true s) _) = _
  rw [spGuard_ok fun _ => on]
  rfl

theorem movToSp_ok (on : s.spEnabled = true) {rs : Reg} (aligned : fld (s.reg rs) 0 2 = 0#2) :
    exec (.movR (.toSp rs)) s
      = .next ((s.setSp (s.reg rs)).advance (Instr.movR (.toSp rs)).length) := by
  refine (if_pos aligned).trans ?_
  rw [spGuard_ok fun _ => on]
  rfl

/-- An instruction that ends by moving the stack pointer in use leaves everything else. -/
theorem completes_setSp {v : Word} (h : exec i s = .next ((s.setSp v).advance i.length)) :
    Completes i s fun t => t.sp = v ∧ OtherStackSame s t ∧ t.regs = s.regs ∧ t.flags = s.flags
      ∧ t.mem = s.mem ∧ t.stale = s.stale ∧ SpecialsSame s t ∧ OutsideSame s t :=
  ⟨_, h, by simp, sp_setSp s v, otherStackSame_setSp s v, setSp_regs s v, setSp_flags s v,
    setSp_mem s v, setSp_stale s v, specialsSame_setSp s v, .of_eq (by simp)⟩

end

/-! ### O36 -/

/-- Settles O36. -/
theorem movesComplete : Obligations.MovesComplete := by
  intro s rd rs v b k c n field
  have table : field = (seqSize (shortField n).1, (shortField n).2.toNat) := by
    simp only [field]
    clear field
    revert n
    decide
  rw [table, ← constPow2m1_eq_ofNat, ← constPow2_eq_ofNat, BitVec.ofNat_toNat]
  refine ⟨completes_value rfl, completes_value rfl, completes_value rfl, completes_value rfl,
    completes_value rfl, completes_value rfl, completes_value rfl,
    fun on => completes_value (movFromSp_ok on rd),
    fun on aligned => completes_setSp (movToSp_ok on aligned), ?short⟩
  case short =>
    obtain ⟨t, next, pc, result⟩ : Completes (.movFR (.short rd n)) s fun t => ValueResult s t rd
      (seqExtract (s.reg rd) (shortField n).1 (shortField n).2) := completes_value rfl
    exact ⟨t, next, pc, _, result, fun i hi => seqExtract_bit _ _ _ hi⟩

end Sys2Proof.Machine
end

section
/-! PROOF of O38, O40 and O41 (44_alu.md): additions and subtractions without and with carry in,
logic and multiplications. First sums and differences of exact integers as words with their C and V;
then what an instruction that writes Rd and Z, N, C, V from them leaves. -/

namespace Sys2Proof.Machine

section
variable {s t : State} {i : Instr} {rd : Reg} {w : Nat}

theorem Completes.mono {P Q : State → Prop} (h : Completes i s P) (hPQ : ∀ t, P t → Q t) :
    Completes i s Q := by
  obtain ⟨t, next, pc, hP⟩ := h
  exact ⟨t, next, pc, hPQ t hP⟩

/-! ### Sums and differences of exact integers (R261, R262) -/

theorem carryWord_eq_ofNat (w : Nat) (c : Bool) : carryWord w c = BitVec.ofNat w c.toNat := by
  apply BitVec.eq_of_toNat_eq
  cases c <;> simp [carryWord]

theorem addC_r (a b : BitVec w) (c : Bool) : (addC a b c).r = a + b + carryWord w c := by
  simp [addC, carryWord_eq_ofNat, BitVec.ofNat_add]

theorem subC_r (a b : BitVec w) (c : Bool) : (subC a b c).r = a - b - carryWord w c := by
  simp [subC, carryWord_eq_ofNat, Int.sub_eq_add_neg, BitVec.ofInt_add, BitVec.ofInt_neg,
    BitVec.sub_eq_add_neg, BitVec.ofInt_natCast]

/-- C of an addition is the carry out (R261). -/
theorem addC_c_iff (a b : BitVec w) (c : Bool) :
    (addC a b c).c = true ↔ 2 ^ w ≤ a.toNat + b.toNat + c.toNat := decide_eq_true_iff

/-- C of a subtraction is the borrow (R262). -/
theorem subC_c_iff (a b : BitVec w) (c : Bool) :
    (subC a b c).c = true ↔ a.toNat < b.toNat + c.toNat := by
  simp only [subC, decide_eq_true_eq]
  omega

theorem outsideSigned_iff (w : Nat) (x : Int) :
    outsideSigned w x = true ↔ x < -(2 ^ (w - 1)) ∨ 2 ^ (w - 1) ≤ x := by
  simp [outsideSigned]

/-! ### Rd and Z, N, C, V from a sum or difference -/

theorem stickyZ_false (s : State) (z : Bool) : stickyZ false s z = z := by simp [stickyZ]

theorem stickyZ_true (s : State) (z : Bool) : stickyZ true s z = (z && flagZ s.flags) := rfl

/-- Rd and the flags are those of the sum or difference `x`, nothing else has changed. -/
structure ArithWritten (s t : State) (rd : Reg) (x : Arith 32) (sticky : Bool) : Prop where
  value : t.reg rd = x.r
  carry : flagC t.flags = x.c
  overflow : flagV t.flags = x.v
  negative : flagN t.flags = x.r.getLsbD 31
  zero : flagZ t.flags = stickyZ sticky s (x.r == 0#32)
  frame : OnlyRegs s t [rd] maskZNCV

theorem arithWritten_result (s : State) (rd : Reg) (x : Arith 32) (n : Word) (sticky : Bool) :
    ArithWritten s ((s.result rd x.r (putZNCV s.flags (stickyZ sticky s (x.r == 0#32))
      (x.r.getLsbD 31) x.c x.v)).advance n) rd x sticky where
  value := get_set_same s.regs rd x.r
  carry := flagC_putZNCV _ _ _ _ _
  overflow := flagV_putZNCV _ _ _ _ _
  negative := flagN_putZNCV _ _ _ _ _
  zero := flagZ_putZNCV _ _ _ _ _
  frame := onlyRegs_result rd x.r n (putZNCV_outside _ _ _ _ _)

theorem completes_arith {x : Arith 32} (h : exec i s = arithTo i rd x s) :
    Completes i s fun t => ArithWritten s t rd x false := by
  refine ⟨_, h, rfl, ?_⟩
  have written := arithWritten_result s rd x i.length false
  rwa [stickyZ_false] at written

theorem completes_arithSticky {x : Arith 32} (h : exec i s = arithStickyTo i rd x s) :
    Completes i s fun t => ArithWritten s t rd x true :=
  ⟨_, h, rfl, arithWritten_result s rd x i.length true⟩

section
variable {a b : Word} {c sticky : Bool}

theorem ArithWritten.addResult (h : ArithWritten s t rd (addC a b c) sticky) :
    AddResult s t rd a b c sticky :=
  ⟨h.value.trans (addC_r a b c), h.carry ▸ addC_c_iff a b c, h.overflow ▸ outsideSigned_iff 32 _,
    h.value ▸ h.negative, h.value ▸ h.zero, h.frame⟩

theorem ArithWritten.subResult (h : ArithWritten s t rd (subC a b c) sticky) :
    SubResult s t rd a b c sticky :=
  ⟨h.value.trans (subC_r a b c), h.carry ▸ subC_c_iff a b c, h.overflow ▸ outsideSigned_iff 32 _,
    h.value ▸ h.negative, h.value ▸ h.zero, h.frame⟩

theorem completes_add (h : exec i s = arithTo i rd (addC a b false) s) :
    Completes i s fun t => AddResult s t rd a b false false :=
  (completes_arith h).mono fun _ => ArithWritten.addResult

theorem completes_sub (h : exec i s = arithTo i rd (subC a b false) s) :
    Completes i s fun t => SubResult s t rd a b false false :=
  (completes_arith h).mono fun _ => ArithWritten.subResult

theorem completes_addCarry (h : exec i s = arithStickyTo i rd (addC a b c) s) :
    Completes i s fun t => AddResult s t rd a b c true :=
  (completes_arithSticky h).mono fun _ => ArithWritten.addResult

theorem completes_subCarry (h : exec i s = arithStickyTo i rd (subC a b c) s) :
    Completes i s fun t => SubResult s t rd a b c true :=
  (completes_arithSticky h).mono fun _ => ArithWritten.subResult

end

/-! ### Operands of `add.i` (R265) -/

theorem addFromSp_ok (on : s.spEnabled = true) (i : Instr) (rd : Reg) (v : Word) :
    addFromSp i rd v s = arithTo i rd (addC s.sp v false) s := by
  unfold addFromSp
  rw [spGuard_ok fun _ => on]
  rfl

theorem rowImm_rowA (s : State) :
    rowImm s false = if s.params.addi16Swap then 0xFFFFFFFF#32 else 1#32 := by
  unfold rowImm
  cases s.params.addi16Swap <;> rfl

theorem rowImm_rowB (s : State) :
    rowImm s true = if s.params.addi16Swap then 1#32 else 0xFFFFFFFF#32 := by
  unfold rowImm
  cases s.params.addi16Swap <;> rfl

/-! ### Half-words (R285) -/

theorem half_toNat (s : State) (r : Reg) : (s.half r).toNat = (s.reg r).toNat % 2 ^ 16 :=
  BitVec.extractLsb'_toNat 0 16 (s.reg r)

end

/-! ### O38, O40, O41 -/

/-- Settles O38: the operands of the short and `%sp` forms are brought to those of the model. -/
theorem addAndSubComplete : Obligations.AddAndSubComplete := by
  intro s rd rs rt v b
  rw [← rowImm_rowA, ← rowImm_rowB, BitVec.ofNat_toNat]
  exact ⟨completes_add rfl, completes_add rfl, completes_add rfl, completes_add rfl,
    completes_add rfl, fun on => completes_add (addFromSp_ok on _ rd (Imm.sext v)),
    fun on => completes_add (addFromSp_ok on _ rd (b.setWidth 32)), completes_sub rfl,
    completes_sub rfl, completes_sub rfl⟩

/-- Settles O40: each form is `arithStickyTo` of its operands and FLAGS.C. -/
theorem carryArithmeticComplete : Obligations.CarryArithmeticComplete := by
  intro s rd rs rt v b c
  exact ⟨completes_addCarry rfl, completes_addCarry rfl, completes_addCarry rfl,
    completes_addCarry rfl, completes_addCarry rfl, completes_addCarry rfl, completes_subCarry rfl,
    completes_subCarry rfl, completes_subCarry rfl⟩

/-- Settles O41: each form ends with Z and N of its value; the value of `xor.i` with -1, of `add.n`
and of the unsigned 16-bit products is written otherwise in the statement than in the model. -/
theorem logicAndMultiplyComplete : Obligations.LogicAndMultiplyComplete := by
  intro s rd rs rt v b n h
  have sum (x y : Word) : (addC x y false).r = x + y := (addC_r x y false).trans (BitVec.add_zero _)
  rw [← sum (s.reg rs) (s.reg rt), ← sum (s.reg rs) (Imm.sext v), ← BitVec.xor_allOnes,
    ← half_toNat s rs, ← half_toNat s rt]
  exact ⟨completes_value rfl, completes_value rfl, completes_value rfl, completes_value rfl,
    completes_value rfl, completes_value rfl, completes_value rfl, completes_value rfl,
    completes_value rfl, completes_value rfl, completes_value rfl, completes_value rfl,
    completes_value rfl, completes_value rfl, completes_value rfl, completes_value rfl,
    completes_value rfl, completes_value rfl, completes_value rfl, completes_value rfl,
    completes_value rfl, completes_value rfl, completes_value rfl⟩

end Sys2Proof.Machine
end

section
/-! PROOF of O42 and O43 (44_alu.md): the divisions. First the quotient and the remainder; then what a
division with one result and one with two leave, at its end or when DivideByZero is raised; then each
instruction by what its division gives. -/

namespace Sys2Proof.Machine

section
variable {s : State} {i : Instr} {a b : Word} {d : Division}

/-! ### Quotients and remainders (R287) -/

/-- The one signed quotient that does not fit (R288). -/
def divOverflows (a b : Word) : Bool := a == 0x80000000#32 && b == 0xFFFFFFFF#32

theorem divS_zero (h : b = 0#32) : divS a b = ⟨0#32, 0#32, true, true⟩ := if_pos h

theorem divU_zero (h : b = 0#32) : divU a b = ⟨0#32, 0#32, true, true⟩ := if_pos h

theorem divS_nonzero (h : b ≠ 0#32) :
    divS a b = ⟨if divOverflows a b then 0#32 else BitVec.ofInt 32 (a.toInt.tdiv b.toInt),
      if divOverflows a b then 0#32 else BitVec.ofInt 32 (a.toInt.tmod b.toInt),
      divOverflows a b, false⟩ := by
  have fits_iff : divOverflows a b = true ↔ a = 0x80000000#32 ∧ b = 0xFFFFFFFF#32 := by
    simp [divOverflows]
  rw [divS, if_neg h]
  split <;> rename_i overflow
  · rw [fits_iff.mpr overflow]; rfl
  · rw [Bool.eq_false_iff.mpr (mt fits_iff.mp overflow)]; rfl

theorem divU_nonzero (h : b ≠ 0#32) :
    divU a b = ⟨BitVec.ofNat 32 (a.toNat / b.toNat), BitVec.ofNat 32 (a.toNat % b.toNat),
      false, false⟩ := if_neg h

/-- Signed quotient and remainder give the dividend back. -/
theorem ofInt_tdiv_mul_add_tmod (a b : Word) :
    BitVec.ofInt 32 (a.toInt.tdiv b.toInt) * b + BitVec.ofInt 32 (a.toInt.tmod b.toInt) = a := by
  have exact := congrArg (BitVec.ofInt 32) (Int.tdiv_mul_add_tmod a.toInt b.toInt)
  rwa [BitVec.ofInt_add, BitVec.ofInt_mul, BitVec.ofInt_toInt, BitVec.ofInt_toInt] at exact

/-- Unsigned quotient and remainder give the dividend back. -/
theorem ofNat_div_mul_add_mod (a b : Word) :
    BitVec.ofNat 32 (a.toNat / b.toNat) * b + BitVec.ofNat 32 (a.toNat % b.toNat) = a := by
  have exact := congrArg (BitVec.ofNat 32) (Nat.div_add_mod' a.toNat b.toNat)
  rwa [BitVec.ofNat_add, BitVec.ofNat_mul, BitVec.ofNat_toNat, BitVec.setWidth_eq,
    BitVec.ofNat_toNat, BitVec.setWidth_eq] at exact

/-! ### One result -/

/-- The state after a division has written Rd, Z and N from the result `r`, and bit `k` of FLAGS. -/
def State.divided (s : State) (rd : Reg) (r : Word) (k : Nat) (bad : Bool) : State :=
  s.result rd r (putBit (setZN s.flags r) k bad)

/-- Rd, Z and N are those of the result `r`, bit `k` of FLAGS is `bad`, nothing else has changed. -/
def DivResult (s t : State) (rd : Reg) (r : Word) (k : Nat) (bad : Bool) : Prop :=
  t.reg rd = r ∧ ZNOf t r ∧ t.flags.getLsbD k = bad ∧ OnlyRegs s t [rd] (maskZN ||| 1#32 <<< k)

theorem divResult_divided (s : State) (rd : Reg) (r : Word) {k : Nat} (bad : Bool) (low : 2 ≤ k)
    (high : k < 32) : DivResult s (s.divided rd r k bad) rd r k bad := by
  have bits (j : Nat) (hj : j < 2) :
      (putBit (setZN s.flags r) k bad).getLsbD j = (setZN s.flags r).getLsbD j :=
    putBit_other _ k j bad high (by omega) (by omega)
  have outside : putBit (setZN s.flags r) k bad &&& ~~~(maskZN ||| 1#32 <<< k)
      = s.flags &&& ~~~(maskZN ||| 1#32 <<< k) := by
    refine (putBit_outside _ k bad _ high ?_).trans (putField_outside _ 0 2 _ _ (by decide) ?_)
    · simp [high]
    · intro j _ hj
      rcases (by omega : j = 0 ∨ j = 1) with rfl | rfl
      · simp [maskZN]
      · simp [maskZN]
  exact ⟨get_set_same s.regs rd r, ⟨(bits 0 (by decide)).trans (flagZ_setZN _ _),
    (bits 1 (by decide)).trans (flagN_setZN _ _)⟩, putBit_same _ k bad high,
    onlyRegs_result rd r 0#32 outside⟩

/-! ### Two results -/

/-- The state after a division has written both results, and bit `k` of FLAGS (R292, R293). -/
def State.dividedBoth (s : State) (rm rq : Reg) (d : Division) (k : Nat) : State :=
  ((s.setReg rq d.q).setReg rm d.m).setFlags (putBit s.flags k d.bad)

/-- The registers hold quotient and remainder of `d`, bit `k` of FLAGS is the mark of `d`, nothing
else has changed. -/
def DivremResult (s t : State) (rm rq : Reg) (d : Division) (k : Nat) : Prop :=
  t.reg rq = d.q ∧ t.reg rm = d.m ∧ t.flags.getLsbD k = d.bad ∧ OnlyRegs s t [rm, rq] (1#32 <<< k)

theorem divremResult_dividedBoth (s : State) {rm rq : Reg} (apart : rm ≠ rq) (d : Division) {k : Nat}
    (high : k < 32) : DivremResult s (s.dividedBoth rm rq d k) rm rq d k := by
  have others : RegsBut s (s.dividedBoth rm rq d k) [rm, rq] := by
    intro r hr
    obtain ⟨notM, notQ⟩ : r ≠ rm ∧ r ≠ rq := by simpa using hr
    exact (reg_setReg_other _ rm r d.m notM).trans (reg_setReg_other s rq r d.q notQ)
  have outside : FlagsBut s (s.dividedBoth rm rq d k) (1#32 <<< k) :=
    putBit_outside s.flags k d.bad _ high (by simp [high])
  exact ⟨(reg_setReg_other _ rm rq d.m apart.symm).trans (reg_setReg_same s rq d.q),
    reg_setReg_same _ rm d.m, putBit_same s.flags k d.bad high, others, outside, ⟨rfl, rfl⟩,
    ⟨rfl, rfl, rfl, rfl, rfl, rfl, rfl, rfl⟩, .of_eq rfl, rfl, fun _ => rfl, rfl⟩

/-! ### The ends of a division -/

theorem completes_divided {rd : Reg} {r : Word} {k : Nat} {bad : Bool} (low : 2 ≤ k) (high : k < 32)
    (h : exec i s = divideEnd i false (s.divided rd r k bad)) :
    Completes i s fun t => DivResult s t rd r k bad :=
  ⟨_, h, rfl, divResult_divided s rd r bad low high⟩

theorem completes_dividedBoth {rm rq : Reg} {k : Nat} (high : k < 32) (apart : rm ≠ rq)
    (h : exec i s = divideEnd i false (s.dividedBoth rm rq d k)) :
    Completes i s fun t => DivremResult s t rm rq d k :=
  ⟨_, h, rfl, divremResult_dividedBoth s apart d high⟩

/-- DivideByZero, raised after the result is written, returns to the next instruction (R482, D19). -/
theorem traps_divided {rd : Reg} {r : Word} {k : Nat} {bad : Bool} (low : 2 ≤ k) (high : k < 32)
    (h : exec i s = divideEnd i true (s.divided rd r k bad)) :
    ∃ t, exec i s = raiseError .divideByZero 0#4 (s.pc + i.length) s.pc s.pc t ∧ t.pc = s.pc
      ∧ DivResult s t rd r k bad :=
  ⟨_, h, rfl, divResult_divided s rd r bad low high⟩

theorem traps_dividedBoth {rm rq : Reg} {k : Nat} (high : k < 32) (apart : rm ≠ rq)
    (h : exec i s = divideEnd i true (s.dividedBoth rm rq d k)) :
    ∃ t, exec i s = raiseError .divideByZero 0#4 (s.pc + i.length) s.pc s.pc t ∧ t.pc = s.pc
      ∧ DivremResult s t rm rq d k :=
  ⟨_, h, rfl, divremResult_dividedBoth s apart d high⟩

/-! ### The instructions by what their division gives -/

section
variable {rd rs rt rm rq : Reg}

theorem exec_divSR (h : divS (s.reg rs) (s.reg rt) = d) :
    exec (.divSR rd rs rt) s
      = divideEnd (.divSR rd rs rt) d.byZero (s.divided rd d.q 3 d.bad) := h ▸ rfl

theorem exec_remSR (h : divS (s.reg rs) (s.reg rt) = d) :
    exec (.remSR rd rs rt) s
      = divideEnd (.remSR rd rs rt) d.byZero (s.divided rd d.m 3 d.bad) := h ▸ rfl

theorem exec_divUR (h : divU (s.reg rs) (s.reg rt) = d) :
    exec (.divUR rd rs rt) s
      = divideEnd (.divUR rd rs rt) d.byZero (s.divided rd d.q 2 d.bad) := h ▸ rfl

theorem exec_remUR (h : divU (s.reg rs) (s.reg rt) = d) :
    exec (.remUR rd rs rt) s
      = divideEnd (.remUR rd rs rt) d.byZero (s.divided rd d.m 2 d.bad) := h ▸ rfl

theorem exec_divremSR (apart : rm ≠ rq) (h : divS (s.reg rq) (s.reg rt) = d) :
    exec (.divremSR rm rq rt) s
      = divideEnd (.divremSR rm rq rt) d.byZero (s.dividedBoth rm rq d 3) := h ▸ if_neg apart

theorem exec_divremUR (apart : rm ≠ rq) (h : divU (s.reg rq) (s.reg rt) = d) :
    exec (.divremUR rm rq rt) s
      = divideEnd (.divremUR rm rq rt) d.byZero (s.dividedBoth rm rq d 2) := h ▸ if_neg apart

end

end

/-! ### O42, O43 -/

/-- Settles O42: both divisions are evaluated once, and the six instructions take their results. -/
theorem divisionsComplete : Obligations.DivisionsComplete := by
  intro s rd rs rt rm nonzero a b ovf q m uq um signed unsigned
  have givesS : divS (s.reg rs) (s.reg rt) = ⟨q, m, ovf, false⟩ := divS_nonzero nonzero
  have givesU : divU (s.reg rs) (s.reg rt) = ⟨uq, um, false, false⟩ := divU_nonzero nonzero
  refine ⟨completes_divided (by decide) (by decide) (exec_divSR givesS),
    completes_divided (by decide) (by decide) (exec_remSR givesS),
    completes_divided (by decide) (by decide) (exec_divUR givesU),
    completes_divided (by decide) (by decide) (exec_remUR givesU), fun fits => ?exactS,
    ofNat_div_mul_add_mod a b, fun apart =>
    ⟨completes_dividedBoth (by decide) apart (exec_divremSR apart givesS),
      completes_dividedBoth (by decide) apart (exec_divremUR apart givesU)⟩⟩
  case exactS =>
    simp only [q, m, fits]
    exact ofInt_tdiv_mul_add_tmod a b

/-- Settles O43: a divisor 0 gives zeros and the mark, and the end raises DivideByZero after both are
written; the registers of `divrem` are compared before anything else. -/
theorem divisionsTrap : Obligations.DivisionsTrap := by
  refine ⟨fun s rd rs rt zero i form => ?one, fun s rm rq rt zero apart i form => ?both,
    fun s r rt => ⟨if_pos rfl, if_pos rfl⟩⟩
  case one =>
    have signed := traps_divided (i := i) (s := s) (rd := rd) (r := 0#32) (k := 3) (bad := true)
      (by decide) (by decide)
    have unsigned := traps_divided (i := i) (s := s) (rd := rd) (r := 0#32) (k := 2) (bad := true)
      (by decide) (by decide)
    rcases form with rfl | rfl | rfl | rfl
    · obtain ⟨t, raised, pc, value, zn, rest⟩ := signed (exec_divSR (divS_zero zero))
      exact ⟨t, raised, pc, value, zn, (if_pos (.inl rfl)).mpr rest⟩
    · obtain ⟨t, raised, pc, value, zn, rest⟩ := signed (exec_remSR (divS_zero zero))
      exact ⟨t, raised, pc, value, zn, (if_pos (.inr rfl)).mpr rest⟩
    · obtain ⟨t, raised, pc, value, zn, rest⟩ := unsigned (exec_divUR (divU_zero zero))
      exact ⟨t, raised, pc, value, zn, (if_neg (by simp)).mpr rest⟩
    · obtain ⟨t, raised, pc, value, zn, rest⟩ := unsigned (exec_remUR (divU_zero zero))
      exact ⟨t, raised, pc, value, zn, (if_neg (by simp)).mpr rest⟩
  case both =>
    rcases form with rfl | rfl
    · obtain ⟨t, raised, pc, quotient, remainder, rest⟩ :=
        traps_dividedBoth (by decide) apart (exec_divremSR apart (divS_zero zero))
      exact ⟨t, raised, pc, remainder, quotient, (if_pos rfl).mpr rest⟩
    · obtain ⟨t, raised, pc, quotient, remainder, rest⟩ :=
        traps_dividedBoth (by decide) apart (exec_divremUR apart (divU_zero zero))
      exact ⟨t, raised, pc, remainder, quotient, (if_neg (by simp)).mpr rest⟩

end Sys2Proof.Machine
end

section
/-! PROOF of O44 (45_compare.md): the compares. The flags of `Cmp` at any width, without and with
carry in; each instruction is one of the two on its operands. -/

namespace Sys2Proof.Machine

section
variable {s t : State} {i : Instr} {w : Nat} {a b : BitVec w}

/-! ### The flags of `Cmp` (R311) -/

theorem compareResult_of {c z sticky : Bool}
    (flags : t.flags = putZNCV s.flags (stickyZ sticky s z) ((subC a b c).r.getLsbD (w - 1))
      (subC a b c).c (subC a b c).v)
    (zero : z = if sticky && s.params.cmpcZByResult then (subC a b c).r == 0#w else a == b)
    (frame : OnlyRegs s t [] maskZNCV) : CompareResult s t a b c sticky := by
  rw [CompareResult, ← subC_r, ← zero, flags, flagC_putZNCV, flagV_putZNCV, flagN_putZNCV,
    flagZ_putZNCV]
  exact ⟨subC_c_iff a b c, outsideSigned_iff w _, rfl, rfl, frame⟩

theorem completes_compare (h : exec i s = compare i a b s) :
    Completes i s fun t => CompareResult s t a b false false :=
  completes_flags h (putZNCV_outside _ _ _ _ _) fun t flags frame =>
    compareResult_of (z := a == b) (by rw [flags, stickyZ_false]; rfl) rfl frame

theorem completes_compareCarry (h : exec i s = compareCarry i a b s) :
    Completes i s fun t => CompareResult s t a b (flagC s.flags) true :=
  completes_flags h (putZNCV_outside _ _ _ _ _) fun t flags frame =>
    compareResult_of (by rw [flags, stickyZ_true]; rfl) rfl frame

end

/-! ### O44 -/

/-- Settles O44: each compare is `Cmp` of its two operands, without carry in or with it. -/
theorem comparesComplete : Obligations.ComparesComplete := by
  intro s rs rt v b h e c rs16 rt16 rs8 rt8
  exact ⟨completes_compare rfl, completes_compare rfl, completes_compare rfl,
    completes_compareCarry rfl, completes_compareCarry rfl, completes_compare rfl,
    completes_compareCarry rfl, completes_compare rfl, completes_compare rfl, completes_compare rfl,
    completes_compareCarry rfl, completes_compareCarry rfl, completes_compare rfl,
    completes_compareCarry rfl, completes_compare rfl, completes_compare rfl, completes_compare rfl,
    completes_compareCarry rfl, completes_compareCarry rfl, completes_compare rfl,
    completes_compareCarry rfl⟩

end Sys2Proof.Machine
end

section
/-! PROOF of O4 (30_encoding.md): words of the worked examples. Each is in a whole row of the table of
its size, which decides before the rows that are parameters are looked at. -/

namespace Sys2Proof

section
variable {h0 : Half} {i : Instr}

/-! ### Words in a whole row -/

theorem decode_of_table16 (p : Params) (h1 h2 : Half) (size : sizeOf h0 = .two)
    (row : decode16Table h0 = some i) : decode p h0 h1 h2 = .ok i := by
  simp only [decode, size, decode16, row]

theorem decode_of_table32 (p : Params) {h1 : Half} (h2 : Half) (size : sizeOf h0 = .four)
    (row : decode32Table h0 h1 = some i) : decode p h0 h1 h2 = .ok i := by
  simp only [decode, size, decode32, row]

theorem decode_of_table48 (p : Params) {h1 h2 : Half} (size : sizeOf h0 = .six)
    (row : decodeATable h0 (.wide (h2 ++ h1)) = some i) : decode p h0 h1 h2 = .ok i := by
  simp only [decode, size, decode48, row]

end

/-! ### O4 -/

/-- Settles O4. -/
theorem wordsOfTheSpecDecode : Obligations.WordsOfTheSpecDecode := fun p =>
  ⟨decode_of_table16 p _ _ rfl rfl, decode_of_table32 p _ rfl rfl, decode_of_table48 p rfl rfl,
    decode_of_table16 p _ _ rfl rfl, decode_of_table16 p _ _ rfl rfl, decode_of_table32 p _ rfl rfl,
    decode_of_table32 p _ rfl rfl, decode_of_table32 p _ rfl rfl, decode_of_table32 p _ rfl rfl,
    decode_of_table32 p _ rfl rfl, decode_of_table16 p _ _ rfl rfl⟩

end Sys2Proof
end

section
/-! PROOF of O45 and O46 (45_compare.md): the branches after a compare. The flags of a compare give
the order of its operands, the signed one by N ≠ V; and the compare of two low words followed by the
carry compare of the high words is the compare of the 64-bit values, borrow and sign of the
difference passing from the low words to the high ones. -/

namespace Sys2Proof.Machine

section
variable {s t u : State} {i : Instr} {w : Nat} {a b : BitVec w}

/-! ### The order of the operands (R331) -/

/-- The sign of a difference is wrong where the difference overflows, and only there. -/
theorem msb_sub_ne_ssubOverflow_iff (a b : BitVec w) :
    (a - b).msb ≠ BitVec.ssubOverflow a b ↔ a.toInt < b.toInt := by
  by_cases overflow : BitVec.ssubOverflow a b = true
  case neg =>
    rw [BitVec.msb_eq_toInt, BitVec.toInt_sub_of_not_ssubOverflow overflow,
      Bool.eq_false_of_not_eq_true overflow, ne_eq, decide_eq_false_iff_not, not_not]
    exact sub_neg
  case pos =>
    rw [BitVec.msb_eq_toInt, BitVec.toInt_sub, overflow, ne_eq, decide_eq_true_iff]
    rcases Bool.or_eq_true_iff.mp overflow with above | below
    · have := BitVec.twoPow_le_toInt_sub_toInt_iff.mp (of_decide_eq_true above)
      omega
    · have := BitVec.toInt_sub_toInt_lt_twoPow_iff.mp (of_decide_eq_true below)
      omega

theorem sub_carryWord_false (a : BitVec w) : a - carryWord w false = a := by simp [carryWord]

/-- What Z, C, N and V say of the order of `a` and `b`. -/
structure FlagsOrder (f : Word) (a b : BitVec w) : Prop where
  equal : flagZ f = true ↔ a = b
  below : flagC f = true ↔ a.toNat < b.toNat
  less : (flagN f != flagV f) = true ↔ a.toInt < b.toInt

theorem CompareResult.flagsOrder (h : CompareResult s t a b false false) :
    FlagsOrder t.flags a b := by
  obtain ⟨carry, overflow, negative, zero, -⟩ := h
  have sign : flagN t.flags = (a - b).msb := by
    rw [negative, sub_carryWord_false, BitVec.msb_eq_getLsbD_last]
  have outside : flagV t.flags = BitVec.ssubOverflow a b := by
    rw [Bool.eq_iff_iff, overflow, BitVec.ssubOverflow]
    simp [or_comm]
  refine ⟨?equal, carry, ?less⟩
  case equal => simp [zero, stickyZ_false]
  case less => rw [bne_iff_ne, sign, outside, msb_sub_ne_ssubOverflow_iff]

/-- Flags that say the order of `a` and `b` send the ten branches by it. -/
theorem FlagsOrder.branches (h : FlagsOrder t.flags a b) (f : CondForm) :
    OrderBranches t f a b := by
  obtain ⟨equal, below, less⟩ := h
  have differ : (!flagZ t.flags) = true ↔ a ≠ b := Bool.not_iff_not.trans (not_congr equal)
  have notBelow : (!flagC t.flags) = true ↔ b.toNat ≤ a.toNat :=
    (Bool.not_iff_not.trans (not_congr below)).trans Nat.not_lt
  have notLess : (flagN t.flags == flagV t.flags) = true ↔ b.toInt ≤ a.toInt := by
    rw [← Int.not_lt, ← less, bne, Bool.not_eq_true', Bool.not_eq_false]
  have atMostU : (flagC t.flags || flagZ t.flags) = true ↔ a.toNat ≤ b.toNat := by
    rw [or_set_iff below equal, ← BitVec.toNat_inj]
    omega
  have aboveU : (!flagC t.flags && !flagZ t.flags) = true ↔ b.toNat < a.toNat := by
    rw [and_set_iff notBelow differ, ne_eq, ← BitVec.toNat_inj]
    omega
  have atMostS : (flagN t.flags != flagV t.flags || flagZ t.flags) = true ↔ a.toInt ≤ b.toInt := by
    rw [or_set_iff less equal, ← BitVec.toInt_inj]
    omega
  have aboveS :
      (flagN t.flags == flagV t.flags && !flagZ t.flags) = true ↔ b.toInt < a.toInt := by
    rw [and_set_iff notLess differ, ne_eq, ← BitVec.toInt_inj]
    omega
  exact ⟨branches_of rfl equal rfl, branches_of rfl differ rfl, branches_of rfl below rfl,
    branches_of rfl notBelow rfl, branches_of rfl aboveU rfl, branches_of rfl atMostU rfl,
    branches_of rfl less rfl, branches_of rfl notLess rfl, branches_of rfl aboveS rfl,
    branches_of rfl atMostS rfl⟩

theorem thenOrders_compare (h : exec i s = compare i a b s) (f : CondForm) :
    ThenOrders i s f a b := by
  obtain ⟨t, next, pc, result⟩ := completes_compare h
  exact ⟨t, next, pc, result.flagsOrder.branches f⟩

/-! ### Two compares after one another (R330) -/

theorem OnlyRegs.trans {ds : List Reg} {mask : Word} (h : OnlyRegs s t ds mask)
    (g : OnlyRegs t u ds mask) : OnlyRegs s u ds mask := by
  obtain ⟨regs, flags, ⟨sp0, sp1⟩, specials, outside, hit, mem, stale⟩ := h
  obtain ⟨regs', flags', ⟨sp0', sp1'⟩, specials', outside', hit', mem', stale'⟩ := g
  exact ⟨fun r hr => (regs' r hr).trans (regs r hr), flags'.trans flags,
    ⟨sp0'.trans sp0, sp1'.trans sp1⟩, specials.trans specials', outside.trans outside',
    hit'.trans hit, fun a => (mem' a).trans (mem a), stale'.trans stale⟩

theorem CompareResult.frame {c sticky : Bool} (h : CompareResult s t a b c sticky) :
    OnlyRegs s t [] maskZNCV := by
  obtain ⟨-, -, -, -, frame⟩ := h
  exact frame

/-! ### Double words -/

section
variable (x x' y y' : Word)

theorem toNat_doubleWord : (x ++ y).toNat = 2 ^ 32 * x.toNat + y.toNat := by
  rw [BitVec.toNat_append, ← Nat.shiftLeft_add_eq_or_of_lt y.isLt, Nat.shiftLeft_eq, Nat.mul_comm]

theorem toInt_doubleWord : (x ++ y).toInt = 2 ^ 32 * x.toInt + y.toNat := BitVec.toInt_append

theorem doubleWord_eq_iff : x ++ y = x' ++ y' ↔ x = x' ∧ y = y' := by
  simp only [← BitVec.toNat_inj, toNat_doubleWord]
  omega

theorem toNat_borrow :
    (decide (y.toNat < y'.toNat)).toNat = if y.toNat < y'.toNat then 1 else 0 := Bool.cond_decide ..

/-- The borrow of the low words is taken from the difference of the high ones. -/
theorem doubleWord_sub :
    (x ++ y) - (x' ++ y') = (x - x' - carryWord 32 (decide (y.toNat < y'.toNat))) ++ (y - y') := by
  apply BitVec.eq_of_toNat_eq
  simp only [BitVec.toNat_sub, toNat_doubleWord, carryWord_eq_ofNat, BitVec.toNat_ofNat,
    toNat_borrow]
  split <;> omega

/-- Where the low words are equal they lend no borrow, so Z of the carry compare by its result (U15)
then says no more than Z by its operands. -/
theorem carryZero_iff (byResult : Bool) :
    (if byResult then x - x' - carryWord 32 (decide (y.toNat < y'.toNat)) == 0#32
      else x == x') = true ∧ y = y' ↔ x = x' ∧ y = y' := by
  refine and_congr_left fun low => ?_
  cases byResult with
  | false => exact beq_iff_eq
  | true =>
    rw [low, decide_eq_false (lt_irrefl _), sub_carryWord_false, if_pos rfl, beq_iff_eq]
    exact sub_eq_zero

end

/-- The compare of two low words, and then of the high words with its borrow, is the compare of the
double words. Z is that of R330 whatever `CMPC_Z_BY_RESULT` says (U15). -/
theorem CompareResult.doubleWord {x x' y y' : Word} (low : CompareResult s t y y' false false)
    (high : CompareResult t u x x' (flagC t.flags) true) :
    CompareResult s u (x ++ y) (x' ++ y') false false := by
  have frame := low.frame.trans high.frame
  obtain ⟨lowEqual, lowBelow, -⟩ := low.flagsOrder
  have borrow : flagC t.flags = decide (y.toNat < y'.toNat) := by
    rw [Bool.eq_iff_iff, lowBelow, decide_eq_true_iff]
  obtain ⟨carry, overflow, negative, zero, -⟩ := high
  rw [borrow] at carry overflow negative zero
  refine ⟨?carry, ?overflow, ?negative, ?zero, frame⟩
  case carry =>
    rw [carry, toNat_borrow, toNat_doubleWord, toNat_doubleWord, Bool.toNat_false]
    split <;> omega
  case overflow =>
    rw [overflow, toNat_borrow, toInt_doubleWord, toInt_doubleWord, Bool.toNat_false]
    split <;> omega
  case negative =>
    rw [negative, sub_carryWord_false, doubleWord_sub, BitVec.getLsbD_append]
    rfl
  case zero =>
    rw [zero, stickyZ_true, stickyZ_false, Bool.eq_iff_iff, Bool.and_eq_true_iff, lowEqual,
      Bool.true_and, carryZero_iff, ← doubleWord_eq_iff]
    exact beq_iff_eq.symm

end

/-! ### O45 -/

/-- Settles O45: each compare is `Cmp` of its two operands without carry in. -/
theorem branchAfterCompare : Obligations.BranchAfterCompare := by
  intro s rs rt v h e b f rs16 rs8
  exact ⟨thenOrders_compare rfl f, thenOrders_compare rfl f, thenOrders_compare rfl f,
    thenOrders_compare rfl f, thenOrders_compare rfl f, thenOrders_compare rfl f,
    thenOrders_compare rfl f, thenOrders_compare rfl f, thenOrders_compare rfl f,
    thenOrders_compare rfl f, thenOrders_compare rfl f, thenOrders_compare rfl f⟩

/-! ### O46 -/

/-- Settles O46: the low compare leaves the high register as it was. -/
theorem doubleWordCompare : Obligations.DoubleWordCompare := by
  intro s lo hi vlo vhi f a b
  obtain ⟨t, nextLow, pcLow, low⟩ : Completes (.cmpI (.imm lo vlo)) s fun t =>
    CompareResult s t (s.reg lo) (Imm.sext vlo) false false := completes_compare rfl
  obtain ⟨u, nextHigh, pcHigh, high⟩ : Completes (.cmpCI hi vhi) t fun u =>
    CompareResult t u (t.reg hi) (Imm.sext vhi) (flagC t.flags) true := completes_compareCarry rfl
  obtain ⟨regs, -⟩ := low.frame
  rw [regs hi List.not_mem_nil] at high
  have pair : CompareResult s u a b false false := low.doubleWord high
  exact ⟨t, u, nextLow, nextHigh, pcHigh.trans (congrArg (· + _) pcLow), pair,
    pair.flagsOrder.branches f⟩

end Sys2Proof.Machine
end

section
/-! PROOF of O47 and O48 (46_shift_rotate.md): shifts, rotates and the byte swap. First FLAGS after
a shift, with and without a bit shifted out; then each result as the arithmetic of its operand; then
what each kind of shift completes with. -/

namespace Sys2Proof.Machine

section
variable (f v : Word) (c : Option Bool) (n : BitVec 5)

/-! ### FLAGS after a shift (R341) -/

@[simp] theorem flagZ_shiftFlags : flagZ (shiftFlags f v c) = (v == 0#32) := by
  cases c with
  | none => exact flagZ_setZN f v
  | some b =>
    exact (putBit_other _ 2 0 b (by decide) (by decide) (by decide)).trans (flagZ_setZN f v)

@[simp] theorem flagN_shiftFlags : flagN (shiftFlags f v c) = v.getLsbD 31 := by
  cases c with
  | none => exact flagN_setZN f v
  | some b =>
    exact (putBit_other _ 2 1 b (by decide) (by decide) (by decide)).trans (flagN_setZN f v)

@[simp] theorem flagC_shiftFlags : flagC (shiftFlags f v c) = c.getD (flagC f) := by
  cases c with
  | none => exact flagC_setZN f v
  | some b => exact putBit_same _ 2 b (by decide)

theorem shiftFlags_outside : shiftFlags f v c &&& ~~~maskZNC = f &&& ~~~maskZNC := by
  have zn : setZN f v &&& ~~~maskZNC = f &&& ~~~maskZNC :=
    putField_outside f 0 2 _ maskZNC (by decide) (by decide)
  cases c with
  | none => exact zn
  | some b => exact (putBit_outside _ 2 b maskZNC (by decide) (by decide)).trans zn

/-! ### The results by a count as arithmetic (R344 to R353) -/

theorem shiftL_eq_ofNat : shiftL v n = BitVec.ofNat 32 (v.toNat * 2 ^ n.toNat) := by
  apply BitVec.eq_of_toNat_eq
  rw [shiftL, BitVec.toNat_shiftLeft, Nat.shiftLeft_eq, BitVec.toNat_ofNat]

/-- A right shift divides; the rotation uses it with the count 32, which no instruction has. -/
theorem ushiftRight_eq_ofNat (k : Nat) : v >>> k = BitVec.ofNat 32 (v.toNat / 2 ^ k) := by
  rw [← Nat.shiftRight_eq_div_pow, ← BitVec.toNat_ushiftRight, BitVec.ofNat_toNat,
    BitVec.setWidth_eq]

theorem shiftRU_eq_ofNat : shiftRU v n = BitVec.ofNat 32 (v.toNat / 2 ^ n.toNat) :=
  ushiftRight_eq_ofNat v n.toNat

theorem shiftRS_eq_ofInt : shiftRS v n = BitVec.ofInt 32 (v.toInt / 2 ^ n.toNat) := by
  rw [shiftRS, BitVec.sshiftRight, Int.shiftRight_eq_div_pow]
  norm_cast

/-- The bits that a rotation brings in at the bottom stand in the zeros that the shift leaves. -/
theorem rotL_eq_ofNat :
    rotL v n = BitVec.ofNat 32 (v.toNat * 2 ^ n.toNat + v.toNat / 2 ^ (32 - n.toNat)) := by
  have apart : v <<< n.toNat &&& v >>> (32 - n.toNat) = 0#32 := by
    ext i hi
    by_cases low : i < n.toNat
    · simp [low]
    · simp [BitVec.getLsbD_of_ge v (32 - n.toNat + i) (by omega)]
  rw [rotL, BitVec.rotateLeft_def, Nat.mod_eq_of_lt n.isLt,
    ← BitVec.add_eq_or_of_and_eq_zero _ _ apart, BitVec.ofNat_add]
  exact congrArg₂ (· + ·) (shiftL_eq_ofNat v n) (ushiftRight_eq_ofNat v _)

end

/-! ### The single-bit shifts through C as arithmetic (R346, R351) -/

theorem append_carry (v : Word) (c : Bool) :
    fld v 0 31 ++ BitVec.ofBool c = BitVec.ofNat 32 (2 * v.toNat + c.toNat) := by
  apply BitVec.eq_of_toNat_eq
  rw [BitVec.toNat_append, BitVec.toNat_ofBool,
    ← Nat.shiftLeft_add_eq_or_of_lt (by cases c <;> decide), BitVec.extractLsb'_toNat,
    BitVec.toNat_ofNat, Nat.shiftLeft_eq]
  have := c.toNat_le
  omega

theorem carry_append (v : Word) (c : Bool) :
    BitVec.ofBool c ++ fld v 1 31 = BitVec.ofNat 32 (v.toNat / 2 + 2 ^ 31 * c.toNat) := by
  apply BitVec.eq_of_toNat_eq
  rw [BitVec.toNat_append, ← Nat.shiftLeft_add_eq_or_of_lt (fld v 1 31).isLt,
    BitVec.toNat_ofBool, BitVec.extractLsb'_toNat, BitVec.toNat_ofNat, Nat.shiftLeft_eq,
    Nat.shiftRight_eq_div_pow]
  have := c.toNat_le
  omega

/-! ### The bytes of `b2swap.r` (R354) -/

theorem fld_byteSwap2 (v : Word) :
    fld (byteSwap2 v) 0 8 = fld v 8 8 ∧ fld (byteSwap2 v) 8 8 = fld v 0 8
      ∧ fld (byteSwap2 v) 16 8 = fld v 24 8 ∧ fld (byteSwap2 v) 24 8 = fld v 16 8 := by
  unfold byteSwap2
  refine ⟨?byte0, ?byte1, ?byte2, ?byte3⟩
  case byte0 => rw [fld, BitVec.extractLsb'_append_eq_right]
  case byte1 =>
    rw [fld, BitVec.extractLsb'_append_eq_of_le (by decide), BitVec.extractLsb'_append_eq_right]
  case byte2 =>
    rw [fld, BitVec.extractLsb'_append_eq_of_le (by decide),
      BitVec.extractLsb'_append_eq_of_le (by decide), BitVec.extractLsb'_append_eq_right]
  case byte3 =>
    rw [fld, BitVec.extractLsb'_append_eq_of_le (by decide),
      BitVec.extractLsb'_append_eq_of_le (by decide), BitVec.extractLsb'_append_eq_left]

section
variable {s : State} {i : Instr} {rd : Reg} {v : Word} {n : BitVec 5}

/-! ### What each kind of shift completes with -/

theorem completes_shift {c : Option Bool} (h : exec i s = shiftTo i rd v c s) :
    Completes i s fun t => ShiftResult s t rd v c :=
  ⟨_, h, rfl, reg_result_same s rd v (shiftFlags s.flags v c),
    ⟨flagZ_shiftFlags _ _ _, flagN_shiftFlags _ _ _⟩, flagC_shiftFlags _ _ _,
    onlyRegs_result rd v i.length (shiftFlags_outside _ _ _)⟩

theorem completes_shiftL (h : exec i s = shiftTo i rd (shiftL v n) (shiftLOut v n) s) :
    Completes i s fun t => ShiftResult s t rd (BitVec.ofNat 32 (v.toNat * 2 ^ n.toNat))
      (shiftLOut v n) := by
  rw [← shiftL_eq_ofNat]
  exact completes_shift h

theorem completes_shiftRU (h : exec i s = shiftTo i rd (shiftRU v n) (shiftROut v n) s) :
    Completes i s fun t => ShiftResult s t rd (BitVec.ofNat 32 (v.toNat / 2 ^ n.toNat))
      (shiftROut v n) := by
  rw [← shiftRU_eq_ofNat]
  exact completes_shift h

theorem completes_shiftRS (h : exec i s = shiftTo i rd (shiftRS v n) (shiftROut v n) s) :
    Completes i s fun t => ShiftResult s t rd (BitVec.ofInt 32 (v.toInt / 2 ^ n.toNat))
      (shiftROut v n) := by
  rw [← shiftRS_eq_ofInt]
  exact completes_shift h

theorem completes_rotL (h : exec i s = shiftTo i rd (rotL v n) (rotLOut v n) s) :
    Completes i s fun t =>
      let r := BitVec.ofNat 32 (v.toNat * 2 ^ n.toNat + v.toNat / 2 ^ (32 - n.toNat))
      ShiftResult s t rd r (lastOut n (r.getLsbD 0)) := by
  rw [← rotL_eq_ofNat]
  exact completes_shift h

end

/-! ### O47, O48 -/

/-- Settles O47: each form is one of the four shifts of its operand by its count. -/
theorem shiftsComplete : Obligations.ShiftsComplete := by
  intro s rd rs rt n last left rightU rightS rot k
  exact ⟨completes_shiftL rfl, completes_shiftL rfl, completes_shiftRU rfl, completes_shiftRU rfl,
    completes_shiftRS rfl, completes_shiftRS rfl, completes_rotL rfl, completes_rotL rfl,
    completes_shiftL rfl, completes_shiftRU rfl, completes_shiftRS rfl, completes_rotL rfl⟩

/-- Settles O48: C is shifted in as one bit of the result; `b2swap.r` writes only Rd, Z and N. -/
theorem carryShiftsAndByteSwapComplete : Obligations.CarryShiftsAndByteSwapComplete := by
  intro s rd rs x
  rw [← append_carry, ← carry_append]
  exact ⟨completes_shift rfl, completes_shift rfl,
    (completes_value (v := byteSwap2 x) rfl).mono fun _ result => ⟨_, result, fld_byteSwap2 x⟩⟩

end Sys2Proof.Machine
end

section
/-! PROOF of O50 (47_block.md): a whole block store. First what a count in S leaves of FLAGS and of
the mode; then what has been done after the first bytes, and how one more step extends it; then the
run to the last byte. -/

namespace Sys2Proof.Machine

section
variable {s t u : State} {src : BlkSrc} {ra : Reg} {num : BitVec 8} {k : Nat}

/-! ### FLAGS but for the count -/

/-- A count in S does not change the mode. -/
theorem FlagsBut.mode (h : FlagsBut s t maskS) (info : t.info = s.info) : t.mode = s.mode := by
  obtain ⟨-, other, specials, outside⟩ := StackFrame.refl s
  have counted : StackFrame s { s with flags := t.flags } maskS := ⟨h, other, specials, outside⟩
  exact (mode_congr { s with flags := t.flags } t rfl info).trans counted.mode

/-- Where S has its old value again, all of FLAGS has. -/
theorem FlagsBut.eq_of_flagS (h : FlagsBut s t maskS) (count : flagS t.flags = flagS s.flags) :
    t.flags = s.flags := by
  have parts (f : Word) : (f &&& maskS) ||| (f &&& ~~~maskS) = f := by
    rw [← BitVec.and_or_distrib_left]
    exact BitVec.and_allOnes
  calc t.flags = (t.flags &&& maskS) ||| (s.flags &&& ~~~maskS) := by rw [← h, parts]
    _ = flagS t.flags ++ fld s.flags 0 24 := (flagS_append _ _).symm
    _ = flagS s.flags ++ fld s.flags 0 24 := by rw [count]
    _ = (s.flags &&& maskS) ||| (s.flags &&& ~~~maskS) := flagS_append _ _
    _ = s.flags := parts _

theorem OutsideButDraws.trans (h : OutsideButDraws s t) (g : OutsideButDraws t u) :
    OutsideButDraws s u := by
  obtain ⟨exe, system, dev, clu, sent, ahead, event⟩ := h
  obtain ⟨exe', system', dev', clu', sent', ahead', event'⟩ := g
  exact ⟨exe'.trans exe, system.trans system', dev'.trans dev, clu'.trans clu, sent'.trans sent,
    ahead'.trans ahead, event'.trans event⟩

/-! ### The source from one byte to the next -/

/-- Replication does not change the byte that is stored. -/
theorem Replicated.blkStored_eq (h : Replicated src s t) : blkStored src t = blkStored src s := by
  cases src with
  | reg rs => exact h rs rfl 0 (by decide)
  | zero => rfl
  | ones => rfl

theorem Replicated.of_blkStored_eq (h : Replicated src u t)
    (same : blkStored src u = blkStored src s) : Replicated src s t := by
  rintro rs rfl j hj
  exact (h rs rfl j hj).trans same

/-! ### The first bytes of a fill -/

/-- From `s` to `t` a block store has filled its first `k` bytes; of the rest only PC, the address
and the source register, S, the mark of a data breakpoint, the numbers of the draws and of the bytes
done, and what a prefetch buffer keeps may have changed. -/
structure FillDone (s t : State) (src : BlkSrc) (ra : Reg) (k : Nat) : Prop where
  memory : Memory.wf t.mem = true
  filled : ∀ j : Nat, j < k → read8 t.mem (s.reg ra + BitVec.ofNat 32 j) = blkStored src s
  kept : MemSameBut s t (s.reg ra) k
  source : blkStored src t = blkStored src s
  regs : RegsBut s t (ra :: srcRegs src)
  flags : FlagsBut s t maskS
  pointers : StacksSame s t
  specials : SpecialsSame s t
  outside : OutsideButDraws s t
  stale : s.params.prefetchBytes = 0 → t.stale = s.stale

theorem FillDone.none (src : BlkSrc) (ra : Reg) (wf : Memory.wf s.mem = true) :
    FillDone s s src ra 0 where
  memory := wf
  filled _ hj := absurd hj (Nat.not_lt_zero _)
  kept _ _ := rfl
  source := rfl
  regs _ _ := rfl
  flags := rfl
  pointers := ⟨rfl, rfl⟩
  specials := ⟨rfl, rfl, rfl, rfl, rfl, rfl, rfl, rfl⟩
  outside := ⟨rfl, ⟨rfl, rfl, rfl, rfl, rfl, rfl, rfl, rfl⟩, rfl, rfl, rfl, rfl, rfl⟩
  stale _ := rfl

/-- One more byte is filled, in the frame of a block instruction's step. -/
theorem FillDone.next (h : FillDone s u src ra k) (wf : Memory.wf t.mem = true)
    (frame : BlockFrame u t (ra :: srcRegs src) (s.reg ra + BitVec.ofNat 32 k))
    (byte : read8 t.mem (s.reg ra + BitVec.ofNat 32 k) = blkStored src u)
    (source : Replicated src u t) : FillDone s t src ra (k + 1) := by
  obtain ⟨regs, flags, ⟨sp0, sp1⟩, specials, outside, kept, stale⟩ := frame
  obtain ⟨sp0', sp1'⟩ := h.pointers
  have other (b : Word) (apart : b ≠ s.reg ra + BitVec.ofNat 32 k) :
      read8 t.mem b = read8 u.mem b :=
    kept b fun j hj => by rwa [Nat.lt_one_iff.mp hj, BitVec.add_zero]
  have params : u.params = s.params := by
    obtain ⟨-, ⟨-, params, -⟩, -⟩ := h.outside
    exact params
  refine ⟨wf, fun j hj => ?filled, fun b apart => ?kept, source.blkStored_eq.trans h.source,
    fun r hr => (regs r hr).trans (h.regs r hr), flags.trans h.flags,
    ⟨sp0.trans sp0', sp1.trans sp1'⟩, h.specials.trans specials, h.outside.trans outside,
    fun none => ?stale⟩
  case filled =>
    by_cases last : s.reg ra + BitVec.ofNat 32 j = s.reg ra + BitVec.ofNat 32 k
    · rw [last, byte, h.source]
    · have before : j < k := Nat.lt_of_le_of_ne (Nat.le_of_lt_succ hj) fun e => last (by rw [e])
      rw [other _ last, h.filled j before]
  case kept =>
    rw [other b (apart k k.lt_succ_self), h.kept b fun j hj => apart j (hj.trans k.lt_succ_self)]
  case stale => rw [stale, staleAfter_none (by rw [params]; exact none), h.stale none]

/-- A write that succeeds before the fill succeeds during it. -/
theorem FillDone.writeOk {w : Width} {a : Word} (h : FillDone s u src ra k)
    (ok : WriteOk s w a) : WriteOk u w a := by
  obtain ⟨-, -, info, -⟩ := h.specials
  obtain ⟨-, ⟨-, -, -, mmu, map, -⟩, -⟩ := h.outside
  unfold WriteOk
  rw [h.flags.mode info]
  exact WriteOkIn_congr mmu map ok

/-! ### One step of a fill -/

theorem blkCount_pos (num : BitVec 8) : 0 < blkCount num := by
  unfold blkCount
  split
  · decide
  · rename_i nonzero
    exact Nat.pos_of_ne_zero fun zero => nonzero (BitVec.eq_of_toNat_eq zero)

theorem blkCount_le (num : BitVec 8) : blkCount num ≤ 256 := by
  unfold blkCount
  split
  · exact le_rfl
  · exact num.isLt.le

/-- A step that stores a byte keeps memory canonical. -/
theorem wf_exec_blkst8I (apart : src ≠ .reg ra) (left : (flagS s.flags).toNat < blkCount num)
    (ok : WriteOk s .byte (s.reg ra)) (wf : Memory.wf s.mem = true)
    (h : exec (.blkst8I src ra num) s = .next t) : Memory.wf t.mem = true := by
  obtain ⟨u, atom, ran⟩ := storeAtom_sourced apart ok
  obtain ⟨v, step, work, -⟩ := blkImmStep_atom (num := num) (.blkst8I src ra num)
    (by rwa [sourced_flags]) atom ran
  have run : exec (.blkst8I src ra num) s = .next v := by
    refine (checkRegs_apart (Bool.eq_false_iff.mpr (mt srcIs_iff.mp apart)) _).trans ?_
    rw [step, settle_done]
  cases run.symm.trans h
  rw [work.only.mem]
  exact wf_write8 _ _ wf

/-- Between two bytes of the fill that began in `s`, `k` of them done. -/
structure FillRunning (s u : State) (src : BlkSrc) (ra : Reg) (k : Nat) : Prop where
  done : FillDone s u src ra k
  pc : u.pc = s.pc
  count : (flagS u.flags).toNat = k
  moved : u.reg ra = s.reg ra + BitVec.ofNat 32 k

/-- The fill `i` that began in `s` is over, `k` bytes done. -/
structure FillEnded (i : Instr) (s t : State) (src : BlkSrc) (ra : Reg) (k : Nat) : Prop where
  done : FillDone s t src ra k
  pc : t.pc = s.pc + i.length
  count : flagS t.flags = 0#8
  replicated : Replicated src s t

/-- One execution fills the next byte, and ends the instruction where that was the last one. -/
theorem exec_next_byte (apart : src ≠ .reg ra) (running : FillRunning s u src ra k)
    (left : k < blkCount num) (ok : WriteOk s .byte (s.reg ra + BitVec.ofNat 32 k)) :
    ∃ t, exec (.blkst8I src ra num) u = .next t
      ∧ (k + 1 < blkCount num → FillRunning s t src ra (k + 1))
      ∧ (k + 1 = blkCount num → FillEnded (.blkst8I src ra num) s t src ra (k + 1)) := by
  obtain ⟨done, pc, rfl, moved⟩ := running
  have ok' : WriteOk u .byte (u.reg ra) := by
    rw [moved]
    exact done.writeOk ok
  obtain ⟨atom, -⟩ := blkst8I_atom src ra num u done.memory
  obtain ⟨t, run, frame, byte, source, more, last⟩ := atom apart left ok'
  rw [moved] at frame byte
  have done' := done.next (wf_exec_blkst8I apart left ok' done.memory run) frame byte source
  refine ⟨t, run, fun inside => ?running, fun ended => ?ended⟩
  case running =>
    obtain ⟨pc', count, moved'⟩ := more inside
    refine ⟨done', pc'.trans pc, ?_, ?_⟩
    · rw [count, BitVec.toNat_add]
      exact Nat.mod_eq_of_lt (inside.trans_le (blkCount_le num))
    · rw [moved' ra (List.mem_singleton_self ra), moved, BitVec.add_assoc, ← BitVec.ofNat_add]
  case ended =>
    obtain ⟨pc', count, -⟩ := last ended
    exact ⟨done', by rw [pc', pc], count, source.of_blkStored_eq done.source⟩

/-! ### The whole fill -/

/-- From the next byte on, as many executions as bytes are left end the instruction. -/
theorem execTimes_from_byte (apart : src ≠ .reg ra)
    (ok : ∀ j : Nat, j < blkCount num → WriteOk s .byte (s.reg ra + BitVec.ofNat 32 j))
    {rest : Nat} (left : k + (rest + 1) = blkCount num) (running : FillRunning s u src ra k) :
    ∃ t, execTimes (.blkst8I src ra num) (rest + 1) u = .next t
      ∧ FillEnded (.blkst8I src ra num) s t src ra (blkCount num) := by
  induction rest generalizing k u with
  | zero =>
    obtain ⟨t, run, -, last⟩ :=
      exec_next_byte (num := num) apart running (by omega) (ok k (by omega))
    exact ⟨t, execTimes_next run 0, left ▸ last left⟩
  | succ rest ih =>
    obtain ⟨t, run, more, -⟩ :=
      exec_next_byte (num := num) apart running (by omega) (ok k (by omega))
    rw [execTimes_next run]
    exact ih (by omega) (more (by omega))

/-- A whole `blkst.8.i` (R361, R367). -/
theorem execTimes_blkst8I (apart : src ≠ .reg ra) (wf : Memory.wf s.mem = true)
    (start : flagS s.flags = 0#8)
    (ok : ∀ j : Nat, j < blkCount num → WriteOk s .byte (s.reg ra + BitVec.ofNat 32 j)) :
    ∃ t, execTimes (.blkst8I src ra num) (blkCount num) s = .next t
      ∧ FillEnded (.blkst8I src ra num) s t src ra (blkCount num) := by
  obtain ⟨rest, count⟩ := Nat.exists_eq_succ_of_ne_zero (blkCount_pos num).ne'
  have running : FillRunning s s src ra 0 :=
    ⟨.none src ra wf, rfl, by rw [start]; rfl, (BitVec.add_zero _).symm⟩
  have whole := execTimes_from_byte apart ok (rest := rest) (by omega) running
  rwa [← Nat.succ_eq_add_one, ← count] at whole

end

/-! ### O50 -/

/-- Settles O50: the run has filled one more byte after each step, and the last one clears S. -/
theorem blockStoreFills : Obligations.BlockStoreFills := by
  intro s src ra num wf apart start n ok
  obtain ⟨t, run, done, pc, count, replicated⟩ := execTimes_blkst8I apart wf start ok
  exact ⟨t, run, pc, done.filled, done.kept, replicated, done.regs, done.stale,
    done.flags.eq_of_flagS (count.trans start.symm), done.pointers, done.specials, done.outside⟩

end Sys2Proof.Machine
end

section
/-! PROOF of O15 (60_exceptions.md): what a User mode instruction keeps. `State.guarded` is what it
may not change; a part of an instruction either leaves that alone (`Confined`, `ConfinedWork`) or
ends in an exception, which marks its entry. -/

namespace Sys2Proof.Machine

/-! ### What User mode may not change -/

/-- FLAGS outside Z, N, C, V, A and S: the mode, the interrupt enable and priority, and FREE bits. -/
def guardedFlags (f : Word) : Word := f &&& ~~~0xFFFF000F#32

/-- The privileged state, and the execution state (R452, R453). -/
def State.guarded (s : State) : Word × (Word × Word × Word × Word) × (Word × Word × Word × Word × Word)
    × Bool × ExecState :=
  (guardedFlags s.flags, (s.sp0, s.gp, s.vp, s.info), (s.brke, s.brk0, s.brk1, s.brk2, s.brk3),
    s.runToBreak, s.exe)

section
variable {s t : State}

theorem flagM_of_guardedFlags {f g : Word} (h : guardedFlags f = guardedFlags g) :
    flagM f = flagM g := by
  have bits (x : Word) : flagM (guardedFlags x) = flagM x := by
    apply BitVec.eq_of_getLsbD_eq
    intro k hk
    have outside : (0xFFFF000F#32).getLsbD (4 + k) = false := by interval_cases k <;> rfl
    unfold flagM fld guardedFlags
    rw [BitVec.getLsbD_extractLsb', BitVec.getLsbD_extractLsb', BitVec.getLsbD_and,
      BitVec.getLsbD_not, outside]
    simp [show 4 + k < 32 by omega]
  rw [← bits f, ← bits g, h]

/-- The mode is privileged state. -/
theorem mode_of_guarded (h : t.guarded = s.guarded) : t.mode = s.mode := by
  simp only [State.guarded, Prod.mk.injEq] at h
  obtain ⟨flags, ⟨-, -, -, info⟩, -⟩ := h
  unfold State.mode
  rw [info, flagM_of_guardedFlags flags]

theorem isUser_of_guarded (h : t.guarded = s.guarded) (user : s.isUser = true) :
    t.isUser = true := by
  rw [isUser_iff] at *
  exact (mode_of_guarded h).trans user

/-! ### The flags that User mode may write -/

/-- A write of a field of Z, N, C, V, of A or of S. -/
theorem guardedFlags_putField (f : Word) (lo len : Nat) (v : BitVec len) (h : lo + len ≤ 32)
    (writable : ∀ i, lo ≤ i → i < lo + len → (0xFFFF000F#32).getLsbD i = true) :
    guardedFlags (putField f lo len v) = guardedFlags f :=
  putField_outside f lo len v _ h writable

theorem guardedFlags_high (f : Word) (lo len : Nat) (v : BitVec len) (h : lo + len ≤ 32)
    (high : 16 ≤ lo) : guardedFlags (putField f lo len v) = guardedFlags f :=
  guardedFlags_putField f lo len v h fun i _ _ => by
    have : i < 32 := by omega
    have : 16 ≤ i := by omega
    interval_cases i <;> rfl

theorem guardedFlags_low (f : Word) (lo len : Nat) (v : BitVec len) (h : lo + len ≤ 4) :
    guardedFlags (putField f lo len v) = guardedFlags f :=
  guardedFlags_putField f lo len v (by omega) fun i _ _ => by
    have : i < 4 := by omega
    interval_cases i <;> rfl

theorem guardedFlags_putZN (f : Word) (z n : Bool) : guardedFlags (putZN f z n) = guardedFlags f :=
  guardedFlags_low f 0 2 _ (by decide)

theorem guardedFlags_putZNCV (f : Word) (z n c v : Bool) :
    guardedFlags (putZNCV f z n c v) = guardedFlags f :=
  guardedFlags_low f 0 4 _ (by decide)

theorem guardedFlags_putBit (f : Word) {k : Nat} (b : Bool) (h : k < 4) :
    guardedFlags (putBit f k b) = guardedFlags f :=
  guardedFlags_low f k 1 _ h

theorem guardedFlags_shiftFlags (f v : Word) (c : Option Bool) :
    guardedFlags (shiftFlags f v c) = guardedFlags f := by
  cases c with
  | none => exact guardedFlags_putZN f _ _
  | some b => exact (guardedFlags_putBit _ b (by decide)).trans (guardedFlags_putZN f _ _)

/-! ### What each update leaves -/

theorem guarded_setFlags (s : State) {f : Word} (h : guardedFlags f = guardedFlags s.flags) :
    (s.setFlags f).guarded = s.guarded := by
  simp [State.guarded, h]

theorem guarded_result (s : State) (rd : Reg) (v : Word) {f : Word}
    (h : guardedFlags f = guardedFlags s.flags) : (s.result rd v f).guarded = s.guarded :=
  guarded_setFlags (s.setReg rd v) h

theorem guarded_setDone (s : State) (k : Nat) : (s.setDone k).guarded = s.guarded :=
  guarded_setFlags s (guardedFlags_high _ 24 8 _ (by decide) (by decide))

theorem guarded_setS (s : State) (k : Nat) : (s.setS k).guarded = s.guarded :=
  guarded_setDone s k

/-- `%sp` is SP1 in User mode, which is not privileged (R30). -/
theorem guarded_setSp (user : s.isUser = true) (v : Word) : (s.setSp v).guarded = s.guarded := by
  have sp1 : s.spIsSp0 = false := by
    unfold State.spIsSp0
    rw [(isUser_iff s).mp user]
  simp [State.guarded, setSp_sp0, sp1]

theorem guarded_flagsUsed (s : State) : s.flagsUsed.guarded = s.guarded := by simp [State.guarded]

theorem guarded_copyDrawn (s : State) (d : Bool) : (s.copyDrawn d).guarded = s.guarded := by
  simp [State.guarded]

theorem guarded_sourced (s : State) (src : BlkSrc) : (s.sourced src).guarded = s.guarded := by
  simp [State.guarded]

theorem guarded_memoryOnly (h : MemoryOnly s t) : t.guarded = s.guarded := by
  obtain ⟨m, l, d, rfl, -, -⟩ := h
  rfl

theorem guarded_blkRegsEnd (s : State) (ends : List Reg) :
    (s.blkRegsEnd ends).guarded = s.guarded := by
  unfold State.blkRegsEnd
  split
  · induction ends generalizing s with
    | nil => rfl
    | cons r ends ih => exact ih (s.drawReg r) ‹_›
  · rfl

theorem guarded_blkEnd (s : State) (i : Instr) (ends : List Reg) :
    (blkEnd i ends s).guarded = s.guarded :=
  (guarded_blkRegsEnd _ _).trans (guarded_setDone s 0)

/-! ### Exceptions mark their entry -/

theorem event_resetInto {off : Word} (h : resetInto s off = .next t) : t.event = s.event := by
  obtain ⟨u, vp, pc, ⟨m, l, d, rfl, -, -⟩, rfl, -, -⟩ := resetInto_next h
  rfl

theorem event_softReset {ty : BitVec 3} {n : BitVec 5} {p : Word}
    (h : softReset ty n p s = .next t) : t.event = true := event_resetInto h

theorem event_enterVector {m : Mode} {a : Word} (h : enterVector m a s = .next t) :
    t.event = true := by
  obtain ⟨u, v, -, rfl, -⟩ := enterVector_next h
  rfl

theorem event_raiseError {k : ErrorKind} {p : BitVec 4} {ret tp ep : Word}
    (h : raiseError k p ret tp ep s = .next t) : t.event = true := by
  unfold raiseError at h
  split at h
  · exact event_softReset h
  · split at h
    · exact event_softReset h
    · simp only at h
      split at h
      · exact event_softReset h
      · cases h
      · exact event_enterVector h

theorem event_raiseService {nt ns : BitVec 5} {arg ret er tp ep : Word}
    (h : raiseService nt ns arg ret er tp ep s = .next t) : t.event = true := by
  unfold raiseService at h
  split at h
  · exact event_softReset h
  · split at h
    · split at h
      · exact event_softReset h
      · split at h
        · exact event_raiseError h
        · cases h
        · exact event_enterVector h
    · split at h
      · exact event_softReset h
      · split at h
        · exact event_softReset h
        · cases h
        · exact event_enterVector h

theorem event_takeTrap {x : Trap} (h : takeTrap x s = .next t) : t.event = true := by
  cases x with
  | error k p r => exact event_raiseError h
  | stackGuard => exact event_softReset h
  | refuse r => cases h

/-! ### Outcomes and attempts -/

/-- What an instruction that begins in `s` comes to: a state with the same privileged state, or an
exception. -/
def Confined (s : State) (o : Host.Outcome State Fault Refusal) : Prop :=
  ∀ t, o = .next t → t.event = false → t.guarded = s.guarded

/-- An instruction's work that is done has the privileged state of `s`. -/
def ConfinedWork {α : Type} (s : State) (r : Attempt α) : Prop :=
  ∀ a t, r = .done a t → t.guarded = s.guarded

theorem confined_next (h : t.guarded = s.guarded) : Confined s (.next t) := by
  rintro _ ⟨⟩ -
  exact h

/-- What always marks an entry is confined: it changes the privileged state as an exception only. -/
theorem confined_of_event {o : Host.Outcome State Fault Refusal}
    (h : ∀ t, o = .next t → t.event = true) : Confined s o :=
  fun t ht quiet => absurd (h t ht) (by rw [quiet]; decide)

theorem confined_takeTrap (s t : State) (x : Trap) : Confined s (takeTrap x t) :=
  confined_of_event fun _ => event_takeTrap

theorem confined_settle {r : Attempt Unit} (h : ConfinedWork s r) : Confined s (settle r) := by
  cases r with
  | done a t => exact confined_next (h a t rfl)
  | trap x t => exact confined_takeTrap s t x

theorem confinedWork_done {α : Type} (a : α) (h : t.guarded = s.guarded) :
    ConfinedWork s (.done a t) := by
  rintro _ _ ⟨⟩
  exact h

theorem confinedWork_trap {α : Type} (x : Trap) : ConfinedWork s (.trap x t : Attempt α) := by
  rintro _ _ ⟨⟩

theorem confinedWork_andThen {α β : Type} {r : Attempt α} {k : α → State → Attempt β}
    (h : ConfinedWork s r) (hk : ∀ a t, t.guarded = s.guarded → ConfinedWork s (k a t)) :
    ConfinedWork s (andThen r k) := by
  cases r with
  | done a t => exact hk a t (h a t rfl)
  | trap x t => exact confinedWork_trap x

/-! ### Parts of an instruction's work -/

theorem confinedWork_spGuard (h : t.guarded = s.guarded) (u : Bool) :
    ConfinedWork s (spGuard u t) := by
  rcases spGuard_cases u t with e | ⟨e, -, -⟩ <;> rw [e]
  · exact confinedWork_done () h
  · exact confinedWork_trap _

theorem confinedWork_readData (h : t.guarded = s.guarded) (w : Width) (a : Word) :
    ConfinedWork s (readData w a t) := by
  unfold readData
  rcases readDataP_cases 0#4 w a t with ⟨k, -, e⟩ | ⟨-, ⟨r, e⟩ | ⟨v, u, g, e⟩⟩ <;> rw [e]
  · exact confinedWork_trap _
  · exact confinedWork_trap _
  · exact confinedWork_done v ((guarded_memoryOnly (load_memoryOnly g)).trans h)

theorem confinedWork_writeData (h : t.guarded = s.guarded) (w : Width) (a v : Word) :
    ConfinedWork s (writeData w a v t) := by
  rcases writeData_cases w a v t with ⟨k, -, e⟩ | ⟨-, ⟨r, e⟩ | ⟨u, g, e⟩⟩ <;> rw [e]
  · exact confinedWork_trap _
  · exact confinedWork_trap _
  · exact confinedWork_done () ((guarded_memoryOnly (store_memoryOnly g)).trans h)

theorem confinedWork_branchTo (h : t.guarded = s.guarded) (p : BitVec 4) (v : Word) :
    ConfinedWork s (branchTo p v t) := by
  intro a u e
  obtain ⟨-, rfl⟩ := branchTo_done e
  exact h

theorem confinedWork_pushWord (user : s.isUser = true) (h : t.guarded = s.guarded) (v : Word) :
    ConfinedWork s (pushWord v t) :=
  confinedWork_andThen (confinedWork_writeData h _ _ _) fun _ _ h =>
    confinedWork_done () ((guarded_setSp (isUser_of_guarded h user) _).trans h)

theorem confinedWork_popWord (user : s.isUser = true) (h : t.guarded = s.guarded) :
    ConfinedWork s (popWord t) :=
  confinedWork_andThen (confinedWork_readData h _ _) fun _ _ h =>
    confinedWork_done _ ((guarded_setSp (isUser_of_guarded h user) _).trans h)

/-! ### The ends of instructions -/

theorem confined_finish (h : t.guarded = s.guarded) (i : Instr) : Confined s (finish i t) :=
  confined_next h

theorem confined_setFlags (i : Instr) {f : Word} (h : guardedFlags f = guardedFlags s.flags) :
    Confined s (finish i (s.setFlags f)) := confined_finish (guarded_setFlags s h) i

theorem confined_giveResult (i : Instr) (rd : Reg) (v : Word) {f : Word}
    (h : guardedFlags f = guardedFlags s.flags) : Confined s (giveResult i rd v f s) :=
  confined_finish (guarded_result s rd v h) i

/-- Rd with Z and N: moves, logic, multiplications, and the reads of fields and registers. -/
theorem confined_putZN (i : Instr) (rd : Reg) (v : Word) (z n : Bool) :
    Confined s (giveResult i rd v (putZN s.flags z n) s) :=
  confined_giveResult i rd v (guardedFlags_putZN _ _ _)

/-- Rd with Z, N, C and V: additions and subtractions. -/
theorem confined_putZNCV (i : Instr) (rd : Reg) (v : Word) (z n c o : Bool) :
    Confined s (giveResult i rd v (putZNCV s.flags z n c o) s) :=
  confined_giveResult i rd v (guardedFlags_putZNCV _ _ _ _ _)

/-- A compare. -/
theorem confined_compare (i : Instr) (z n c o : Bool) :
    Confined s (finish i (s.setFlags (putZNCV s.flags z n c o))) :=
  confined_setFlags i (guardedFlags_putZNCV _ _ _ _ _)

theorem confined_shiftTo (i : Instr) (rd : Reg) (v : Word) (c : Option Bool) :
    Confined s (shiftTo i rd v c s) := confined_giveResult i rd v (guardedFlags_shiftFlags _ _ _)

theorem confined_privilegedP (user : s.isUser = true) (p : BitVec 4)
    (o : Host.Outcome State Fault Refusal) : Confined s (privilegedP p s o) := by
  rw [privilegedP_user p user]
  exact confined_takeTrap s s _

theorem confined_privileged (user : s.isUser = true) (o : Host.Outcome State Fault Refusal) :
    Confined s (privileged s o) := confined_privilegedP user 0#4 o

/-! ### Families of instructions -/

theorem confined_branchIf (h : t.guarded = s.guarded) (c : Bool) (v : Word) (i : Instr) :
    Confined s (branchIf c v i t) := by
  unfold branchIf
  split
  · exact confined_settle (confinedWork_branchTo h _ _)
  · exact confined_finish h i

theorem confinedWork_tableJump (h : t.guarded = s.guarded) (a v : Word) :
    ConfinedWork s (tableJump a v t) := by
  unfold tableJump
  split
  · exact confinedWork_trap _
  · exact confinedWork_branchTo h _ _

theorem confined_bsrI (user : s.isUser = true) (f : JumpForm) : Confined s (execBsrI f s) :=
  confined_settle <| confinedWork_andThen (confinedWork_spGuard rfl true) fun _ _ h =>
    confinedWork_andThen (confinedWork_pushWord user h _) fun _ _ h => confinedWork_branchTo h _ _

theorem confined_braM (f : TableForm) : Confined s (execBraM f s) :=
  confined_settle <| confinedWork_andThen (confinedWork_readData rfl _ _) fun _ _ h =>
    confinedWork_tableJump h _ _

theorem confined_bsrM (user : s.isUser = true) (f : TableForm) : Confined s (execBsrM f s) := by
  refine confined_settle <| confinedWork_andThen (confinedWork_spGuard rfl true) fun _ _ h =>
    confinedWork_andThen (confinedWork_pushWord user h _) fun _ t h => ?_
  have read := confinedWork_readData h .word (s.tableAddr f)
  split <;> rename_i e <;> rw [e] at read
  · exact confinedWork_trap _
  · exact confinedWork_tableJump (read _ _ rfl) _ _

theorem confined_loadInto (i : Instr) (w : Width) (u : Bool) (a : Word) (rd : Reg) :
    Confined s (loadInto i w u a rd s) :=
  confined_settle <| confinedWork_andThen (confinedWork_spGuard rfl u) fun _ _ h =>
    confinedWork_andThen (confinedWork_readData h _ _) fun v t h =>
      confinedWork_done () ((guarded_result t rd v (guardedFlags_putZN _ _ _)).trans h)

theorem confined_storeFrom (i : Instr) (w : Width) (u : Bool) (a v : Word) :
    Confined s (storeFrom i w u a v s) :=
  confined_settle <| confinedWork_andThen (confinedWork_spGuard rfl u) fun _ _ h =>
    confinedWork_andThen (confinedWork_writeData h _ _ _) fun _ _ h => confinedWork_done () h

theorem confined_swapI (rd ra : Reg) : Confined s (execSwapI rd ra s) :=
  confined_settle <| confinedWork_andThen (confinedWork_readData rfl _ _) fun v _ h =>
    confinedWork_andThen (confinedWork_writeData h _ _ _) fun _ t h =>
      confinedWork_done () ((guarded_result t rd v (guardedFlags_putZN _ _ _)).trans h)

theorem confined_checkSeq (size lsb : BitVec 5) {o : Host.Outcome State Fault Refusal}
    (h : Confined s o) : Confined s (checkSeq size lsb s o) := by
  unfold checkSeq
  split
  · exact h
  · exact confined_takeTrap s s _

theorem confined_andI (f : AndIForm) : Confined s (execAndI f s) := by
  cases f with
  | setBits rd rs size lsb => exact confined_checkSeq size lsb (confined_putZN _ rd _ _ _)
  | clearBits rd rs size lsb => exact confined_checkSeq size lsb (confined_putZN _ rd _ _ _)
  | imm | short | one | ff | ffff => exact confined_putZN _ _ _ _ _

theorem confined_movFR (f : MovFForm) : Confined s (execMovFR f s) := by
  cases f with
  | extract rd rs size lsb => exact confined_checkSeq size lsb (confined_putZN _ rd _ _ _)
  | insert rd rs size lsb => exact confined_checkSeq size lsb (confined_putZN _ rd _ _ _)
  | short rd n => exact confined_putZN _ rd _ _ _

theorem confined_movR (user : s.isUser = true) (f : MovRForm) : Confined s (execMovR f s) := by
  have guard : ConfinedWork s (spGuard true s) := confinedWork_spGuard rfl true
  cases f with
  | reg rd rs => exact confined_putZN _ rd _ _ _
  | fromSp rd =>
    exact confined_settle <| confinedWork_andThen guard fun _ t h =>
      confinedWork_done () ((guarded_result t rd s.sp (guardedFlags_putZN _ _ _)).trans h)
  | toSp rs =>
    unfold execMovR
    simp only
    split
    · exact confined_settle <| confinedWork_andThen guard fun _ _ h =>
        confinedWork_done () ((guarded_setSp (isUser_of_guarded h user) _).trans h)
    · exact confined_takeTrap s s _

theorem confined_addFromSp (i : Instr) (rd : Reg) (v : Word) : Confined s (addFromSp i rd v s) :=
  confined_settle <| confinedWork_andThen (confinedWork_spGuard rfl true) fun _ t h =>
    confinedWork_done () ((guarded_result t rd (addC s.sp v false).r
      (guardedFlags_putZNCV _ _ _ _ _)).trans h)

theorem confined_addToSp (user : s.isUser = true) (i : Instr) (v : Word) :
    Confined s (addToSp i v s) :=
  confined_settle <| confinedWork_andThen (confinedWork_spGuard rfl true) fun _ _ h =>
    confinedWork_done () ((guarded_setSp (isUser_of_guarded h user) _).trans h)

theorem confined_addI (user : s.isUser = true) (f : AddIForm) : Confined s (execAddI f s) := by
  cases f with
  | sp | spShort => exact confined_addFromSp _ _ _
  | spsp48 | spsp32 | spspShort => exact confined_addToSp user _ _
  | imm | short | rowA | rowB => exact confined_putZNCV _ _ _ _ _ _ _

theorem confined_divideEnd (h : t.guarded = s.guarded) (i : Instr) (z : Bool) :
    Confined s (divideEnd i z t) := by
  unfold divideEnd
  split
  · exact confined_takeTrap s t _
  · exact confined_finish h i

/-- The end of a division that writes one register; `k` is the flag of R287. -/
theorem confined_divided (i : Instr) (z : Bool) (rd : Reg) (r : Word) {k : Nat} (b : Bool)
    (h : k < 4) : Confined s (divideEnd i z (s.result rd r (putBit (setZN s.flags r) k b))) :=
  confined_divideEnd (guarded_result s rd r
    ((guardedFlags_putBit _ b h).trans (guardedFlags_putZN _ _ _))) i z

theorem confined_divremSR (rdr rdq rt : Reg) : Confined s (execDivremSR rdr rdq rt s) := by
  unfold execDivremSR
  split
  · exact confined_takeTrap s s _
  · exact confined_divideEnd (guarded_result (s.setReg rdq _) rdr _
      (guardedFlags_putBit s.flags _ (by decide))) _ _

theorem confined_divremUR (rdr rdq rt : Reg) : Confined s (execDivremUR rdr rdq rt s) := by
  unfold execDivremUR
  split
  · exact confined_takeTrap s s _
  · exact confined_divideEnd (guarded_result (s.setReg rdq _) rdr _
      (guardedFlags_putBit s.flags _ (by decide))) _ _

theorem confined_cluTo (i : Instr) (q : CluRequest) (rd : Reg) : Confined s (cluTo i q rd s) := by
  unfold cluTo
  split
  · exact confined_finish
      (guarded_result (s.cluTaken q) rd _ (guardedFlags_putZN _ _ _)) i
  · exact confined_takeTrap s _ _
  · exact confined_takeTrap s _ _

theorem confined_cluOnly (i : Instr) (q : CluRequest) : Confined s (cluOnly i q s) := by
  unfold cluOnly
  split
  · exact confined_finish rfl i
  · exact confined_takeTrap s _ _
  · exact confined_takeTrap s _ _

/-! ### Stack instructions -/

theorem confinedWork_runAtom (user : s.isUser = true) (h : t.guarded = s.guarded) (a : StackAtom) :
    ConfinedWork s (runAtom a t) := by
  cases a with
  | store r => exact confinedWork_pushWord user h _
  | storeImm v => exact confinedWork_pushWord user h _
  | load r =>
    exact confinedWork_andThen (confinedWork_popWord user h) fun _ _ h => confinedWork_done () h
  | adjust d =>
    exact confinedWork_done () ((guarded_setSp (isUser_of_guarded h user) _).trans h)

theorem confinedWork_stackStep (user : s.isUser = true) (l : List StackAtom) (i : Instr) :
    ConfinedWork s (stackStep l i s) := by
  refine confinedWork_andThen (confinedWork_spGuard rfl true) fun _ t h => ?_
  split
  · exact confinedWork_done () ((guarded_setS t _).trans h)
  · refine confinedWork_andThen (confinedWork_runAtom user h _) fun _ t h => ?_
    split
    · exact confinedWork_done () ((guarded_setS t _).trans h)
    · exact confinedWork_done () ((guarded_setS t _).trans h)

theorem confinedWork_returnAtom (user : s.isUser = true) (h : t.guarded = s.guarded) :
    ConfinedWork s (returnAtom t) :=
  confinedWork_andThen (confinedWork_popWord user h) fun _ u h =>
    confinedWork_branchTo ((guarded_setS _ 0).trans
      ((guarded_setFlags u (guardedFlags_putZNCV _ _ _ _ _)).trans h)) _ _

theorem confined_popRetStep (user : s.isUser = true) (l : List StackAtom) :
    Confined s (popRetStep l s) := by
  have guard : ConfinedWork s (spGuard true s) := confinedWork_spGuard rfl true
  unfold popRetStep
  split
  · refine confined_settle <| confinedWork_andThen guard fun _ _ h => ?_
    split
    · exact confinedWork_done () h
    · exact confinedWork_andThen (confinedWork_runAtom user h _) fun _ t h =>
        confinedWork_done () ((guarded_setS t _).trans h)
  · split
    · exact confined_settle <| confinedWork_andThen guard fun _ _ h =>
        confinedWork_returnAtom user h
    · split
      · exact confined_takeTrap s _ _
      · rintro _ ⟨⟩

/-! ### Block instructions -/

theorem confinedWork_blkImmStep {atom : State → Attempt Unit} (h : t.guarded = s.guarded)
    (ha : ConfinedWork s (atom t)) (i : Instr) (num : BitVec 8) (ends : List Reg) :
    ConfinedWork s (blkImmStep i num ends atom t) := by
  unfold blkImmStep
  simp only
  split
  · refine confinedWork_andThen ha fun _ u h => ?_
    split
    · exact confinedWork_done () ((guarded_setDone u _).trans h)
    · exact confinedWork_done () ((guarded_blkEnd u i ends).trans h)
  · exact confinedWork_done () ((guarded_blkEnd t i ends).trans h)

theorem confinedWork_blkRegStep {atom : State → Attempt Unit} (h : t.guarded = s.guarded)
    (ha : ConfinedWork s (atom t)) (i : Instr) (rn : Reg) (ends : List Reg) :
    ConfinedWork s (blkRegStep i rn ends atom t) := by
  unfold blkRegStep
  simp only
  split
  · exact confinedWork_done () ((guarded_blkEnd t i ends).trans h)
  · refine confinedWork_andThen ha fun _ u h => ?_
    split
    · exact confinedWork_done () ((guarded_blkEnd (u.setReg rn _) i ends).trans h)
    · exact confinedWork_done () h

theorem confinedWork_blkRead (h : t.guarded = s.guarded) (a : Word) :
    ConfinedWork s (blkRead a t) :=
  confinedWork_andThen (confinedWork_readData h _ _) fun _ _ h => by
    split
    · exact confinedWork_done _ h
    · exact confinedWork_done _ h

theorem confinedWork_blkWrite (h : t.guarded = s.guarded) (a v : Word) :
    ConfinedWork s (blkWrite a v t) :=
  confinedWork_andThen (confinedWork_writeData h _ _ _) fun _ _ h =>
    confinedWork_done () (by
      split
      · exact h
      · exact h)

theorem confinedWork_copyAtom (rad ras : Reg) : ConfinedWork s (copyAtom rad ras s) :=
  confinedWork_andThen (confinedWork_blkRead rfl _) fun _ t h =>
    confinedWork_andThen (confinedWork_blkWrite ((guarded_copyDrawn t _).trans h) _ _) fun _ _ h =>
      confinedWork_done () h

theorem confinedWork_storeAtom (h : t.guarded = s.guarded) (ra : Reg) (v : Word) :
    ConfinedWork s (storeAtom ra v t) :=
  confinedWork_andThen (confinedWork_blkWrite h _ _) fun _ _ h => confinedWork_done () h

theorem confined_checkRegs {r : Attempt Unit} (h : ConfinedWork s r) (clash : Bool) :
    Confined s (checkRegs clash s r) := by
  unfold checkRegs
  split
  · exact confined_takeTrap s s _
  · exact confined_settle h

/-! ### System instructions -/

theorem confined_mov1R (user : s.isUser = true) (f : Mov1Form) : Confined s (execMov1R f s) := by
  cases f with
  | getBit | getI => exact confined_putZN _ _ _ _ _
  | setBit bit rs => exact confined_setFlags _ (guardedFlags_putBit _ _ bit.isLt)
  | setI rs => exact confined_privileged user _
  | iFromC => exact confined_privileged user _
  | cFromI => exact confined_setFlags _ (guardedFlags_putBit _ _ (by decide))

theorem confined_mov8I (v : BitVec 8) : Confined s (execMov8I v s) := by
  unfold execMov8I
  split
  · exact confined_takeTrap s s _
  · exact confined_setFlags _ (guardedFlags_high _ 16 8 v (by decide) (by decide))

theorem confined_movs2r (user : s.isUser = true) (rd : Reg) (c : BitVec 3) :
    Confined s (execMovs2r rd c s) := by
  unfold execMovs2r
  split
  · exact confined_finish ((guarded_result s.flagsUsed rd _
      (guardedFlags_putZN _ _ _)).trans (guarded_flagsUsed s)) _
  · exact confined_privileged user _
  · exact confined_privileged user _
  · exact confined_privileged user _

/-! ### Every instruction -/

/-- What a User mode instruction other than `brk` comes to. -/
theorem confined_exec (user : s.isUser = true) (i : Instr) (h : i ≠ .brk) :
    Confined s (exec i s) := by
  cases i with
  | brk => exact absurd rfl h
  | addNI | addNR | andR | orR | xorR | multI | multR | mult16sI | mult16sR | mult16uI | mult16uR
  | msbitR | flip8R | flip16R | flipR | sext8R | sext16R | fimode => exact confined_putZN _ _ _ _ _
  | movI f | orI f | xorI f => cases f <;> exact confined_putZN _ _ _ _ _
  | addR | addCR | subR | subCR => exact confined_putZNCV _ _ _ _ _ _ _
  | addCI f | subXI f | subXcI f => cases f <;> exact confined_putZNCV _ _ _ _ _ _ _
  | cmpXI | cmpCI | cmpXcI | cmpR | cmpCR | cmp16xI | cmp16cI | cmp16xcI | cmp16R | cmp16cR | cmp8xI
  | cmp8cI | cmp8xcI | cmp8R | cmp8cR => exact confined_compare _ _ _ _ _
  | cmpI f | cmp16I f | cmp8I f => cases f <;> exact confined_compare _ _ _ _ _
  | shiftlR | shiftrSR | shiftrUR | shiftlCI | shiftrCI | rotatelR | b2swapR =>
    exact confined_shiftTo _ _ _ _
  | shiftrSI f | shiftrUI f | shiftlI f | rotatelI f => cases f <;> exact confined_shiftTo _ _ _ _
  | absR rd rs =>
    exact confined_giveResult _ rd _
      ((guardedFlags_putBit _ _ (by decide)).trans (guardedFlags_putZN _ _ _))
  | nop | fill | printR | flush => exact confined_finish rfl _
  | ver | lic => exact confined_finish rfl _
  | rtie => exact confined_privilegedP user 2#4 _
  | halt | sleepnop | sleepsif | sif | softreset | mov1I | mov2I | mov4I | mova2r | movr2a | movb2r
  | movr2b | movr2s => exact confined_privileged user _
  | beq | bne | bleS | bgtS | bltS | bgeS | bleU | bgtU | bcs | bcc | bmi | bpl | bvs | bvc =>
    exact confined_branchIf rfl _ _ _
  | bezR | bnzR =>
    exact confined_branchIf (guarded_setFlags s (guardedFlags_putZNCV _ _ _ _ _)) _ _ _
  | ld8zI | ld16zI | ldI | ld8zR | ld16zR | ldR => exact confined_loadInto _ _ _ _ _
  | st8I | st16I | stI | st8R | st16R | stR => exact confined_storeFrom _ _ _ _ _
  | divSR | divUR | remSR | remUR => exact confined_divided _ _ _ _ _ (by decide)
  | clu | cluS | cluSt => exact confined_cluOnly _ _
  | cluD | cluDs | cluDst => exact confined_cluTo _ _ _
  | syscallI | syscallR => exact confined_of_event fun _ => event_raiseService
  | braI => exact confined_settle (confinedWork_branchTo rfl _ _)
  | bsrI f => exact confined_bsrI user f
  | braM f => exact confined_braM f
  | bsrM f => exact confined_bsrM user f
  | swapI rd ra => exact confined_swapI rd ra
  | push | pop | pushI => exact confined_settle (confinedWork_stackStep user _ _)
  | popRet => exact confined_popRetStep user _
  | movR f => exact confined_movR user f
  | movFR f => exact confined_movFR f
  | addI f => exact confined_addI user f
  | andI f => exact confined_andI f
  | divremSR rdr rdq rt => exact confined_divremSR rdr rdq rt
  | divremUR rdr rdq rt => exact confined_divremUR rdr rdq rt
  | blkcpI =>
    exact confined_checkRegs (confinedWork_blkImmStep rfl (confinedWork_copyAtom _ _) _ _ _) _
  | blkcpR =>
    exact confined_checkRegs (confinedWork_blkRegStep rfl (confinedWork_copyAtom _ _) _ _ _) _
  | blkst8I src =>
    exact confined_checkRegs (confinedWork_blkImmStep (guarded_sourced s src)
      (confinedWork_storeAtom (guarded_sourced s src) _ _) _ _ _) _
  | blkst8R src =>
    exact confined_checkRegs (confinedWork_blkRegStep (guarded_sourced s src)
      (confinedWork_storeAtom (guarded_sourced s src) _ _) _ _ _) _
  | mov1R f => exact confined_mov1R user f
  | mov2R f | mov4R f =>
    cases f with
    | get rd => exact confined_putZN _ rd _ _ _
    | set rs => exact confined_privileged user _
  | mov8R f =>
    cases f with
    | get rd => exact confined_putZN _ rd _ _ _
    | set rs => exact confined_setFlags _ (guardedFlags_high _ 16 8 _ (by decide) (by decide))
  | mov8I v => exact confined_mov8I v
  | movs2r rd c => exact confined_movs2r user rd c

/-- A `brk` that raises nothing changes PC and the execution state at most (R396). -/
theorem brk_quiet (h : exec .brk s = .next t) (quiet : t.event = false) :
    ∃ pc x, t = { s with pc := pc, exe := x } := by
  change execBrk s = .next t at h
  unfold execBrk at h
  split at h
  · exact absurd (event_raiseService h) (by rw [quiet]; decide)
  · split at h
    · cases h; exact ⟨_, _, rfl⟩
    · cases h; exact ⟨_, _, rfl⟩

/-- The privileged state of `t` is that of `s`, the execution state of another one. -/
theorem guarded_eq_of_exec (user : s.isUser = true) {i : Instr} (h : exec i s = .next t)
    (quiet : t.event = false) :
    ∃ x, t.guarded = State.guarded { s with exe := x } ∧ (i ≠ .brk → x = s.exe) := by
  by_cases brk : i = .brk
  · subst brk
    obtain ⟨pc, x, rfl⟩ := brk_quiet h quiet
    exact ⟨x, rfl, fun no => absurd rfl no⟩
  · exact ⟨s.exe, confined_exec user i brk t h quiet, fun _ => rfl⟩

end

/-! ### O15 -/

/-- Settles O15: every instruction but `brk` is confined, and `brk` but for the execution state. -/
theorem userModeKeepsPrivilegedState : Obligations.UserModeKeepsPrivilegedState := by
  intro i s t user h quiet
  obtain ⟨x, same, awake⟩ := guarded_eq_of_exec user h quiet
  have mode : t.mode = .user := (isUser_iff t).mp (isUser_of_guarded same user)
  simp only [State.guarded, Prod.mk.injEq] at same
  obtain ⟨flags, ⟨sp0, gp, vp, info⟩, ⟨brke, brk0, brk1, brk2, brk3⟩, run, exe⟩ := same
  exact ⟨flags, sp0, gp, vp, info, brke, brk0, brk1, brk2, brk3, run, mode,
    fun other => exe.trans (awake other)⟩

end Sys2Proof.Machine
end

section
/-! PROOF of O51, O16, O52 and O53 (48_dsp_clu.md, 49_system.md). First the values and replies of the
DSP and CLU instructions; then the privileged forms, the halting and sleeping ones, and the fields
of FLAGS. -/

namespace Sys2Proof.Machine

section
variable {s : State} {i : Instr}

/-! ### Values of the DSP instructions -/

/-- The absolute value, modulo 2^32 (R374). -/
theorem absOf_eq_ofNat (v : Word) : absOf v = BitVec.ofNat 32 v.toInt.natAbs := by
  have abs : absOf v = v.abs := by
    rw [absOf, BitVec.abs_eq, BitVec.zero_sub]
    rfl
  have magnitude := BitVec.toInt_eq_msb_cond v
  apply BitVec.eq_of_toNat_eq
  rw [abs, BitVec.toNat_abs, BitVec.toNat_ofNat]
  cases sign : v.msb
  · simp [sign] at magnitude
    simp
    omega
  · simp [sign] at magnitude
    have high := BitVec.le_toNat_of_msb_true sign
    simp
    omega

theorem absOf_eq_zero_iff (v : Word) : absOf v = 0#32 ↔ v = 0#32 := by
  unfold absOf
  split
  · rw [BitVec.zero_sub, BitVec.neg_eq_zero_iff]
  · exact Iff.rfl

/-- `abs.r` writes Z, clears N, and marks 0x80000000 in V (R374). -/
theorem completes_abs (rd rs : Reg) :
    Completes (.absR rd rs) s fun t => t.reg rd = BitVec.ofNat 32 (s.reg rs).toInt.natAbs
      ∧ flagZ t.flags = (s.reg rs == 0#32) ∧ flagN t.flags = false
      ∧ flagV t.flags = (s.reg rs == 0x80000000#32) ∧ OnlyRegs s t [rd] maskZNV := by
  have zero : (absOf (s.reg rs) == 0#32) = (s.reg rs == 0#32) :=
    Bool.eq_iff_iff.mpr (by simp only [beq_iff_eq, absOf_eq_zero_iff])
  have low (f : Word) (k : Nat) (hk : k < 3) (b : Bool) : (putBit f 3 b).getLsbD k = f.getLsbD k :=
    putBit_other f 3 k b (by decide) (by omega) (by omega)
  refine ⟨_, rfl, rfl, (get_set_same s.regs rd _).trans (absOf_eq_ofNat _), ?_, ?_,
    putBit_same _ 3 _ (by decide), onlyRegs_result rd _ _ ?_⟩
  · exact (low _ 0 (by decide) _).trans ((flagZ_putZN _ _ _).trans zero)
  · exact (low _ 1 (by decide) _).trans (flagN_putZN _ _ _)
  · refine (putBit_outside _ 3 _ maskZNV (by decide) (by decide)).trans
      (putField_outside _ 0 2 _ maskZNV (by decide) fun k _ hk => ?_)
    interval_cases k <;> rfl

/-- `r` is one more than the place of the highest 1 of `v` below bit `n`, or 0 (R375). -/
def HighestBelow (v : Word) (n : Nat) (r : Word) : Prop :=
  ((∀ k, k < n → v.getLsbD k = false) ∧ r = 0#32)
    ∨ ∃ k, k < n ∧ v.getLsbD k = true ∧ (∀ j, k < j → j < n → v.getLsbD j = false)
      ∧ r = BitVec.ofNat 32 (k + 1)

theorem highestBelow_fold (v : Word) (n : Nat) :
    HighestBelow v n ((List.range n).foldl
      (fun r k => if v.getLsbD k then BitVec.ofNat 32 (k + 1) else r) 0#32) := by
  induction n with
  | zero => exact .inl ⟨fun k hk => absurd hk (Nat.not_lt_zero k), rfl⟩
  | succ n ih =>
    rw [List.range_succ, List.foldl_append]
    simp only [List.foldl_cons, List.foldl_nil]
    split
    · rename_i set
      exact .inr ⟨n, n.lt_succ_self, set, fun j above below => absurd above (by omega), rfl⟩
    · rename_i clear
      have last (j : Nat) (hj : j < n + 1) (below : j < n → v.getLsbD j = false) :
          v.getLsbD j = false := by
        obtain rfl | hj := Nat.eq_or_lt_of_le (Nat.le_of_lt_succ hj)
        · exact Bool.eq_false_iff.mpr clear
        · exact below hj
      rcases ih with ⟨none, zero⟩ | ⟨k, hk, set, rest, value⟩
      · exact .inl ⟨fun j hj => last j hj (none j), zero⟩
      · exact .inr ⟨k, hk.trans n.lt_succ_self, set,
          fun j above hj => last j hj (rest j above), value⟩

theorem msbOf_zero_or_bounds (v : Word) :
    (v = 0#32 → msbOf v = 0#32)
      ∧ (v ≠ 0#32 → 1 ≤ (msbOf v).toNat ∧ 2 ^ ((msbOf v).toNat - 1) ≤ v.toNat
        ∧ v.toNat < 2 ^ (msbOf v).toNat) := by
  have highest : HighestBelow v 32 (msbOf v) := highestBelow_fold v 32
  rcases highest with ⟨none, value⟩ | ⟨k, hk, set, rest, value⟩
  · have zero : v = 0#32 := BitVec.eq_of_getLsbD_eq fun k hk => by simpa using none k hk
    exact ⟨fun _ => value, fun nonzero => absurd zero nonzero⟩
  · have count : (msbOf v).toNat = k + 1 := by
      rw [value, BitVec.toNat_ofNat]
      omega
    have upper : v.toNat < 2 ^ (k + 1) := Nat.lt_pow_two_of_testBit _ fun j hj => by
      by_cases inside : j < 32
      · exact rest j hj inside
      · exact BitVec.getLsbD_of_ge v j (by omega)
    rw [count]
    refine ⟨fun zero => ?_, fun _ => ⟨by omega, Nat.ge_two_pow_of_testBit set, upper⟩⟩
    rw [zero, BitVec.getLsbD_zero] at set
    cases set

theorem flipBits_bit {w : Nat} (v : BitVec w) {k : Nat} (hk : k < w) :
    (flipBits v).getLsbD k = v.getLsbD (w - 1 - k) := by
  rw [flipBits, BitVec.getLsbD_reverse, BitVec.getMsbD_eq_getLsbD, decide_eq_true hk, Bool.true_and]

/-- A bit of a reversed field of a word. -/
theorem flipBits_fld_bit (v : Word) (lo len : Nat) {k : Nat} (hk : k < len) :
    (flipBits (fld v lo len)).getLsbD k = v.getLsbD (lo + (len - 1 - k)) := by
  rw [flipBits_bit _ hk, BitVec.getLsbD_extractLsb', decide_eq_true (by omega), Bool.true_and]

theorem flip16_bit (v : Word) {k : Nat} (hk : k < 32) :
    (flip16 v).getLsbD k = v.getLsbD (16 * (k / 16) + (15 - k % 16)) := by
  unfold flip16
  rw [BitVec.getLsbD_append]
  split
  · rw [flipBits_fld_bit _ _ _ ‹_›]
    congr 1; omega
  · rw [flipBits_fld_bit _ _ _ (by omega)]
    congr 1; omega

theorem flip8_bit (v : Word) {k : Nat} (hk : k < 32) :
    (flip8 v).getLsbD k = v.getLsbD (8 * (k / 8) + (7 - k % 8)) := by
  unfold flip8
  rw [BitVec.getLsbD_append, BitVec.getLsbD_append, BitVec.getLsbD_append]
  split
  · rw [flipBits_fld_bit _ _ _ ‹_›]
    congr 1; omega
  · split
    · rw [flipBits_fld_bit _ _ _ ‹_›]
      congr 1; omega
    · split
      · rw [flipBits_fld_bit _ _ _ ‹_›]
        congr 1; omega
      · rw [flipBits_fld_bit _ _ _ (by omega)]
        congr 1; omega

/-! ### CLU -/

/-- A request that the CLU answers with `r`, the value of Rd where there is one (R380). -/
def CluDone (s : State) (q : CluRequest) (rd : Reg) (dest : Bool) (r : Word) (t : State) : Prop :=
  t.cluSent = some q
    ∧ (if dest then t.reg rd = r ∧ ZNOf t r ∧ RegsBut s t [rd] ∧ FlagsBut s t maskZN
      else t.regs = s.regs ∧ t.flags = s.flags)
    ∧ StacksSame s t ∧ SpecialsSame s t ∧ OutsideButClu s t ∧ t.breakHit = s.breakHit
    ∧ FetchSame s t

/-- What a CLU instruction does by the reply (R380, R381). -/
def CluReplies (i : Instr) (s : State) (q : CluRequest) (rd : Reg) (dest : Bool) : Prop :=
  (∀ r, s.cluReply q = .ok r → Completes i s (CluDone s q rd dest r))
    ∧ (s.cluReply q = .unknown →
      exec i s = raiseError .instructionError 1#4 s.pc s.pc s.pc (s.cluTaken q))
    ∧ (s.cluReply q = .error →
      exec i s = raiseError .instructionError 2#4 s.pc s.pc s.pc (s.cluTaken q))

theorem cluReplies_to {q : CluRequest} {rd : Reg} (h : exec i s = cluTo i q rd s) :
    CluReplies i s q rd true := by
  rw [CluReplies, h, cluTo]
  refine ⟨fun r reply => ?_, fun reply => by rw [reply]; rfl, fun reply => by rw [reply]; rfl⟩
  rw [cluTo, reply] at h
  exact ⟨_, h, rfl, rfl, ⟨get_set_same s.regs rd r, ⟨flagZ_setZN _ _, flagN_setZN _ _⟩,
    regsBut_result (s.cluTaken q) rd r (setZN s.flags r) _, setZN_outside _ _⟩, ⟨rfl, rfl⟩,
    ⟨rfl, rfl, rfl, rfl, rfl, rfl, rfl, rfl⟩,
    ⟨rfl, ⟨rfl, rfl, rfl, rfl, rfl, rfl, rfl, rfl⟩, rfl, rfl, rfl, rfl, rfl⟩, rfl, fun _ => rfl, rfl⟩

theorem cluReplies_only {q : CluRequest} (rd : Reg) (h : exec i s = cluOnly i q s) :
    CluReplies i s q rd false := by
  rw [CluReplies, h, cluOnly]
  refine ⟨fun r reply => ?_, fun reply => by rw [reply]; rfl, fun reply => by rw [reply]; rfl⟩
  rw [cluOnly, reply] at h
  exact ⟨_, h, rfl, rfl, ⟨rfl, rfl⟩, ⟨rfl, rfl⟩, ⟨rfl, rfl, rfl, rfl, rfl, rfl, rfl, rfl⟩,
    ⟨rfl, ⟨rfl, rfl, rfl, rfl, rfl, rfl, rfl, rfl⟩, rfl, rfl, rfl, rfl, rfl⟩, rfl, fun _ => rfl, rfl⟩

/-- A core without a CLU knows no request (D21). -/
theorem cluReply_unfitted (h : s.cluFitted = false) (q : CluRequest) : s.cluReply q = .unknown := by
  rw [State.cluReply, h, if_neg Bool.false_ne_true]

/-- The first rule that fits decides (Note 6). -/
theorem cluReply_cons {rule : CluRule} {rules : List CluRule} (fitted : s.cluFitted = true)
    (h : s.clu = rule :: rules) (q : CluRequest) :
    s.cluReply q = if cluRuleFits rule s.cluState q then rule.reply
      else State.cluReply { s with clu := rules } q := by
  simp only [State.cluReply, fitted, if_true, h, cluFunction]
  split
  · rfl
  · rfl

theorem cluReply_congr {t : State} (fitted : t.cluFitted = s.cluFitted) (rules : t.clu = s.clu)
    (state : t.cluState = s.cluState) (q : CluRequest) : t.cluReply q = s.cluReply q := by
  rw [State.cluReply, State.cluReply, fitted, rules, state]

/-! ### Privileged forms -/

/-- A privileged form in User mode (R453); `rtie` has an ErrorPval of its own. -/
theorem traps_privileged {body : Host.Outcome State Fault Refusal} (user : s.isUser = true)
    (h : exec i s = privileged s body) (other : i ≠ .rtie) :
    exec i s = raiseError .privInstruction (if i = .rtie then 2#4 else 0#4) s.pc s.pc s.pc s := by
  rw [h, privileged_user user, if_neg other]
  rfl

/-- The forms of `movs2r` but for that of FLAGS are privileged. -/
theorem execMovs2r_privileged (r : Reg) {c : BitVec 3} (h : c ≠ 0#3) :
    ∃ body, exec (.movs2r r c) s = privileged s body := by
  show ∃ body, execMovs2r r c s = privileged s body
  unfold execMovs2r
  split
  · exact absurd rfl h
  · exact ⟨_, rfl⟩
  · exact ⟨_, rfl⟩
  · exact ⟨_, rfl⟩

/-! ### System instructions -/

theorem ofInt_ofNat_low (v : Word) (n : Nat) :
    BitVec.ofInt 32 (BitVec.ofNat n v.toNat).toInt = (fld v 0 n).signExtend 32 := by
  rw [BitVec.signExtend]
  congr 2

/-- An instruction that writes Rd and no flag. -/
theorem completes_plain {rd : Reg} {v : Word} (h : exec i s = finish i (s.setReg rd v)) :
    Completes i s fun t => PlainResult s t rd v :=
  ⟨_, h, rfl, reg_setReg_same s rd v, onlyRegs_result (f := s.flags) rd v i.length rfl⟩

/-- `brk` where it is no service (R396). -/
theorem execBrk_unserved (h : s.isUser = false ∨ (flagP s.flags).getLsbD 0 = false) :
    exec .brk s = if s.runToBreak then leaveAwake .brk .halted s else finish .brk s := by
  have unserved : breakServed s = false := breakServed_of_not fun ⟨user, served⟩ => by
    rcases h with h | h
    · rw [h] at user; cases user
    · rw [h] at served; cases served
  show execBrk s = _
  rw [execBrk, unserved, if_neg Bool.false_ne_true]

/-! ### Fields of FLAGS -/

theorem ofBool_bit (f : Word) (k : Nat) : BitVec.ofBool (f.getLsbD k) = fld f k 1 := by
  apply BitVec.eq_of_getLsbD_eq
  intro j hj
  obtain rfl : j = 0 := by omega
  simp

/-- A read of a field of FLAGS completes with its value. -/
theorem completes_readField {rd : Reg} {lo len : Nat} {v : BitVec len}
    (h : exec i s = readField i rd (v.setWidth 32) s) (hv : v = fld s.flags lo len) :
    Completes i s fun t => FieldResult s t rd (BitVec.ofNat 32 (fld s.flags lo len).toNat) := by
  subst hv
  rw [BitVec.ofNat_toNat]
  exact completes_field h

/-- The mask of a field of `len` bits at `lo`. -/
theorem ofNat_mask_bit (lo len : Nat) (h : lo + len ≤ 32) {k : Nat} (hk : k < 32) :
    ((BitVec.ofNat 32 (2 ^ len - 1)) <<< lo).getLsbD k
      = (decide (lo ≤ k) && decide (k < lo + len)) := by
  rw [BitVec.getLsbD_shiftLeft, BitVec.getLsbD_ofNat, Nat.testBit_two_pow_sub_one, Bool.eq_iff_iff]
  simp [hk]
  omega

/-- A write of a field of FLAGS completes with the low bits of `x` in it. -/
theorem completes_putField {lo len : Nat} {v : BitVec len} {x : Word}
    (h : exec i s = finish i (s.setFlags (putField s.flags lo len v))) (fits : lo + len ≤ 32)
    (hx : ∀ k, k < len → x.getLsbD k = v.getLsbD k) :
    Completes i s fun t => FlagsResult s t ((BitVec.ofNat 32 (2 ^ len - 1)) <<< lo) (x <<< lo) := by
  refine ⟨_, h, rfl, flagsResult_putField lo len v i.length _ fits (fun k hk => ?_) _ fun k hk =>
    ofNat_mask_bit lo len fits hk⟩
  rw [BitVec.getLsbD_shiftLeft, ← hx k hk, Nat.add_sub_cancel_left]
  simp
  omega

/-- The same of one bit. -/
theorem completes_putBit {k : Nat} {b : Bool} {x : Word}
    (h : exec i s = finish i (s.setFlags (putBit s.flags k b))) (hk : k < 32)
    (hx : x.getLsbD 0 = b) :
    Completes i s fun t => FlagsResult s t ((BitVec.ofNat 32 (2 ^ 1 - 1)) <<< k) (x <<< k) := by
  refine completes_putField h hk fun j hj => ?_
  obtain rfl : j = 0 := by omega
  rw [hx]
  cases b <;> rfl

theorem getLsbD_fld_low (x : Word) {len k : Nat} (hk : k < len) :
    x.getLsbD k = (fld x 0 len).getLsbD k := by
  rw [BitVec.getLsbD_extractLsb', decide_eq_true hk, Bool.true_and, Nat.zero_add]

theorem getLsbD_ofNat_toNat {len : Nat} (v : BitVec len) {k : Nat} (hk : k < 32) :
    (BitVec.ofNat 32 v.toNat).getLsbD k = v.getLsbD k := by
  rw [BitVec.ofNat_toNat, BitVec.getLsbD_setWidth, decide_eq_true hk, Bool.true_and]

theorem getLsbD_zero_ite (b : Bool) : (if b then 1#32 else 0#32 : Word).getLsbD 0 = b := by
  cases b <;> rfl

end

/-! ### O51, O16, O52, O53 -/

/-- Settles O51. -/
theorem dspAndCluComplete : Obligations.DspAndCluComplete := by
  refine ⟨fun s rd rs => ⟨completes_abs rd rs, ?msbit, ?flip8, ?flip16, ?flip⟩,
    fun s v rd rs rt i q dest form => ?clu⟩
  case msbit =>
    exact (completes_field rfl).mono fun t h => ⟨_, h, msbOf_zero_or_bounds (s.reg rs)⟩
  case flip8 => exact (completes_value rfl).mono fun t h => ⟨_, h, fun k => flip8_bit (s.reg rs)⟩
  case flip16 => exact (completes_value rfl).mono fun t h => ⟨_, h, fun k => flip16_bit (s.reg rs)⟩
  case flip => exact (completes_value rfl).mono fun t h => ⟨_, h, fun k => flipBits_bit (s.reg rs)⟩
  case clu =>
    have replies : CluReplies i s q rd dest := by
      rcases form with ⟨rfl, rfl, rfl⟩ | ⟨rfl, rfl, rfl⟩ | ⟨rfl, rfl, rfl⟩ | ⟨rfl, rfl, rfl⟩
        | ⟨rfl, rfl, rfl⟩ | ⟨rfl, rfl, rfl⟩
      · exact cluReplies_only rd rfl
      · exact cluReplies_to rfl
      · exact cluReplies_to rfl
      · exact cluReplies_to rfl
      · exact cluReplies_only rd rfl
      · exact cluReplies_only rd rfl
    obtain ⟨ok, unknown, error⟩ := replies
    exact ⟨ok, unknown, error, fun none => cluReply_unfitted none q,
      fun rule rules fitted h => cluReply_cons fitted h q,
      fun t fitted rules state => cluReply_congr fitted rules state q⟩

/-- Settles O16. -/
theorem privilegedFormsTrapInUserMode : Obligations.PrivilegedFormsTrapInUserMode := by
  intro s user i form
  have trap {i : Instr} {body : Host.Outcome State Fault Refusal}
      (h : exec i s = privileged s body) (other : i ≠ .rtie) := traps_privileged user h other
  rcases form with (rfl | rfl | rfl | rfl | rfl | rfl) | ⟨v, rfl⟩ | ⟨r, rfl⟩ | rfl | ⟨v, rfl⟩
    | ⟨r, rfl⟩ | ⟨v, rfl⟩ | ⟨r, rfl⟩ | ⟨d, r, rfl⟩ | ⟨r, c, nonzero, rfl⟩ | ⟨r, c, rfl⟩ | ⟨c, r, rfl⟩
    | ⟨r, c, rfl⟩ | ⟨c, r, rfl⟩
  any_goals exact trap rfl nofun
  · exact privilegedP_user 2#4 user _
  · obtain ⟨body, h⟩ := execMovs2r_privileged (s := s) r nonzero
    exact trap h nofun

/-- Settles O52. -/
theorem systemInstructionsComplete : Obligations.SystemInstructionsComplete := by
  intro s rd rs
  refine ⟨?sext8, ?sext16, rfl, rfl, rfl, rfl, fun hu => ?privileged, fun unserved => ?brk,
    completes_plain rfl, BitVec.extractLsb'_append_eq_left, completes_plain rfl, ?fimode⟩
  case sext8 =>
    rw [ofInt_ofNat_low]
    exact completes_value rfl
  case sext16 =>
    rw [ofInt_ofNat_low]
    exact completes_value rfl
  case privileged =>
    exact ⟨privileged_ok hu _, privileged_ok hu _, privileged_ok hu _, privileged_ok hu _⟩
  case brk =>
    refine ⟨fun off => ?_, fun on => ?_⟩
    · exact (execBrk_unserved unserved).trans (if_neg (by rw [off]; decide))
    · exact (execBrk_unserved unserved).trans (if_pos on)
  case fimode =>
    have number : Completes (.fimode rd) s fun t => FieldResult s t rd (modeNumber s.mode) :=
      completes_field rfl
    exact number

/-- Settles O53. -/
theorem flagFieldMovesComplete : Obligations.FlagFieldMovesComplete := by
  intro s rd rs b v1 v2 v4 v8
  have hb : b.toNat < 32 := b.isLt.trans (by decide)
  refine ⟨⟨?getBit, ?getI, ?getM, ?getP, ?getA⟩, ⟨?setBit, ?setA, ?cFromI⟩, fun hu => ?privileged,
    fun allowed => ?setAImm, fun user param => ?trap⟩
  case getBit => exact completes_readField rfl (ofBool_bit _ _)
  case getI => exact completes_readField rfl (ofBool_bit _ _)
  case getM => exact completes_readField (v := flagM s.flags) rfl rfl
  case getP => exact completes_readField (v := flagP s.flags) rfl rfl
  case getA => exact completes_readField (v := flagA s.flags) rfl rfl
  case setBit => exact completes_putBit rfl hb rfl
  case setA => exact completes_putField rfl (by decide) fun k hk => getLsbD_fld_low _ hk
  case cFromI => exact completes_putBit rfl (by decide) (getLsbD_zero_ite _)
  case privileged =>
    refine ⟨?_, ?_, ?_, ?_, ?_, ?_, ?_⟩
    · refine completes_putBit (privileged_ok hu _) (by decide) ?_
      rw [getLsbD_ofNat_toNat v1 (by decide)]
      obtain rfl | rfl := BitVec.eq_zero_or_eq_one v1
      · rfl
      · rfl
    · exact completes_putBit (privileged_ok hu _) (by decide) rfl
    · exact completes_putBit (privileged_ok hu _) (by decide) (getLsbD_zero_ite _)
    · exact completes_putField (privileged_ok hu _) (by decide) fun k hk =>
        getLsbD_ofNat_toNat v2 (by omega)
    · exact completes_putField (privileged_ok hu _) (by decide) fun k hk => getLsbD_fld_low _ hk
    · exact completes_putField (privileged_ok hu _) (by decide) fun k hk =>
        getLsbD_ofNat_toNat v4 (by omega)
    · exact completes_putField (privileged_ok hu _) (by decide) fun k hk => getLsbD_fld_low _ hk
  case setAImm =>
    have unbarred : (s.params.mov8iPrivileged && s.isUser) = false := by
      rcases allowed with h | h
      · rw [h, Bool.and_false]
      · rw [h, Bool.false_and]
    exact completes_putField (if_neg (by rw [unbarred]; decide)) (by decide) fun k hk =>
      getLsbD_ofNat_toNat v8 (by omega)
  case trap => exact if_pos (by rw [user, param]; rfl)

end Sys2Proof.Machine
end

section
/-! PROOF of O57, O7 and O8 (60_exceptions.md). First a context push that fails on its way and one
that is done; then FLAGS and the mode of a handler; then errors, interrupts, and the steps in which
no instruction runs. -/

namespace Sys2Proof.Machine

section
variable {s t : State} {m : Mode}

/-! ### A context push that fails -/

theorem FrameFailsAt.congr {l : List (Word × Word)} {n : Nat} {k : ErrorKind}
    (mmu : t.mmu = s.mmu) (map : t.map = s.map) (h : FrameFailsAt s m l n k) :
    FrameFailsAt t m l n k := by
  obtain ⟨before, x, hx, fails⟩ := h
  exact ⟨fun j x hj hx => WriteOkIn_congr mmu map (before j x hj hx), x, hx,
    (dataCheck_congr mmu _ _ _ _).trans fails⟩

/-- The writes of a context push, one after another (R484). -/
def pushFrameWords (m : Mode) (l : List (Word × Word)) (p : Pushed) : Pushed :=
  l.foldl (fun p x => pushFrameWord m x.1 x.2 p) p

theorem pushFrameWords_of_failed (l : List (Word × Word)) (k : ErrorKind) (s : State) :
    pushFrameWords m l (.failed k s) = .failed k s := by
  induction l with
  | nil => rfl
  | cons x l ih => exact ih

/-- The words before the one that fails are written. -/
theorem pushFrameWords_failed {l : List (Word × Word)} {n : Nat} {k : ErrorKind}
    (h : FrameFailsAt s m l n k) :
    pushFrameWords m l (.ok s) = .failed k (s.putWords (l.take n)) := by
  induction l generalizing s n with
  | nil =>
    obtain ⟨-, x, hx, -⟩ := h
    cases hx
  | cons y l ih =>
    obtain ⟨before, x, hx, fails⟩ := h
    cases n with
    | zero =>
      cases hx
      show pushFrameWords m l (pushFrameWord m y.1 y.2 (.ok s)) = _
      rw [pushFrameWord_failed _ fails, pushFrameWords_of_failed]
      rfl
    | succ n =>
      have first : WriteOkIn s m .word y.1 := before 0 y n.succ_pos rfl
      have rest : FrameFailsAt s m l n k :=
        ⟨fun j x hj hx => before (j + 1) x (Nat.succ_lt_succ hj) hx, x, hx, fails⟩
      show pushFrameWords m l (pushFrameWord m y.1 y.2 (.ok s)) = _
      rw [pushFrameWord_ok _ first]
      exact ih (rest.congr rfl rfl)

/-- Where a write of the frame fails the push does, with the words before it written. -/
theorem contextPush_failsAt {z : Bool} {ret r1 r0 f b : Word} {n : Nat} {k : ErrorKind}
    (hb : b = (if z then s.sp0 else s.sp1) - 16#32)
    (h : FrameFailsAt s m (frameWords b ret r1 r0 f) n k) :
    contextPush z m ret r1 r0 f s = .failed k (s.putWords ((frameWords b ret r1 r0 f).take n)) := by
  subst hb
  have words := pushFrameWords_failed h
  unfold contextPush
  simp only
  split <;> rename_i e <;> cases e.symm.trans words
  rfl

/-! ### A context push that is done -/

/-- The address of the frame of a push on Stack0 or Stack1. -/
def State.frameBase (s : State) (z : Bool) : Word := (if z then s.sp0 else s.sp1) - 16#32

/-- The frame of the registers as they stand, on Stack0 or Stack1 (R83). -/
def State.frame (s : State) (z : Bool) (ret : Word) : List (Word × Word) :=
  frameWords (s.frameBase z) ret s.regs.r1 s.regs.r0 s.flagsRead

/-- The memory after it. -/
def State.framedMem (s : State) (z : Bool) (ret : Word) : List Host.Cell :=
  frameMem s.mem (s.frameBase z) ret s.regs.r1 s.regs.r0 s.flagsRead

/-- The context push of the registers as they stand (R484). -/
def pushContext (z : Bool) (m : Mode) (ret : Word) (s : State) : Pushed :=
  contextPush z m ret s.regs.r1 s.regs.r0 s.flagsRead s.flagsUsed

theorem pushContext_failsAt {z : Bool} {ret : Word} {n : Nat} {k : ErrorKind}
    (h : FrameFailsAt s m (s.frame z ret) n k) :
    pushContext z m ret s = .failed k (s.flagsUsed.putWords ((s.frame z ret).take n)) :=
  contextPush_failsAt (by rw [flagsUsed_sp0, flagsUsed_sp1]; rfl)
    (h.congr (flagsUsed_mmu s) (flagsUsed_map s))

/-- Words written change memory and what the prefetch buffer keeps. -/
theorem putWords_eq (s : State) (l : List (Word × Word)) :
    ∃ kept, s.putWords l = { s with mem := (s.putWords l).mem, stale := kept }
      ∧ (s.params.prefetchBytes = 0 → kept = s.stale) := by
  induction l generalizing s with
  | nil => exact ⟨s.stale, rfl, fun _ => rfl⟩
  | cons x l ih =>
    obtain ⟨kept, put, stale⟩ := ih (s.putMem (write32 s.mem x.1 x.2))
    exact ⟨kept, put, fun none => (stale none).trans (staleAfter_none none)⟩

/-- The state after a frame is pushed, which leaves the memory `c`; `n` is the number of the next
draw, `l` what the prefetch buffer keeps. -/
def State.framed (s : State) (z : Bool) (c : List Host.Cell) (n : Nat) (l : List StaleHalf) : State :=
  { s with
    mem := c
    sp0 := if z then s.frameBase z else s.sp0
    sp1 := if z then s.sp1 else s.frameBase z
    freeNext := n, stale := l }

/-- A push whose four writes succeed changes memory and its stack pointer. -/
theorem pushContext_done {z : Bool} (ret : Word) (h : FrameWritable s m (s.frameBase z)) :
    ∃ n l, pushContext z m ret s = .ok (s.framed z (s.framedMem z ret) n l)
      ∧ (s.params.prefetchBytes = 0 → l = s.stale) := by
  obtain ⟨n, used⟩ := freeUsed_eq flagsFree s.flags s
  obtain ⟨h0, h4, h8, h12⟩ := h
  have writable : FrameWritable { s with freeNext := n } m (s.frameBase z) :=
    ⟨WriteOkIn_congr (s := s) rfl rfl h0, WriteOkIn_congr (s := s) rfl rfl h4,
      WriteOkIn_congr (s := s) rfl rfl h8, WriteOkIn_congr (s := s) rfl rfl h12⟩
  obtain ⟨kept, put, stale⟩ := putWords_eq { s with freeNext := n }
    (frameWords (s.frameBase z) ret s.regs.r1 s.regs.r0 s.flagsRead)
  rw [putWords_frame_mem] at put
  refine ⟨n, kept, ?_, stale⟩
  unfold pushContext State.flagsUsed
  rw [used, contextPush_done (s := { s with freeNext := n }) (b := s.frameBase z) (by rfl) writable,
    put]
  cases z
  · rfl
  · rfl

/-- Whether a vector is legal depends on the MMU and the memory map only. -/
theorem VectorOk.congr {c : List Host.Cell} {a : Word} (mmu : t.mmu = s.mmu) (map : t.map = s.map)
    (h : VectorOk s c m a) : VectorOk t c m a := by
  obtain ⟨answer, place, target⟩ := h
  exact ⟨by rwa [mmu], (place_congr map 4 a).trans place, target⟩

/-! ### FLAGS of a handler -/

/-- What an entry makes of FLAGS outside M and P (R451). -/
def EntryWord (f g : Word) : Prop :=
  flagC g = flagI f ∧ flagI g = false ∧ flagS g = 0#8 ∧ flagZ g = flagZ f ∧ flagN g = flagN f
    ∧ flagV g = flagV f ∧ flagA g = flagA f

/-- The bits of FLAGS on entry: C, I and S are written. -/
theorem entryFlags_bit (f : Word) {k : Nat} (hk : k < 24) :
    (entryFlags f).getLsbD k = if k = 6 then false else if k = 2 then flagI f else f.getLsbD k := by
  unfold entryFlags
  rw [putField_bit _ 24 8 _ k (by decide) (by omega), if_neg (by omega),
    putBit_bit _ 6 k _ (by decide) (by omega), putBit_bit _ 2 k _ (by decide) (by omega)]

/-- A field without C and I is as before. -/
theorem fld_entryFlags (f : Word) (lo len : Nat) (h : lo + len ≤ 24)
    (apart : 6 < lo ∨ (2 < lo ∧ lo + len ≤ 6)) : fld (entryFlags f) lo len = fld f lo len := by
  apply BitVec.eq_of_getLsbD_eq
  intro k hk
  rw [BitVec.getLsbD_extractLsb', BitVec.getLsbD_extractLsb', entryFlags_bit f (by omega),
    if_neg (by omega), if_neg (by omega)]

theorem entryWord_entryFlags (f : Word) : EntryWord f (entryFlags f) :=
  ⟨entryFlags_bit f (by decide), entryFlags_bit f (by decide),
    fld_putField_same _ 24 8 0#8 (by decide), entryFlags_bit f (by decide),
    entryFlags_bit f (by decide), entryFlags_bit f (by decide),
    fld_entryFlags f 16 8 (by decide) (.inl (by decide))⟩

/-- M and P may be written besides. -/
theorem EntryWord.putField {f g : Word} (h : EntryWord f g) {lo len : Nat} (v : BitVec len)
    (inside : (4 ≤ lo ∧ lo + len ≤ 6) ∨ (7 ≤ lo ∧ lo + len ≤ 16)) :
    EntryWord f (putField g lo len v) := by
  have bit (k : Nat) (hk : k < 4 ∨ k = 6) : (Machine.putField g lo len v).getLsbD k = g.getLsbD k := by
    rw [putField_bit g lo len v k (by omega) (by omega), if_neg (by omega)]
  have field (at_ n : Nat) (hn : 16 ≤ at_) (fits : at_ + n ≤ 32) :
      fld (Machine.putField g lo len v) at_ n = fld g at_ n :=
    fld_putField_other g lo len v at_ n (by omega) fits (by omega)
  obtain ⟨c, i, s, z, n, o, a⟩ := h
  exact ⟨(bit 2 (by decide)).trans c, (bit 6 (by decide)).trans i,
    (field 24 8 (by decide) (by decide)).trans s, (bit 0 (by decide)).trans z,
    (bit 1 (by decide)).trans n, (bit 3 (by decide)).trans o,
    (field 16 8 (by decide) (by decide)).trans a⟩

/-! ### The mode of a handler -/

/-- Outside Recovery and NMI state both marks are clear (R52). -/
theorem locks_of_not_locked (h : isLocked s.mode = false) :
    infoNL s.info = false ∧ infoR s.info = false := by
  obtain ⟨nmi, recovery, -⟩ := modeIsAFunctionOfTheBits s
  have nl : infoNL s.info = false := Bool.eq_false_iff.mpr fun on => by rw [nmi on] at h; cases h
  exact ⟨nl, Bool.eq_false_iff.mpr fun on => by rw [recovery nl on] at h; cases h⟩

theorem not_locked_of_low {x : Mode} (h : isLow x = true) : isLocked x = false := by
  cases x
  case trusted | user => rfl
  all_goals cases h

/-- Outside Recovery and NMI state the mode is that of M. -/
theorem mode_of_flagM (hn : infoNL s.info = false) (hr : infoR s.info = false) :
    (flagM s.flags = 0#2 → s.mode = .supervisor) ∧ (flagM s.flags = 1#2 → s.mode = .interrupt)
      ∧ (flagM s.flags = 2#2 → s.mode = .trusted) ∧ (flagM s.flags = 3#2 → s.mode = .user) := by
  obtain ⟨-, -, table, -⟩ := modeIsAFunctionOfTheBits s
  exact table hn hr

/-! ### Entries -/

/-- What an entry leaves: the state after the frame, with the registers, FLAGS, INFO and PC of the
handler. -/
def State.entered (s : State) (g : Regs) (f x pc : Word) : State :=
  { s with regs := g, flags := f, info := x, pc := pc, blkRun := 0, event := true }

@[simp] theorem mem_entered (s : State) (z : Bool) (c : List Host.Cell) (n : Nat)
    (l : List StaleHalf) (g : Regs) (f x pc : Word) :
    ((s.framed z c n l).entered g f x pc).mem = c := rfl

/-- An entry with a legal vector. -/
theorem enterVector_framed {z : Bool} {c : List Host.Cell} {n : Nat} {l : List StaleHalf} {g : Regs}
    {f x a : Word} {u : State} (hu : u = { s.framed z c n l with regs := g, flags := f, info := x })
    (vector : VectorOk s c m a) :
    enterVector m a u = .next ((s.framed z c n l).entered g f x (read32 c a)) := by
  subst hu
  exact enterVector_ok (VectorOk.congr (s := s) rfl rfl vector)

/-- The words of the frame and the stack pointers. -/
theorem frameOnStack0_entered (s : State) (ret : Word) (n : Nat) (l : List StaleHalf) (g : Regs)
    (f x pc : Word) :
    FrameOnStack0 s ((s.framed true (s.framedMem true ret) n l).entered g f x pc) ret :=
  ⟨mem_entered .., rfl, rfl⟩

theorem frameOnStack1_entered (s : State) (ret : Word) (n : Nat) (l : List StaleHalf) (g : Regs)
    (f x pc : Word) :
    FrameOnStack1 s ((s.framed false (s.framedMem false ret) n l).entered g f x pc) ret :=
  ⟨mem_entered .., rfl, rfl⟩

/-- The frame of an entry that writes R0 and R1 at most (R480). -/
theorem entryFrame_entered {z : Bool} (c : List Host.Cell) {n : Nat} {l : List StaleHalf} {g : Regs}
    (f x pc : Word) (regs : ∀ r, r ∉ [Reg.r0, Reg.r1] → g.get r = s.regs.get r)
    (stale : s.params.prefetchBytes = 0 → l = s.stale) :
    EntryFrame s ((s.framed z c n l).entered g f x pc) :=
  ⟨regs, rfl, rfl, rfl, rfl, rfl, rfl, rfl, rfl, ⟨rfl, rfl, rfl, rfl, rfl, rfl, rfl, rfl⟩, rfl, rfl,
    rfl, stale⟩

theorem get_args_other (g : Regs) (a : Word) (r : Reg) (h : r ∉ [Reg.r0, Reg.r1]) :
    ({ g with r0 := a, r1 := 0#32 } : Regs).get r = g.get r := by
  cases r with
  | r0 | r1 => simp at h
  | r2 | r3 | r4 | r5 | r6 | r7 => rfl

/-! ### Errors -/

/-- The mode an error handler runs in (R460). -/
def errorMode (low : Bool) : Mode := if low then .supervisor else .recovery

/-- The number of an error's vector (R461). -/
def errorNumber (low : Bool) (k : ErrorKind) : BitVec 5 := if low then numS k else numR k

/-- Taking an error outside Recovery and NMI state, with Stack0 enabled, comes to its push. -/
theorem raiseError_pushes (k : ErrorKind) (p : BitVec 4) (ret tp ep : Word)
    (unlocked : isLocked s.mode = false) (on : infoK0 s.info = true) :
    raiseError k p ret tp ep s
      = match pushContext true (errorMode (isLow s.mode)) ret s with
        | .failed _ u => softReset 2#3 0#5 ep u
        | .refused r => .refused r
        | .ok u =>
          enterVector (errorMode (isLow s.mode)) (exceptionVector u (errorNumber (isLow s.mode) k))
            (u.errorEntered (isLow s.mode) p tp) := by
  unfold raiseError
  rw [unlocked, if_neg Bool.false_ne_true, on, if_neg (by decide)]
  rfl

/-- FLAGS of an error handler (R480). -/
def errorFlags (low : Bool) (p : BitVec 4) (f : Word) : Word :=
  if low then putField (putField (entryFlags f) 12 4 p) 4 2 0b00#2
  else putField (entryFlags f) 12 4 p

theorem entryWord_errorFlags (low : Bool) (p : BitVec 4) (f : Word) :
    EntryWord f (errorFlags low p f) := by
  have prio := (entryWord_entryFlags f).putField (lo := 12) p (.inr (by decide))
  unfold errorFlags
  split
  · exact prio.putField 0b00#2 (.inl (by decide))
  · exact prio

theorem flagP_errorFlags (low : Bool) (p : BitVec 4) (f : Word) :
    flagP (errorFlags low p f) = p := by
  unfold errorFlags flagP
  split
  · rw [fld_putField_other _ 4 2 _ 12 4 (by decide) (by decide) (.inr (by decide)),
      fld_putField_same _ 12 4 p (by decide)]
  · exact fld_putField_same _ 12 4 p (by decide)

theorem flagM_errorFlags_high (p : BitVec 4) (f : Word) :
    flagM (errorFlags false p f) = flagM f :=
  (flagM_putField _ 12 4 p (by decide) (.inl (by decide))).trans
    (fld_entryFlags f 4 2 (by decide) (.inr (by decide)))

/-- INFO of an error handler: from Supervisor and Interrupt mode R is set. -/
def errorInfo (low : Bool) (x : Word) : Word := if low then x else putBit x 5 true

/-- An error handler from User and Trusted mode runs in Supervisor mode, from Supervisor and
Interrupt mode in Recovery state. -/
theorem mode_error {low : Bool} {p : BitVec 4} (unlocked : isLocked s.mode = false)
    (flags : t.flags = errorFlags low p s.flags) (info : t.info = errorInfo low s.info) :
    t.mode = errorMode low := by
  obtain ⟨nl, r⟩ := locks_of_not_locked unlocked
  cases low
  · obtain ⟨-, recovery, -⟩ := modeIsAFunctionOfTheBits t
    change t.info = putBit s.info 5 true at info
    refine recovery ?_ ?_
    · rw [info]
      exact (putBit_other _ 5 4 _ (by decide) (by decide) (by decide)).trans nl
    · rw [info]
      exact putBit_same _ 5 true (by decide)
  · change t.info = s.info at info
    refine mode_supervisor (by rwa [info]) (by rwa [info]) ?_
    rw [flags]
    exact fld_putField_same _ 4 2 _ (by decide)

/-- An error that is taken (R480, R483). -/
theorem raiseError_ok (k : ErrorKind) (p : BitVec 4) (ret tp ep : Word)
    (unlocked : isLocked s.mode = false) (on : infoK0 s.info = true)
    (writable : FrameWritable s (errorMode (isLow s.mode)) (s.frameBase true))
    (vector : VectorOk s (s.framedMem true ret) (errorMode (isLow s.mode))
      (exceptionVector s (errorNumber (isLow s.mode) k))) :
    ∃ n l, raiseError k p ret tp ep s
        = .next ((s.framed true (s.framedMem true ret) n l).entered { s.regs with r0 := tp, r1 := 0#32 }
          (errorFlags (isLow s.mode) p s.flags) (errorInfo (isLow s.mode) s.info)
          (read32 (s.framedMem true ret) (exceptionVector s (errorNumber (isLow s.mode) k))))
      ∧ (s.params.prefetchBytes = 0 → l = s.stale) := by
  obtain ⟨n, l, pushed, stale⟩ := pushContext_done ret writable
  refine ⟨n, l, ?_, stale⟩
  rw [raiseError_pushes k p ret tp ep unlocked on, pushed]
  exact enterVector_framed rfl vector

/-- A write of the frame that fails puts a soft reset in place of the entry (R484). -/
theorem raiseError_failsAt (k : ErrorKind) (p : BitVec 4) (ret tp ep : Word)
    (unlocked : isLocked s.mode = false) (on : infoK0 s.info = true) {n : Nat} {e : ErrorKind}
    (h : FrameFailsAt s (errorMode (isLow s.mode)) (s.frame true ret) n e) :
    raiseError k p ret tp ep s
      = softReset 2#3 0#5 ep (s.flagsUsed.putWords ((s.frame true ret).take n)) := by
  rw [raiseError_pushes k p ret tp ep unlocked on, pushContext_failsAt h]

theorem raiseError_locked (k : ErrorKind) (p : BitVec 4) (ret tp ep : Word)
    (locked : isLocked s.mode = true) :
    raiseError k p ret tp ep s = softReset 0#3 (numR k) ep s := if_pos locked

theorem raiseError_no_stack (k : ErrorKind) (p : BitVec 4) (ret tp ep : Word)
    (unlocked : isLocked s.mode = false) (off : infoK0 s.info = false) :
    raiseError k p ret tp ep s = softReset 2#3 1#5 ep s := by
  unfold raiseError
  rw [unlocked, if_neg Bool.false_ne_true, off]
  rfl

/-- The vectors of the kinds that have two are 16 apart (R461, R463). -/
theorem exceptionVector_numR (s : State) (k : ErrorKind) (h1 : k ≠ .mmuUserDataError)
    (h2 : k ≠ .mmuUserProgError) (h3 : k ≠ .privInstruction) :
    exceptionVector s (numR k) = exceptionVector s (numS k) + 64#32 := by
  unfold exceptionVector
  rw [BitVec.add_assoc]
  cases k with
  | mmuUserDataError => exact absurd rfl h1
  | mmuUserProgError => exact absurd rfl h2
  | privInstruction => exact absurd rfl h3
  | instructionError | nullPointer | divideByZero | unknownInstruction | alignError | mmuDataError
  | mmuProgError => rfl

/-! ### Interrupts -/

/-- The mode an interrupt handler runs in (R474). -/
def irqMode (nmi : Bool) : Mode := if nmi then .nmi else .interrupt

/-- Taking an interrupt comes to its push. -/
theorem interruptEntry_pushes (num : BitVec 5) (prio : BitVec 4) (s : State) :
    interruptEntry num prio s
      = match pushContext true (irqMode (decide (num.toNat ≤ 3))) s.pc s with
        | .failed _ u => softReset 2#3 0#5 s.pc u
        | .refused r => .refused r
        | .ok u =>
          enterVector (irqMode (decide (num.toNat ≤ 3)))
            (u.vp + 0x80#32 + (num ++ 0#2).setWidth 32)
            (u.interruptEntered (decide (num.toNat ≤ 3)) prio) := rfl

theorem irqMode_eq (num : BitVec 5) :
    irqMode (decide (num.toNat ≤ 3)) = if num.toNat ≤ 3 then .nmi else .interrupt := by
  unfold irqMode
  simp only [decide_eq_true_eq]

/-- Which requests are accepted (R473). -/
theorem acceptIrq_iff (s : State) (num : BitVec 5) (prio : BitVec 4) :
    acceptIrq s num prio = true ↔
      infoNL s.info = false ∧ infoK0 s.info = true
        ∧ (num.toNat ≤ 3 ∨ (flagI s.flags = true ∧ infoR s.info = false
            ∧ (flagM s.flags = 1#2 → prio.toNat < (flagP s.flags).toNat))) := by
  have masked : (infoNL s.info || !infoK0 s.info) = false
      ↔ infoNL s.info = false ∧ infoK0 s.info = true := by simp
  have low : num ≤ 3#5 ↔ num.toNat ≤ 3 := Iff.rfl
  have important : (flagM s.flags != 0b01#2 || decide (prio < flagP s.flags)) = true
      ↔ (flagM s.flags = 1#2 → prio.toNat < (flagP s.flags).toNat) := by
    simp [BitVec.lt_def, imp_iff_not_or]
  unfold acceptIrq
  rw [← and_assoc, ← masked, ← low]
  split <;> rename_i off
  · simp [off]
  · rw [Bool.not_eq_true] at off
    simp only [off, true_and]
    split <;> rename_i nmi
    · simp [nmi]
    · rw [Bool.and_eq_true, Bool.and_eq_true, important, and_assoc]
      simp [nmi]

end

/-! ### O57, O7, O8 -/

/-- Settles O57. -/
theorem errorsAreTaken : Obligations.ErrorsAreTaken := by
  refine ⟨fun s k p ret tp ep => ⟨fun unlocked on writable vector => ?taken,
    raiseError_locked k p ret tp ep, raiseError_no_stack k p ret tp ep,
    fun unlocked on n e h => raiseError_failsAt k p ret tp ep unlocked on h⟩,
    fun s k => ⟨?vectors, exceptionVector_numR s k⟩⟩
  case taken =>
    obtain ⟨n, l, next, stale⟩ := raiseError_ok k p ret tp ep unlocked on writable vector
    refine ⟨_, next, frameOnStack0_entered s ret n l _ _ _ _, by rw [mem_entered]; rfl, rfl, rfl,
      entryWord_errorFlags _ p s.flags, flagP_errorFlags _ p s.flags,
      entryFrame_entered _ _ _ _ (get_args_other _ _) stale, mode_error unlocked rfl rfl, ?_⟩
    split <;> rename_i low
    · exact if_pos low
    · rw [Bool.not_eq_true] at low
      rw [low]
      exact ⟨putBit_true s.info (by decide), flagM_errorFlags_high p s.flags⟩
  case vectors => cases k <;> rfl

/-- Settles O7. -/
theorem stepTakesAcceptedInterrupt : Obligations.StepTakesAcceptedInterrupt := by
  refine ⟨fun s num prio awake noReset irq accepted => ?first, fun s num prio =>
    ⟨acceptIrq_iff s num prio, fun _ n e h => ?fails⟩⟩
  case first =>
    have taken : runAwake (some (num, prio)) s.sampled = interruptEntry num prio s.sampled :=
      if_pos accepted
    rw [step_awake awake noReset, irq, taken]
  case fails =>
    rw [interruptEntry_pushes, pushContext_failsAt (irqMode_eq num ▸ h)]
    rfl

/-- Settles O8. -/
theorem stepOutsideAwake : Obligations.StepOutsideAwake := by
  intro s
  refine ⟨fun reset => ?reset, fun noReset halted => ?halted, fun noReset asleep => ?asleep⟩
  case reset =>
    unfold step cycle cycleOn
    rw [reset, if_pos rfl]
  case halted =>
    unfold step cycle cycleOn
    rw [noReset, if_neg Bool.false_ne_true, sampled_exe, halted]
    rfl
  case asleep =>
    unfold step cycle cycleOn
    rw [noReset, if_neg Bool.false_ne_true, sampled_exe]
    rcases asleep with h | h
    · rw [h]
      cases s.sample.wakeUp
      · rfl
      · rfl
    · rw [h]
      cases s.sample.wakeUp
      · rfl
      · rfl

end Sys2Proof.Machine
end

section
/-! PROOF of O58 (60_exceptions.md): `syscall` and `brk`. First what a service does in each mode,
then which service each instruction raises. -/

namespace Sys2Proof.Machine

section
variable {s t : State}

/-! ### The handler of a service -/

/-- FLAGS of a service handler (R480): from User mode M is that of Trusted mode. -/
def serviceFlags (m : Mode) (f : Word) : Word :=
  if m = .user then putField (entryFlags f) 4 2 0b10#2 else entryFlags f

theorem entryWord_serviceFlags (m : Mode) (f : Word) : EntryWord f (serviceFlags m f) := by
  unfold serviceFlags
  split
  · exact (entryWord_entryFlags f).putField 0b10#2 (.inl (by decide))
  · exact entryWord_entryFlags f

theorem flagP_serviceFlags (m : Mode) (f : Word) : flagP (serviceFlags m f) = flagP f := by
  have kept : flagP (entryFlags f) = flagP f := fld_entryFlags f 12 4 (by decide) (.inl (by decide))
  unfold serviceFlags
  split
  · exact (fld_putField_other _ 4 2 _ 12 4 (by decide) (by decide) (.inr (by decide))).trans kept
  · exact kept

theorem flagM_serviceFlags_other {m : Mode} (h : m ≠ .user) (f : Word) :
    flagM (serviceFlags m f) = flagM f := by
  rw [serviceFlags, if_neg h]
  exact fld_entryFlags f 4 2 (by decide) (.inr (by decide))

theorem flagM_of_trusted (h : s.mode = .trusted) : flagM s.flags = 2#2 := by
  obtain ⟨nl, r⟩ := locks_of_not_locked (s := s) (by rw [h]; rfl)
  obtain ⟨m0, m1, -, m3⟩ := mode_of_flagM nl r
  have values : ∀ x : BitVec 2, x = 0#2 ∨ x = 1#2 ∨ x = 2#2 ∨ x = 3#2 := by decide
  rcases values (flagM s.flags) with e | e | e | e
  · rw [m0 e] at h; cases h
  · rw [m1 e] at h; cases h
  · exact e
  · rw [m3 e] at h; cases h

/-- A service handler on Stack1 runs in Trusted mode. -/
theorem mode_service_low (low : isLow s.mode = true) (flags : t.flags = serviceFlags s.mode s.flags)
    (info : t.info = s.info) : t.mode = .trusted := by
  obtain ⟨nl, r⟩ := locks_of_not_locked (not_locked_of_low low)
  obtain ⟨-, -, trusted, -⟩ := mode_of_flagM (s := t) (by rwa [info]) (by rwa [info])
  refine trusted ?_
  rw [flags]
  by_cases user : s.mode = .user
  · rw [serviceFlags, if_pos user]
    exact fld_putField_same _ 4 2 _ (by decide)
  · rw [flagM_serviceFlags_other user]
    refine flagM_of_trusted ?_
    cases m : s.mode
    case trusted => rfl
    case user => exact absurd m user
    all_goals rw [m] at low; cases low

/-- One on Stack0 runs in the mode it was called from. -/
theorem mode_service_high (high : isLow s.mode = false)
    (flags : t.flags = serviceFlags s.mode s.flags) (info : t.info = s.info) : t.mode = s.mode := by
  have other : s.mode ≠ .user := fun user => by rw [user] at high; cases high
  calc t.mode = (s.setFlags t.flags).mode := mode_congr (s.setFlags t.flags) t rfl info
    _ = s.mode := mode_setFlags s t.flags (by rw [flags, flagM_serviceFlags_other other])

/-! ### Taking a service -/

section
variable (numT numSI : BitVec 5) (arg ret er tp ep : Word)

/-- From User and Trusted mode, with both stacks enabled, a service comes to its push on Stack1. -/
theorem raiseService_low (low : isLow s.mode = true) (k0 : infoK0 s.info = true)
    (k1 : infoK1 s.info = true) :
    raiseService numT numSI arg ret er tp ep s
      = match pushContext false .trusted ret s with
        | .failed k u => raiseError k 1#4 er tp ep u
        | .refused r => .refused r
        | .ok u => enterVector .trusted (exceptionVector u numT) (u.serviceEntered arg) := by
  unfold raiseService
  rw [not_locked_of_low low, if_neg Bool.false_ne_true, if_pos low, k0, k1, if_neg (by decide)]
  rfl

/-- From Supervisor and Interrupt mode, with Stack0 enabled, it comes to its push on Stack0. -/
theorem raiseService_high (high : isLow s.mode = false) (unlocked : isLocked s.mode = false)
    (k0 : infoK0 s.info = true) :
    raiseService numT numSI arg ret er tp ep s
      = match pushContext true s.mode ret s with
        | .failed _ u => softReset 2#3 0#5 ep u
        | .refused r => .refused r
        | .ok u => enterVector s.mode (exceptionVector u numSI) (u.serviceEntered arg) := by
  unfold raiseService
  rw [unlocked, if_neg Bool.false_ne_true, high, if_neg Bool.false_ne_true, k0, if_neg (by decide)]
  rfl

theorem raiseService_locked (locked : isLocked s.mode = true) :
    raiseService numT numSI arg ret er tp ep s = softReset 0#3 numSI ep s := if_pos locked

/-- K1 counts as well as K0 on Stack1 (D27). -/
theorem raiseService_no_stack1 (low : isLow s.mode = true)
    (off : infoK0 s.info = false ∨ infoK1 s.info = false) :
    raiseService numT numSI arg ret er tp ep s = softReset 3#3 1#5 ep s := by
  unfold raiseService
  rw [not_locked_of_low low, if_neg Bool.false_ne_true, if_pos low]
  exact if_pos (by simpa using off)

theorem raiseService_no_stack0 (high : isLow s.mode = false) (unlocked : isLocked s.mode = false)
    (off : infoK0 s.info = false) :
    raiseService numT numSI arg ret er tp ep s = softReset 2#3 1#5 ep s := by
  unfold raiseService
  rw [unlocked, if_neg Bool.false_ne_true, high, if_neg Bool.false_ne_true, off]
  rfl

/-- A write to Stack1 that fails is its own error, with ErrorPval 1 (R484 (b)). -/
theorem raiseService_failsAt1 (low : isLow s.mode = true) (k0 : infoK0 s.info = true)
    (k1 : infoK1 s.info = true) {n : Nat} {e : ErrorKind}
    (h : FrameFailsAt s .trusted (s.frame false ret) n e) :
    raiseService numT numSI arg ret er tp ep s
      = raiseError e 1#4 er tp ep (s.flagsUsed.putWords ((s.frame false ret).take n)) := by
  rw [raiseService_low _ _ _ _ _ _ _ low k0 k1, pushContext_failsAt h]

/-- One to Stack0 is a soft reset. -/
theorem raiseService_failsAt0 (high : isLow s.mode = false) (unlocked : isLocked s.mode = false)
    (k0 : infoK0 s.info = true) {n : Nat} {e : ErrorKind}
    (h : FrameFailsAt s s.mode (s.frame true ret) n e) :
    raiseService numT numSI arg ret er tp ep s
      = softReset 2#3 0#5 ep (s.flagsUsed.putWords ((s.frame true ret).take n)) := by
  rw [raiseService_high _ _ _ _ _ _ _ high unlocked k0, pushContext_failsAt h]

/-- A service taken on Stack1 (R480, R484). -/
theorem raiseService_taken1 (h : ServiceOk1 s ret numT) :
    ∃ t, raiseService numT numSI arg ret er tp ep s = .next t ∧ ServiceTaken1 s t arg ret numT := by
  obtain ⟨low, k0, k1, writable, vector⟩ := h
  obtain ⟨n, l, pushed, stale⟩ := pushContext_done (s := s) (z := false) ret writable
  rw [raiseService_low _ _ _ _ _ _ _ low k0 k1, pushed]
  exact ⟨_, enterVector_framed rfl vector, frameOnStack1_entered s ret n l _ _ _ _,
    by rw [mem_entered]; rfl, rfl, rfl, entryWord_serviceFlags s.mode s.flags,
    entryFrame_entered _ _ _ _ (get_args_other _ _) stale, flagP_serviceFlags s.mode s.flags, rfl,
    mode_service_low low rfl rfl⟩

/-- One taken on Stack0. -/
theorem raiseService_taken0 (h : ServiceOk0 s ret numSI) :
    ∃ t, raiseService numT numSI arg ret er tp ep s = .next t ∧ ServiceTaken0 s t arg ret numSI := by
  obtain ⟨high, unlocked, k0, writable, vector⟩ := h
  obtain ⟨n, l, pushed, stale⟩ := pushContext_done (s := s) (z := true) ret writable
  rw [raiseService_high _ _ _ _ _ _ _ high unlocked k0, pushed]
  exact ⟨_, enterVector_framed rfl vector, frameOnStack0_entered s ret n l _ _ _ _,
    by rw [mem_entered]; rfl, rfl, rfl, entryWord_serviceFlags s.mode s.flags,
    entryFrame_entered _ _ _ _ (get_args_other _ _) stale, flagP_serviceFlags s.mode s.flags, rfl,
    mode_service_high high rfl rfl⟩

end

/-! ### The instructions -/

theorem ofNat_add_setWidth (base : Nat) (num : BitVec 2) :
    BitVec.ofNat 5 base + num.setWidth 5 = BitVec.ofNat 5 (base + num.toNat) := by
  rw [BitVec.ofNat_add, BitVec.ofNat_toNat]

/-- A `syscall` raises the service of its number (R490). -/
theorem exec_syscall {num : BitVec 2} {i : Instr} {arg : Word}
    (form : (∃ v, i = .syscallI num v ∧ arg = Imm.sext v)
      ∨ (∃ r, i = .syscallR num r ∧ arg = s.reg r)) :
    exec i s = raiseService (BitVec.ofNat 5 (12 + num.toNat)) (BitVec.ofNat 5 (28 + num.toNat)) arg
      (s.pc + i.length) s.pc s.pc s.pc s := by
  rw [← ofNat_add_setWidth, ← ofNat_add_setWidth]
  rcases form with ⟨v, rfl, rfl⟩ | ⟨r, rfl, rfl⟩
  · rfl
  · rfl

/-- `brk` in User mode with B set is Break_T (R396, R492). -/
theorem exec_brk_served (user : s.isUser = true) (b : (flagP s.flags).getLsbD 0 = true) :
    exec .brk s = raiseService 17#5 17#5 s.pc (s.pc + Instr.brk.length) s.pc s.pc s.pc s :=
  if_pos ((breakServed_iff s).mpr ⟨user, b⟩)

theorem isLow_of_user (user : s.isUser = true) : isLow s.mode = true := by
  rw [(isUser_iff s).mp user]
  rfl

end

/-! ### O58 -/

/-- Settles O58. -/
theorem servicesAreTaken : Obligations.ServicesAreTaken := by
  refine ⟨fun s num i arg form => ?syscall, fun s user b => ?brk⟩
  case syscall =>
    intro ret numT numSI
    rw [exec_syscall form]
    exact ⟨raiseService_taken1 _ _ _ _ _ _ _, raiseService_taken0 _ _ _ _ _ _ _,
      raiseService_locked _ _ _ _ _ _ _, raiseService_no_stack1 _ _ _ _ _ _ _,
      raiseService_no_stack0 _ _ _ _ _ _ _,
      fun low k0 k1 n e h => raiseService_failsAt1 _ _ _ ret _ _ _ low k0 k1 h,
      fun high unlocked k0 n e h => raiseService_failsAt0 _ _ _ ret _ _ _ high unlocked k0 h⟩
  case brk =>
    intro ret
    have low := isLow_of_user user
    rw [exec_brk_served user b]
    exact ⟨raiseService_taken1 _ _ _ _ _ _ _, raiseService_no_stack1 _ _ _ _ _ _ _ low,
      fun k0 k1 n e h => raiseService_failsAt1 _ _ _ ret _ _ _ low k0 k1 h⟩

end Sys2Proof.Machine
end

section
/-! PROOF of O59 (60_exceptions.md): `rtie`. First the four reads of a frame, done or failed; then
what the return leaves. -/

namespace Sys2Proof.Machine

section
variable {s t u : State}

/-! ### The reads of a frame -/

theorem readWords_succ (s : State) (a : Word) (n : Nat) :
    s.readWords a (n + 1)
      = (s.readWords a n).accessed .read .word (a + BitVec.ofNat 32 (4 * n)) := by
  unfold State.readWords
  rw [List.range_succ, List.foldl_append]
  rfl

/-- Reads mark a data breakpoint at most. -/
theorem readWords_eq (s : State) (a : Word) (n : Nat) :
    ∃ hit, s.readWords a n = { s with breakHit := hit } := by
  induction n with
  | zero => exact ⟨s.breakHit, rfl⟩
  | succ n ih =>
    obtain ⟨hit, e⟩ := ih
    rw [readWords_succ, e]
    exact ⟨_, rfl⟩

/-- The next read of a frame, after those before it. -/
theorem readDataP_next {n : Nat} (h : ReadOk s .word (s.sp + BitVec.ofNat 32 (4 * n))) :
    readDataP 2#4 .word (s.sp + BitVec.ofNat 32 (4 * n)) (s.readWords s.sp n)
      = .done (read32 s.mem (s.sp + BitVec.ofNat 32 (4 * n))) (s.readWords s.sp (n + 1)) := by
  obtain ⟨hit, e⟩ := readWords_eq s s.sp n
  rw [readWords_succ, e]
  exact readDataP_ok _ (ReadOk_congr (s := s) rfl rfl rfl h)

theorem readDataP_fails {n : Nat} {k : ErrorKind}
    (h : dataCheck s s.mode .word .read (s.sp + BitVec.ofNat 32 (4 * n)) = some k) :
    readDataP 2#4 .word (s.sp + BitVec.ofNat 32 (4 * n)) (s.readWords s.sp n)
      = .trap (.error k 2#4 s.pc) (s.readWords s.sp n) := by
  obtain ⟨hit, e⟩ := readWords_eq s s.sp n
  rw [e]
  exact readDataP_error _ h

/-- The first read that fails ends the return, with the marks of the reads before it (D22). -/
theorem returnFromEvent_failsAt {n : Nat} {k : ErrorKind} (hn : n < 4)
    (before : ∀ j, j < n → ReadOk s .word (s.sp + BitVec.ofNat 32 (4 * j)))
    (h : dataCheck s s.mode .word .read (s.sp + BitVec.ofNat 32 (4 * n)) = some k) :
    returnFromEvent s = .trap (.error k 2#4 s.pc) (s.readWords s.sp n) := by
  have first : readDataP 2#4 .word s.sp s
      = readDataP 2#4 .word (s.sp + BitVec.ofNat 32 (4 * 0)) (s.readWords s.sp 0) := by
    rw [Nat.mul_zero, BitVec.add_zero]
    rfl
  have fails := readDataP_fails h
  have done (j : Nat) (hj : j < n) := readDataP_next (before j hj)
  unfold returnFromEvent
  rw [first]
  obtain rfl | rfl | rfl | rfl : n = 0 ∨ n = 1 ∨ n = 2 ∨ n = 3 := by omega
  · rw [fails]
  · rw [done 0 (by decide)]
    simp only
    rw [show readDataP 2#4 .word (s.sp + 4#32) (s.readWords s.sp 1) = _ from fails]
  · rw [done 0 (by decide)]
    simp only
    rw [show readDataP 2#4 .word (s.sp + 4#32) (s.readWords s.sp 1) = _ from done 1 (by decide)]
    simp only
    rw [show readDataP 2#4 .word (s.sp + 8#32) (s.readWords s.sp 2) = _ from fails]
  · rw [done 0 (by decide)]
    simp only
    rw [show readDataP 2#4 .word (s.sp + 4#32) (s.readWords s.sp 1) = _ from done 1 (by decide)]
    simp only
    rw [show readDataP 2#4 .word (s.sp + 8#32) (s.readWords s.sp 2) = _ from done 2 (by decide)]
    simp only
    rw [show readDataP 2#4 .word (s.sp + 12#32) (s.readWords s.sp 3) = _ from fails]

/-! ### The return -/

theorem putBit_false (x : Word) {k : Nat} (hk : k < 32) :
    putBit x k false = x &&& ~~~(1#32 <<< k) := by
  apply BitVec.eq_of_getLsbD_eq
  intro j hj
  rw [putBit_bit x k j false hk hj]
  by_cases h : j = k
  · subst h; simp [hj]
  · rw [if_neg h]; simp [hj]; omega

/-- A bit that is written as it was. -/
theorem putBit_self {x : Word} {k : Nat} {b : Bool} (hk : k < 32) (h : x.getLsbD k = b) :
    putBit x k b = x := by
  apply BitVec.eq_of_getLsbD_eq
  intro j hj
  rw [putBit_bit x k j b hk hj]
  split
  · rename_i e; rw [e, h]
  · rfl

/-- The return clears NL or else R (R411). -/
theorem returned_info (s : State) (f r0 r1 : Word) :
    (s.returned f r0 r1).info
      = if infoNL s.info then s.info &&& ~~~0x10#32 else s.info &&& ~~~0x20#32 := by
  show (if infoNL s.info then putBit s.info 4 false
    else if infoR s.info then putBit s.info 5 false else s.info) = _
  split
  · exact putBit_false s.info (by decide)
  · split
    · exact putBit_false s.info (by decide)
    · rename_i clear
      exact (putBit_self (by decide) (Bool.eq_false_iff.mpr clear)).symm.trans
        (putBit_false s.info (k := 5) (by decide))

/-- The stack pointer in use is above the frame. -/
theorem returned_sp0 (s : State) (f r0 r1 : Word) :
    (s.returned f r0 r1).sp0 = if s.spIsSp0 then s.sp0 + 16#32 else s.sp0 := by
  refine (setSp_sp0 s (s.sp + 16#32)).trans ?_
  unfold State.sp
  split
  · rfl
  · rfl

theorem returned_sp1 (s : State) (f r0 r1 : Word) :
    (s.returned f r0 r1).sp1 = if s.spIsSp0 then s.sp1 else s.sp1 + 16#32 := by
  refine (setSp_sp1 s (s.sp + 16#32)).trans ?_
  unfold State.sp
  split
  · rfl
  · rfl

theorem outsideSame_returned (s : State) (f r0 r1 : Word) : OutsideSame s (s.returned f r0 r1) :=
  OutsideSame.of_eq (by simp [State.returned])

/-- What the return commits is what R411 says. -/
theorem frameReturned_returned (s : State) :
    FrameReturned s (s.returned (read32 s.mem s.sp) (read32 s.mem (s.sp + 4#32))
      (read32 s.mem (s.sp + 8#32))) :=
  ⟨rfl, rfl, rfl, fun r hr => by
      cases r with
      | r0 | r1 => simp at hr
      | r2 | r3 | r4 | r5 | r6 | r7 => rfl,
    returned_sp0 s _ _ _, returned_sp1 s _ _ _, returned_info s _ _ _, setSp_gp s _, setSp_vp s _,
    setSp_brke s _, setSp_brk0 s _, setSp_brk1 s _, setSp_brk2 s _, setSp_brk3 s _, setSp_mem s _,
    setSp_stale s _, outsideSame_returned s _ _ _⟩

/-- A return whose four reads succeed comes to the branch. -/
theorem returnFromEvent_branches (h : FrameReadable s s.mode s.sp) :
    ∃ u, u.pc = s.pc ∧ FrameReturned s u
      ∧ returnFromEvent s = branchTo 2#4 (read32 s.mem (s.sp + 12#32)) u := by
  obtain ⟨h0, h4, h8, h12⟩ := h
  obtain ⟨hit, marked⟩ : ∃ hit, (((s.accessed .read .word s.sp).accessed .read .word
      (s.sp + 4#32)).accessed .read .word (s.sp + 8#32)).accessed .read .word (s.sp + 12#32)
        = { s with breakHit := hit } := ⟨_, rfl⟩
  have ok := returnFromEvent_ok h0 h4 h8 h12
  rw [marked] at ok
  have returned : FrameReturned s (State.returned { s with breakHit := hit } (read32 s.mem s.sp)
      (read32 s.mem (s.sp + 4#32)) (read32 s.mem (s.sp + 8#32))) :=
    frameReturned_returned { s with breakHit := hit }
  refine ⟨_, ?_, returned, ok⟩
  exact setSp_pc { s with breakHit := hit } _

theorem exec_rtie (user : s.isUser = false) (on : s.spEnabled = true) :
    exec .rtie s = settle (returnFromEvent s) := by
  refine (privilegedP_ok 2#4 user _).trans ?_
  rw [spGuard_ok fun _ => on]
  rfl

/-- `rtie` with a readable frame and a legal return address (R411). -/
theorem exec_rtie_ok (user : s.isUser = false) (on : s.spEnabled = true)
    (readable : FrameReadable s s.mode s.sp) (target : TargetOk (read32 s.mem (s.sp + 12#32))) :
    ∃ t, exec .rtie s = .next t ∧ t.pc = read32 s.mem (s.sp + 12#32) ∧ FrameReturned s t := by
  obtain ⟨u, -, returned, branch⟩ := returnFromEvent_branches readable
  refine ⟨{ u with pc := read32 s.mem (s.sp + 12#32) }, ?_, rfl, returned⟩
  rw [exec_rtie user on, branch, branchTo_ok _ target]
  rfl

end

/-! ### O59 -/

/-- Settles O59. -/
theorem returnFromEventCompletes : Obligations.ReturnFromEventCompletes := by
  intro s user on
  refine ⟨fun readable => ⟨exec_rtie_ok user on readable, ?bad⟩, fun n k hn before fails => ?unread⟩
  case bad =>
    obtain ⟨u, pc, returned, branch⟩ := returnFromEvent_branches readable
    refine ⟨u, pc, returned, fun odd => ?_, fun zero => ?_⟩
    · rw [exec_rtie user on, branch, branchTo_odd _ odd, settle_trap, ← pc]
      rfl
    · rw [exec_rtie user on, branch, zero, branchTo_zero, settle_trap, ← pc]
      rfl
  case unread =>
    obtain ⟨hit, marked⟩ := readWords_eq s s.sp n
    rw [exec_rtie user on, returnFromEvent_failsAt hn before fails, settle_trap, marked]
    rfl

end Sys2Proof.Machine
end

section
/-! PROOF of O60 (60_exceptions.md): an interrupt followed by `rtie`. First the frame that an entry
writes, read back; then the handler's FLAGS, INFO and mode; then what the return puts back. -/

namespace Sys2Proof.Machine

section
variable {s t u : State}

/-! ### The frame, read back -/

/-- Words of a frame do not overlap. -/
theorem words_apart (b : Word) {p q : Nat} (hp : p ≤ 12) (hq : q ≤ 12) (h : p + 4 ≤ q ∨ q + 4 ≤ p)
    (i j : Nat) (hi : i < 4) (hj : j < 4) :
    b + BitVec.ofNat 32 p + BitVec.ofNat 32 i ≠ b + BitVec.ofNat 32 q + BitVec.ofNat 32 j := by
  bv_omega

theorem read32_write32_apart (m : List Host.Cell) (b v : Word) {p q : Nat} (hp : p ≤ 12)
    (hq : q ≤ 12) (h : p + 4 ≤ q ∨ q + 4 ≤ p) :
    read32 (write32 m (b + BitVec.ofNat 32 q) v) (b + BitVec.ofNat 32 p)
      = read32 m (b + BitVec.ofNat 32 p) :=
  read32_write32_other m v (words_apart b hp hq h)

/-- The four words of a frame. -/
theorem read32_frameMem {m : List Host.Cell} (b ret r1 r0 f : Word) (wf : Memory.wf m = true) :
    let c := frameMem m b ret r1 r0 f
    read32 c b = f ∧ read32 c (b + 4#32) = r0 ∧ read32 c (b + 8#32) = r1
      ∧ read32 c (b + 12#32) = ret := by
  have w12 := wf_write32 (b + 12#32) ret wf
  have w8 := wf_write32 (b + 8#32) r1 w12
  have w4 := wf_write32 (b + 4#32) r0 w8
  have last {p : Nat} (c : List Host.Cell) (hp : p ≤ 12) (h : 4 ≤ p) :
      read32 (write32 c b f) (b + BitVec.ofNat 32 p) = read32 c (b + BitVec.ofNat 32 p) := by
    simpa using read32_write32_apart c b f (q := 0) hp (by decide) (.inr h)
  have f8 (c : List Host.Cell) := read32_write32_apart c b r0 (p := 8) (q := 4)
    (by decide) (by decide) (.inr (by decide))
  have f12 (c : List Host.Cell) := read32_write32_apart c b r0 (p := 12) (q := 4)
    (by decide) (by decide) (.inr (by decide))
  have g12 (c : List Host.Cell) := read32_write32_apart c b r1 (p := 12) (q := 8)
    (by decide) (by decide) (.inr (by decide))
  refine ⟨read32_write32_same b f w4, ?_, ?_, ?_⟩
  · exact (last _ (by decide) (by decide)).trans (read32_write32_same _ _ w8)
  · exact ((last _ (by decide) (by decide)).trans (f8 _)).trans (read32_write32_same _ _ w12)
  · exact (((last _ (by decide) (by decide)).trans (f12 _)).trans (g12 _)).trans
      (read32_write32_same _ _ wf)

/-- A frame leaves the bytes outside its 16. -/
theorem read8_frameMem_other (m : List Host.Cell) (b ret r1 r0 f : Word) {a : Word}
    (h : ∀ k : Nat, k < 16 → a ≠ b + BitVec.ofNat 32 k) :
    read8 (frameMem m b ret r1 r0 f) a = read8 m a := by
  have word (c : List Host.Cell) (v : Word) {p : Nat} (hp : p ≤ 12) :
      read8 (write32 c (b + BitVec.ofNat 32 p) v) a = read8 c a := by
    refine read8_storeMem_other c .word v fun k hk => ?_
    rw [BitVec.add_assoc, ← BitVec.ofNat_add]
    have small : k < 4 := hk
    exact h (p + k) (by omega)
  have low (c : List Host.Cell) : read8 (write32 c b f) a = read8 c a := by
    simpa using word c f (p := 0) (by decide)
  calc read8 (frameMem m b ret r1 r0 f) a
    _ = read8 (write32 (write32 (write32 m (b + 12#32) ret) (b + 8#32) r1) (b + 4#32) r0) a := low _
    _ = read8 (write32 (write32 m (b + 12#32) ret) (b + 8#32) r1) a := word _ r0 (by decide)
    _ = read8 (write32 m (b + 12#32) ret) a := word _ r1 (by decide)
    _ = read8 m a := word _ ret (by decide)

/-! ### The handler -/

theorem flagsRead_of_no_free (h : s.flags &&& 0xF80#32 = 0#32) : s.flagsRead = s.flags := if_pos h

/-- The priority of an interrupt handler. -/
def irqPrio (nmi : Bool) (prio : BitVec 4) : BitVec 4 := if nmi then 0#4 else prio

/-- FLAGS of an interrupt handler (R474). -/
def irqFlags (nmi : Bool) (prio : BitVec 4) (f : Word) : Word :=
  if nmi then putField (entryFlags f) 12 4 (irqPrio nmi prio)
  else putField (putField (entryFlags f) 12 4 (irqPrio nmi prio)) 4 2 0b01#2

/-- INFO of an interrupt handler: an NMI sets NL. -/
def irqInfo (nmi : Bool) (x : Word) : Word := if nmi then putBit x 4 true else x

theorem entryWord_irqFlags (nmi : Bool) (prio : BitVec 4) (f : Word) :
    EntryWord f (irqFlags nmi prio f) := by
  have prioritised := (entryWord_entryFlags f).putField (irqPrio nmi prio) (lo := 12)
    (.inr (by decide))
  unfold irqFlags
  split
  · exact prioritised
  · exact prioritised.putField 0b01#2 (.inl (by decide))

theorem flagP_irqFlags (nmi : Bool) (prio : BitVec 4) (f : Word) :
    flagP (irqFlags nmi prio f) = irqPrio nmi prio := by
  have put : flagP (putField (entryFlags f) 12 4 (irqPrio nmi prio)) = irqPrio nmi prio :=
    fld_putField_same _ 12 4 _ (by decide)
  unfold irqFlags
  split
  · exact put
  · exact (fld_putField_other _ 4 2 _ 12 4 (by decide) (by decide) (.inr (by decide))).trans put

/-- An NMI runs in NMI state, another interrupt in Interrupt mode. -/
theorem mode_irq {nmi : Bool} {prio : BitVec 4}
    (unlocked : nmi = false → infoNL s.info = false ∧ infoR s.info = false)
    (flags : t.flags = irqFlags nmi prio s.flags) (info : t.info = irqInfo nmi s.info) :
    t.mode = irqMode nmi := by
  cases nmi
  · obtain ⟨nl, r⟩ := unlocked rfl
    change t.info = s.info at info
    obtain ⟨-, interrupt, -⟩ := mode_of_flagM (s := t) (by rwa [info]) (by rwa [info])
    refine interrupt ?_
    rw [flags]
    exact fld_putField_same _ 4 2 _ (by decide)
  · obtain ⟨nmi, -⟩ := modeIsAFunctionOfTheBits t
    refine nmi ?_
    rw [info]
    exact putBit_same _ 4 true (by decide)

/-- The handler is privileged and uses Stack0. -/
theorem stack0_of_irqMode {nmi : Bool} (h : t.mode = irqMode nmi) :
    t.isUser = false ∧ t.spIsSp0 = true := by
  unfold State.isUser State.spIsSp0
  rw [h]
  cases nmi
  · exact ⟨rfl, rfl⟩
  · exact ⟨rfl, rfl⟩

/-- K0 stays as it was. -/
theorem infoK0_irqInfo (nmi : Bool) (x : Word) : infoK0 (irqInfo nmi x) = infoK0 x := by
  cases nmi
  · rfl
  · exact infoK0_putBit_other x 4 true (by decide) (by decide)

/-- A bit that is written and then written back. -/
theorem putBit_putBit_self {x : Word} {k : Nat} {b : Bool} (c : Bool) (hk : k < 32)
    (h : x.getLsbD k = b) : putBit (putBit x k c) k b = x := by
  apply BitVec.eq_of_getLsbD_eq
  intro j hj
  rw [putBit_bit _ k j b hk hj]
  split
  · rename_i e; rw [e, h]
  · rename_i other; exact putBit_other x k j c hk hj other

/-- The return takes back what the entry made of INFO. -/
theorem info_restored {nmi : Bool} {x : Word} (nl : infoNL x = false)
    (r : nmi = false → infoR x = false) :
    (if infoNL (irqInfo nmi x) then irqInfo nmi x &&& ~~~0x10#32 else irqInfo nmi x &&& ~~~0x20#32)
      = x := by
  cases nmi
  · show (if infoNL x then x &&& ~~~0x10#32 else x &&& ~~~0x20#32) = x
    rw [if_neg (by rw [nl]; decide)]
    exact (putBit_false x (k := 5) (by decide)).symm.trans (putBit_self (by decide) (r rfl))
  · have set : infoNL (putBit x 4 true) = true := putBit_same x 4 true (by decide)
    show (if infoNL (putBit x 4 true) then putBit x 4 true &&& ~~~0x10#32
      else putBit x 4 true &&& ~~~0x20#32) = x
    rw [if_pos set]
    exact (putBit_false _ (k := 4) (by decide)).symm.trans
      (putBit_putBit_self true (by decide) nl)

/-- The vector of an interrupt (R474). -/
theorem irqVector_eq (v : Word) (num : BitVec 5) :
    v + 0x80#32 + (num ++ 0#2).setWidth 32 = v + BitVec.ofNat 32 (0x80 + 4 * num.toNat) := by
  rw [BitVec.add_assoc, BitVec.ofNat_add, append_zero_eq_ofInt num (by decide)]
  rfl

/-- The state in which the handler of the interrupt `num` starts. -/
def State.inHandler (s : State) (num : BitVec 5) (prio : BitVec 4) (n : Nat) (l : List StaleHalf) :
    State :=
  (s.framed true (s.framedMem true s.pc) n l).entered s.regs
    (irqFlags (decide (num.toNat ≤ 3)) prio s.flags) (irqInfo (decide (num.toNat ≤ 3)) s.info)
    (read32 (s.framedMem true s.pc) (s.vp + BitVec.ofNat 32 (0x80 + 4 * num.toNat)))

/-- An interrupt whose frame can be written and whose vector is legal (R474). -/
theorem interruptEntry_ok {num : BitVec 5} (prio : BitVec 4)
    (writable : FrameWritable s (irqMode (decide (num.toNat ≤ 3))) (s.frameBase true))
    (vector : VectorOk s (s.framedMem true s.pc) (irqMode (decide (num.toNat ≤ 3)))
      (s.vp + BitVec.ofNat 32 (0x80 + 4 * num.toNat))) :
    ∃ n l, interruptEntry num prio s = .next (s.inHandler num prio n l)
      ∧ (s.params.prefetchBytes = 0 → l = s.stale) := by
  obtain ⟨n, l, pushed, stale⟩ := pushContext_done (s := s) (z := true) s.pc writable
  refine ⟨n, l, ?_, stale⟩
  rw [interruptEntry_pushes, pushed]
  simp only
  rw [irqVector_eq]
  exact enterVector_framed rfl vector

theorem mem_inHandler (s : State) (num : BitVec 5) (prio : BitVec 4) (n : Nat)
    (l : List StaleHalf) : (s.inHandler num prio n l).mem = s.framedMem true s.pc :=
  mem_entered ..

/-- The words of the frame, without FREE bits in FLAGS. -/
theorem read32_framedMem (wf : Memory.wf s.mem = true) (free : s.flags &&& 0xF80#32 = 0#32) :
    let c := s.framedMem true s.pc
    let b := s.frameBase true
    read32 c b = s.flags ∧ read32 c (b + 4#32) = s.regs.r0 ∧ read32 c (b + 8#32) = s.regs.r1
      ∧ read32 c (b + 12#32) = s.pc := by
  have words := read32_frameMem (s.frameBase true) s.pc s.regs.r1 s.regs.r0 s.flagsRead wf
  rw [flagsRead_of_no_free free] at words
  unfold State.framedMem
  rw [flagsRead_of_no_free free]
  exact words

/-- The stack pointer in use when it is SP0. -/
theorem sp_of_stack0 (h : t.spIsSp0 = true) : t.sp = t.sp0 := if_pos h

/-- What the handler's `rtie` leaves: the frame's words, and the rest of the handler's state. -/
structure HandlerReturned (s t u : State) : Prop where
  pc : u.pc = s.pc
  flags : u.flags = s.flags
  r0 : u.regs.r0 = s.regs.r0
  r1 : u.regs.r1 = s.regs.r1
  returned : FrameReturned t u

/-- `rtie` at the handler finds the frame that the entry wrote. -/
theorem exec_rtie_inHandler {num : BitVec 5} {prio : BitVec 4} {n : Nat} {l : List StaleHalf}
    (ht : t = s.inHandler num prio n l) (mode : t.mode = irqMode (decide (num.toNat ≤ 3)))
    (on : infoK0 t.info = true) (wf : Memory.wf s.mem = true)
    (free : s.flags &&& 0xF80#32 = 0#32) (target : TargetOk s.pc)
    (readable : FrameReadable s (irqMode (decide (num.toNat ≤ 3))) (s.frameBase true)) :
    ∃ u, exec .rtie t = .next u ∧ HandlerReturned s t u := by
  obtain ⟨user, stack0⟩ := stack0_of_irqMode mode
  have mem : t.mem = s.framedMem true s.pc := by rw [ht, mem_inHandler]
  have sp : t.sp = s.frameBase true := by rw [sp_of_stack0 stack0, ht]; rfl
  have mmu : t.mmu = s.mmu := by rw [ht]; rfl
  have map : t.map = s.map := by rw [ht]; rfl
  obtain ⟨wFlags, w0, w1, wPc⟩ := read32_framedMem wf free
  rw [← mem, ← sp] at wFlags w0 w1 wPc
  obtain ⟨h0, h4, h8, h12⟩ := readable
  have readable' : FrameReadable t t.mode t.sp := by
    rw [mode, sp]
    exact ⟨ReadOkIn_congr mmu map h0, ReadOkIn_congr mmu map h4, ReadOkIn_congr mmu map h8,
      ReadOkIn_congr mmu map h12⟩
  have enabled : t.spEnabled = true := by
    unfold State.spEnabled
    rw [if_pos stack0, on]
  obtain ⟨u, next, pc, returned⟩ := exec_rtie_ok user enabled readable' (wPc ▸ target)
  have back := returned
  obtain ⟨flags, r0, r1, -⟩ := back
  exact ⟨u, next, pc.trans wPc, flags.trans wFlags, r0.trans w0, r1.trans w1, returned⟩

/-- Registers that all read the same are the same. -/
theorem regs_eq_of_get {g h : Regs} (r0 : g.r0 = h.r0) (r1 : g.r1 = h.r1)
    (others : ∀ r, r ∉ [Reg.r0, Reg.r1] → g.get r = h.get r) : g = h := by
  obtain ⟨g0, g1, g2, g3, g4, g5, g6, g7⟩ := g
  obtain ⟨h0, h1, h2, h3, h4, h5, h6, h7⟩ := h
  cases r0
  cases r1
  cases others .r2 (by decide)
  cases others .r3 (by decide)
  cases others .r4 (by decide)
  cases others .r5 (by decide)
  cases others .r6 (by decide)
  cases others .r7 (by decide)
  rfl

/-- The registers are those of the interrupted program. -/
theorem HandlerReturned.regs {num : BitVec 5} {prio : BitVec 4} {n : Nat} {l : List StaleHalf}
    (h : HandlerReturned s t u) (ht : t = s.inHandler num prio n l) : u.regs = s.regs := by
  have started : t.regs = s.regs := by rw [ht]; rfl
  obtain ⟨-, -, r0, r1, -, -, -, others, -⟩ := h
  refine regs_eq_of_get r0 r1 fun r hr => ?_
  rw [← started]
  exact others r hr

end

/-! ### O60 -/

/-- Settles O60. -/
theorem interruptThenReturn : Obligations.InterruptThenReturn := by
  intro s num prio wf accepted free target b dest m writable readable vector
  obtain ⟨nl, on, allowed⟩ := (acceptIrq_iff s num prio).mp accepted
  have r : decide (num.toNat ≤ 3) = false → infoR s.info = false := fun maskable =>
    allowed.elim (fun nmi => absurd nmi (of_decide_eq_false maskable)) fun h => h.2.1
  have mem : s.framedMem true s.pc = m := by
    unfold State.framedMem
    rw [flagsRead_of_no_free free]
    rfl
  have dest_eq : irqMode (decide (num.toNat ≤ 3)) = dest := irqMode_eq num
  rw [← dest_eq] at writable readable vector
  rw [← mem] at vector
  obtain ⟨n, l, entry, stale⟩ := interruptEntry_ok prio writable vector
  obtain ⟨t, ht⟩ : ∃ t, t = s.inHandler num prio n l := ⟨_, rfl⟩
  rw [← ht] at entry
  have mode : t.mode = irqMode (decide (num.toNat ≤ 3)) :=
    mode_irq (s := s) (fun maskable => ⟨nl, r maskable⟩) (by rw [ht]; rfl) (by rw [ht]; rfl)
  have info : t.info = irqInfo (decide (num.toNat ≤ 3)) s.info := by rw [ht]; rfl
  obtain ⟨u, rtie, back⟩ := exec_rtie_inHandler ht mode (by rw [info, infoK0_irqInfo, on]) wf free
    target readable
  have regs := back.regs ht
  obtain ⟨pc, flags, -, -, -, -, -, -, sp0, sp1, info', gp, vp, brke, brk0, brk1, brk2, brk3, mem',
    stale', exe, system, dev, clu, -⟩ := back
  have stack0 : t.spIsSp0 = true := (stack0_of_irqMode mode).2
  rw [if_pos stack0] at sp0 sp1
  rw [info, info_restored nl r] at info'
  subst ht
  have outside : MemSameBut s u b 16 := fun a apart => by
    rw [mem', mem_inHandler, mem]
    exact read8_frameMem_other s.mem b _ _ _ _ apart
  refine ⟨_, u, entry, mode.trans dest_eq, by rw [← mem]; rfl, rfl, rfl, ?_,
    entryWord_irqFlags _ prio s.flags, ?_, rtie, regs, pc, flags, info', ?_, sp1, gp, vp, brke, brk0,
    brk1, brk2, brk3, exe, mode_congr s u flags info', outside, system, dev, clu,
    fun none => stale'.trans (stale none)⟩
  · rw [mem_inHandler, mem]
  · refine (flagP_irqFlags _ prio s.flags).trans ?_
    unfold irqPrio
    simp only [decide_eq_true_eq]
  · exact sp0.trans (BitVec.sub_add_cancel s.sp0 16#32)

end Sys2Proof.Machine
end

section
/-! PROOF of O20 (41_load_store.md): the addresses of displacement and indexed operands. -/

namespace Sys2Proof.Machine

/-! ### Offsets -/

/-- A signed offset of Format A. -/
theorem sext_half (h : BitVec 16) : Imm.sext (.half h) = BitVec.ofInt 32 h.toInt := rfl

/-- An unsigned offset of Format A. -/
theorem zext_half (h : BitVec 16) : Imm.zext (.half h) = BitVec.ofNat 32 h.toNat :=
  (BitVec.ofNat_toNat 32 h).symm

/-- A short offset counts units of the access size. -/
theorem shortOffset_eq_ofNat (w : Width) (o : BitVec 6) :
    shortOffset w o = BitVec.ofNat 32 (o.toNat * bytesOf w) := by
  cases w with
  | byte => rw [bytesOf, Nat.mul_one, BitVec.ofNat_toNat]; rfl
  | half => rw [bytesOf, Nat.mul_comm]; exact setWidth_append_zeros o 1
  | word => rw [bytesOf, Nat.mul_comm]; exact setWidth_append_zeros o 2

/-! ### O20 -/

/-- Settles O20. -/
theorem addressFormation : Obligations.AddressFormation := by
  intro s w r x v h o
  rw [← sext_half, ← zext_half, ← shortOffset_eq_ofNat]
  exact ⟨BitVec.add_comm .., BitVec.add_comm .., BitVec.add_comm .., BitVec.add_comm ..,
    BitVec.add_comm .., BitVec.add_comm .., BitVec.add_comm .., BitVec.add_comm ..,
    BitVec.add_zero _, BitVec.add_zero _, BitVec.add_comm .., BitVec.add_comm ..,
    BitVec.add_comm .., BitVec.add_comm ..⟩

end Sys2Proof.Machine
end

section
/-! PROOF of O37 (43_move.md R244, 44_alu.md R275): the bit sequences of `mov.f.r` and `and.i`, bit by
bit, and the InstructionError of a sequence that leaves the word. -/

namespace Sys2Proof.Machine

section
variable {s : State} {rd rs : Reg} {size lsb : BitVec 5}

/-! ### Bits of a mask and of an insertion -/

/-- The bit `k` lies in the sequence (R117). -/
def inSeq (size lsb : BitVec 5) (k : Nat) : Bool :=
  decide (lsb.toNat ≤ k) && decide (k < lsb.toNat + seqSize size)

/-- Seen from a shift by `lsb`: the bit has come from below the size. -/
theorem inSeq_shifted (size lsb : BitVec 5) (k : Nat) :
    inSeq size lsb k = (!decide (k < lsb.toNat) && decide (k - lsb.toNat < seqSize size)) := by
  rw [inSeq, ← decide_not, Bool.eq_iff_iff]
  simp only [Bool.and_eq_true, decide_eq_true_eq]
  omega

theorem seqMask_bit (size lsb : BitVec 5) {k : Nat} (hk : k < 32) :
    (seqMask size lsb).getLsbD k = inSeq size lsb k := by
  rw [seqMask, BitVec.getLsbD_shiftLeft, lowOnes_bit _ (by omega), inSeq_shifted,
    decide_eq_true hk, Bool.true_and]

theorem seqInsert_bit (d v : Word) (size lsb : BitVec 5) {k : Nat} (hk : k < 32) :
    (seqInsert d v size lsb).getLsbD k
      = if inSeq size lsb k then v.getLsbD (k - lsb.toNat) else d.getLsbD k := by
  have shifted : ((v &&& lowOnes (seqSize size)) <<< lsb.toNat).getLsbD k
      = (inSeq size lsb k && v.getLsbD (k - lsb.toNat)) := by
    rw [BitVec.getLsbD_shiftLeft, BitVec.getLsbD_and, lowOnes_bit _ (by omega), inSeq_shifted,
      decide_eq_true hk, Bool.true_and, Bool.and_assoc,
      Bool.and_comm (decide (k - lsb.toNat < seqSize size))]
  rw [seqInsert, BitVec.getLsbD_or, shifted, BitVec.getLsbD_and, BitVec.getLsbD_not,
    seqMask_bit _ _ hk, decide_eq_true hk]
  cases inSeq size lsb k
  · simp
  · simp

/-! ### Sequences that fit the word -/

theorem exec_extract (fits : seqOk size lsb = true) :
    exec (.movFR (.extract rd rs size lsb)) s = moveTo (.movFR (.extract rd rs size lsb)) rd
      (seqExtract (s.reg rs) size lsb) s := if_pos fits

theorem exec_insert (fits : seqOk size lsb = true) :
    exec (.movFR (.insert rd rs size lsb)) s = moveTo (.movFR (.insert rd rs size lsb)) rd
      (seqInsert (s.reg rd) (s.reg rs) size lsb) s := if_pos fits

theorem exec_setBits (fits : seqOk size lsb = true) :
    exec (.andI (.setBits rd rs size lsb)) s = logicTo (.andI (.setBits rd rs size lsb)) rd
      (s.reg rs &&& seqMask size lsb) s := if_pos fits

theorem exec_clearBits (fits : seqOk size lsb = true) :
    exec (.andI (.clearBits rd rs size lsb)) s = logicTo (.andI (.clearBits rd rs size lsb)) rd
      (s.reg rs &&& ~~~seqMask size lsb) s := if_pos fits

/-- The result of an instruction that completes with a value, told by the value's bits. -/
theorem completes_bits {i : Instr} {v : Word} {bit : Nat → Bool}
    (h : exec i s = giveResult i rd v (setZN s.flags v) s)
    (bits : ∀ k : Nat, k < 32 → v.getLsbD k = bit k) :
    Completes i s fun t => ∃ x, ValueResult s t rd x ∧ ∀ k : Nat, k < 32 → x.getLsbD k = bit k := by
  obtain ⟨t, next, pc, result⟩ := completes_value h
  exact ⟨t, next, pc, v, result, bits⟩

end

/-! ### O37 -/

/-- Settles O37. -/
theorem bitFieldsComplete : Obligations.BitFieldsComplete := by
  intro s rd rs size lsb sz inside
  refine ⟨fun fit => ?fits, fun far i hi => ?leaves⟩
  case fits =>
    have fits : seqOk size lsb = true := decide_eq_true fit
    refine ⟨completes_bits (exec_extract fits) fun k hk => seqExtract_bit _ _ _ hk,
      completes_bits (exec_insert fits) fun k hk => seqInsert_bit _ _ _ _ hk,
      completes_bits (exec_setBits fits) fun k hk => ?_,
      completes_bits (exec_clearBits fits) fun k hk => ?_⟩
    · rw [BitVec.getLsbD_and, seqMask_bit _ _ hk, Bool.and_comm]
      rfl
    · rw [BitVec.getLsbD_and, BitVec.getLsbD_not, seqMask_bit _ _ hk, decide_eq_true hk,
        Bool.true_and, Bool.and_comm]
      rfl
  case leaves =>
    have leaves : ¬seqOk size lsb = true := fun fits => Nat.not_le.mpr far (of_decide_eq_true fits)
    rcases hi with rfl | rfl | rfl | rfl
    · exact if_neg leaves
    · exact if_neg leaves
    · exact if_neg leaves
    · exact if_neg leaves

end Sys2Proof.Machine
end

section
/-! The fields of a word put together from parts (R10): what `fld` reads from a concatenation, and
that a word is the concatenation of its fields. The encoder builds words of parts and the decoder
takes them apart, so both directions of the round trip rest on these facts. -/

namespace Sys2Proof

section
variable {w n m lo len : Nat}

@[simp] theorem Reg.toBits_ofBits (b : BitVec 3) : (Reg.ofBits b).toBits = b := by
  revert b
  decide

@[simp] theorem Reg.ofBits_toBits (r : Reg) : Reg.ofBits r.toBits = r := by cases r <;> rfl

@[simp] theorem Base.toBits_ofBits (b : BitVec 2) : (Base.ofBits b).toBits = b := by
  revert b
  decide

@[simp] theorem Base.ofBits_toBits (b : Base) : Base.ofBits b.toBits = b := by cases b <;> rfl

/-! ### Fields of a concatenation

The widths in the encoder are sums of numerals, which `simp` matches with a total width only where
the pattern leaves the concatenation out of its index. -/

@[simp] theorem fld_whole (x : BitVec n) : fld x 0 n = x := BitVec.extractLsb'_eq_self

@[simp] theorem fld_of_fld (x : BitVec w) {lo' len' : Nat} (h : lo' + len' ≤ len) :
    fld (fld x lo len) lo' len' = fld x (lo + lo') len' := Machine.fld_fld x lo len lo' len' h

@[simp] theorem fld_join_low (x : BitVec n) (y : BitVec m) (h : lo + len ≤ m) :
    fld (no_index (x ++ y)) lo len = fld y lo len := BitVec.extractLsb'_append_eq_of_add_le h

@[simp] theorem fld_join_high (x : BitVec n) (y : BitVec m) (h : m ≤ lo) :
    fld (no_index (x ++ y)) lo len = fld x (lo - m) len := BitVec.extractLsb'_append_eq_of_le h

@[simp] theorem fld_ofNat (k : Nat) :
    fld (BitVec.ofNat w k) lo len = BitVec.ofNat len (k % 2 ^ w / 2 ^ lo) := by
  apply BitVec.eq_of_toNat_eq
  rw [fld, BitVec.extractLsb'_toNat, BitVec.toNat_ofNat, BitVec.toNat_ofNat,
    Nat.shiftRight_eq_div_pow]

/-- A word is a concatenation exactly if its two fields are the parts. -/
theorem join_eq_iff (x : BitVec (n + m)) (a : BitVec n) (b : BitVec m) :
    @Eq (no_index (BitVec (n + m))) (no_index (a ++ b)) (no_index x)
      ↔ a = fld x m n ∧ b = fld x 0 m := by
  constructor
  · rintro rfl
    exact ⟨(BitVec.extractLsb'_append_eq_left ..).symm,
      (BitVec.extractLsb'_append_eq_right ..).symm⟩
  · rintro ⟨rfl, rfl⟩
    exact BitVec.extractLsb'_append_extractLsb'

/-- Two adjacent fields are one. -/
theorem fld_adjacent {x : BitVec w} {a : BitVec n} {b : BitVec m} (high : fld x (lo + m) n = a)
    (low : fld x lo m = b) : fld x lo (n + m) = a ++ b := by
  subst high low
  exact (BitVec.extractLsb'_append_extractLsb'_eq_extractLsb' rfl).symm

/-- A part of a known field. -/
theorem fld_part {x : BitVec w} {c : BitVec len} (h : fld x lo len = c) (lo' len' : Nat)
    (inside : lo' + len' ≤ len := by omega) : fld x (lo + lo') len' = fld c lo' len' := by
  rw [← h, fld_of_fld x inside]

/-! ### Single bits -/

@[simp] theorem one_eq_bit (b : BitVec 1) : 1#1 = b ↔ ¬b = 0#1 := by
  revert b
  decide

@[simp] theorem zero_eq_bit (b : BitVec 1) : 0#1 = b ↔ ¬b = 1#1 := by
  revert b
  decide

theorem bit_one {b : BitVec 1} (h : ¬b = 0#1) : b = 1#1 := by
  revert b
  decide

theorem bit_zero {b : BitVec 1} (h : ¬b = 1#1) : b = 0#1 := by
  revert b
  decide

theorem bit_cases (b : BitVec 1) : b = 0#1 ∨ b = 1#1 := by
  revert b
  decide

theorem two_bit_cases (x : BitVec 2) : x = 0b00#2 ∨ x = 0b01#2 ∨ x = 0b10#2 ∨ x = 0b11#2 := by
  revert x
  decide

/-! ### The last row of a table

What the catch-all row of a `match` on a field stands for. -/

theorem last_of_two_bits {x : BitVec 2} (h0 : x = 0#2 → False) (h1 : x = 1#2 → False)
    (h2 : x = 2#2 → False) : x = 0b11#2 := by
  revert x
  decide

theorem last_of_three_bits {x : BitVec 3} (h0 : x = 0#3 → False) (h1 : x = 1#3 → False)
    (h2 : x = 2#3 → False) (h3 : x = 3#3 → False) (h4 : x = 4#3 → False) (h5 : x = 5#3 → False)
    (h6 : x = 6#3 → False) : x = 0b111#3 := by
  revert x
  decide

theorem last_of_four_bits {x : BitVec 4} (h0 : x = 0#4 → False) (h1 : x = 1#4 → False)
    (h2 : x = 2#4 → False) (h3 : x = 3#4 → False) (h4 : x = 4#4 → False) (h5 : x = 5#4 → False)
    (h6 : x = 6#4 → False) (h7 : x = 7#4 → False) (h8 : x = 8#4 → False) (h9 : x = 9#4 → False)
    (h10 : x = 10#4 → False) (h11 : x = 11#4 → False) (h12 : x = 12#4 → False)
    (h13 : x = 13#4 → False) (h14 : x = 14#4 → False) : x = 0b1111#4 := by
  revert x
  decide

/-- A two-bit field that is neither 00 nor 01 has its high bit set. -/
theorem high_bit_of_two {x : BitVec 2} (h0 : x = 0#2 → False) (h1 : x = 1#2 → False) :
    fld x 1 1 = 1#1 := by
  revert x
  decide

/-- The last two rows of eight have their two high bits set. -/
theorem high_bits_of_three {x : BitVec 3} (h0 : x = 0#3 → False) (h1 : x = 1#3 → False)
    (h2 : x = 2#3 → False) (h3 : x = 3#3 → False) (h4 : x = 4#3 → False) (h5 : x = 5#3 → False) :
    fld x 1 2 = 0b11#2 := by
  revert x
  decide

/-- The last two rows of sixteen have their three high bits set. -/
theorem high_bits_of_four {x : BitVec 4} (h0 : x = 0#4 → False) (h1 : x = 1#4 → False)
    (h2 : x = 2#4 → False) (h3 : x = 3#4 → False) (h4 : x = 4#4 → False) (h5 : x = 5#4 → False)
    (h6 : x = 6#4 → False) (h7 : x = 7#4 → False) (h8 : x = 8#4 → False) (h9 : x = 9#4 → False)
    (h10 : x = 10#4 → False) (h11 : x = 11#4 → False) (h12 : x = 12#4 → False)
    (h13 : x = 13#4 → False) : fld x 1 3 = 0b111#3 := by
  revert x
  decide

end

end Sys2Proof
end

section
/-! PROOF of O2, first part (R101, R125-R127): the 16-bit rows. A half-word that a row of the table
decodes is the encoding of the row's instruction. -/

namespace Sys2Proof

/-- Reading back: what is decoded, if anything, is well-formed and has these half-words. -/
def ReadsBack (p : Params) (hs : List Half) (o : Option Instr) : Prop :=
  ∀ i, o = some i → encode p i = hs ∧ i.wf p = true

section
-- One thread elaborates these proofs: each holds the opened tables of the decoder, and many at once
-- do not fit in the memory.
set_option Elab.async false
variable {p : Params} {hs : List Half} {l u h : Half} {v : Imm} {i : Instr}

@[simp] theorem readsBack_none : ReadsBack p hs none := fun _ h => nomatch h

@[simp] theorem readsBack_some_iff :
    ReadsBack p hs (some i) ↔ encode p i = hs ∧ i.wf p = true :=
  ⟨fun h => h i rfl, fun h _ e => Option.some.inj e ▸ h⟩

theorem enc111_fields {o : BitVec 4} (low : fld h 0 3 = 0b100#3) (top : fld h 13 3 = 0b111#3)
    (op : fld h 3 4 = o) :
    enc111 (Reg.ofBits (fld h 10 3)) (Reg.ofBits (fld h 7 3)) o = [h] := by
  simp [enc111, enc16, join_eq_iff, *]

theorem encThree_fields {o : BitVec 4} (low : fld h 0 3 = 0b110#3) (op : fld h 3 4 = o) :
    encThree (Reg.ofBits (fld h 13 3)) (Reg.ofBits (fld h 10 3)) (Reg.ofBits (fld h 7 3)) o
      = [h] := by
  simp [encThree, enc16, join_eq_iff, *]

theorem enc110_fields {o : BitVec 4} (low : fld h 0 3 = 0b100#3) (top : fld h 13 3 = 0b110#3)
    (op : fld h 3 4 = o) : enc110 (fld h 10 3) (fld h 7 3) o = [h] := by
  simp [enc110, enc16, join_eq_iff, *]

theorem encSys_fields {o : BitVec 4} (low : fld h 0 3 = 0b101#3) (top : fld h 7 9 = 0b101000010#9)
    (op : fld h 3 4 = o) : encSys o = [h] := by
  simp [encSys, enc16, join_eq_iff, *]

theorem readsBack_decode16Unary (low : fld h 0 3 = 0b100#3) (top : fld h 13 3 = 0b111#3) :
    ReadsBack p [h] (some (decode16Unary h)) := by
  unfold decode16Unary
  split
  case h_16 =>
    have op : fld h 3 4 = 0b1111#4 := by apply last_of_four_bits <;> assumption
    exact readsBack_some_iff.mpr ⟨enc111_fields low top op, rfl⟩
  all_goals
    rename fld h 3 4 = _ => op
    exact readsBack_some_iff.mpr ⟨enc111_fields low top op, rfl⟩

theorem readsBack_decode16Three (low : fld h 0 3 = 0b110#3) :
    ReadsBack p [h] (some (decode16Three h)) := by
  unfold decode16Three
  split
  case h_16 =>
    have op : fld h 3 4 = 0b1111#4 := by apply last_of_four_bits <;> assumption
    exact readsBack_some_iff.mpr ⟨encThree_fields low op, rfl⟩
  all_goals
    rename fld h 3 4 = _ => op
    exact readsBack_some_iff.mpr ⟨encThree_fields low op, rfl⟩

/-! ### The 16-bit rows -/

theorem readsBack_decode16System (low : fld h 0 3 = 0b101#3) (top : fld h 7 9 = 0b101000010#9) :
    ReadsBack p [h] (some (decode16System h)) := by
  unfold decode16System
  split
  case h_16 =>
    have op : fld h 3 4 = 0b1111#4 := by apply last_of_four_bits <;> assumption
    exact readsBack_some_iff.mpr ⟨encSys_fields low top op, rfl⟩
  all_goals
    rename fld h 3 4 = _ => op
    exact readsBack_some_iff.mpr ⟨encSys_fields low top op, rfl⟩

theorem readsBack_decode16Sp (low : fld h 0 3 = 0b011#3) :
    ReadsBack p [h] (some (decode16Sp h)) := by
  unfold decode16Sp
  split
  case h_7 =>
    have top : fld h 14 2 = 0b11#2 := by
      refine (fld_part (lo := 13) (len := 3) rfl 1 2).trans ?_
      apply high_bits_of_three <;> assumption
    simp [encode, Instr.wf, movConstOk, damagedFormOk, encMovI, enc16, join_eq_iff, *]
  case h_1 =>
    split <;>
      simp [encode, Instr.wf, damagedFormOk, storeFormOk, encSt8I, encDisp8, enc16, join_eq_iff, *]
  case h_2 =>
    split <;>
      simp [encode, Instr.wf, damagedFormOk, storeFormOk, encSt16I, encDisp16, enc16,
        join_eq_iff, *]
  case h_3 =>
    split <;>
      simp [encode, Instr.wf, damagedFormOk, storeFormOk, encStI, encDisp32, encShort32, enc16,
        join_eq_iff, *]
  all_goals simp [encode, Instr.wf, damagedFormOk, encAddI, enc16, join_eq_iff, *]

theorem readsBack_decode16Flag (low : fld h 0 3 = 0b100#3) (top : fld h 13 3 = 0b110#3)
    (op : fld h 3 4 = 0b0010#4) : ReadsBack p [h] (decode16Flag h) := by
  have word {c : BitVec 3} (sub : fld h 7 3 = c) :
      enc110 (Reg.ofBits (fld h 10 3)).toBits c 0b0010#4 = [h] := by
    rw [Reg.toBits_ofBits, ← sub, enc110_fields low top op]
  unfold decode16Flag
  dsimp only
  split_ifs with get set mode
  · exact readsBack_some_iff.mpr ⟨word get, rfl⟩
  · exact readsBack_some_iff.mpr ⟨word set, rfl⟩
  · exact readsBack_some_iff.mpr ⟨word mode, rfl⟩
  · exact readsBack_none

theorem readsBack_decode16Jump (low : fld h 0 3 = 0b100#3) (top : fld h 13 3 = 0b110#3)
    (op : fld h 3 4 = 0b1101#4) : ReadsBack p [h] (decode16Jump h) := by
  have tail : fld h 0 7 = 0b1101100#7 := fld_adjacent op low
  unfold decode16Jump
  split
  case h_5 => exact readsBack_none
  all_goals
    rename fld h 7 3 = _ => sub
    have h8 := fld_part sub 1 2
    have h7 := fld_part sub 0 1
    simp only [Nat.reduceAdd, fld_ofNat, Nat.reducePow, Nat.reduceMod, Nat.reduceDiv] at h7 h8
    simp [encode, Instr.wf, damagedFormOk, encJump, encTable, enc16, join_eq_iff, *]

theorem readsBack_decode16Two (low : fld h 0 3 = 0b100#3) (top : fld h 13 3 = 0b110#3) :
    ReadsBack p [h] (decode16Two h) := by
  have row {o : BitVec 4} (op : fld h 3 4 = o) :
      enc110 (Reg.ofBits (fld h 10 3)).toBits (Reg.ofBits (fld h 7 3)).toBits o = [h] := by
    rw [Reg.toBits_ofBits, Reg.toBits_ofBits, enc110_fields low top op]
  have pow2 {b : BitVec 2} (op : fld h 3 4 = b ++ 0b10#2) :
      encode p (.movI (.pow2 (Reg.ofBits (fld h 10 3)) (fld h 7 3) b)) = [h] := by
    have h5 := fld_part op 2 2
    have h3 := fld_part op 0 2
    simp at h5 h3
    have h0 : fld h 0 5 = 0b10100#5 := fld_adjacent h3 low
    simp [encode, encMovI, enc16, join_eq_iff, *]
  have pow2m1 {b : BitVec 2} (op : fld h 3 4 = b ++ 0b11#2) :
      encode p (.movI (.pow2m1 (Reg.ofBits (fld h 10 3)) (fld h 7 3) b)) = [h] := by
    have h5 := fld_part op 2 2
    have h3 := fld_part op 0 2
    simp at h5 h3
    have h0 : fld h 0 5 = 0b11100#5 := fld_adjacent h3 low
    simp [encode, encMovI, enc16, join_eq_iff, *]
  unfold decode16Two
  split
  case h_3 op => exact readsBack_decode16Flag low top op
  case h_10 op => exact readsBack_decode16Jump low top op
  case h_8 => exact readsBack_none
  case h_16 =>
    have op : fld h 3 4 = 0b1111#4 := by apply last_of_four_bits <;> assumption
    exact readsBack_some_iff.mpr ⟨pow2m1 op, rfl⟩
  case h_11 | h_13 | h_15 =>
    rename fld h 3 4 = _ => op
    exact readsBack_some_iff.mpr ⟨pow2 op, rfl⟩
  case h_12 | h_14 =>
    rename fld h 3 4 = _ => op
    exact readsBack_some_iff.mpr ⟨pow2m1 op, rfl⟩
  all_goals
    rename fld h 3 4 = _ => op
    exact readsBack_some_iff.mpr ⟨row op, rfl⟩

theorem readsBack_decode16Hundred (low : fld h 0 3 = 0b100#3) :
    ReadsBack p [h] (decode16Hundred h) := by
  unfold decode16Hundred
  split
  case h_7 top => exact readsBack_decode16Two low top
  case h_8 =>
    have top : fld h 13 3 = 0b111#3 := by apply last_of_three_bits <;> assumption
    exact readsBack_decode16Unary low top
  case h_4 =>
    split
    · simp [encode, Instr.wf, damagedFormOk, encTest, enc16, join_eq_iff, *]
    · exact readsBack_none
  case h_5 =>
    split
    · simp [encode, Instr.wf, damagedFormOk, storeFormOk, encSt8I, encZero, enc16, join_eq_iff, *]
    · have h9 : fld h 9 1 = 0#1 := bit_zero ‹_›
      split
      case h_4 =>
        have h7 : fld h 7 2 = 0b11#2 := by apply last_of_two_bits <;> assumption
        have sub : fld h 7 3 = 0b011#3 := fld_adjacent h9 h7
        simp [encode, Instr.wf, damagedFormOk, enc16, join_eq_iff, *]
      all_goals
        rename fld h 7 2 = _ => h7
        have sub := fld_adjacent h9 h7
        simp at sub
        simp [encode, Instr.wf, damagedFormOk, enc16, join_eq_iff, *]
  case h_6 =>
    split
    · have tail : fld h 0 4 = 0b0100#4 := fld_adjacent ‹_› low
      simp [encode, Instr.wf, damagedFormOk, storeFormOk, encSt16I, encZero, enc16, join_eq_iff, *]
    · have h3 : fld h 3 1 = 1#1 := bit_one ‹_›
      have tail : fld h 0 4 = 0b1100#4 := fld_adjacent h3 low
      simp [encode, Instr.wf, damagedFormOk, storeFormOk, encStI, encZero, encShort32, enc16,
        join_eq_iff, *]
  all_goals simp [encode, Instr.wf, damagedFormOk, enc16, join_eq_iff, *]

theorem readsBack_decode16Stack (low : fld h 0 3 = 0b101#3) (top : fld h 13 3 = 0b100#3) :
    ReadsBack p [h] (decode16Stack h) := by
  unfold decode16Stack
  split
  case h_1 h3 =>
    have tail : fld h 0 5 = 0b00101#5 := fld_adjacent h3 low
    simp [encode, Instr.wf, damagedFormOk, encAddI, enc16, join_eq_iff, *]
  case h_2 h3 =>
    have tail : fld h 0 5 = 0b01101#5 := fld_adjacent h3 low
    split
    · have head : fld h 12 4 = 0b1000#4 := fld_adjacent top ‹_›
      simp [encode, Instr.wf, damagedFormOk, enc16, join_eq_iff, *]
    · have h12 : fld h 12 1 = 1#1 := bit_one ‹_›
      have head : fld h 12 4 = 0b1001#4 := fld_adjacent top h12
      simp [encode, Instr.wf, damagedFormOk, enc16, join_eq_iff, *]
  case h_3 h3 =>
    have tail : fld h 0 5 = 0b10101#5 := fld_adjacent h3 low
    split
    · have head : fld h 10 6 = 0b100000#6 := fld_adjacent top ‹_›
      simp [encode, Instr.wf, damagedFormOk, enc16, join_eq_iff, *]
    · exact readsBack_none
  case h_4 =>
    have h3 : fld h 3 2 = 0b11#2 := by apply last_of_two_bits <;> assumption
    split
    · have tail : fld h 0 7 = 0b0011101#7 := fld_adjacent ‹fld h 5 2 = _› (fld_adjacent h3 low)
      simp [encode, Instr.wf, damagedFormOk, enc16, join_eq_iff, *]
    · exact readsBack_none

theorem readsBack_decode16PushI (low : fld h 0 3 = 0b101#3) (top : fld h 8 8 = 0b10100000#8) :
    ReadsBack p [h] (some (decode16PushI h)) := by
  unfold decode16PushI
  split
  · next h7 =>
    have head : fld h 7 9 = 0b101000001#9 := fld_adjacent top h7
    simp [encode, Instr.wf, damagedFormOk, encPushI, enc16, join_eq_iff, *]
  next h7 =>
  have zero7 : fld h 7 9 = 0b101000000#9 := fld_adjacent top (bit_zero h7)
  split
  · next h6 =>
    have head : fld h 6 10 = 0b1010000001#10 := fld_adjacent zero7 h6
    simp [encode, Instr.wf, damagedFormOk, encPushI, enc16, join_eq_iff, *]
  next h6 =>
  have zero6 : fld h 6 10 = 0b1010000000#10 := fld_adjacent zero7 (bit_zero h6)
  split
  · next h5 =>
    have head : fld h 5 11 = 0b10100000001#11 := fld_adjacent zero6 h5
    simp [encode, Instr.wf, damagedFormOk, encPushI, enc16, join_eq_iff, *]
  next h5 =>
  have zero5 : fld h 5 11 = 0b10100000000#11 := fld_adjacent zero6 (bit_zero h5)
  split
  · next h4 =>
    have head : fld h 4 12 = 0b101000000001#12 := fld_adjacent zero5 h4
    simp [encode, Instr.wf, damagedFormOk, encPushI, enc16, join_eq_iff, *]
  next h4 =>
  have zero4 : fld h 4 12 = 0b101000000000#12 := fld_adjacent zero5 (bit_zero h4)
  split
  · next h3 =>
    have word : fld h 0 16 = 0xA005#16 := fld_adjacent (fld_adjacent zero4 h3) low
    rw [fld_whole] at word
    exact readsBack_some_iff.mpr ⟨by rw [word]; rfl, rfl⟩
  · next h3 =>
    have word : fld h 0 16 = 0xA00D#16 := fld_adjacent (fld_adjacent zero4 (bit_one h3)) low
    rw [fld_whole] at word
    exact readsBack_some_iff.mpr ⟨by rw [word]; rfl, rfl⟩

theorem readsBack_decode16Misc (low : fld h 0 3 = 0b101#3) (top : fld h 13 3 = 0b101#3) :
    ReadsBack p [h] (decode16Misc h) := by
  unfold decode16Misc
  split
  case h_1 h10 =>
    have head : fld h 10 6 = 0b101000#6 := fld_adjacent top h10
    split
    case h_1 h8 => exact readsBack_decode16PushI low (fld_adjacent head h8)
    case h_2 h8 =>
      split
      · exact readsBack_decode16System low (fld_adjacent (fld_adjacent head h8) ‹_›)
      · exact readsBack_none
    case h_3 =>
      have h9 : fld h 9 1 = 1#1 := (fld_part rfl 1 1).trans (high_bit_of_two ‹_› ‹_›)
      have head : fld h 9 7 = 0b1010001#7 := fld_adjacent head h9
      simp [encode, Instr.wf, damagedFormOk, storeFormOk, encSt8I, encZero, enc16, join_eq_iff, *]
  case h_2 h10 =>
    have head : fld h 10 6 = 0b101001#6 := fld_adjacent top h10
    split_ifs with h3
    · have tail : fld h 0 4 = 0b0101#4 := fld_adjacent h3 low
      simp [encode, Instr.wf, damagedFormOk, storeFormOk, encSt16I, encZero, enc16, join_eq_iff, *]
    · have tail : fld h 0 4 = 0b1101#4 := fld_adjacent (bit_one h3) low
      simp [encode, Instr.wf, damagedFormOk, storeFormOk, encStI, encZero, encShort32, enc16,
        join_eq_iff, *]
  case h_3 => exact readsBack_none

theorem readsBack_decode16HundredOne (low : fld h 0 3 = 0b101#3) :
    ReadsBack p [h] (decode16HundredOne h) := by
  have top {q : BitVec 4} (h12 : fld h 12 4 = q) : fld h 13 3 = fld q 1 3 :=
    fld_part h12 1 3
  unfold decode16HundredOne
  split
  case h_9 h12 | h_10 h12 => exact readsBack_decode16Stack low (top h12)
  case h_11 h12 | h_12 h12 => exact readsBack_decode16Misc low (top h12)
  case h_13 | h_14 => exact readsBack_none
  case h_8 h12 =>
    split_ifs with h11
    · have head : fld h 11 5 = 0b01110#5 := fld_adjacent h12 h11
      simp [encode, Instr.wf, damagedFormOk, enc16, join_eq_iff, *]
    · have head : fld h 11 5 = 0b01111#5 := fld_adjacent h12 (bit_one h11)
      simp [encode, Instr.wf, damagedFormOk, enc16, join_eq_iff, *]
  case h_15 =>
    have h13 : fld h 13 3 = 0b111#3 := by
      rw [top rfl]
      apply high_bits_of_four <;> assumption
    clear top
    split
    case h_4 =>
      have h8 : fld h 8 2 = 0b11#2 := by apply last_of_two_bits <;> assumption
      simp [encode, Instr.wf, damagedFormOk, encShift, enc16, join_eq_iff, *]
    all_goals simp [encode, Instr.wf, damagedFormOk, encShift, enc16, join_eq_iff, *]
  case h_1 h12 | h_2 h12 =>
    have h13 := top h12
    simp at h13
    split_ifs <;> simp [encode, Instr.wf, damagedFormOk, encJump, enc16, join_eq_iff, *]
  all_goals
    rename fld h 12 4 = _ => h12
    have h15 := fld_part h12 3 1
    have h12 := fld_part h12 0 3
    simp at h15 h12
    split_ifs <;> simp [encode, Instr.wf, damagedFormOk, encCond, enc16, join_eq_iff, *]

theorem readsBack_decode16Table : ReadsBack p [h] (decode16Table h) := by
  unfold decode16Table
  split
  case h_4 low => exact readsBack_decode16Sp low
  case h_5 low => exact readsBack_decode16Hundred low
  case h_6 low => exact readsBack_decode16HundredOne low
  case h_7 low => exact readsBack_decode16Three low
  case h_8 => exact readsBack_none
  case h_1 low =>
    split_ifs <;>
      simp [encode, Instr.wf, damagedFormOk, storeFormOk, encSt8I, encDisp8, enc16, join_eq_iff, *]
  case h_2 low =>
    split_ifs <;>
      simp [encode, Instr.wf, damagedFormOk, storeFormOk, encSt16I, encDisp16, enc16,
        join_eq_iff, *]
  case h_3 low =>
    split_ifs <;>
      simp [encode, Instr.wf, damagedFormOk, storeFormOk, encStI, encDisp32, encShort32, enc16,
        join_eq_iff, *]

end

end Sys2Proof
end

section
/-! PROOF of O2, second part (R110-R113): Format A, the rows of which the 32-bit and 48-bit sizes
share. -/

namespace Sys2Proof

section
-- One thread elaborates these proofs: each holds the opened tables of the decoder, and many at once
-- do not fit in the memory.
set_option Elab.async false
variable {p : Params} {hs : List Half} {l u h : Half} {w : Word} {v : Imm} {i : Instr}

/-! ### Format A -/

/-- Format A has no short offset (R195). -/
def Disp.isFormatA (a : Disp) : Bool :=
  match a with
  | .reg _ _ => true
  | .named _ _ => true
  | _ => false

/-- A store of Format A, of a register or of an immediate (R195). -/
def encStoreA (zz : BitVec 2) (src : StoreSrc) (a : Disp) : List Half :=
  match src with
  | .reg r => encDispA zz 1#1 r a
  | .zero => encImmA zz 0#1 0#1 a
  | .one => encImmA zz 0#1 1#1 a
  | .ones => encImmA zz 1#1 0#1 a

theorem encDisp8_formatA (t : BitVec 1) (r : Reg) {a : Disp} (fa : a.isFormatA = true) :
    encDisp8 t r a = encDispA 0b00#2 t r a := by
  cases a with
  | reg | named => rfl
  | shortReg | shortSp => cases fa

theorem encDisp16_formatA (t : BitVec 1) (r : Reg) {a : Disp} (fa : a.isFormatA = true) :
    encDisp16 t r a = encDispA 0b01#2 t r a := by
  cases a with
  | reg | named => rfl
  | shortReg | shortSp => cases fa

theorem encDisp32_formatA (t : BitVec 1) (r : Reg) {a : Disp} (fa : a.isFormatA = true) :
    encDisp32 t r a = encDispA 0b10#2 t r a := by
  cases a with
  | reg | named => rfl
  | shortReg | shortSp => cases fa

theorem encZero_formatA (zz : BitVec 2) (f : Reg → BitVec 6 → Half) (g : BitVec 6 → Half)
    {a : Disp} (fa : a.isFormatA = true) : encZero zz f g a = encImmA zz 0#1 0#1 a := by
  cases a with
  | reg | named => rfl
  | shortReg | shortSp => cases fa

theorem encSt8I_formatA (src : StoreSrc) {a : Disp} (fa : a.isFormatA = true) :
    encSt8I src a = encStoreA 0b00#2 src a := by
  cases src with
  | reg r => exact encDisp8_formatA _ _ fa
  | zero => exact encZero_formatA _ _ _ fa
  | one | ones => rfl

theorem encSt16I_formatA (src : StoreSrc) {a : Disp} (fa : a.isFormatA = true) :
    encSt16I src a = encStoreA 0b01#2 src a := by
  cases src with
  | reg r => exact encDisp16_formatA _ _ fa
  | zero => exact encZero_formatA _ _ _ fa
  | one | ones => rfl

theorem encStI_formatA (src : StoreSrc) {a : Disp} (fa : a.isFormatA = true) :
    encStI src a = encStoreA 0b10#2 src a := by
  cases src with
  | reg r => exact encDisp32_formatA _ _ fa
  | zero => exact encZero_formatA _ _ _ fa
  | one | ones => rfl

theorem storeFormOk_formatA (src : StoreSrc) {a : Disp} (fa : a.isFormatA = true) :
    storeFormOk src a = true := by
  cases a with
  | reg | named => cases src <;> rfl
  | shortReg | shortSp => cases fa

theorem readsBack_loadOf (zz : BitVec 2) (r : Reg) {a : Disp} (fa : a.isFormatA = true) :
    ReadsBack p (encDispA zz 0#1 r a) (loadOf zz r a) := by
  unfold loadOf
  split
  · exact readsBack_some_iff.mpr ⟨encDisp8_formatA _ _ fa, rfl⟩
  · exact readsBack_some_iff.mpr ⟨encDisp16_formatA _ _ fa, rfl⟩
  · exact readsBack_some_iff.mpr ⟨encDisp32_formatA _ _ fa, rfl⟩
  · exact readsBack_none

theorem readsBack_storeOf (zz : BitVec 2) (src : StoreSrc) {a : Disp} (fa : a.isFormatA = true) :
    ReadsBack p (encStoreA zz src a) (storeOf zz src a) := by
  unfold storeOf
  split
  · exact readsBack_some_iff.mpr
      ⟨encSt8I_formatA _ fa, by simp [Instr.wf, damagedFormOk, storeFormOk_formatA _ fa]⟩
  · exact readsBack_some_iff.mpr
      ⟨encSt16I_formatA _ fa, by simp [Instr.wf, damagedFormOk, storeFormOk_formatA _ fa]⟩
  · exact readsBack_some_iff.mpr
      ⟨encStI_formatA _ fa, by simp [Instr.wf, damagedFormOk, storeFormOk_formatA _ fa]⟩
  · exact readsBack_none

/-- The half-words of Format A with the fields of `l` (R110). -/
def encALike (l : Half) (v : Imm) : List Half := encA (fld l 13 3) (fld l 10 3) (fld l 5 5) v

theorem encA_fields {a b : BitVec 3} {c : BitVec 5} (ha : a = fld l 13 3) (hb : b = fld l 10 3)
    (hc : c = fld l 5 5) : encA a b c v = encALike l v := by
  subst ha hb hc
  rfl

theorem readsBack_decodeANamed (h9 : fld l 9 1 = 0#1) (h5 : fld l 5 2 = 0b01#2) :
    ReadsBack p (encALike l v) (decodeANamed l v) := by
  have same {t : BitVec 1} (h10 : fld l 10 1 = t) :
      encDispA (fld l 11 2) t (Reg.ofBits (fld l 13 3)) (.named (Base.ofBits (fld l 7 2)) v)
        = encALike l v :=
    encA_fields (by simp) (by simp [join_eq_iff, *]) (by simp [join_eq_iff, *])
  unfold decodeANamed
  split_ifs with h10
  · exact same h10 ▸ readsBack_loadOf _ _ rfl
  · exact same (bit_one h10) ▸ readsBack_storeOf _ (.reg _) rfl

theorem encStoreA_immOf {a b : BitVec 1} {src : StoreSrc} (h : immOf a b = some src)
    (zz : BitVec 2) (d : Disp) : encStoreA zz src d = encImmA zz a b d := by
  revert h
  unfold immOf
  split
  case h_4 => exact fun h => nomatch h
  all_goals
    rintro ⟨⟩
    rfl

theorem readsBack_decodeAImmReg (h8 : fld l 8 2 = 0b10#2) (h5 : fld l 5 2 = 0b01#2) :
    ReadsBack p (encALike l v) (decodeAImmReg l v) := by
  unfold decodeAImmReg
  split
  case h_2 => exact readsBack_none
  case h_1 src imm =>
    have same : encStoreA (fld l 13 2) src (.reg (Reg.ofBits (fld l 10 3)) v) = encALike l v := by
      rw [encStoreA_immOf imm]
      exact encA_fields (by simp [join_eq_iff]) (by simp) (by simp [join_eq_iff, *])
    exact same ▸ readsBack_storeOf _ _ rfl

theorem readsBack_decodeAImmNamed (op : fld l 5 5 = 0b11001#5) :
    ReadsBack p (encALike l v) (decodeAImmNamed l v) := by
  unfold decodeAImmNamed
  split
  case h_2 => exact readsBack_none
  case h_1 src imm =>
    have same :
        encStoreA (fld l 13 2) src (.named (Base.ofBits (fld l 11 2)) v) = encALike l v := by
      rw [encStoreA_immOf imm]
      exact encA_fields (by simp [join_eq_iff]) (by simp [join_eq_iff]) op.symm
    exact same ▸ readsBack_storeOf _ _ rfl

theorem readsBack_decodeASpSp (op : fld l 5 5 = 0b10011#5) (rs : fld l 10 3 = 0b100#3)
    (rd : fld l 13 3 = 0b100#3) : ReadsBack p (encALike l v) (decodeASpSp v) := by
  have same : encA 0b100#3 0b100#3 0b10011#5 v = encALike l v :=
    encA_fields rd.symm rs.symm op.symm
  rw [← same]
  unfold decodeASpSp
  cases v with
  | wide w =>
    dsimp only
    split_ifs with h0
    · have value : fld w 2 30 ++ 0b00#2 = w := by simp [join_eq_iff, h0]
      exact readsBack_some_iff.mpr ⟨by simp only [encode, encAddI, value], rfl⟩
    · exact readsBack_none
  | half u =>
    dsimp only
    split_ifs with h0
    · have value : fld u 2 14 ++ 0b00#2 = u := by simp [join_eq_iff, h0]
      exact readsBack_some_iff.mpr ⟨by simp only [encode, encAddI, value], rfl⟩
    · exact readsBack_none

theorem readsBack_decodeAMov (op : fld l 5 5 = 0b10011#5) :
    ReadsBack p (encALike l v) (decodeAMov l v) := by
  have row {c : BitVec 3} (rs : fld l 10 3 = c) :
      encA (Reg.ofBits (fld l 13 3)).toBits c 0b10011#5 v = encALike l v :=
    encA_fields (by simp) rs.symm op.symm
  unfold decodeAMov
  split
  case h_1 rs | h_2 rs | h_3 rs | h_4 rs => exact readsBack_some_iff.mpr ⟨row rs, rfl⟩
  case h_5 rs =>
    split_ifs with h15 h13
    · exact readsBack_some_iff.mpr
        ⟨encA_fields (by simp [join_eq_iff, h15]) rs.symm op.symm, rfl⟩
    · exact readsBack_decodeASpSp op rs (fld_adjacent (bit_one h15) h13)
    · exact readsBack_none
  case h_6 => exact readsBack_none

theorem readsBack_decodeACmp (op : fld l 5 5 = 0b10111#5) :
    ReadsBack p (encALike l v) (decodeACmp l v) := by
  unfold decodeACmp
  split
  case h_5 => exact readsBack_none
  all_goals
    rename fld l 13 3 = _ => rd
    exact readsBack_some_iff.mpr ⟨encA_fields rd.symm (by simp) op.symm, rfl⟩

theorem readsBack_decodeAJump48 (op : fld l 5 5 = 0b11011#5) (rs : fld l 10 3 = 0b000#3) :
    ReadsBack p (encALike l (.wide w)) (decodeAJump48 l w) := by
  have row {c : BitVec 3} (rd : fld l 13 3 = c) (o : BitVec 31) {k : BitVec 1}
      (value : o ++ k = w) :
      encA c 0b000#3 0b11011#5 (.wide (o ++ k)) = encALike l (.wide w) := by
    rw [value]
    exact encA_fields rd.symm rs.symm op.symm
  unfold decodeAJump48
  split
  case h_5 => exact readsBack_none
  case h_3 rd =>
    split_ifs with h1 h0
    · exact readsBack_some_iff.mpr ⟨row rd (_ ++ 0#1) (by simp [join_eq_iff, h0, h1]), rfl⟩
    · exact readsBack_some_iff.mpr ⟨row rd (_ ++ 0#1) (by simp [join_eq_iff, h0, h1]), rfl⟩
    · exact readsBack_none
  all_goals
    rename fld l 13 3 = _ => rd
    split_ifs with h0
    · exact readsBack_some_iff.mpr ⟨row rd _ (by simp [join_eq_iff, h0]), rfl⟩
    · exact readsBack_some_iff.mpr ⟨row rd _ (by simp [join_eq_iff, h0]), rfl⟩

@[simp] theorem encOff17_off17 (u : Half) : encOff17 (off17 u) = u := by
  simp [encOff17, off17, join_eq_iff]

@[simp] theorem off17_encOff17 (o : BitVec 16) : off17 (encOff17 o) = o := by
  simp [encOff17, off17, join_eq_iff]

@[simp] theorem encOff18_off18 (u : Half) : encOff18 (off18 u) = u := by
  simp [encOff18, off18, join_eq_iff]

@[simp] theorem off18_encOff18 (o : BitVec 16) : off18 (encOff18 o) = o := by
  simp [encOff18, off18, join_eq_iff]

theorem readsBack_decodeAJump32 (op : fld l 5 5 = 0b11011#5) (rs : fld l 10 3 = 0b000#3) :
    ReadsBack p (encALike l (.half u)) (some (decodeAJump32 l u)) := by
  have row {c : BitVec 3} (rd : fld l 13 3 = c) :
      encA c 0b000#3 0b11011#5 (.half u) = encALike l (.half u) :=
    encA_fields rd.symm rs.symm op.symm
  unfold decodeAJump32
  split
  case h_8 =>
    have rd : fld l 13 3 = 0b111#3 := by apply last_of_three_bits <;> assumption
    simp [encode, encTable, Instr.wf, damagedFormOk, row rd]
  all_goals
    rename fld l 13 3 = _ => rd
    simp [encode, encTable, encJump, Instr.wf, damagedFormOk, row rd]

theorem readsBack_decodeAPushI (op : fld l 5 5 = 0b11011#5) (rs : fld l 10 3 = 0b001#3) :
    ReadsBack p (encALike l v) (decodeAPushI l v) := by
  have wide {c : BitVec 3} {x w : Word} (rd : fld l 13 3 = c) (parts : x = w) :
      encA c 0b001#3 0b11011#5 (.wide x) = encALike l (.wide w) := by
    rw [parts]
    exact encA_fields rd.symm rs.symm op.symm
  have half {c : BitVec 3} {x u : Half} (rd : fld l 13 3 = c) (parts : x = u) :
      encA c 0b001#3 0b11011#5 (.half x) = encALike l (.half u) := by
    rw [parts]
    exact encA_fields rd.symm rs.symm op.symm
  unfold decodeAPushI
  split
  case h_3 rd =>
    split_ifs with high
    · exact readsBack_some_iff.mpr ⟨wide rd (by simp [join_eq_iff, high]), rfl⟩
    · exact readsBack_none
  case h_7 rd =>
    split_ifs with high
    · exact readsBack_some_iff.mpr ⟨half rd (by simp [join_eq_iff, high]), rfl⟩
    · exact readsBack_none
  case h_1 rd => exact readsBack_some_iff.mpr ⟨wide rd rfl, rfl⟩
  case h_2 rd | h_4 rd => exact readsBack_some_iff.mpr ⟨wide rd (by simp [join_eq_iff]), rfl⟩
  case h_5 rd => exact readsBack_some_iff.mpr ⟨half rd rfl, rfl⟩
  case h_6 rd | h_8 rd => exact readsBack_some_iff.mpr ⟨half rd (by simp [join_eq_iff]), rfl⟩
  case h_9 => exact readsBack_none

theorem readsBack_decodeABranch (op : fld l 5 5 = 0b11011#5) :
    ReadsBack p (encALike l v) (decodeABranch l v) := by
  unfold decodeABranch
  split
  case h_1 rs =>
    cases v with
    | wide w => exact readsBack_decodeAJump48 op rs
    | half u => exact readsBack_decodeAJump32 op rs
  case h_2 rs => exact readsBack_decodeAPushI op rs
  case h_3 => exact readsBack_none

theorem readsBack_decodeATable : ReadsBack p (encALike l v) (decodeATable l v) := by
  have row {c : BitVec 5} (op : fld l 5 5 = c) :
      encA (Reg.ofBits (fld l 13 3)).toBits (Reg.ofBits (fld l 10 3)).toBits c v = encALike l v :=
    encA_fields (by simp) (by simp) op.symm
  have low {c : BitVec 5} (op : fld l 5 5 = c) : fld l 5 2 = fld c 0 2 := fld_part op 0 2
  unfold decodeATable
  split
  case h_2 op | h_5 op | h_8 op | h_11 op =>
    exact readsBack_decodeANamed (fld_part op 4 1) (low op)
  case h_14 op | h_18 op => exact readsBack_decodeAImmReg (fld_part op 3 2) (low op)
  case h_16 op => exact readsBack_decodeAMov op
  case h_20 op => exact readsBack_decodeACmp op
  case h_21 op => exact readsBack_decodeAImmNamed op
  case h_23 op => exact readsBack_decodeABranch op
  case h_25 => exact readsBack_none
  all_goals
    rename fld l 5 5 = _ => op
    exact readsBack_some_iff.mpr ⟨row op, rfl⟩

end

end Sys2Proof
end

section
/-! PROOF of O2, last part (R101, R115-R120): Formats B and C, the damaged and lost rows (U10, U12,
U14, U16, U21), the length rule, and the statement. -/

namespace Sys2Proof

section
-- One thread elaborates these proofs: each holds the opened tables of the decoder, and many at once
-- do not fit in the memory.
set_option Elab.async false
variable {p : Params} {l u h : Half} {w : Word} {v : Imm} {i : Instr}

/-! ### Format B -/

/-- The half-words of Format B with the fields of `l` (R115). -/
def encBLike (l u : Half) : List Half := encB (fld l 13 3) (fld l 10 3) (fld l 7 3) u

theorem encB_fields {a b c : BitVec 3} {x : Half} (ha : a = fld l 13 3) (hb : b = fld l 10 3)
    (hc : c = fld l 7 3) (hx : x = u) : encB a b c x = encBLike l u := by
  subst ha hb hc hx
  rfl

theorem readsBack_decodeBSub (g : fld l 13 3 = 0b001#3) :
    ReadsBack p (encBLike l u) (decodeBSub l u) := by
  unfold decodeBSub
  split
  case h_8 => exact readsBack_none
  all_goals
    rename fld l 7 3 = _ => sub
    exact readsBack_some_iff.mpr ⟨encB_fields g.symm (by simp) sub.symm (by simp), rfl⟩

theorem encB_cond {c : BitVec 6} {x : Half} (g : fld l 13 3 = 0b010#3) (sub : fld l 7 6 = c)
    (hx : x = u) : [0b010#3 ++ c ++ 0b0100111#7, x] = encBLike l u := by
  have head : 0b010#3 ++ c = fld l 7 9 := (fld_adjacent g sub).symm
  have parts : fld l 13 3 ++ fld l 10 3 ++ fld l 7 3 = fld l 7 9 := by simp [join_eq_iff]
  rw [encBLike, encB, head, parts, hx]

theorem readsBack_decodeBCond (g : fld l 13 3 = 0b010#3) :
    ReadsBack p (encBLike l u) (decodeBCond l u) := by
  unfold decodeBCond
  split
  case h_16 => exact readsBack_none
  all_goals
    rename fld l 7 6 = _ => sub
    exact readsBack_some_iff.mpr ⟨encB_cond g sub (by simp), rfl⟩

theorem readsBack_decodeBField (g : fld l 13 3 = 0b011#3) :
    ReadsBack p (encBLike l u) (decodeBField l u) := by
  unfold decodeBField
  dsimp only
  split_ifs with high
  · split
    case h_5 => exact readsBack_none
    all_goals
      exact readsBack_some_iff.mpr
        ⟨encB_fields g.symm (by simp) (by simp) (by simp [join_eq_iff, *]), rfl⟩
  · exact readsBack_none

theorem readsBack_decodeB : ReadsBack p (encBLike l u) (decodeB l u) := by
  unfold decodeB
  split
  case h_1 g =>
    split_ifs with zero one
    · exact readsBack_some_iff.mpr ⟨encB_fields g.symm (by simp) rfl zero.symm, rfl⟩
    · exact readsBack_some_iff.mpr ⟨encB_fields g.symm (by simp) rfl one.symm, rfl⟩
    · exact readsBack_none
  case h_2 g => exact readsBack_decodeBSub g
  case h_3 g => exact readsBack_decodeBCond g
  case h_4 g => exact readsBack_decodeBField g
  case h_8 =>
    have g : fld l 13 3 = 0b111#3 := by apply last_of_three_bits <;> assumption
    exact readsBack_some_iff.mpr ⟨encB_fields g.symm (by simp) (by simp) rfl, rfl⟩
  all_goals
    rename fld l 13 3 = _ => g
    exact readsBack_some_iff.mpr ⟨encB_fields g.symm (by simp) (by simp) rfl, rfl⟩

/-! ### Format C -/

/-- The half-words of Format C with the fields of `l` (R120). -/
def encCLike (l u : Half) : List Half := encC (fld l 13 3) (fld l 10 3) (fld l 7 3) u

theorem encC_fields {a b c : BitVec 3} {x : Half} (ha : a = fld l 13 3) (hb : b = fld l 10 3)
    (hc : c = fld l 7 3) (hx : u = x) : encC a b c x = encCLike l u := by
  subst ha hb hc hx
  rfl

/-- A half-word by its two bytes. -/
theorem eq_of_bytes {a b : BitVec 8} (high : fld u 8 8 = a) (low : fld u 0 8 = b) : u = a ++ b :=
  (fld_whole u).symm.trans (fld_adjacent high low)

theorem readsBack_decodeCThree (high : fld u 8 8 = 0x00#8) :
    ReadsBack p (encCLike l u) (decodeCThree l u) := by
  unfold decodeCThree
  split
  case h_14 => exact readsBack_none
  all_goals
    rename fld u 0 8 = _ => low
    exact readsBack_some_iff.mpr
      ⟨encC_fields (by simp) (by simp) (by simp) (eq_of_bytes high low), rfl⟩

theorem readsBack_decodeCTwo (high : fld u 8 8 = 0x01#8) (f0 : fld l 13 3 = 0b000#3) :
    ReadsBack p (encCLike l u) (decodeCTwo l u) := by
  have row {b c : BitVec 3} {x : Half} (word : u = x) (hb : b = fld l 10 3)
      (hc : c = fld l 7 3) : encC 0b000#3 b c x = encCLike l u :=
    encC_fields f0.symm hb hc word
  unfold decodeCTwo
  split
  case h_31 => exact readsBack_none
  case h_28 low | h_29 low | h_30 low =>
    split_ifs with top
    · exact readsBack_some_iff.mpr
        ⟨row (eq_of_bytes high low) (by simp [join_eq_iff, *]) (by simp [join_eq_iff, *]), rfl⟩
    · exact readsBack_none
  all_goals
    rename fld u 0 8 = _ => low
    have word := eq_of_bytes high low
    exact readsBack_some_iff.mpr ⟨row word (by simp) (by simp), rfl⟩

theorem readsBack_decodeCOne (high : fld u 8 8 = 0x02#8) (top : fld l 10 6 = 0b000000#6) :
    ReadsBack p (encCLike l u) (decodeCOne l u) := by
  have f0 : fld l 13 3 = 0b000#3 := fld_part top 3 3
  have f1 : fld l 10 3 = 0b000#3 := fld_part top 0 3
  have row {c : BitVec 3} {x : Half} (word : u = x) (hc : c = fld l 7 3) :
      encC 0b000#3 0b000#3 c x = encCLike l u :=
    encC_fields f0.symm f1.symm hc word
  unfold decodeCOne
  split
  case h_15 => exact readsBack_none
  all_goals
    rename fld u 0 8 = _ => low
    have word := eq_of_bytes high low
    exact readsBack_some_iff.mpr ⟨row word (by simp), rfl⟩

theorem readsBack_decodeCSet (high : fld u 8 8 = 0x03#8) :
    ReadsBack p (encCLike l u) (decodeCSet l u) := by
  have row {c : BitVec 3} {y : BitVec 8} (top : fld l 10 6 = 0b000000#6) (low : fld u 0 8 = y)
      (hc : c = fld l 7 3) : encC 0b000#3 0b000#3 c (0x03#8 ++ y) = encCLike l u :=
    encC_fields (fld_part top 3 3).symm (fld_part top 0 3).symm hc (eq_of_bytes high low)
  unfold decodeCSet
  split
  case h_1 low =>
    split_ifs with top f0
    · exact readsBack_some_iff.mpr ⟨row top low (by simp), rfl⟩
    · exact readsBack_some_iff.mpr
        ⟨encC_fields f0.symm (by simp) (by simp) (eq_of_bytes high low), rfl⟩
    · exact readsBack_none
  case h_2 low | h_3 low =>
    split_ifs with top
    · exact readsBack_some_iff.mpr ⟨row top low (by simp), rfl⟩
    · exact readsBack_none
  case h_4 => exact readsBack_none

theorem readsBack_decodeCShift (high : fld u 8 8 = 0x04#8) (f0 : fld l 13 3 = 0b000#3) :
    ReadsBack p (encCLike l u) (decodeCShift l u) := by
  have word {t : BitVec 3} (ttt : fld u 5 3 = t) : u = 0b00000100#8 ++ t ++ fld u 0 5 := by
    have head : fld u 5 11 = 0b00000100#8 ++ t := fld_adjacent high ttt
    exact (fld_whole u).symm.trans (fld_adjacent (lo := 0) (m := 5) head rfl)
  unfold decodeCShift
  split
  case h_5 => exact readsBack_none
  all_goals
    rename fld u 5 3 = _ => ttt
    exact readsBack_some_iff.mpr ⟨encC_fields f0.symm (by simp) (by simp) (word ttt), rfl⟩

theorem readsBack_decodeCImm8 (high : fld u 8 8 = 0x07#8) (f0 : fld l 13 3 = 0b000#3) :
    ReadsBack p (encCLike l u) (decodeCImm8 l u) := by
  have imm := eq_of_bytes high rfl
  unfold decodeCImm8
  split
  case h_1 f2 | h_2 f2 =>
    exact readsBack_some_iff.mpr ⟨encC_fields f0.symm (by simp) f2.symm imm, rfl⟩
  case h_3 f2 =>
    split_ifs with f1 h4
    · have head : fld u 4 12 = 0x070#12 := fld_adjacent high h4
      exact readsBack_some_iff.mpr
        ⟨encC_fields f0.symm f1.symm f2.symm (Eq.symm (by simp [join_eq_iff, head])), rfl⟩
    · exact readsBack_none
    · exact readsBack_none
  case h_4 f2 =>
    split_ifs with f1
    · exact readsBack_some_iff.mpr ⟨encC_fields f0.symm f1.symm f2.symm imm, rfl⟩
    · exact readsBack_none
  case h_5 => exact readsBack_none

theorem readsBack_decodeC : ReadsBack p (encCLike l u) (decodeC l u) := by
  unfold decodeC
  split
  case h_1 high => exact readsBack_decodeCThree high
  case h_4 high => exact readsBack_decodeCSet high
  case h_13 => exact readsBack_none
  case h_3 high =>
    split_ifs with top
    · exact readsBack_decodeCOne high top
    · exact readsBack_none
  case h_2 high =>
    split_ifs with f0
    · exact readsBack_decodeCTwo high f0
    · exact readsBack_none
  case h_5 high =>
    split_ifs with f0
    · exact readsBack_decodeCShift high f0
    · exact readsBack_none
  case h_8 high =>
    split_ifs with f0
    · exact readsBack_decodeCImm8 high f0
    · exact readsBack_none
  case h_6 high | h_7 high =>
    split_ifs with f0
    · exact readsBack_some_iff.mpr
        ⟨encC_fields f0.symm (by simp) (by simp) (eq_of_bytes high rfl), rfl⟩
    · exact readsBack_none
  case h_9 high | h_10 high | h_11 high | h_12 high =>
    split_ifs with f0 f2
    · exact readsBack_some_iff.mpr
        ⟨encC_fields f0.symm (by simp) f2.symm (eq_of_bytes high rfl), rfl⟩
    · exact readsBack_none
    · exact readsBack_none

/-! ### The whole rows of 32 and 48 bits -/

theorem encALike_half (low : fld l 0 5 = 0b10111#5) : encALike l (.half u) = [l, u] := by
  simp [encALike, encA, join_eq_iff, low]

theorem encALike_wide (low : fld l 0 5 = 0b11111#5) :
    encALike l (.wide w) = [l, fld w 0 16, fld w 16 16] := by
  simp [encALike, encA, join_eq_iff, low]

theorem encBLike_eq (low : fld l 0 7 = 0b0100111#7) : encBLike l u = [l, u] := by
  simp [encBLike, encB, join_eq_iff, low]

theorem encCLike_eq (low : fld l 0 7 = 0b0000111#7) : encCLike l u = [l, u] := by
  simp [encCLike, encC, join_eq_iff, low]

theorem readsBack_decodeFar (low : fld l 0 7 = 0b1101111#7) :
    ReadsBack p [l, u] (some (decodeFar l u)) := by
  unfold decodeFar
  split_ifs <;> simp [encode, encJump, Instr.wf, damagedFormOk, join_eq_iff, *]

theorem readsBack_decode32Table : ReadsBack p [l, u] (decode32Table l u) := by
  unfold decode32Table
  split_ifs with low
  · exact encALike_half low ▸ readsBack_decodeATable
  · split
    case h_1 low => exact encBLike_eq low ▸ readsBack_decodeB
    case h_2 low => exact encCLike_eq low ▸ readsBack_decodeC
    case h_3 low => simp [encode, Instr.wf, damagedFormOk, join_eq_iff, low]
    case h_4 low => exact readsBack_decodeFar low
    case h_5 => exact readsBack_none

/-! ### The damaged and lost rows -/

theorem readsBack_bnzNear (size : fld h 0 3 ≠ 0b111#3) (row : bnz16At p h = true) :
    ReadsBack p [h] (some (.bnzR (Reg.ofBits (fld h 10 3)) (.near (fld h 4 6)))) := by
  have pattern : p.bnz16 = fld h 13 3 ++ fld h 0 4 := (beq_iff_eq.mp row).symm
  refine readsBack_some_iff.mpr ⟨?_, ?_⟩
  · simp [encode, enc16, pattern, join_eq_iff]
  · simp [Instr.wf, damagedFormOk, patternIs16, pattern, size]

theorem readsBack_shiftlC (size : fld h 0 3 ≠ 0b111#3) (row : shiftlcAt p h = true) :
    ReadsBack p [h] (some (.shiftlCI (Reg.ofBits (fld h 7 3)) (Reg.ofBits (fld h 10 3)))) := by
  obtain ⟨top, pattern⟩ : fld h 13 3 = 0b100#3 ∧ fld h 0 7 = p.shiftlc16Low7 := by
    simpa [shiftlcAt] using row
  refine readsBack_some_iff.mpr ⟨?_, ?_⟩
  · simp [encode, enc16, ← pattern, join_eq_iff, top]
  · simp [Instr.wf, damagedFormOk, patternIs16, ← pattern, size]

theorem readsBack_mov1GetI (row : mov1rRdIAt p h = true) :
    ReadsBack p [h] (some (.mov1R (.getI (Reg.ofBits (fld h 10 3))))) := by
  obtain ⟨⟨top, low⟩, pattern⟩ :
      (fld h 13 3 = 0b110#3 ∧ fld h 0 7 = 0b0010100#7) ∧ fld h 7 3 = p.mov1rRdI := by
    simpa [mov1rRdIAt] using row
  refine readsBack_some_iff.mpr ⟨?_, rfl⟩
  show enc110 (Reg.ofBits (fld h 10 3)).toBits p.mov1rRdI 0b0010#4 = [h]
  rw [Reg.toBits_ofBits, ← pattern]
  exact enc110_fields (fld_part low 0 3) top (fld_part low 3 4)

theorem readsBack_mov1SetI (row : mov1rIRsAt p h = true) :
    ReadsBack p [h] (some (.mov1R (.setI (Reg.ofBits (fld h 10 3))))) := by
  obtain ⟨⟨top, low⟩, pattern⟩ :
      (fld h 13 3 = 0b110#3 ∧ fld h 0 7 = 0b0010100#7) ∧ fld h 7 3 = p.mov1rIRs := by
    simpa [mov1rIRsAt] using row
  refine readsBack_some_iff.mpr ⟨?_, rfl⟩
  show enc110 (Reg.ofBits (fld h 10 3)).toBits p.mov1rIRs 0b0010#4 = [h]
  rw [Reg.toBits_ofBits, ← pattern]
  exact enc110_fields (fld_part low 0 3) top (fld_part low 3 4)

theorem readsBack_decode16 (size : fld h 0 3 ≠ 0b111#3) : ReadsBack p [h] (decode16 p h) := by
  unfold decode16
  split
  case h_1 whole => exact whole ▸ readsBack_decode16Table
  case h_2 =>
    unfold decode16Damaged
    split_ifs with bnz shiftl getI setI
    · exact readsBack_bnzNear size bnz
    · exact readsBack_shiftlC size shiftl
    · exact readsBack_mov1GetI getI
    · exact readsBack_mov1SetI setI
    · exact readsBack_none

theorem readsBack_addNI (row : addNIAt p l = true) :
    ReadsBack p (encALike l v) (some (addNIOf l v)) :=
  readsBack_some_iff.mpr ⟨encA_fields (by simp) (by simp) (beq_iff_eq.mp row).symm, rfl⟩

theorem readsBack_bnzFar (size3 : fld l 0 3 = 0b111#3) (size5 : fld l 0 5 ≠ 0b11111#5)
    (row : bnz32At p l = true) :
    ReadsBack p [l, u] (some (.bnzR (Reg.ofBits (fld l 10 3)) (.far (off17 u)))) := by
  have pattern : p.bnz32 = fld l 13 3 ++ fld l 0 10 := (beq_iff_eq.mp row).symm
  refine readsBack_some_iff.mpr ⟨?_, ?_⟩
  · simp [encode, pattern, join_eq_iff]
  · simp [Instr.wf, damagedFormOk, patternIs32, pattern, size3, size5]

/-- A lost row with its pattern (R228). -/
theorem encLost_fields {pat : Option (BitVec 18)} (row : lostAt pat l u = true) :
    encLost pat (fld u 8 8) (fld u 2 6) = [l, u] := by
  have pattern : pat = some (fld u 0 2 ++ l) := beq_iff_eq.mp row
  simp [encLost, pattern, join_eq_iff]

theorem lostPatternOk_of_lostAt {pat : Option (BitVec 18)} (size3 : fld l 0 3 = 0b111#3)
    (size5 : fld l 0 5 ≠ 0b11111#5) (row : lostAt pat l u = true) : lostPatternOk pat = true := by
  have pattern : pat = some (fld u 0 2 ++ l) := beq_iff_eq.mp row
  simp [lostPatternOk, pattern, size3, size5]

theorem readsBack_decode32 (size3 : fld l 0 3 = 0b111#3) (size5 : fld l 0 5 ≠ 0b11111#5) :
    ReadsBack p [l, u] (decode32 p l u) := by
  unfold decode32
  split
  case h_1 whole => exact whole ▸ readsBack_decode32Table
  case h_2 =>
    unfold decode32Damaged
    split_ifs with add bnz push pop popRet
    · obtain ⟨low, op⟩ : fld l 0 5 = 0b10111#5 ∧ addNIAt p l = true := by
        simpa [addNI32At] using add
      exact encALike_half low ▸ readsBack_addNI op
    · exact readsBack_bnzFar size3 size5 bnz
    · exact readsBack_some_iff.mpr ⟨encLost_fields push, lostPatternOk_of_lostAt size3 size5 push⟩
    · exact readsBack_some_iff.mpr ⟨encLost_fields pop, lostPatternOk_of_lostAt size3 size5 pop⟩
    · exact readsBack_some_iff.mpr
        ⟨encLost_fields popRet, lostPatternOk_of_lostAt size3 size5 popRet⟩
    · exact readsBack_none

theorem readsBack_decode48 (size : fld l 0 5 = 0b11111#5) :
    ReadsBack p [l, fld w 0 16, fld w 16 16] (decode48 p l w) := by
  rw [← encALike_wide size]
  unfold decode48
  split
  case h_1 whole => exact whole ▸ readsBack_decodeATable
  case h_2 =>
    split_ifs with op
    · exact readsBack_addNI op
    · exact readsBack_none

/-! ### The length rule (R101) -/

theorem sizeOf_two_iff : sizeOf h = .two ↔ fld h 0 3 ≠ 0b111#3 := by
  unfold sizeOf
  split_ifs with h3 h5
  · simp [h3]
  · simp [h3]
  · simp [h3]

theorem sizeOf_four_iff : sizeOf h = .four ↔ fld h 0 3 = 0b111#3 ∧ fld h 0 5 ≠ 0b11111#5 := by
  unfold sizeOf
  split_ifs with h3 h5
  · simp [h5]
  · simp [h3, h5]
  · simp [h3]

theorem sizeOf_six_iff : sizeOf h = .six ↔ fld h 0 5 = 0b11111#5 := by
  have low (h5 : fld h 0 5 = 0b11111#5) : fld h 0 3 = 0b111#3 := fld_part h5 0 3
  unfold sizeOf
  split_ifs with h3 h5
  · simp [h5]
  · simp [h5]
  · simp [mt low h3]

/-! ### The decoder by the size of the first half-word -/

theorem decode16_of_decode {h0 h1 h2 : Half} (size : sizeOf h0 = .two)
    (decoded : decode p h0 h1 h2 = .ok i) : decode16 p h0 = some i := by
  simp only [decode, size] at decoded
  cases row : decode16 p h0 with
  | none => simp only [row, reduceCtorEq] at decoded
  | some j => simp only [row, Except.ok.injEq] at decoded; rw [decoded]

theorem decode32_of_decode {h0 h1 h2 : Half} (size : sizeOf h0 = .four)
    (decoded : decode p h0 h1 h2 = .ok i) : decode32 p h0 h1 = some i := by
  simp only [decode, size] at decoded
  cases row : decode32 p h0 h1 with
  | none => simp only [row, reduceCtorEq] at decoded
  | some j => simp only [row, Except.ok.injEq] at decoded; rw [decoded]

theorem decode48_of_decode {h0 h1 h2 : Half} (size : sizeOf h0 = .six)
    (decoded : decode p h0 h1 h2 = .ok i) : decode48 p h0 (h2 ++ h1) = some i := by
  simp only [decode, size] at decoded
  cases row : decode48 p h0 (h2 ++ h1) with
  | none => simp only [row, reduceCtorEq] at decoded
  | some j => simp only [row, Except.ok.injEq] at decoded; rw [decoded]

theorem halvesUsed_two {h0 : Half} (h1 h2 : Half) (size : sizeOf h0 = .two) :
    Machine.halvesUsed h0 h1 h2 = [h0] := by simp only [Machine.halvesUsed, size]

theorem halvesUsed_four {h0 : Half} (h1 h2 : Half) (size : sizeOf h0 = .four) :
    Machine.halvesUsed h0 h1 h2 = [h0, h1] := by simp only [Machine.halvesUsed, size]

theorem halvesUsed_six {h0 : Half} (h1 h2 : Half) (size : sizeOf h0 = .six) :
    Machine.halvesUsed h0 h1 h2 = [h0, h1, h2] := by simp only [Machine.halvesUsed, size]

end

/-! ### O2 -/

/-- Settles O2. -/
theorem encodeOfDecode : Obligations.EncodeOfDecode := by
  intro p h0 h1 h2 i decoded
  cases size : sizeOf h0 with
  | two =>
    rw [halvesUsed_two h1 h2 size]
    exact readsBack_decode16 (sizeOf_two_iff.mp size) i (decode16_of_decode size decoded)
  | four =>
    obtain ⟨size3, size5⟩ := sizeOf_four_iff.mp size
    rw [halvesUsed_four h1 h2 size]
    exact readsBack_decode32 size3 size5 i (decode32_of_decode size decoded)
  | six =>
    have low : fld (h2 ++ h1) 0 16 = h1 := BitVec.extractLsb'_append_eq_right ..
    have high : fld (h2 ++ h1) 16 16 = h2 := BitVec.extractLsb'_append_eq_left ..
    have back := readsBack_decode48 (sizeOf_six_iff.mp size) i (decode48_of_decode size decoded)
    rw [low, high] at back
    rw [halvesUsed_six h1 h2 size]
    exact back

end Sys2Proof
end

section
/-! PROOF of O1 and O3, first part (R101, R110-R127): the encodings of each format, and of the
branches and the loads and stores, are in a whole row of the table of their size. -/

namespace Sys2Proof

section
-- One thread elaborates these proofs: each holds the opened tables of the decoder, and many at once
-- do not fit in the memory.
set_option Elab.async false
variable {p : Params} {l u h : Half} {w : Word} {v : Imm} {i : Instr}

/-- Half-words in a whole row of the table of their size (R101, R102). -/
inductive IsRow : List Half → Instr → Prop
  | two {h : Half} {i : Instr} (size : sizeOf h = .two) (row : decode16Table h = some i) :
      IsRow [h] i
  | four {l u : Half} {i : Instr} (size : sizeOf l = .four) (row : decode32Table l u = some i) :
      IsRow [l, u] i
  | six {l : Half} {w : Word} {i : Instr} (size : sizeOf l = .six)
      (row : decodeATable l (.wide w) = some i) : IsRow [l, fld w 0 16, fld w 16 16] i

/-! ### Rows of each format -/

theorem isRow_encA {a b : BitVec 3} {c : BitVec 5}
    (row : ∀ low : BitVec 5, decodeATable (a ++ b ++ c ++ low) v = some i) :
    IsRow (encA a b c v) i := by
  cases v with
  | wide w => exact .six (sizeOf_six_iff.mpr (by simp)) (row _)
  | half u =>
    refine .four (sizeOf_four_iff.mpr (by simp)) ?_
    simp [decode32Table, row]

theorem isRow_encB {a b c : BitVec 3}
    (row : decodeB (a ++ b ++ c ++ 0b0100111#7) u = some i) : IsRow (encB a b c u) i := by
  refine .four (sizeOf_four_iff.mpr (by simp)) ?_
  simp [decode32Table, row]

theorem isRow_encC {a b c : BitVec 3}
    (row : decodeC (a ++ b ++ c ++ 0b0000111#7) u = some i) : IsRow (encC a b c u) i := by
  refine .four (sizeOf_four_iff.mpr (by simp)) ?_
  simp [decode32Table, row]

/-- The 16-bit rows by their low three bits. -/
theorem isRow_enc16 {x : BitVec 13} {low : BitVec 3} (size : low ≠ 0b111#3)
    (row : decode16Table (x ++ low) = some i) : IsRow (enc16 (x ++ low)) i :=
  .two (sizeOf_two_iff.mpr (by simpa using size)) row

theorem isRow_enc111 {rs rd : Reg} {o : BitVec 4}
    (row : decode16Unary (0b111#3 ++ rs.toBits ++ rd.toBits ++ o ++ 0b100#3) = i) :
    IsRow (enc111 rs rd o) i :=
  isRow_enc16 (by decide) (by simp [decode16Table, decode16Hundred, row])

theorem isRow_enc110 {a b : BitVec 3} {o : BitVec 4}
    (row : decode16Two (0b110#3 ++ a ++ b ++ o ++ 0b100#3) = some i) :
    IsRow (enc110 a b o) i :=
  isRow_enc16 (by decide) (by simp [decode16Table, decode16Hundred, row])

theorem isRow_encThree {rd rs rt : Reg} {o : BitVec 4}
    (row : decode16Three (rd.toBits ++ rs.toBits ++ rt.toBits ++ o ++ 0b110#3) = i) :
    IsRow (encThree rd rs rt o) i :=
  isRow_enc16 (by decide) (by simp [decode16Table, row])

theorem isRow_encSys {o : BitVec 4}
    (row : decode16System (0b101000010#9 ++ o ++ 0b101#3) = i) : IsRow (encSys o) i :=
  isRow_enc16 (by decide)
    (by simp [decode16Table, decode16HundredOne, decode16Misc, row])

/-- A 16-bit row whose low bits are part of a longer constant. -/
theorem isRow_half (size : fld h 0 3 ≠ 0b111#3) (row : decode16Table h = some i) :
    IsRow (enc16 h) i := .two (sizeOf_two_iff.mpr size) row

/-- The groups of the rows with low bits 101 are told apart by bits 15:13 (R127). -/
theorem decode16HundredOne_stack (top : fld h 13 3 = 0b100#3) :
    decode16HundredOne h = decode16Stack h := by
  have four : fld h 12 4 = 0b100#3 ++ fld h 12 1 := fld_adjacent (m := 1) top rfl
  rcases bit_cases (fld h 12 1) with b | b
  · simp [decode16HundredOne, four, b]
  · simp [decode16HundredOne, four, b]

theorem decode16HundredOne_jump (top : fld h 13 3 = 0b000#3) :
    decode16HundredOne h = if fld h 3 1 = 0#1 then some (.braI (.pc16 (fld h 4 9)))
      else some (.bsrI (.pc16 (fld h 4 9))) := by
  have four : fld h 12 4 = 0b000#3 ++ fld h 12 1 := fld_adjacent (m := 1) top rfl
  rcases bit_cases (fld h 12 1) with b | b
  · simp [decode16HundredOne, four, b]
  · simp [decode16HundredOne, four, b]

theorem decode16Table_101 (low : fld h 0 3 = 0b101#3) :
    decode16Table h = decode16HundredOne h := by simp [decode16Table, low]

/-- A row of the group 111 with low bits 101: bit 12 is the first bit of the register (R127). -/
theorem isRow_shift {rd : Reg} {tt : BitVec 2} {n : BitVec 5}
    (row : ∀ h : Half, fld h 12 4 = 0b1110#4 ∨ fld h 12 4 = 0b1111#4 → fld h 10 3 = rd.toBits →
      fld h 8 2 = tt → fld h 3 5 = n → decode16HundredOne h = some i) :
    IsRow (enc16 (0b111#3 ++ rd.toBits ++ tt ++ n ++ 0b101#3)) i := by
  refine isRow_enc16 (by decide) ?_
  rw [decode16Table_101 (by simp)]
  refine row _ ?_ (by simp) (by simp) (by simp)
  cases rd <;> simp [Reg.toBits]

/-- A field of two parts at the end of a word. -/
theorem fld_tail {x : BitVec 6} (q : BitVec 2) (k : BitVec 1) :
    fld (no_index (x ++ q ++ k)) 0 3 = q ++ k :=
  fld_adjacent (m := 1) (by simp) (by simp)

/-! ### Rows of Format A with an operand -/

theorem isRow_loadA {zz : BitVec 2} {r : Reg} {d : Disp} (fa : d.isFormatA = true)
    (row : loadOf zz r d = some i) : IsRow (encDispA zz 0#1 r d) i := by
  cases d with
  | reg ra v =>
    refine isRow_encA fun low => ?_
    rw [← row]
    rcases two_bit_cases zz with rfl | rfl | rfl | rfl
    · simp [decodeATable, loadOf]
    · simp [decodeATable, loadOf]
    · simp [decodeATable, loadOf]
    · cases row
  | named b v =>
    refine isRow_encA fun low => ?_
    rw [← row]
    cases b <;> simp [Base.toBits, Base.ofBits, decodeATable, decodeANamed]
  | shortReg | shortSp => cases fa

theorem isRow_storeRegA {zz : BitVec 2} {r : Reg} {d : Disp} (fa : d.isFormatA = true)
    (row : storeOf zz (.reg r) d = some i) : IsRow (encDispA zz 1#1 r d) i := by
  cases d with
  | reg ra v =>
    refine isRow_encA fun low => ?_
    rw [← row]
    rcases two_bit_cases zz with rfl | rfl | rfl | rfl
    · simp [decodeATable, storeOf]
    · simp [decodeATable, storeOf]
    · simp [decodeATable, storeOf]
    · cases row
  | named b v =>
    refine isRow_encA fun low => ?_
    rw [← row]
    cases b <;> simp [Base.toBits, Base.ofBits, decodeATable, decodeANamed]
  | shortReg | shortSp => cases fa

theorem isRow_storeImmA {zz : BitVec 2} {a b : BitVec 1} {src : StoreSrc} {d : Disp}
    (imm : immOf a b = some src) (fa : d.isFormatA = true) (row : storeOf zz src d = some i) :
    IsRow (encImmA zz a b d) i := by
  cases d with
  | reg ra v =>
    refine isRow_encA fun low => ?_
    rw [← row]
    rcases bit_cases a with rfl | rfl
    · simp [decodeATable, decodeAImmReg, imm]
    · simp [decodeATable, decodeAImmReg, imm]
  | named base v =>
    refine isRow_encA fun low => ?_
    rw [← row]
    simp [decodeATable, decodeAImmNamed, imm]
  | shortReg | shortSp => cases fa

theorem isRow_storeA {zz : BitVec 2} {src : StoreSrc} {d : Disp} (fa : d.isFormatA = true)
    (row : storeOf zz src d = some i) : IsRow (encStoreA zz src d) i := by
  cases src with
  | reg r => exact isRow_storeRegA fa row
  | zero | one | ones => exact isRow_storeImmA rfl fa row

/-! ### Branches (40_branches.md) -/

theorem isRow_jump (f : JumpForm) :
    IsRow (encJump 0#1 f) (.braI f) ∧ IsRow (encJump 1#1 f) (.bsrI f) := by
  cases f with
  | zero48 o | pc48 o =>
    simp only [encJump]
    constructor <;>
      exact isRow_encA fun _ => by simp [decodeATable, decodeABranch, decodeAJump48]
  | zero32 o | pc32 o =>
    simp only [encJump]
    constructor <;>
      exact isRow_encA fun _ => by simp [decodeATable, decodeABranch, decodeAJump32]
  | far32 o =>
    constructor <;> exact .four (sizeOf_four_iff.mpr (by simp))
      (by simp [decode32Table, decodeFar, join_eq_iff])
  | pc16 o =>
    constructor <;>
      exact isRow_half (by simp) (by simp [decode16Table, decode16HundredOne_jump])
  | reg ra =>
    constructor <;> exact isRow_half (by simp)
      (by simp [decode16Table, decode16Hundred, decode16Two, decode16Jump, fld_tail])

theorem isRow_table (f : TableForm) :
    IsRow (encTable 0#1 f) (.braM f) ∧ IsRow (encTable 1#1 f) (.bsrM f) := by
  cases f with
  | zero48 o | pc48 o =>
    simp only [encTable]
    constructor <;>
      exact isRow_encA fun _ => by simp [decodeATable, decodeABranch, decodeAJump48]
  | zero32 o | pc32 o =>
    simp only [encTable]
    constructor <;>
      exact isRow_encA fun _ => by simp [decodeATable, decodeABranch, decodeAJump32]
  | reg ra =>
    constructor <;> exact isRow_half (by simp)
      (by simp [decode16Table, decode16Hundred, decode16Two, decode16Jump, fld_tail])

/-- A far conditional branch or `clu` (R116). -/
theorem isRow_cond {c : BitVec 6} (row : ∀ l : Half, fld l 7 6 = c → decodeBCond l u = some i) :
    IsRow [0b010#3 ++ c ++ 0b0100111#7, u] i := by
  refine .four (sizeOf_four_iff.mpr (by simp)) ?_
  simp [decode32Table, decodeB, row]

theorem isRow_encCond {c : BitVec 6} {ttt : BitVec 3} {n : BitVec 1} {f : CondForm}
    (mk : CondForm → Instr)
    (far : ∀ l o, fld l 7 6 = c → decodeBCond l (encOff17 o) = some (mk (.far o)))
    (near : ∀ h, fld h 12 4 = 0b0#1 ++ ttt → fld h 3 1 = n →
      decode16HundredOne h = some (mk (.near (fld h 4 8)))) :
    IsRow (encCond c ttt n f) (mk f) := by
  cases f with
  | far o => exact isRow_cond fun l hc => far l o hc
  | near o =>
    refine isRow_enc16 (by decide) ?_
    rw [decode16Table_101 (by simp), near _ (by simp) (by simp)]
    simp

theorem isRow_bezR (rs : Reg) (f : TestForm) : IsRow (encode p (.bezR rs f)) (.bezR rs f) := by
  cases f with
  | far o => exact isRow_encB (by simp [decodeB, decodeBSub])
  | near o => exact isRow_enc16 (by decide) (by simp [decode16Table, decode16Hundred])

/-! ### Loads and stores (41_load_store.md) -/

theorem isRow_ld8zI (rd : Reg) (a : Disp) : IsRow (encode p (.ld8zI rd a)) (.ld8zI rd a) := by
  have formatA (fa : a.isFormatA = true) : IsRow (encode p (.ld8zI rd a)) (.ld8zI rd a) := by
    simp only [encode, encDisp8_formatA _ _ fa]
    exact isRow_loadA fa rfl
  cases a with
  | reg | named => exact formatA rfl
  | shortReg ra o => exact isRow_enc16 (by decide) (by simp [decode16Table])
  | shortSp o => exact isRow_enc16 (by decide) (by simp [decode16Table, decode16Sp])

theorem isRow_ld16zI (rd : Reg) (a : Disp) : IsRow (encode p (.ld16zI rd a)) (.ld16zI rd a) := by
  have formatA (fa : a.isFormatA = true) : IsRow (encode p (.ld16zI rd a)) (.ld16zI rd a) := by
    simp only [encode, encDisp16_formatA _ _ fa]
    exact isRow_loadA fa rfl
  cases a with
  | reg | named => exact formatA rfl
  | shortReg ra o => exact isRow_enc16 (by decide) (by simp [decode16Table])
  | shortSp o => exact isRow_enc16 (by decide) (by simp [decode16Table, decode16Sp])

theorem isRow_ldI (rd : Reg) (a : Disp) : IsRow (encode p (.ldI rd a)) (.ldI rd a) := by
  have formatA (fa : a.isFormatA = true) : IsRow (encode p (.ldI rd a)) (.ldI rd a) := by
    simp only [encode, encDisp32_formatA _ _ fa]
    exact isRow_loadA fa rfl
  cases a with
  | reg | named => exact formatA rfl
  | shortReg ra o =>
    exact isRow_enc16 (by decide) (by simp [decode16Table, encShort32, join_eq_iff])
  | shortSp o =>
    exact isRow_enc16 (by decide)
      (by simp [decode16Table, decode16Sp, encShort32, join_eq_iff])

theorem isRow_st8I (src : StoreSrc) (a : Disp) (ok : storeFormOk src a = true) :
    IsRow (encode p (.st8I src a)) (.st8I src a) := by
  have formatA (fa : a.isFormatA = true) : IsRow (encode p (.st8I src a)) (.st8I src a) := by
    simp only [encode, encSt8I_formatA _ fa]
    exact isRow_storeA fa rfl
  cases a with
  | reg | named => exact formatA rfl
  | shortReg ra o =>
    cases src with
    | reg r => exact isRow_enc16 (by decide) (by simp [decode16Table])
    | zero => exact isRow_enc16 (by decide) (by simp [decode16Table, decode16Hundred])
    | one | ones => cases ok
  | shortSp o =>
    cases src with
    | reg r => exact isRow_enc16 (by decide) (by simp [decode16Table, decode16Sp])
    | zero =>
      refine isRow_enc16 (by decide) ?_
      have across : fld (0b1010001#7 ++ o) 5 2 = 1#1 ++ fld o 5 1 :=
        fld_adjacent (m := 1) (by simp) (by simp)
      rcases bit_cases (fld o 5 1) with b | b
      · simp [decode16Table, decode16HundredOne, decode16Misc, across, b]
      · simp [decode16Table, decode16HundredOne, decode16Misc, across, b]
    | one | ones => cases ok

theorem isRow_st16I (src : StoreSrc) (a : Disp) (ok : storeFormOk src a = true) :
    IsRow (encode p (.st16I src a)) (.st16I src a) := by
  have formatA (fa : a.isFormatA = true) : IsRow (encode p (.st16I src a)) (.st16I src a) := by
    simp only [encode, encSt16I_formatA _ fa]
    exact isRow_storeA fa rfl
  cases a with
  | reg | named => exact formatA rfl
  | shortReg ra o =>
    cases src with
    | reg r => exact isRow_enc16 (by decide) (by simp [decode16Table])
    | zero => exact isRow_half (by simp) (by simp [decode16Table, decode16Hundred])
    | one | ones => cases ok
  | shortSp o =>
    cases src with
    | reg r => exact isRow_enc16 (by decide) (by simp [decode16Table, decode16Sp])
    | zero =>
      exact isRow_half (by simp)
        (by simp [decode16Table, decode16HundredOne, decode16Misc])
    | one | ones => cases ok

theorem isRow_stI (src : StoreSrc) (a : Disp) (ok : storeFormOk src a = true) :
    IsRow (encode p (.stI src a)) (.stI src a) := by
  have formatA (fa : a.isFormatA = true) : IsRow (encode p (.stI src a)) (.stI src a) := by
    simp only [encode, encStI_formatA _ fa]
    exact isRow_storeA fa rfl
  cases a with
  | reg | named => exact formatA rfl
  | shortReg ra o =>
    cases src with
    | reg r =>
      exact isRow_enc16 (by decide) (by simp [decode16Table, encShort32, join_eq_iff])
    | zero =>
      exact isRow_half (by simp)
        (by simp [decode16Table, decode16Hundred, encShort32, join_eq_iff])
    | one | ones => cases ok
  | shortSp o =>
    cases src with
    | reg r =>
      exact isRow_enc16 (by decide)
        (by simp [decode16Table, decode16Sp, encShort32, join_eq_iff])
    | zero =>
      exact isRow_half (by simp)
        (by simp [decode16Table, decode16HundredOne, decode16Misc, encShort32, join_eq_iff])
    | one | ones => cases ok

end

end Sys2Proof
end

section
/-! PROOF of O1 and O3, second part (R120-R127): every instruction with a whole row in the tables is
encoded in that row. -/

namespace Sys2Proof

section
-- One thread elaborates these proofs: each holds the opened tables of the decoder, and many at once
-- do not fit in the memory.
set_option Elab.async false
variable {p : Params} {i : Instr}

/-! ### Indexed loads and stores, push and pop (41_load_store.md, 42_push_pop.md) -/

theorem isRow_encLdR {o : BitVec 4} {u : Half} {rd rx : Reg} {b : IndexBase}
    (mk : IndexBase → Instr)
    (three : ∀ ra : Reg, decode16Three (rd.toBits ++ ra.toBits ++ rx.toBits ++ o ++ 0b110#3)
      = mk (.reg ra))
    (sp : decodeC (0b000#3 ++ rd.toBits ++ rx.toBits ++ 0b0000111#7) u = some (mk .sp)) :
    IsRow (encLdR o u rd rx b) (mk b) := by
  cases b with
  | reg ra => exact isRow_encThree (three ra)
  | sp => exact isRow_encC sp

theorem isRow_indexedStore (src : StoreSrc) (rx : Reg) (b : IndexBase) :
    IsRow (encode p (.st8R src rx b)) (.st8R src rx b)
      ∧ IsRow (encode p (.st16R src rx b)) (.st16R src rx b)
      ∧ IsRow (encode p (.stR src rx b)) (.stR src rx b) := by
  cases b with
  | reg ra =>
    cases src with
    | reg rm =>
      exact ⟨isRow_encThree (by simp [decode16Three]), isRow_encThree (by simp [decode16Three]),
        isRow_encThree (by simp [decode16Three])⟩
    | zero | one | ones =>
      exact ⟨isRow_encC (by simp [decodeC, decodeCTwo]), isRow_encC (by simp [decodeC, decodeCTwo]),
        isRow_encC (by simp [decodeC, decodeCTwo])⟩
  | sp =>
    cases src with
    | reg rm =>
      exact ⟨isRow_encC (by simp [decodeC, decodeCTwo]), isRow_encC (by simp [decodeC, decodeCTwo]),
        isRow_encC (by simp [decodeC, decodeCTwo])⟩
    | zero | one | ones =>
      exact ⟨isRow_encC (by simp [decodeC, decodeCOne]), isRow_encC (by simp [decodeC, decodeCOne]),
        isRow_encC (by simp [decodeC, decodeCOne])⟩

theorem isRow_push {f : PushForm} (whole : ∀ m o, f ≠ .full m o) :
    IsRow (encode p (.push f)) (.push f) := by
  cases f with
  | mask m => exact isRow_enc16 (by decide) (by simp [decode16Table, decode16HundredOne])
  | range nn o =>
    exact isRow_half (by simp) (by simp [decode16Table, decode16HundredOne, decode16Stack])
  | full m o => exact absurd rfl (whole m o)

theorem isRow_pop {f : PopForm} (whole : ∀ m o, f ≠ .full m o) :
    IsRow (encode p (.pop f)) (.pop f) := by
  cases f with
  | mask m => exact isRow_enc16 (by decide) (by simp [decode16Table, decode16HundredOne])
  | full m o => exact absurd rfl (whole m o)

theorem isRow_popRet {f : PopRetForm} (whole : ∀ m o, f ≠ .full m o) :
    IsRow (encode p (.popRet f)) (.popRet f) := by
  cases f with
  | range nn o | empty o =>
    exact isRow_half (by simp) (by simp [decode16Table, decode16HundredOne, decode16Stack])
  | full m o => exact absurd rfl (whole m o)

theorem isRow_pushI (f : PushIForm) : IsRow (encode p (.pushI f)) (.pushI f) := by
  simp only [encode]
  cases f with
  | wide1 | wide2 | wide3 | wide4 | half1 | half2 | half3 | half4 =>
    simp only [encPushI]
    exact isRow_encA fun _ => by simp [decodeATable, decodeABranch, decodeAPushI]
  | bits1 | bits2 | bits3 | bits4 =>
    exact isRow_enc16 (by decide)
      (by simp [decode16Table, decode16HundredOne, decode16Misc, decode16PushI])

/-! ### Moves and the arithmetic unit (43_move.md, 44_alu.md, 45_compare.md) -/

theorem isRow_movI {f : MovIForm} (ok : movConstOk f = true) :
    IsRow (encode p (.movI f)) (.movI f) := by
  cases f with
  | imm | pcRel | gpRel =>
    simp only [encode, encMovI]
    exact isRow_encA fun _ => by simp [decodeATable, decodeAMov]
  | short rd v =>
    refine isRow_enc16 (by decide) ?_
    rcases bit_cases (fld v 7 1) with b | b
    · simp [decode16Table, decode16Sp, join_eq_iff, b]
    · simp [decode16Table, decode16Sp, join_eq_iff, b]
  | pow2 rd k b =>
    refine isRow_half (by simp) ?_
    have across : fld (0b110#3 ++ rd.toBits ++ k ++ b ++ 0b10100#5) 3 4 = b ++ 0b10#2 :=
      fld_adjacent (m := 2) (by simp) (by simp)
    rcases two_bit_cases b with rfl | rfl | rfl | rfl
    · cases ok
    all_goals simp [decode16Table, decode16Hundred, decode16Two, across]
  | pow2m1 rd k b =>
    refine isRow_half (by simp) ?_
    have across : fld (0b110#3 ++ rd.toBits ++ k ++ b ++ 0b11100#5) 3 4 = b ++ 0b11#2 :=
      fld_adjacent (m := 2) (by simp) (by simp)
    rcases two_bit_cases b with rfl | rfl | rfl | rfl
    · cases ok
    all_goals simp [decode16Table, decode16Hundred, decode16Two, across]

theorem isRow_movR (f : MovRForm) : IsRow (encode p (.movR f)) (.movR f) := by
  cases f with
  | reg rd rs => exact isRow_enc111 (by simp [decode16Unary])
  | fromSp rd => exact isRow_encC (by simp [decodeC, decodeCOne])
  | toSp rs => exact isRow_encC (by simp [decodeC, decodeCSet])

theorem isRow_movFR (f : MovFForm) : IsRow (encode p (.movFR f)) (.movFR f) := by
  cases f with
  | extract | insert => exact isRow_encB (by simp [decodeB, decodeBField])
  | short => exact isRow_enc16 (by decide) (by simp [decode16Table, decode16Hundred])

theorem isRow_addI (f : AddIForm) : IsRow (encode p (.addI f)) (.addI f) := by
  cases f with
  | imm =>
    simp only [encode, encAddI]
    exact isRow_encA fun _ => by simp [decodeATable]
  | sp =>
    simp only [encode, encAddI]
    exact isRow_encA fun _ => by simp [decodeATable, decodeAMov]
  | spsp48 | spsp32 =>
    simp only [encode, encAddI]
    exact isRow_encA fun _ => by simp [decodeATable, decodeAMov, decodeASpSp]
  | short | spShort => exact isRow_enc16 (by decide) (by simp [decode16Table, decode16Sp])
  | spspShort v =>
    refine isRow_half (by simp) ?_
    rw [decode16Table_101 (by simp), decode16HundredOne_stack (by simp)]
    simp [decode16Stack]
  | rowA | rowB => exact isRow_enc111 (by simp [decode16Unary])

theorem isRow_addCI (f : AddCIForm) : IsRow (encode p (.addCI f)) (.addCI f) := by
  cases f with
  | imm =>
    simp only [encode]
    exact isRow_encA fun _ => by simp [decodeATable]
  | short => exact isRow_enc16 (by decide) (by simp [decode16Table, decode16Hundred])
  | zero | one | minusOne => exact isRow_enc111 (by simp [decode16Unary])

theorem isRow_subX (f : SubXForm) :
    IsRow (encode p (.subXI f)) (.subXI f) ∧ IsRow (encode p (.subXcI f)) (.subXcI f) := by
  cases f with
  | imm =>
    simp only [encode]
    constructor <;> exact isRow_encA fun _ => by simp [decodeATable]
  | zero => constructor <;> exact isRow_enc111 (by simp [decode16Unary])

theorem isRow_andI (f : AndIForm) : IsRow (encode p (.andI f)) (.andI f) := by
  cases f with
  | imm =>
    simp only [encode]
    exact isRow_encA fun _ => by simp [decodeATable]
  | setBits | clearBits => exact isRow_encB (by simp [decodeB, decodeBField])
  | short => exact isRow_enc16 (by decide) (by simp [decode16Table, decode16Sp])
  | one | ff | ffff => exact isRow_enc111 (by simp [decode16Unary])

theorem isRow_orI (f : OrIForm) : IsRow (encode p (.orI f)) (.orI f) := by
  cases f with
  | imm =>
    simp only [encode]
    exact isRow_encA fun _ => by simp [decodeATable]
  | short => exact isRow_enc16 (by decide) (by simp [decode16Table, decode16Hundred])
  | one => exact isRow_enc111 (by simp [decode16Unary])

theorem isRow_xorI (f : XorIForm) : IsRow (encode p (.xorI f)) (.xorI f) := by
  cases f with
  | imm =>
    simp only [encode]
    exact isRow_encA fun _ => by simp [decodeATable]
  | short => exact isRow_enc16 (by decide) (by simp [decode16Table, decode16Hundred])
  | one | minusOne => exact isRow_enc111 (by simp [decode16Unary])

theorem isRow_cmpI (f : CmpIForm) : IsRow (encode p (.cmpI f)) (.cmpI f) := by
  cases f with
  | imm =>
    simp only [encode]
    exact isRow_encA fun _ => by simp [decodeATable, decodeACmp]
  | short => exact isRow_enc16 (by decide) (by simp [decode16Table, decode16Hundred])

theorem isRow_cmp16I (f : Cmp16IForm) : IsRow (encode p (.cmp16I f)) (.cmp16I f) := by
  cases f with
  | imm => exact isRow_encB (by simp [decodeB, decodeBSub])
  | short => exact isRow_enc16 (by decide) (by simp [decode16Table, decode16Hundred])

theorem isRow_cmp8I (f : Cmp8IForm) : IsRow (encode p (.cmp8I f)) (.cmp8I f) := by
  cases f with
  | imm => exact isRow_encC (by simp [decodeC])
  | short => exact isRow_enc16 (by decide) (by simp [decode16Table, decode16Hundred])

/-! ### Shifts and blocks (46_shift_rotate.md, 47_block.md) -/

theorem isRow_encShift {ttt : BitVec 3} {tt : BitVec 2} {f : ShiftForm} (mk : ShiftForm → Instr)
    (full : ∀ (rd rs : Reg) (n : BitVec 5),
      decodeCShift (0b000#3 ++ rs.toBits ++ rd.toBits ++ 0b0000111#7) (0b00000100#8 ++ ttt ++ n)
        = some (mk (.full rd rs n)))
    (short : ∀ h, fld h 12 4 = 0b1110#4 ∨ fld h 12 4 = 0b1111#4 → fld h 8 2 = tt →
      decode16HundredOne h = some (mk (.short (Reg.ofBits (fld h 10 3)) (fld h 3 5)))) :
    IsRow (encShift ttt tt f) (mk f) := by
  cases f with
  | full rd rs n => exact isRow_encC (by simp [decodeC, full])
  | short rd n =>
    exact isRow_shift fun h h12 h10 h8 h3 => by simp [short h h12 h8, h10, h3]

theorem isRow_shiftrCI (rd rs : Reg) : IsRow (encode p (.shiftrCI rd rs)) (.shiftrCI rd rs) := by
  refine isRow_half (by simp) ?_
  rw [decode16Table_101 (by simp), decode16HundredOne_stack (by simp)]
  simp [decode16Stack]

theorem isRow_blkst8I (src : BlkSrc) (ra : Reg) (n : BitVec 8) :
    IsRow (encode p (.blkst8I src ra n)) (.blkst8I src ra n) := by
  cases src with
  | reg rs => exact isRow_encC (by simp [decodeC])
  | zero | ones => exact isRow_encC (by simp [decodeC, decodeCImm8])

theorem isRow_blkst8R (src : BlkSrc) (ra rn : Reg) :
    IsRow (encode p (.blkst8R src ra rn)) (.blkst8R src ra rn) := by
  cases src with
  | reg rs => exact isRow_encC (by simp [decodeC, decodeCThree])
  | zero | ones => exact isRow_encC (by simp [decodeC, decodeCTwo])

/-! ### The CLU and the system instructions (48_dsp_clu.md, 49_system.md) -/

theorem isRow_clu (x : BitVec 16) : IsRow (encode p (.clu x)) (.clu x) :=
  .four (sizeOf_four_iff.mpr (by simp)) (by simp [decode32Table, decodeB, decodeBCond])

theorem isRow_cluDst (x : BitVec 16) (rd rs rt : Reg) :
    IsRow (encode p (.cluDst x rd rs rt)) (.cluDst x rd rs rt) :=
  .four (sizeOf_four_iff.mpr (by simp)) (by simp [decode32Table])

theorem isRow_mov1I (b : BitVec 1) : IsRow (encode p (.mov1I b)) (.mov1I b) := by
  rcases bit_cases b with rfl | rfl
  · exact isRow_encSys (by simp [decode16System])
  · exact isRow_encSys (by simp [decode16System])

theorem isRow_mov1R {f : Mov1Form} (getI : ∀ rd, f ≠ .getI rd) (setI : ∀ rs, f ≠ .setI rs) :
    IsRow (encode p (.mov1R f)) (.mov1R f) := by
  cases f with
  | getBit | setBit => exact isRow_encC (by simp [decodeC, decodeCTwo])
  | iFromC | cFromI => exact isRow_encSys (by simp [decode16System])
  | getI rd => exact absurd rfl (getI rd)
  | setI rs => exact absurd rfl (setI rs)

theorem isRow_mov2I (b : BitVec 2) : IsRow (encode p (.mov2I b)) (.mov2I b) := by
  rcases two_bit_cases b with rfl | rfl | rfl | rfl
  all_goals exact isRow_encSys (by simp [decode16System])

theorem isRow_mov2R (f : FieldForm) : IsRow (encode p (.mov2R f)) (.mov2R f) := by
  cases f with
  | get | set => exact isRow_enc110 (by simp [decode16Two, decode16Flag])

theorem isRow_mov4R_mov8R (f : FieldForm) :
    IsRow (encode p (.mov4R f)) (.mov4R f) ∧ IsRow (encode p (.mov8R f)) (.mov8R f) := by
  cases f with
  | get => constructor <;> exact isRow_encC (by simp [decodeC, decodeCOne])
  | set => constructor <;> exact isRow_encC (by simp [decodeC, decodeCSet])

theorem isRow_flush : IsRow (encode p .flush) .flush :=
  isRow_half (by simp) (by simp [decode16Table, decode16HundredOne, decode16Misc, decode16PushI])

theorem isRow_fill : IsRow (encode p .fill) .fill :=
  isRow_half (by simp) (by simp [decode16Table, decode16HundredOne, decode16Misc, decode16PushI])

/-! ### All instructions -/

/-- The instructions whose row is damaged or lost, a parameter of the spec (U10, U12, U14, U16,
U21). -/
def Instr.isDamaged (i : Instr) : Bool :=
  match i with
  | .bnzR _ _ | .addNI _ _ _ | .shiftlCI _ _ => true
  | .push (.full _ _) | .pop (.full _ _) | .popRet (.full _ _) => true
  | .mov1R (.getI _) | .mov1R (.setI _) => true
  | _ => false

/-- The encoding of an instruction that has a whole row in the tables is in that row. -/
theorem encode_isRow (whole : i.isDamaged = false) (wf : i.wf p = true) :
    IsRow (encode p i) i := by
  cases i with
  | braI f => exact (isRow_jump f).1
  | bsrI f => exact (isRow_jump f).2
  | braM f => exact (isRow_table f).1
  | bsrM f => exact (isRow_table f).2
  | beq f | bne f | bleS f | bgtS f | bltS f | bgeS f | bleU f | bgtU f | bcs f | bcc f =>
    exact isRow_encCond _ (fun l o hc => by simp [decodeBCond, hc])
      fun h h12 h3 => by simp [decode16HundredOne, h12, h3]
  | bmi | bpl | bvs | bvc => exact isRow_cond fun l hc => by simp [decodeBCond, hc]
  | bezR rs f => exact isRow_bezR rs f
  | ld8zI rd a => exact isRow_ld8zI rd a
  | ld16zI rd a => exact isRow_ld16zI rd a
  | ldI rd a => exact isRow_ldI rd a
  | st8I src a => exact isRow_st8I src a (by simpa [Instr.wf, damagedFormOk] using wf)
  | st16I src a => exact isRow_st16I src a (by simpa [Instr.wf, damagedFormOk] using wf)
  | stI src a => exact isRow_stI src a (by simpa [Instr.wf, damagedFormOk] using wf)
  | ld8zR rd rx b | ld16zR rd rx b | ldR rd rx b =>
    exact isRow_encLdR _ (by simp [decode16Three]) (by simp [decodeC, decodeCTwo])
  | st8R src rx b => exact (isRow_indexedStore src rx b).1
  | st16R src rx b => exact (isRow_indexedStore src rx b).2.1
  | stR src rx b => exact (isRow_indexedStore src rx b).2.2
  | push f => exact isRow_push (by rintro m o rfl; cases whole)
  | pop f => exact isRow_pop (by rintro m o rfl; cases whole)
  | popRet f => exact isRow_popRet (by rintro m o rfl; cases whole)
  | pushI f => exact isRow_pushI f
  | movI f => exact isRow_movI (by simpa [Instr.wf, damagedFormOk] using wf)
  | movR f => exact isRow_movR f
  | movFR f => exact isRow_movFR f
  | addI f => exact isRow_addI f
  | addCI f => exact isRow_addCI f
  | subXI f => exact (isRow_subX f).1
  | subXcI f => exact (isRow_subX f).2
  | andI f => exact isRow_andI f
  | orI f => exact isRow_orI f
  | xorI f => exact isRow_xorI f
  | addR | addCR | subR | subCR | andR | orR | xorR | shiftlR | shiftrSR | shiftrUR =>
    exact isRow_encThree (by simp [decode16Three])
  | addNR | multR | mult16sR | mult16uR | divSR | divUR | remSR | remUR | divremSR | divremUR
  | rotatelR | blkcpR => exact isRow_encC (by simp [decodeC, decodeCThree])
  | mult16sI | mult16uI | cluDs | cluSt | movr2s | movr2b => exact isRow_encB (by simp [decodeB])
  | cmp16xI | cmp16cI | cmp16xcI | cluS | cluD => exact isRow_encB (by simp [decodeB, decodeBSub])
  | multI =>
    simp only [encode]
    exact isRow_encA fun _ => by simp [decodeATable]
  | cmpXI | cmpCI | cmpXcI =>
    simp only [encode]
    exact isRow_encA fun _ => by simp [decodeATable, decodeACmp]
  | syscallI =>
    simp only [encode]
    exact isRow_encA fun _ => by simp [decodeATable, decodeAMov]
  | cmpI f => exact isRow_cmpI f
  | cmp16I f => exact isRow_cmp16I f
  | cmp8I f => exact isRow_cmp8I f
  | cmpR | cmpCR | cmp16R | cmp16cR | cmp8R | cmp8cR | b2swapR =>
    exact isRow_enc110 (by simp [decode16Two])
  | fimode => exact isRow_enc110 (by simp [decode16Two, decode16Flag])
  | cmp8xI | cmp8cI | cmp8xcI | blkcpI => exact isRow_encC (by simp [decodeC])
  | shiftrSI f | shiftrUI f | shiftlI f | rotatelI f =>
    exact isRow_encShift _ (by simp [decodeCShift]) fun h h12 h8 => by
      rcases h12 with h12 | h12 <;> simp [decode16HundredOne, h12, h8]
  | shiftrCI rd rs => exact isRow_shiftrCI rd rs
  | blkst8I src ra n => exact isRow_blkst8I src ra n
  | blkst8R src ra rn => exact isRow_blkst8R src ra rn
  | swapI | absR | msbitR | flip8R | flip16R | flipR | syscallR
  | movs2r | movb2r | mova2r | movr2a => exact isRow_encC (by simp [decodeC, decodeCTwo])
  | ver | lic => exact isRow_encC (by simp [decodeC, decodeCOne])
  | printR => exact isRow_encC (by simp [decodeC, decodeCSet, join_eq_iff])
  | mov4I | mov8I => exact isRow_encC (by simp [decodeC, decodeCImm8])
  | clu x => exact isRow_clu x
  | cluDst x rd rs rt => exact isRow_cluDst x rd rs rt
  | sext8R | sext16R => exact isRow_enc111 (by simp [decode16Unary])
  | rtie | brk | halt | softreset | sleepnop | sleepsif | nop | sif =>
    exact isRow_encSys (by simp [decode16System])
  | mov1I b => exact isRow_mov1I b
  | mov2I b => exact isRow_mov2I b
  | mov1R f => exact isRow_mov1R (by rintro r rfl; cases whole) (by rintro r rfl; cases whole)
  | mov2R f => exact isRow_mov2R f
  | mov4R f => exact (isRow_mov4R_mov8R f).1
  | mov8R f => exact (isRow_mov4R_mov8R f).2
  | flush => exact isRow_flush
  | fill => exact isRow_fill
  | bnzR | addNI | shiftlCI => cases whole

end

end Sys2Proof
end

section
/-! PROOF of O1 and O3, last part (R101, R130): the damaged and lost rows, which are parameters
(U10, U12, U14, U16, U21), and the two statements. -/

namespace Sys2Proof
open Machine

section
-- One thread elaborates these proofs: each holds the opened tables of the decoder, and many at once
-- do not fit in the memory.
set_option Elab.async false
variable {p : Params} {l u h : Half} {w : Word} {i : Instr} {hs : List Half}

/-- Half-words of the size R101 says that are an instruction's where the patterns of the damaged and
lost rows leave every word to one row. -/
inductive Encodes (p : Params) : List Half → Instr → Prop
  | two {h : Half} {i : Instr} (size : sizeOf h = .two)
      (row : PatternsOk p → decode16 p h = some i) : Encodes p [h] i
  | four {l u : Half} {i : Instr} (size : sizeOf l = .four)
      (row : PatternsOk p → decode32 p l u = some i) : Encodes p [l, u] i
  | six {l : Half} {w : Word} {i : Instr} (size : sizeOf l = .six)
      (row : PatternsOk p → decode48 p l w = some i) :
      Encodes p [l, fld w 0 16, fld w 16 16] i

theorem IsRow.encodes (row : IsRow hs i) : Encodes p hs i := by
  cases row with
  | two size row => exact .two size fun _ => by simp [decode16, row]
  | four size row => exact .four size fun _ => by simp [decode32, row]
  | six size row => exact .six size fun _ => by simp [decode48, row]

theorem Encodes.decodeHalves_eq (row : Encodes p hs i) (ok : PatternsOk p) :
    decodeHalves p hs = .ok i := by
  cases row with
  | two size row => simp [decodeHalves, decode, size, row ok]
  | four size row => simp [decodeHalves, decode, size, row ok]
  | @six l w i size row =>
    have whole : fld w 16 16 ++ fld w 0 16 = w := BitVec.extractLsb'_append_extractLsb'
    simp [decodeHalves, decode, size, whole, row ok]

/-! ### Rows that are parameters -/

/-- Of rows at most one of which claims a word, those before a claiming one do not claim it. -/
theorem pairwise_of_count_le_one {bs : List Bool} (one : bs.count true ≤ 1) :
    bs.Pairwise fun a b => b = true → a = false := by
  induction bs with
  | nil => exact .nil
  | cons a bs ih =>
    refine .cons (fun b mem claims => ?_) (ih (le_trans List.count_le_count_cons one))
    subst claims
    cases a with
    | false => rfl
    | true =>
      have : 0 < bs.count true := List.count_pos_iff.mpr mem
      simp at one
      omega

theorem claims16_pairwise (ok : PatternsOk p) (h : Half) :
    (claims16 p h).Pairwise fun a b => b = true → a = false :=
  pairwise_of_count_le_one (ok.size16 h)

theorem claims32_pairwise (ok : PatternsOk p) (l u : Half) :
    (claims32 p l u).Pairwise fun a b => b = true → a = false :=
  pairwise_of_count_le_one (ok.size32 l u)

theorem decode16_bnz (ok : PatternsOk p) (claim : bnz16At p h = true) :
    decode16 p h = some (.bnzR (Reg.ofBits (fld h 10 3)) (.near (fld h 4 6))) := by
  have alone := claims16_pairwise ok h
  simp_all [claims16, decode16, decode16Damaged]

theorem decode16_shiftlc (ok : PatternsOk p) (claim : shiftlcAt p h = true) :
    decode16 p h = some (.shiftlCI (Reg.ofBits (fld h 7 3)) (Reg.ofBits (fld h 10 3))) := by
  have alone := claims16_pairwise ok h
  simp_all [claims16, decode16, decode16Damaged]

theorem decode16_getI (ok : PatternsOk p) (claim : mov1rRdIAt p h = true) :
    decode16 p h = some (.mov1R (.getI (Reg.ofBits (fld h 10 3)))) := by
  have alone := claims16_pairwise ok h
  simp_all [claims16, decode16, decode16Damaged]

theorem decode16_setI (ok : PatternsOk p) (claim : mov1rIRsAt p h = true) :
    decode16 p h = some (.mov1R (.setI (Reg.ofBits (fld h 10 3)))) := by
  have alone := claims16_pairwise ok h
  simp_all [claims16, decode16, decode16Damaged]

theorem decode32_addNI (ok : PatternsOk p) (claim : addNI32At p l = true) :
    decode32 p l u = some (addNIOf l (.half u)) := by
  have alone := claims32_pairwise ok l u
  simp_all [claims32, decode32, decode32Damaged]

theorem decode32_bnz (ok : PatternsOk p) (claim : bnz32At p l = true) :
    decode32 p l u = some (.bnzR (Reg.ofBits (fld l 10 3)) (.far (off17 u))) := by
  have alone := claims32_pairwise ok l u
  simp_all [claims32, decode32, decode32Damaged]

theorem decode32_push (ok : PatternsOk p) (claim : lostAt p.push32 l u = true) :
    decode32 p l u = some (.push (.full (fld u 8 8) (fld u 2 6))) := by
  have alone := claims32_pairwise ok l u
  simp_all [claims32, decode32, decode32Damaged]

theorem decode32_pop (ok : PatternsOk p) (claim : lostAt p.pop32 l u = true) :
    decode32 p l u = some (.pop (.full (fld u 8 8) (fld u 2 6))) := by
  have alone := claims32_pairwise ok l u
  simp_all [claims32, decode32, decode32Damaged]

theorem decode32_popRet (ok : PatternsOk p) (claim : lostAt p.popRet32 l u = true) :
    decode32 p l u = some (.popRet (.full (fld u 8 8) (fld u 2 6))) := by
  have alone := claims32_pairwise ok l u
  simp_all [claims32, decode32, decode32Damaged]

theorem decode48_addNI (ok : PatternsOk p) (claim : addNIAt p l = true) :
    decode48 p l w = some (addNIOf l (.wide w)) := by
  have alone := pairwise_of_count_le_one (ok.size48 l w)
  simp_all [claims48, decode48]

theorem encodes_bnzR (rs : Reg) (f : TestForm) (wf : (Instr.bnzR rs f).wf p = true) :
    Encodes p (encode p (.bnzR rs f)) (.bnzR rs f) := by
  cases f with
  | far o =>
    have size : patternIs32 p.bnz32 = true := by simpa [Instr.wf, damagedFormOk] using wf
    refine .four (sizeOf_four_iff.mpr (by simpa [patternIs32] using size)) fun ok => ?_
    rw [decode32_bnz ok (by simp [bnz32At, join_eq_iff])]
    simp
  | near o =>
    have size : patternIs16 p.bnz16 = true := by simpa [Instr.wf, damagedFormOk] using wf
    refine .two (sizeOf_two_iff.mpr (by simpa [patternIs16] using size)) fun ok => ?_
    rw [decode16_bnz ok (by simp [bnz16At, join_eq_iff])]
    simp

theorem encodes_shiftlCI (rd rs : Reg) (wf : (Instr.shiftlCI rd rs).wf p = true) :
    Encodes p (encode p (.shiftlCI rd rs)) (.shiftlCI rd rs) := by
  have size : patternIs16 p.shiftlc16Low7 = true := by simpa [Instr.wf, damagedFormOk] using wf
  refine .two (sizeOf_two_iff.mpr (by simpa [patternIs16] using size)) fun ok => ?_
  rw [decode16_shiftlc ok (by simp [shiftlcAt])]
  simp

/-- The constant part of the two damaged rows of `mov.1.r`. -/
theorem fld_enc110_low (x : BitVec 9) (o : BitVec 4) :
    fld (no_index (x ++ o ++ 0b100#3)) 0 7 = o ++ 0b100#3 :=
  fld_adjacent (m := 3) (by simp) (by simp)

theorem encodes_getI (rd : Reg) :
    Encodes p (encode p (.mov1R (.getI rd))) (.mov1R (.getI rd)) := by
  refine .two (sizeOf_two_iff.mpr (by simp)) fun ok => ?_
  rw [decode16_getI ok (by simp [mov1rRdIAt, fld_enc110_low])]
  simp

theorem encodes_setI (rs : Reg) :
    Encodes p (encode p (.mov1R (.setI rs))) (.mov1R (.setI rs)) := by
  refine .two (sizeOf_two_iff.mpr (by simp)) fun ok => ?_
  rw [decode16_setI ok (by simp [mov1rIRsAt, fld_enc110_low])]
  simp

theorem encodes_addNI (rd rs : Reg) (v : Imm) :
    Encodes p (encode p (.addNI rd rs v)) (.addNI rd rs v) := by
  cases v with
  | half u =>
    refine .four (sizeOf_four_iff.mpr (by simp)) fun ok => ?_
    rw [decode32_addNI ok (by simp [addNI32At, addNIAt])]
    simp [addNIOf]
  | wide w =>
    refine .six (sizeOf_six_iff.mpr (by simp)) fun ok => ?_
    rw [decode48_addNI ok (by simp [addNIAt])]
    simp [addNIOf]

/-- The encoding of a lost form is a 32-bit one at its pattern (R228). -/
theorem encLost_of_ok {pat : Option (BitVec 18)} (ok : lostPatternOk pat = true) (m : BitVec 8)
    (o : BitVec 6) : ∃ l u, encLost pat m o = [l, u] ∧ sizeOf l = .four ∧ lostAt pat l u = true
      ∧ fld u 8 8 = m ∧ fld u 2 6 = o := by
  cases pat with
  | none => cases ok
  | some x =>
    refine ⟨_, _, rfl, sizeOf_four_iff.mpr (by simpa [lostPatternOk] using ok), ?_, ?_, ?_⟩
    · have whole : fld x 16 2 ++ fld x 0 16 = x := BitVec.extractLsb'_append_extractLsb'
      simp [lostAt, whole]
    · simp
    · simp

theorem encLost_length {pat : Option (BitVec 18)} {m : BitVec 8} {o : BitVec 6}
    (ok : lostPatternOk pat = true) : (encLost pat m o).length = 2 := by
  obtain ⟨l, u, halves, -⟩ := encLost_of_ok ok m o
  rw [halves]
  rfl

theorem encodes_lost {pat : Option (BitVec 18)} {m : BitVec 8} {o : BitVec 6}
    {mk : BitVec 8 → BitVec 6 → Instr} (size : lostPatternOk pat = true)
    (row : ∀ l u, PatternsOk p → lostAt pat l u = true →
      decode32 p l u = some (mk (fld u 8 8) (fld u 2 6))) :
    Encodes p (encLost pat m o) (mk m o) := by
  obtain ⟨l, u, halves, size, claim, rfl, rfl⟩ := encLost_of_ok size m o
  exact halves ▸ .four size fun ok => row l u ok claim

/-- The encoding of a well-formed instruction is an encoding of it. -/
theorem encodes_encode (wf : i.wf p = true) : Encodes p (encode p i) i := by
  by_cases damaged : i.isDamaged
  · unfold Instr.isDamaged at damaged
    split at damaged
    · exact encodes_bnzR _ _ wf
    · exact encodes_addNI _ _ _
    · exact encodes_shiftlCI _ _ wf
    · exact encodes_lost (mk := fun m o => .push (.full m o))
        (by simpa [Instr.wf, damagedFormOk] using wf) fun _ _ => decode32_push
    · exact encodes_lost (mk := fun m o => .pop (.full m o))
        (by simpa [Instr.wf, damagedFormOk] using wf) fun _ _ => decode32_pop
    · exact encodes_lost (mk := fun m o => .popRet (.full m o))
        (by simpa [Instr.wf, damagedFormOk] using wf) fun _ _ => decode32_popRet
    · exact encodes_getI _
    · exact encodes_setI _
    · cases damaged
  · exact (encode_isRow (Bool.eq_false_iff.mpr damaged) wf).encodes

/-! ### Length (R100, R101) -/

/-- The half-words of an instruction of a size. -/
def Size.halves (z : Size) : Nat :=
  match z with
  | .two => 1
  | .four => 2
  | .six => 3

theorem Encodes.size_eq (row : Encodes p hs i) :
    ∃ h rest, hs = h :: rest ∧ hs.length = (sizeOf h).halves := by
  cases row with
  | two size | four size | six size => exact ⟨_, _, rfl, by rw [size]; rfl⟩

/-- The parameters do not change the number of half-words, but for the lost forms. -/
theorem encode_length_default (lost : ∀ m o, i ≠ .push (.full m o) ∧ i ≠ .pop (.full m o)
    ∧ i ≠ .popRet (.full m o)) :
    (encode Params.default i).length = (encode p i).length := by
  cases i with
  | push f =>
    cases f with
    | full m o => exact absurd rfl (lost m o).1
    | mask | range => rfl
  | pop f =>
    cases f with
    | full m o => exact absurd rfl (lost m o).2.1
    | mask => rfl
  | popRet f =>
    cases f with
    | full m o => exact absurd rfl (lost m o).2.2
    | range | empty => rfl
  | bnzR _ f | movR f | movFR f | addCI f | addNI _ _ f | subXI f | subXcI f | andI f | orI f
  | xorI f | cmpI f | cmp16I f | cmp8I f | blkst8I f _ _ | blkst8R f _ _ | mov1R f | mov2R f
  | mov4R f | mov8R f => cases f <;> rfl
  | _ => rfl

theorem length_of_default {z : Size} (n : (encode Params.default i).length = z.halves) :
    i.length = BitVec.ofNat 32 (2 * z.halves) := by
  unfold Instr.length
  split
  case h_1 e | h_2 e | h_3 e =>
    rw [← n, e]
    rfl
  case h_4 one two three =>
    generalize encode Params.default i = hs at *
    match hs, z with
    | [], .two | [], .four | [], .six => cases n
    | [a], _ => exact absurd rfl (one a)
    | [a, b], _ => exact absurd rfl (two a b)
    | [a, b, c], _ => exact absurd rfl (three a b c)
    | _ :: _ :: _ :: _ :: _, z => cases z <;> simp [Size.halves] at n

/-- The length in bytes of an instruction is that of its encoding. -/
theorem Instr.length_eq (wf : i.wf p = true) :
    i.length = BitVec.ofNat 32 (2 * (encode p i).length) := by
  by_cases lost : ∃ m o, i = .push (.full m o) ∨ i = .pop (.full m o) ∨ i = .popRet (.full m o)
  · obtain ⟨m, o, rfl | rfl | rfl⟩ := lost
    all_goals
      rw [encode, encLost_length (by simpa [Instr.wf, damagedFormOk] using wf)]
      rfl
  · push Not at lost
    obtain ⟨h, rest, -, n⟩ := (encodes_encode wf).size_eq
    rw [n]
    exact length_of_default ((encode_length_default lost).trans n)

end

/-! ### O1 and O3 -/

/-- Settles O1: the encoding is in a row of the table of its size, and where that row is a parameter
no row before it claims the word. -/
theorem decodeOfEncode : Obligations.DecodeOfEncode :=
  fun _ _ ok wf => (encodes_encode wf).decodeHalves_eq ok

/-- Settles O3. -/
theorem lengthFromFirstHalf : Obligations.LengthFromFirstHalf := by
  intro p i wf
  obtain ⟨h, rest, halves, n⟩ := (encodes_encode wf).size_eq
  refine ⟨h, rest, halves, ?_, Instr.length_eq wf⟩
  rw [Instr.length_eq wf, n]
  cases sizeOf h with
  | two | four | six => rfl

end Sys2Proof
end
